-- ==== Sys2Proof/Word.lean ====
section
/-! DEFINITION. The value types of the block (spec/00_scope.md R14): bytes, symbols, 16-bit words, real
values and logarithmic levels. An index or counter of type `Idx` or `U16` is a `Nat` with a declared range: the
spec's counters are "mathematical integers with a declared range" (spec/91_not_in_source.md N3, decision D5) and
never wrap (R22); an operation that would leave or answer an index past its range is refused (log 11). -/

namespace Sys2Proof

/-- `Byte` of R14: unsigned 8-bit. -/
abbrev Byte := BitVec 8

/-- `Sym` of R14 and R70: a 4-bit symbol, also an element of GF(16) (R100). -/
abbrev Sym := BitVec 4

/-- `U16` of R14. -/
abbrev U16 := BitVec 16

/-- The bound of an `Idx` (R14, D5): a sample index or count is at most `2^64 - 1`. -/
abbrev idxLimit : Nat := 2 ^ 64

/-- `U32` of R14: the width of the corrected-error counter (R11 `CNT_BITS`, R34). -/
abbrev U32 := BitVec 32

/-- A value of type `Real` (R14, R16) as plain data: an expression over the operations R16 names, with the rationals
and arbitrary real constants (`atom`) at its leaves. It stands for the exact real number `RealVal.toReal` of
Sys2Proof/Config.lean; nothing is rounded (log 1). -/
inductive RealVal where
  /-- A rational. -/
  | rat (q : Rat)
  /-- The arbitrary real constant number `n`: a free value (log 2). -/
  | atom (n : Nat)
  | pi
  | add (a b : RealVal)
  | sub (a b : RealVal)
  | mul (a b : RealVal)
  | div (a b : RealVal)
  /-- The square root. -/
  | sqrt (a : RealVal)
  /-- The cosine of `2 * pi * a`: the angle is counted in turns. -/
  | cosTurn (a : RealVal)
  /-- The logarithm to base 10. -/
  | log10 (a : RealVal)
  /-- The power `2 ^ a`, in which R12 writes its frequencies. -/
  | exp2 (a : RealVal)
  deriving DecidableEq, Repr

/-- `Level` of R14 and R170: a real number of decibels, or `-inf`. -/
inductive Level where
  | negInf
  | fin (r : RealVal)
  deriving DecidableEq, Repr

end Sys2Proof
end

