-- ==== Sys2Proof/Config.lean ====
section
/-! DEFINITION. What an instance fixes: the exact real numbers behind the values (spec/00_scope.md R16) and their
order, the configuration record of R8, the constants of R10 and R11, and the OPAQUE constants: the arbitrary real
constants, the configuration of the instance that `State.reset` stands for, a count past its type, and the `Numerics`
record of an implementation (R261). No opaque constant has a body: nothing in Lean can evaluate one or prove a value of
it (log 2, log 3, log 5, log 22). -/

namespace Sys2Proof

/-! ### The exact real numbers (R16, R260) -/

/-- FREE VALUE (log 2): the real constant behind `RealVal.atom n`. Every real number is one of these. -/
noncomputable opaque Config.realAtom : Nat → ℝ

/-- The exact real number a value stands for (R16, R260): every operation is the mathematical one. -/
noncomputable def RealVal.toReal : RealVal → ℝ
  | .rat q => (q : ℝ)
  | .atom n => Config.realAtom n
  | .pi => Real.pi
  | .add a b => a.toReal + b.toReal
  | .sub a b => a.toReal - b.toReal
  | .mul a b => a.toReal * b.toReal
  | .div a b => a.toReal / b.toReal
  | .sqrt a => Real.sqrt a.toReal
  | .cosTurn a => Real.cos (2 * Real.pi * a.toReal)
  | .log10 a => Real.logb 10 a.toReal
  | .exp2 a => (2 : ℝ) ^ a.toReal

/-- A comparison of values that is right about the numbers they stand for. -/
structure RealOrder where
  lt : RealVal → RealVal → Bool
  lt_iff : ∀ a b, lt a b = true ↔ a.toReal < b.toReal

/-- There is one: the real numbers are ordered. -/
theorem realOrder_nonempty : Nonempty RealOrder :=
  ⟨⟨fun a b => @decide _ (Classical.propDecidable (a.toReal < b.toReal)), by simp⟩⟩

/-- The exact comparison. No algorithm compares any two real numbers, so it is given by what it answers
(`RealOrder.lt_iff`) and by no method: as a program it does not end, as a definition its answers are those of the real
numbers (log 14). -/
def realOrder [Nonempty RealOrder] (u : Unit) : RealOrder := realOrder u
partial_fixpoint

/-- `a < b` on the numbers two values stand for (R16, R170); two rationals are compared by their arithmetic. -/
def RealVal.lt (a b : RealVal) : Bool :=
  match a, b with
  | .rat p, .rat q => decide (p < q)
  | a, b => (@realOrder realOrder_nonempty ()).lt a b

/-! ### The configuration (R8) -/

/-- The configuration `CFG` of R8: "Pure, computed once, immutable for the codec's lifetime". `NLEV` is the
length of `ecc`. -/
structure Cfg where
  /-- `FS`, sample rate in samples per second. -/
  fs : RealVal
  /-- `W`, word length in samples. -/
  w : Nat
  /-- `G`, gate length in samples. -/
  g : Nat
  /-- `S`, inter-word silence length in samples. -/
  s : Nat
  /-- `FREQ[0..31]`, tone frequencies in hertz. -/
  freq : Vector RealVal 32
  /-- `WLIM[0..31]`, per-frequency upper limit on the analysis window, in samples. -/
  wlim : Vector Nat 32
  /-- `SNR`, trigger threshold in decibels (D20). -/
  snr : RealVal
  /-- `ECC[0..NLEV-1]`, pairs `(B, P)`: symbols per block and parity symbols per block. -/
  ecc : List (Nat × Nat)
  /-- `DEFLEV`, the level the source calls "default". -/
  deflev : Nat
  deriving DecidableEq, Repr

namespace Config

/-- `HDR_SYMS` of R10: the header is 8 symbols. -/
abbrev hdrSyms : Nat := 8
/-- `HDR_PAR` of R10: of which 2 are parity. -/
abbrev hdrPar : Nat := 2
/-- `MAXLEN` of R10: a payload is at most 255 bytes. -/
abbrev maxLen : Nat := 255
/-- `TUKEY_ALPHA` of R10. -/
abbrev tukeyAlpha : Rat := 1 / 2
/-- `TRG_K` of R11: depth of the trigger's level history, in windows. -/
abbrev trgK : Nat := 18
/-- `TRG_GW` of R11: hops per gate. -/
abbrev trgGw : Nat := 6
/-- `CRC16_POLY` of R11, R121. -/
abbrev crc16Poly : U16 := 0xA001#16
/-- `CHK8_POLY` of R11, R124. -/
abbrev chk8Poly : Byte := 0x8C#8
/-- `GF_POLY` of R11, R100: `x^4 + x + 1`, as a 7-bit value. -/
abbrev gfPoly : BitVec 7 := 0x13#7

/-- FREE VALUE (log 22): what a count of type `U32` shows for a number of corrections it cannot hold (R14, R146). -/
opaque wideCount : Nat → U32

/-! The parameters of R8 are left open by the source (N2). The suffix of a constant says which bound of R8 or R9
`cfg` below adds back; the real parameters are built from the free constants `realAtom 0` to `realAtom 33`. -/

/-- FREE VALUE (log 3): `W - 1`. -/
opaque wLess1 : Nat
/-- FREE VALUE (log 3): `G - 12`. -/
opaque gLess12 : Nat
/-- FREE VALUE (log 3): `S`. -/
opaque sLen : Nat
/-- FREE VALUE (log 3): `WLIM[i] - 1`. -/
opaque wlimLess1 : Nat → Nat
/-- FREE VALUE (log 3): `NLEV - 1`. -/
opaque nlevLess1 : Fin 4
/-- FREE VALUE (log 3): which legal shape of R9 level `l` has. -/
opaque eccShape : Nat → Fin 21
/-- FREE VALUE (log 3): `DEFLEV` before it is reduced below `NLEV`. -/
opaque deflevRaw : Nat

/-- The 21 pairs `(B, P)` that R9 allows: `1 ≤ P < B ≤ 15`, `B - P` even and `P` even. -/
def legalShapes : Vector (Nat × Nat) 21 :=
  #v[(4, 2), (6, 2), (8, 2), (10, 2), (12, 2), (14, 2), (6, 4), (8, 4), (10, 4), (12, 4), (14, 4),
     (8, 6), (10, 6), (12, 6), (14, 6), (10, 8), (12, 8), (14, 8), (12, 10), (14, 10), (14, 12)]

/-- A point of the open interval `(0, top)`, for a positive `top`: `top / (1 + 2 ^ x)` with `x` the real constant `n`.
Every point of the interval is one of these. -/
def openBelow (top : RealVal) (n : Nat) : RealVal := .div top (.add (.rat 1) (.exp2 (.atom n)))

/-- The configuration of the instance that `State.reset` stands for (R340: "what the instance was built with").
Well-formed by construction (R9), otherwise free: any positive rate, any frequencies below half of it, any threshold
(log 3). -/
def cfg : Cfg :=
  let fs : RealVal := .exp2 (.atom 0)
  { fs := fs
    w := wLess1 + 1
    g := gLess12 + 12
    s := sLen
    freq := Vector.ofFn fun i => openBelow (.div fs (.rat 2)) (i.val + 1)
    wlim := Vector.ofFn fun i => wlimLess1 i.val + 1
    snr := .atom 33
    ecc := (List.range (nlevLess1.val + 1)).map fun l => legalShapes[eccShape l]
    deflev := deflevRaw % (nlevLess1.val + 1) }

end Config

/-! ### What an implementation computes (R261) -/

/-- The arithmetic operations of R260. -/
inductive Arith where
  | add | sub | mul | div
  deriving DecidableEq, Repr

/-- The elementary functions of R260; angles are in radians. -/
inductive Elementary where
  | sin | cos | sqrt | log10
  deriving DecidableEq, Repr

/-- "Whether the tone generator evaluates `sin` afresh or runs a recurrence" (R261). -/
inductive ToneMethod where
  | afresh | recurrence
  deriving DecidableEq, Repr

/-- The operation on the real numbers (R260). -/
noncomputable def Arith.exact : Arith → ℝ → ℝ → ℝ
  | .add, a, b => a + b
  | .sub, a, b => a - b
  | .mul, a, b => a * b
  | .div, a, b => a / b

/-- The function on the real numbers (R260). -/
noncomputable def Elementary.exact : Elementary → ℝ → ℝ
  | .sin, a => Real.sin a
  | .cos, a => Real.cos a
  | .sqrt, a => Real.sqrt a
  | .log10, a => Real.logb 10 a

/-- The `Numerics` record of R261 (U3): a number format, its rounding, its arithmetic and elementary functions, the way
the tone generator takes, the results the implementation computes, and the errors it states. The order in which an
implementation computes a result is its own, and so is every rounding on the way: `result k v` is what it has for the
computation number `k`, whose exact value is `v`, and two computations of one exact value may differ. -/
structure Numerics where
  Format : Type
  /-- The real number a format value stands for. -/
  read : Format → ℝ
  /-- A real number brought into the format. -/
  round : ℝ → Format
  arith : Arith → Format → Format → Format
  elementary : Elementary → Format → Format
  /-- `LOGPOW` of a computed value; `none` is `-inf`. -/
  logPow : Format → Option Format
  tone : ToneMethod
  result : Nat → RealVal → Format
  roundError : ℝ → ℝ
  arithError : Arith → Format → Format → ℝ
  elementaryError : Elementary → Format → ℝ
  /-- The stated error of the sine of sample `n` at a step of so many radians. -/
  toneError : Format → Nat → ℝ
  resultError : Nat → RealVal → ℝ

namespace Numerics

/-- The sines of samples `n` and `n + 1` by the recurrence `s (n + 2) = 2 * cos w * s (n + 1) - s n` from samples 0 and 1
on. R261 says only that the tone generator "runs a recurrence": its form and its start are the model's choice (log 5). -/
def sinePair (m : Numerics) (w : m.Format) : Nat → m.Format × m.Format
  | 0 => (m.round 0, m.elementary .sin w)
  | n + 1 =>
    let p := m.sinePair w n
    (p.2, m.arith .sub (m.arith .mul (m.arith .mul (m.round 2) (m.elementary .cos w)) p.2) p.1)

/-- The sine of sample `n` of a tone, `w` radians a sample, the way the implementation takes (R261, R266). That the step `w`
is a value of the format, and that a sine evaluated afresh is that of the product `w * n` in the format, is the model's
choice (log 5). -/
def toneSine (m : Numerics) (w : m.Format) (n : Nat) : m.Format :=
  match m.tone with
  | .afresh => m.elementary .sin (m.arith .mul w (m.round n))
  | .recurrence => (m.sinePair w n).1

/-- What a model may assume of the record, "nothing beyond" it (R261). -/
structure Admissible (m : Numerics) : Prop where
  /-- (a) Results are within the stated error of the exact value. -/
  accurate : ∀ (k : Nat) (v : RealVal), |m.read (m.result k v) - v.toReal| ≤ m.resultError k v
  /-- (a) for a rounding. -/
  roundAccurate : ∀ x : ℝ, |m.read (m.round x) - x| ≤ m.roundError x
  /-- (a) for an arithmetic operation. -/
  arithAccurate : ∀ (o : Arith) (x y : m.Format),
    |m.read (m.arith o x y) - o.exact (m.read x) (m.read y)| ≤ m.arithError o x y
  /-- (a) for an elementary function. -/
  elementaryAccurate : ∀ (e : Elementary) (x : m.Format),
    |m.read (m.elementary e x) - e.exact (m.read x)| ≤ m.elementaryError e x
  /-- (a) for the tone generator. -/
  toneAccurate : ∀ (w : m.Format) (n : Nat), |m.read (m.toneSine w n) - Real.sin (m.read w * n)| ≤ m.toneError w n
  /-- (b) A computed `m2` that comes out negative is taken as 0 where its root is drawn. -/
  negativeRoot : ∀ x : m.Format, m.read x < 0 → m.read (m.elementary .sqrt x) = 0
  /-- (c) `LOGPOW` of a computed 0 is `-inf`. -/
  logPowZero : ∀ x : m.Format, m.read x = 0 → m.logPow x = none

/-- The exact semantics as a record: its format is the real numbers and its errors are 0 (R16, D24). -/
noncomputable def exact : Numerics where
  Format := ℝ
  read := id
  round := id
  arith := Arith.exact
  elementary := Elementary.exact
  logPow := fun a => open Classical in if a = 0 then none else some (20 * Real.logb 10 a)
  tone := .afresh
  result := fun _ v => v.toReal
  roundError := fun _ => 0
  arithError := fun _ _ _ => 0
  elementaryError := fun _ _ => 0
  toneError := fun _ _ => 0
  resultError := fun _ _ => 0

/-- The exact semantics meets R261. -/
theorem exact_admissible : exact.Admissible where
  accurate _ v := (congrArg abs (sub_self v.toReal)).trans_le abs_zero.le
  roundAccurate x := (congrArg abs (sub_self x)).trans_le abs_zero.le
  arithAccurate o x y := (congrArg abs (sub_self (o.exact x y))).trans_le abs_zero.le
  elementaryAccurate e x := (congrArg abs (sub_self (e.exact x))).trans_le abs_zero.le
  toneAccurate w n := (congrArg abs (sub_self (Real.sin (exact.read w * n)))).trans_le abs_zero.le
  negativeRoot _ hx := Real.sqrt_eq_zero_of_nonpos (le_of_lt hx)
  logPowZero _ hx := if_pos hx

end Numerics

/-- A `Numerics` record that R261 admits. -/
abbrev AdmissibleNumerics : Type 1 := { m : Numerics // m.Admissible }

/-- There is one: the exact semantics. -/
theorem admissibleNumerics_nonempty : Nonempty AdmissibleNumerics := ⟨⟨Numerics.exact, Numerics.exact_admissible⟩⟩

/-- FREE VALUE (log 5): the record of the implementation at hand. The machine is the exact semantics of R16 and reads
nothing of it. -/
noncomputable opaque Config.numerics [Nonempty AdmissibleNumerics] : AdmissibleNumerics

/-- The record of the implementation at hand. -/
noncomputable abbrev implementation : Numerics := (@Config.numerics admissibleNumerics_nonempty).val

/-- The real number that the implementation shows where computation number `k` has the exact value `v` (R261). -/
noncomputable def RealVal.shown (k : Nat) (v : RealVal) : ℝ := implementation.read (implementation.result k v)

end Sys2Proof
end

