-- ==== Sys2Proof/Machine/Numerics.lean ====
section
/-! DEFINITION. Real arithmetic (spec/00_scope.md R16, spec/47_windows_tone_generator.md R260 to R262): each operation
builds the value that stands for the exact result. Where the result is a rational that the arithmetic of rationals or a
table gives, it is written as that rational; this changes the form of a value and never the number it stands for (the
`toReal` lemmas of Sys2Proof/Laws/Numerics.lean). Angles are counted in turns. -/

namespace Sys2Proof

namespace RealVal

/-! ### Arithmetic -/

/-- A count or index as a real (R262). -/
def ofNat (n : Nat) : RealVal := .rat n

/-- `a + b`. -/
def plus : RealVal → RealVal → RealVal
  | .rat p, .rat q => .rat (p + q)
  | .rat p, b => if p = 0 then b else .add (.rat p) b
  | a, .rat q => if q = 0 then a else .add a (.rat q)
  | a, b => .add a b

/-- `a - b`. -/
def minus : RealVal → RealVal → RealVal
  | .rat p, .rat q => .rat (p - q)
  | a, .rat q => if q = 0 then a else .sub a (.rat q)
  | a, b => .sub a b

/-- `a * b`. -/
def times : RealVal → RealVal → RealVal
  | .rat p, .rat q => .rat (p * q)
  | .rat p, b => if p = 0 then .rat 0 else .mul (.rat p) b
  | a, .rat q => if q = 0 then .rat 0 else .mul a (.rat q)
  | a, b => .mul a b

/-- `a / b`. -/
def divBy : RealVal → RealVal → RealVal
  | .rat p, .rat q => .rat (p / q)
  | .rat p, b => if p = 0 then .rat 0 else .div (.rat p) b
  | a, b => .div a b

/-! ### Elementary functions -/

/-- The fractional part of a rational. -/
def fracPart (t : Rat) : Rat := t - t.floor

/-- The angles of `[0, 1)`, in turns, at which the cosine is 1, 1/2, 0, -1/2 or -1. -/
def cosTable (u : Rat) : Option Rat :=
  if u = 0 then some 1
  else if u = 1 / 2 then some (-1)
  else if u = 1 / 4 ∨ u = 3 / 4 then some 0
  else if u = 1 / 6 ∨ u = 5 / 6 then some (1 / 2)
  else if u = 1 / 3 ∨ u = 2 / 3 then some (-1 / 2)
  else none

/-- `cos(2 * pi * a)`. -/
def cosOf : RealVal → RealVal
  | .rat t =>
    match cosTable (fracPart t) with
    | some q => .rat q
    | none => .cosTurn (.rat t)
  | a => .cosTurn a

/-- `sin(2 * pi * a)`: the cosine a quarter turn behind. -/
def sinOf (a : RealVal) : RealVal := cosOf (a.minus (.rat (1 / 4)))

/-- `sqrt(a)`; a negative `a`, which exact arithmetic never gives here, counts as 0 (R261 (b)). -/
def sqrtOf : RealVal → RealVal
  | .rat q => if q ≤ 0 then .rat 0 else .sqrt (.rat q)
  | a => .sqrt a

/-- `log10(a)`. -/
def logOf : RealVal → RealVal
  | .rat q => if q = 1 then .rat 0 else .log10 (.rat q)
  | a => .log10 a

/-! ### Comparisons, all of the exact numbers -/

/-- `a ≤ b`. -/
def le (a b : RealVal) : Bool := !(lt b a)

/-- `a = 0`. -/
def isZero (a : RealVal) : Bool := le a (.rat 0) && le (.rat 0) a

/-- `a` limited to `[lo, hi]` (R194). -/
def clamp (lo hi a : RealVal) : RealVal := if lt a lo then lo else if lt hi a then hi else a

end RealVal

/-! ### Levels -/

/-- The total order of R170: `-inf` below every real level and not below itself. -/
def Level.lt : Level → Level → Bool
  | .negInf, .negInf => false
  | .negInf, .fin _ => true
  | .fin _, .negInf => false
  | .fin a, .fin b => RealVal.lt a b

/-- A level plus a real number of decibels (R170: `-inf + r = -inf`). -/
def Level.addDb (l : Level) (r : RealVal) : Level :=
  match l with
  | .negInf => .negInf
  | .fin v => .fin (v.plus r)

/-- `20 * log10(rms)`, and `-inf` at 0 (R169). -/
def logPow (rms : RealVal) : Level :=
  if rms.isZero then .negInf else .fin ((RealVal.rat 20).times (RealVal.logOf rms))

end Sys2Proof
end

