-- ==== Sys2Proof/Syntax.lean ====
section
/-! DEFINITION. The operations of spec/30_encoding.md R90, one constructor per row of spec/opcode_table.json, in
the table's order. A command word is 8 bits, all of them the opcode (R88): operands travel in the operand record
of the command port, so no constructor carries a field. -/

namespace Sys2Proof

/-- The 35 operations of R90. -/
inductive Instr where
  | crc16 | chk8 | rsenc | rsdec | ilv | dilv | hdrenc | hdrdec | fcenc | fcdec | fcencb
  | gzinit | gzproc | gzrms | gzreset | logpow
  | hann | tukey | tone
  | trgpush | trgreset | trgmaxwin | trgsetcb
  | sym2freq | argmax
  | pushf | pushi | getpayload | getmaxwin | reset | getfixed | setcb
  | setpayload | getsamples
  | demo
  deriving DecidableEq, Repr

/-- The two formats of R89: a unit operation is pure, a host command acts on the instance state. -/
inductive Format where
  | U
  | H
  deriving DecidableEq, Repr

/-- The column `fmt` of R90. -/
def Instr.format : Instr → Format
  | .crc16 | .chk8 | .rsenc | .rsdec | .ilv | .dilv | .hdrenc | .hdrdec | .fcenc | .fcdec | .fcencb => .U
  | .gzinit | .gzproc | .gzrms | .gzreset | .logpow => .U
  | .hann | .tukey | .tone => .U
  | .trgpush | .trgreset | .trgmaxwin | .trgsetcb => .U
  | .sym2freq | .argmax => .U
  | .pushf | .pushi | .getpayload | .getmaxwin | .reset | .getfixed | .setcb => .H
  | .setpayload | .getsamples => .H
  | .demo => .H

end Sys2Proof
end

