-- ==== Sys2Proof/WellFormed.lean ====
section
/-! DEFINITION. Well-formedness. An operation has no field (R88), so every term of `Instr` is well-formed. A
configuration is well-formed by spec/00_scope.md R8 and R9 (decision D4); the block's behaviour with any other
configuration is not specified, and a model refuses to build such an instance. -/

namespace Sys2Proof

/-- Every operation is well-formed: a command word has no field that could be out of range (R88, R92). -/
def Instr.wf (_ : Instr) : Bool := true

/-- R9 for one level: `1 ≤ P < B ≤ 15`, `B - P` even and `P` even. -/
def shapeWf (bp : Nat × Nat) : Bool :=
  decide (1 ≤ bp.2) && decide (bp.2 < bp.1) && decide (bp.1 ≤ 15) && (bp.1 - bp.2) % 2 == 0 && bp.2 % 2 == 0

/-- R8: the sample rate is positive. -/
def Cfg.fsWf (c : Cfg) : Bool := RealVal.lt (.rat 0) c.fs
/-- R8: `W ≥ 1` and `G ≥ 12`. -/
def Cfg.lengthsWf (c : Cfg) : Bool := decide (1 ≤ c.w) && decide (12 ≤ c.g)
/-- R8: every frequency lies in (0, FS/2). -/
def Cfg.freqWf (c : Cfg) : Bool :=
  c.freq.toList.all fun f => RealVal.lt (.rat 0) f && RealVal.lt f (c.fs.divBy (.rat 2))
/-- R8: every window limit is at least 1. -/
def Cfg.wlimWf (c : Cfg) : Bool := c.wlim.toList.all fun n => decide (1 ≤ n)
/-- R8: `NLEV` is 1 to 4 and `DEFLEV < NLEV`. -/
def Cfg.levelsWf (c : Cfg) : Bool :=
  decide (1 ≤ c.ecc.length) && decide (c.ecc.length ≤ 4) && decide (c.deflev < c.ecc.length)
/-- R9 for every level. -/
def Cfg.eccWf (c : Cfg) : Bool := c.ecc.all shapeWf

/-- A well-formed configuration: R8 and R9. -/
def Cfg.wf (c : Cfg) : Bool :=
  c.fsWf && c.lengthsWf && c.freqWf && c.wlimWf && c.levelsWf && c.eccWf

end Sys2Proof
end

