-- ==== Sys2Proof/Decode.lean ====
section
/-! DEFINITION. The command decoder and encoder of spec/30_encoding.md R88, R90 to R92: a command word is one
byte, all of it the opcode. -/

namespace Sys2Proof

/-- Why the decoder rejects: no byte to read, or an opcode that R90 does not list (R91). -/
inductive DecodeError where
  | noByte
  | illegalOpcode (op : Byte)
  deriving DecidableEq, Repr

/-- The opcode map of R90. -/
def decodeOp (op : Byte) : Option Instr :=
  match op.toNat with
  | 0x10 => some .crc16
  | 0x11 => some .chk8
  | 0x12 => some .rsenc
  | 0x13 => some .rsdec
  | 0x14 => some .ilv
  | 0x15 => some .dilv
  | 0x16 => some .hdrenc
  | 0x17 => some .hdrdec
  | 0x18 => some .fcenc
  | 0x19 => some .fcdec
  | 0x1A => some .fcencb
  | 0x20 => some .gzinit
  | 0x21 => some .gzproc
  | 0x22 => some .gzrms
  | 0x23 => some .gzreset
  | 0x24 => some .logpow
  | 0x30 => some .hann
  | 0x31 => some .tukey
  | 0x32 => some .tone
  | 0x40 => some .trgpush
  | 0x41 => some .trgreset
  | 0x42 => some .trgmaxwin
  | 0x43 => some .trgsetcb
  | 0x50 => some .sym2freq
  | 0x51 => some .argmax
  | 0x60 => some .pushf
  | 0x61 => some .pushi
  | 0x62 => some .getpayload
  | 0x63 => some .getmaxwin
  | 0x64 => some .reset
  | 0x65 => some .getfixed
  | 0x66 => some .setcb
  | 0x70 => some .setpayload
  | 0x71 => some .getsamples
  | 0x7F => some .demo
  | _ => none

/-- One operation read from a sequence of bytes, with the bytes that follow it: every command is one byte long
(R92), and an opcode outside R90 is rejected by name (R91). -/
def decode : List Byte → Except DecodeError (Instr × List Byte)
  | [] => .error .noByte
  | op :: rest =>
    match decodeOp op with
    | some i => .ok (i, rest)
    | none => .error (.illegalOpcode op)

/-- The opcode of an operation (column `op` of R90). -/
def opcode : Instr → Byte
  | .crc16 => 0x10#8
  | .chk8 => 0x11#8
  | .rsenc => 0x12#8
  | .rsdec => 0x13#8
  | .ilv => 0x14#8
  | .dilv => 0x15#8
  | .hdrenc => 0x16#8
  | .hdrdec => 0x17#8
  | .fcenc => 0x18#8
  | .fcdec => 0x19#8
  | .fcencb => 0x1A#8
  | .gzinit => 0x20#8
  | .gzproc => 0x21#8
  | .gzrms => 0x22#8
  | .gzreset => 0x23#8
  | .logpow => 0x24#8
  | .hann => 0x30#8
  | .tukey => 0x31#8
  | .tone => 0x32#8
  | .trgpush => 0x40#8
  | .trgreset => 0x41#8
  | .trgmaxwin => 0x42#8
  | .trgsetcb => 0x43#8
  | .sym2freq => 0x50#8
  | .argmax => 0x51#8
  | .pushf => 0x60#8
  | .pushi => 0x61#8
  | .getpayload => 0x62#8
  | .getmaxwin => 0x63#8
  | .reset => 0x64#8
  | .getfixed => 0x65#8
  | .setcb => 0x66#8
  | .setpayload => 0x70#8
  | .getsamples => 0x71#8
  | .demo => 0x7F#8

/-- The bytes of a command (R92: exactly one). -/
def encode (i : Instr) : List Byte := [opcode i]

/-- The bytes of a table row's bits: byte `k` is bits `8k+7..8k`. -/
def tableBytes (nbits w : Nat) : List Byte :=
  (List.range (nbits / 8)).map fun k => BitVec.ofNat 8 (w / 2 ^ (8 * k))

/-- The operation the decoder reads from a row of spec/opcode_table.json; none where it rejects, and none where
bytes are left over, since a command is one byte long (R92). -/
def decodeTableWord (nbits w : Nat) : Option Instr :=
  match decode (tableBytes nbits w) with
  | .ok (i, []) => some i
  | _ => none

end Sys2Proof
end

