-- ==== Sys2Proof/Machine/State.lean ====
section
/-! DEFINITION. The state of one instance, `(DM, TR, SY, EVT)` of spec/10_state.md R20, with the configuration it
was built with (R24, R46: the first row of the reset table) and the command port through which the host drives it
(spec/30_encoding.md R88). Plain data throughout. -/

namespace Sys2Proof.Machine

/-! ### Records of the units -/

/-- An analyzer's state record (R44): the two recurrence terms and the samples consumed. -/
structure GzState where
  s1 : RealVal
  s2 : RealVal
  n : Nat
  deriving DecidableEq, Repr

/-- The record after `GZINIT` and `GZRESET` (R44, R163, R168). -/
abbrev GzState.zero : GzState := ⟨.rat 0, .rat 0, 0⟩

/-- One lane of the trigger (R38): `[j][0]` at `FREQ[16]` and `[j][1]` at `FREQ[18]`. -/
structure Lane where
  q0 : GzState
  q1 : GzState
  deriving DecidableEq, Repr

/-- A lane whose analyzers are both `(0, 0, 0)`. -/
abbrev Lane.zero : Lane := ⟨GzState.zero, GzState.zero⟩

/-- The trigger detector's state `TR` (R37 to R41, R187). -/
structure TrState where
  /-- `TR.base` (R37): absolute index of the first sample since the last trigger reset. -/
  base : Nat
  /-- `TR.n` (R37): samples consumed since. -/
  n : Nat
  /-- `TR.lane[0]` (R38): the even windows. -/
  lane0 : Lane
  /-- `TR.lane[1]` (R38): the odd windows. -/
  lane1 : Lane
  /-- `TR.m` (R39): completed analysis windows. -/
  m : Nat
  /-- `TR.hist[0]` (R39): levels of `FREQ[16]`, oldest first, at most 18. -/
  hist0 : List Level
  /-- `TR.hist[1]` (R39): levels of `FREQ[18]`. -/
  hist1 : List Level
  /-- `TR.found` (R40): the detection latch. -/
  found : Option Nat
  /-- `TR.cben` (R41): the notification enable. -/
  cben : Bool
  deriving DecidableEq, Repr

/-- The decoded header `DM.hdr` (R31). -/
structure Hdr where
  len : Byte
  level : BitVec 2
  crc : Bool
  deriving DecidableEq, Repr

/-- `DM.phase` (R30) together with `DM.hdr` (R31), which is meaningful only in phase `PAYLOAD`. -/
inductive Phase where
  | header
  | payload (h : Hdr)
  deriving DecidableEq, Repr

/-- The session fields of R36, which exist only while `DM.state = PARSING_SYMBOLS`. -/
structure Session where
  /-- `DM.t0` (R28): the tone-start reference. -/
  t0 : Nat
  /-- `DM.k` (R29): words of the current buffer already decided. -/
  k : Nat
  /-- `DM.phase` and `DM.hdr` (R30, R31). -/
  phase : Phase
  /-- `DM.sym` (R32): the symbol buffer. -/
  sym : List Sym
  /-- `DM.need` (R32): its size. -/
  need : Nat
  /-- `DM.an[0..31]` (R33): the word analyzers. -/
  an : Vector GzState 32
  deriving DecidableEq, Repr

/-- The demodulator `DM` (R26 to R36). `DM.state` is `PARSING_SYMBOLS` exactly when there is a session, and
`DM.payvalid` is 1 exactly when a payload is held, as R36 and R343 recommend. -/
structure Demod where
  /-- The session (R36), `none` in `WAITING_TRIGGER`. -/
  session : Option Session
  /-- `DM.pushed` (R27): total samples pushed. -/
  pushed : Nat
  /-- `DM.fixed` (R34): the corrected-error counter, 32 bits wide (R11 `CNT_BITS`). -/
  fixed : U32
  /-- `DM.payload`, `DM.paylen`, `DM.payvalid` (R35). -/
  payload : Option (List Byte)
  deriving DecidableEq, Repr

/-- The synthesizer `SY` (R42, R43); `SY.nsym` is the length of `sym`. -/
structure Synth where
  /-- `SY.sym` (R42): the frame's symbols, header then payload. -/
  sym : List Sym
  /-- `SY.cursor` (R43): position of the next sample pulled. -/
  cursor : Nat
  /-- `SY.total` (R43): the frame's sample count. -/
  total : Nat
  /-- `SY.loaded` (R43). -/
  loaded : Bool
  deriving DecidableEq, Repr

/-- The one event kind (R45). -/
inductive Event where
  | trig (t0 : Nat)
  deriving DecidableEq, Repr

/-! ### The command port (R21, R88) -/

/-- An operand or result slot (R88): an integer, a `Real`, a `Level`, a state record, or the `Opt Idx` result of
`TRGPUSH`. -/
inductive Slot where
  | int (v : Nat)
  | real (r : RealVal)
  | level (l : Level)
  | gz (g : GzState)
  | tr (t : TrState)
  | optIdx (o : Option Nat)
  deriving DecidableEq, Repr

/-- A buffer operand or result: a sequence with its length (R50). `ints` carries bytes, symbols and 16-bit integer
samples, one element each (R51); a value outside the element type an operation reads is refused (D15). -/
inductive Buf where
  | ints (vs : List Int)
  | reals (vs : List RealVal)
  | levels (vs : List Level)
  | events (vs : List Event)
  deriving DecidableEq, Repr

/-- One command: the command word and the operand record (R88). -/
structure Command where
  op : Byte
  x : List Slot
  b : List Buf
  deriving DecidableEq, Repr

/-- One answer: status, result slots, result buffers (R88). -/
structure Answer where
  st : Byte
  x : List Slot
  b : List Buf
  deriving DecidableEq, Repr

/-- The command port. `pending` is the host's own sequence of commands, in the order it issues them (R64); the
block performs the first one at each step. `answer` is what the last operation answered. Neither is state of the
block in the spec's sense (R21, R49); log 4. -/
structure Port where
  pending : List Command
  answer : Option Answer
  deriving DecidableEq, Repr

/-- The state of the machine. -/
structure State where
  /-- `CFG` (R8, R46): what the instance was built with; no operation writes it (log 3). -/
  cfg : Cfg
  /-- `DM`. -/
  dm : Demod
  /-- `TR`. -/
  tr : TrState
  /-- `SY`. -/
  sy : Synth
  /-- `EVT` (R45): the event output, oldest first. -/
  evt : List Event
  /-- The command port (log 4). -/
  port : Port
  deriving DecidableEq, Repr

/-! ### Outcomes -/

/-- The conditions of spec/60_exceptions.md R311, less `OK`. -/
inductive Cond where
  /-- `E_UNCORRECTABLE` (R312). -/
  | uncorrectable
  /-- `E_CRC` (R313). -/
  | crc
  /-- `E_HDRCHK` (R313). -/
  | hdrchk
  /-- `E_LENGTH` (R314). -/
  | length
  /-- `E_OPERAND` (R314). -/
  | operand
  /-- `E_OVERRUN` (R314). -/
  | overrun
  /-- `E_NOTREADY` (R314). -/
  | notready
  /-- `E_ILLEGAL` (R91, R314). -/
  | illegal
  deriving DecidableEq, Repr

/-- A raised condition with the result slots the rule still fills: `ncorr` of `FCDEC` (R146), else none (R311). -/
structure Fail where
  cond : Cond
  x : List Slot
  deriving DecidableEq, Repr

/-- The results of an operation that ends with `OK`. -/
structure Reply where
  x : List Slot
  b : List Buf
  deriving DecidableEq, Repr

/-- What a rule's pseudocode ends in (R15): `return` or `raise`. -/
abbrev Res (α : Type) := Except Fail α

/-- No fault exists: "No behaviour of this block has the treatment `stuck`: every operation on every reachable
state ends with a status" (spec/93_implementation_defined.md, part 1). -/
inductive Fault where
  deriving DecidableEq, Repr

/-- Why the model refuses. -/
inductive Refusal where
  /-- Raised by an arm of `exec` whose instruction has no meaning yet; safe. No arm raises it. -/
  | notModelled (mnemonic : String)
  /-- Raised by `State.build` for a configuration that is not well-formed: "a model refuses to build such an
  instance" (R9, U1); safe. -/
  | illFormedConfig
  deriving DecidableEq, Repr

/-! ### Reset -/

/-- The trigger's record after `TRGRESET` (R197) and after reset (R46). -/
abbrev TrState.fresh (base : Nat) (cben : Bool) : TrState :=
  { base := base, n := 0, lane0 := Lane.zero, lane1 := Lane.zero, m := 0, hist0 := [], hist1 := [],
    found := none, cben := cben }

/-- Every element at the value of the column "after hardware reset" of R46, for the configuration `c`. -/
def State.ofCfg (c : Cfg) : State :=
  { cfg := c
    dm := { session := none, pushed := 0, fixed := 0, payload := none }
    tr := TrState.fresh 0 false
    sy := { sym := [], cursor := 0, total := 0, loaded := false }
    evt := []
    port := { pending := [], answer := none } }

/-- The machine right after reset (R46, R340). The configuration is the instance's own, which the spec leaves open:
`Config.cfg` is well-formed and otherwise free (log 3). -/
def State.reset : State := State.ofCfg Config.cfg

end Sys2Proof.Machine
end

