-- ==== Sys2Proof/Machine/Params.lean ====
section
/-! DEFINITION. The constants derived from the configuration (spec/00_scope.md R11, spec/10_state.md R33, R48):
"derived once and reused for the life of a codec instance". -/

namespace Sys2Proof

/-- `NLEV` of R8. -/
def Cfg.nlev (c : Cfg) : Nat := c.ecc.length

/-- `ECC[level]`, for `level < NLEV`. -/
def Cfg.eccAt (c : Cfg) (level : Nat) : Option (Nat × Nat) := c.ecc[level]?

/-- `TRG_H` of R11: the trigger hop. -/
def Cfg.trgH (c : Cfg) : Nat := c.g / Config.trgGw

/-- `TRG_A` of R11: the trigger's analysis window. -/
def Cfg.trgA (c : Cfg) : Nat := 2 * c.trgH

/-- `MAXWIN` of R11 (D23). -/
def Cfg.maxwin (c : Cfg) : Nat := c.trgA

/-- `FREQ[16]`, the tone of gate 1 (R10 `GATE1`). -/
def Cfg.gate1 (c : Cfg) : RealVal := c.freq[16]

/-- `FREQ[18]`, the tone of gate 2 (R10 `GATE2`). -/
def Cfg.gate2 (c : Cfg) : RealVal := c.freq[18]

/-- `FREQ[i]` for a frequency index (R72). -/
def Cfg.freqAt (c : Cfg) (i : Nat) : RealVal := c.freq.toList.getD i (.rat 0)

/-- `N_f = min(W, WLIM[f])` (R33). -/
def Cfg.winLen (c : Cfg) (f : Fin 32) : Nat := min c.w c.wlim[f]

/-- `off_f = (W div 2) - (N_f div 2)` (R33, D18). -/
def Cfg.winOff (c : Cfg) (f : Fin 32) : Nat := c.w / 2 - c.winLen f / 2

/-- `E = max over f of (off_f + N_f)` (R225): a word is decided `E` samples into its burst. -/
def Cfg.wordEnd (c : Cfg) : Nat :=
  (List.finRange 32).foldl (fun m f => max m (c.winOff f + c.winLen f)) 0

end Sys2Proof

namespace Sys2Proof.Machine

/-- Ceiling division of R13, for a positive divisor. -/
def ceilDiv (a b : Nat) : Nat := (a + b - 1) / b

/-- `NSYM(len, B, P, crc)` of spec/42_frame_codec.md R140: the number of payload symbols. -/
def nsym (len b p : Nat) (crc : Bool) : Nat :=
  let d := 2 * (len + 2 * crc.toNat)
  d + p * ceilDiv d (b - p)

/-- `SYMCAP` of R48: the largest payload symbol count a header can declare. -/
def symcap (c : Cfg) : Nat := c.ecc.foldl (fun m bp => max m (nsym 255 bp.1 bp.2 true)) 0

end Sys2Proof.Machine
end

