-- ==== Sys2Proof/Machine/Flags.lean ====
section
/-! DEFINITION. The one-bit state elements of spec/10_state.md R23 with their encodings (spec/30_encoding.md R84),
the derived registers, and the status codes of R86 and spec/60_exceptions.md R311. The block has no arithmetic
condition code (R23). -/

namespace Sys2Proof.Machine

/-- `DM.state` as one bit (R26, R84): `WAITING_TRIGGER = 0`, `PARSING_SYMBOLS = 1`. -/
def Demod.stateBit (d : Demod) : Bool := d.session.isSome

/-- `DM.phase` as one bit (R30, R84): `HEADER = 0`, `PAYLOAD = 1`. -/
def Phase.bit : Phase → Bool
  | .header => false
  | .payload _ => true

/-- `DM.hdr` (R31), present in phase `PAYLOAD` only. -/
def Phase.hdr : Phase → Option Hdr
  | .header => none
  | .payload h => some h

/-- `DM.payvalid` (R35). -/
def Demod.payvalid (d : Demod) : Bool := d.payload.isSome

/-- `DM.paylen` (R35), meaningful while `DM.payvalid = 1`. -/
def Demod.paylen (d : Demod) : Nat := (d.payload.getD []).length

/-- The presence bit of `TR.found` (R23, R40). -/
def TrState.latched (t : TrState) : Bool := t.found.isSome

/-- `SY.nsym` (R42). -/
def Synth.nsym (y : Synth) : Nat := y.sym.length

/-- The value the monitor port shows (spec/20_memory.md R62): `DM.fixed` and nothing else. -/
def State.monitor (s : State) : Nat := s.dm.fixed.toNat

/-- The status `OK` (R86, R311). -/
abbrev statusOk : Byte := 0

/-- The condition codes of R311 (D33). -/
def Cond.code : Cond → Byte
  | .uncorrectable => 1
  | .crc => 2
  | .hdrchk => 3
  | .length => 4
  | .operand => 5
  | .overrun => 6
  | .notready => 7
  | .illegal => 8

end Sys2Proof.Machine
end

