-- ==== Sys2Proof/Machine/Operands.lean ====
section
/-! DEFINITION. The operand forms of spec/30_encoding.md R88: every operand is taken whole and unextended from its
slot or buffer, and "a value outside the type the rule gives is refused with `E_OPERAND` and no state changes"
(also spec/20_memory.md R51, R84, decision D15). -/

namespace Sys2Proof.Machine

/-- The operand record of a command (R21): slots `x[0..]` and buffer operands. -/
structure Operands where
  x : List Slot
  b : List Buf
  deriving DecidableEq, Repr

/-- The refusal `E_OPERAND` (R314): nothing is recorded with it. -/
abbrev badOperand : Fail := ⟨.operand, []⟩

/-- A condition that fills no result slot (R311). -/
abbrev plainFail (c : Cond) : Fail := ⟨c, []⟩

/-- `raise c` unless `ok` holds (R15). -/
def require (ok : Bool) (c : Cond) : Res Unit :=
  if ok then .ok () else .error (plainFail c)

/-- An integer operand: unsigned, up to 64 bits (R88). -/
def Operands.int (o : Operands) (i : Nat) : Res Nat :=
  match o.x[i]? with
  | some (.int v) => if v < idxLimit then .ok v else .error badOperand
  | _ => .error badOperand

/-- A boolean operand (R84): 0 or 1, any other value is refused. -/
def Operands.bit (o : Operands) (i : Nat) : Res Bool :=
  match o.x[i]? with
  | some (.int 0) => .ok false
  | some (.int 1) => .ok true
  | _ => .error badOperand

/-- A `Real` operand: taken whole, as the exact number it stands for (R88). -/
def Operands.real (o : Operands) (i : Nat) : Res RealVal :=
  match o.x[i]? with
  | some (.real r) => .ok r
  | _ => .error badOperand

/-- An analyzer record operand (R44): its count is an `Idx`. That a count above the window length `N` is not refused
here, although R44 says `0 ≤ n ≤ N` of every analyzer, is the model's choice (log 7): the record does not carry `N`,
and `GZPROC` and `GZRMS` answer such a record with the conditions of their own pseudocode. -/
def Operands.gz (o : Operands) (i : Nat) : Res GzState :=
  match o.x[i]? with
  | some (.gz g) => if g.n < idxLimit then .ok g else .error badOperand
  | _ => .error badOperand

/-- Whether both counts of a lane are of type `Idx` (R44). -/
def Lane.inRange (l : Lane) : Bool := decide (l.q0.n < idxLimit) && decide (l.q1.n < idxLimit)

/-- Whether every index of a trigger record is an `Idx` (R14, R37, R39, R40, R44): the base, the samples and the windows
counted, the detection latch and the counts of the lanes. -/
def TrState.inRange (t : TrState) : Bool :=
  decide (t.base < idxLimit) && decide (t.n < idxLimit) && decide (t.m < idxLimit)
    && (t.found.all fun v => decide (v < idxLimit)) && t.lane0.inRange && t.lane1.inRange

/-- The relations of R38 to R40 and R44 that make a trigger record a value of its type: every index is an `Idx`; both
analyzers of a lane hold the same count, at most the window length; both histories hold the last `min(m, 18)` levels.
That an operand is tested for them is the model's reading of decision D15; that `m`, `found`
and the counts of the lanes are not held against `n` is its choice: the spec relates them along a run only (log 8). -/
def TrState.typed (c : Cfg) (t : TrState) : Bool :=
  t.inRange
    && decide (t.lane0.q0.n ≤ c.trgA) && t.lane0.q1.n == t.lane0.q0.n
    && decide (t.lane1.q0.n ≤ c.trgA) && t.lane1.q1.n == t.lane1.q0.n
    && t.hist0.length == min t.m Config.trgK && t.hist1.length == min t.m Config.trgK

/-- A trigger record operand (R187). -/
def Operands.tr (o : Operands) (c : Cfg) (i : Nat) : Res TrState :=
  match o.x[i]? with
  | some (.tr t) => if t.typed c then .ok t else .error badOperand
  | _ => .error badOperand

/-- An integer buffer operand whose elements all lie in `lo..hi`. -/
def Operands.ints (o : Operands) (i : Nat) (lo hi : Int) : Res (List Int) :=
  match o.b[i]? with
  | some (.ints vs) => if vs.all fun v => decide (lo ≤ v) && decide (v ≤ hi) then .ok vs else .error badOperand
  | _ => .error badOperand

/-- A byte sequence operand (R50). -/
def Operands.bytes (o : Operands) (i : Nat) : Res (List Byte) :=
  match o.ints i 0 255 with
  | .ok vs => .ok (vs.map fun v => BitVec.ofInt 8 v)
  | .error e => .error e

/-- A symbol sequence operand (R51): one symbol an element, a value above 15 is refused. -/
def Operands.syms (o : Operands) (i : Nat) : Res (List Sym) :=
  match o.ints i 0 15 with
  | .ok vs => .ok (vs.map fun v => BitVec.ofInt 4 v)
  | .error e => .error e

/-- A sequence of signed 16-bit samples (R228, D26). -/
def Operands.pcm (o : Operands) (i : Nat) : Res (List Int) := o.ints i (-32768) 32767

/-- A sequence of real samples (R50). -/
def Operands.reals (o : Operands) (i : Nat) : Res (List RealVal) :=
  match o.b[i]? with
  | some (.reals vs) => .ok vs
  | _ => .error badOperand

/-- A sequence of levels (R212). -/
def Operands.levels (o : Operands) (i : Nat) : Res (List Level) :=
  match o.b[i]? with
  | some (.levels vs) => .ok vs
  | _ => .error badOperand

/-- A byte sequence as a result buffer. -/
def bytesBuf (bs : List Byte) : Buf := .ints (bs.map fun b => (b.toNat : Int))

/-- A symbol sequence as a result buffer. -/
def symsBuf (ss : List Sym) : Buf := .ints (ss.map fun c => (c.toNat : Int))

/-- A boolean as a result slot (R84). -/
def bitSlot (b : Bool) : Slot := .int b.toNat

end Sys2Proof.Machine
end

