-- ==== Sys2Proof/Machine/Ops.lean ====
section
/-! DEFINITION. The operations every meaning shares: the command port (spec/30_encoding.md R88), raising a
condition (spec/60_exceptions.md R314, R316), buffer access (spec/20_memory.md R51), the event output
(spec/10_state.md R45) and the host's own moves between operations. -/

namespace Sys2Proof.Machine

/-! ### The command port -/

/-- The command word of the next command, if the host has issued one. -/
def State.fetch (s : State) : Option Byte := s.port.pending.head?.map Command.op

/-- The operand record of the command in progress (R21). -/
def State.operands (s : State) : Operands :=
  match s.port.pending with
  | [] => ⟨[], []⟩
  | c :: _ => ⟨c.x, c.b⟩

/-- The end of an operation: its command is done and its answer stands on the port (R88). -/
def State.answerWith (s : State) (a : Answer) : State :=
  { s with port := { pending := s.port.pending.tail, answer := some a } }

/-- `return` (R15): status `OK` with the results. -/
def State.ret (s : State) (r : Reply) : State := s.answerWith ⟨statusOk, r.x, r.b⟩

/-- `raise` as the status of an operation: "A refused operation changes no state at all: no state element, no
buffer, no event" (R314); only the port's answer tells of it. -/
def State.raise (s : State) (f : Fail) : State := s.answerWith ⟨f.cond.code, f.x, []⟩

/-- The state in which a unit operation ends (R89): it "reads and writes no instance state". -/
def State.settleUnit (s : State) (r : Res Reply) : State :=
  match r with
  | .ok p => s.ret p
  | .error f => s.raise f

/-- The state in which a host command ends (R89): on a condition the state is the one before it. -/
def State.settleHost (s : State) (r : Res (State × Reply)) : State :=
  match r with
  | .ok (t, p) => t.ret p
  | .error f => s.raise f

/-- A format `U` operation: every operation ends with a status (R88), so the outcome is always a next state. -/
def unitOp (s : State) (body : Operands → Res Reply) : Host.Outcome State Fault Refusal :=
  .next (s.settleUnit (body s.operands))

/-- A format `H` operation. -/
def hostOp (s : State) (body : Operands → Res (State × Reply)) : Host.Outcome State Fault Refusal :=
  .next (s.settleHost (body s.operands))

/-! ### Buffers (R51, R61) -/

/-- `MemRead(buf, i)`, for an index inside the buffer. -/
def memRead (buf : List RealVal) (i : Nat) : RealVal := buf.getD i (.rat 0)

/-- `MemWrite(buf, i, v)`. -/
def memWrite (buf : List RealVal) (i : Nat) (v : RealVal) : List RealVal := buf.set i v

/-- `MemAdd(buf, i, v)` is `MemWrite(buf, i, MemRead(buf, i) + v)`. -/
def memAdd (buf : List RealVal) (i : Nat) (v : RealVal) : List RealVal :=
  memWrite buf i ((memRead buf i).plus v)

/-- `MemAdd` at the `cnt` indices from `loc` on, each once (R60); `f j` is the value added at `loc + j`. It is the
loop of single `memAdd`s (`memAddRange_eq_loop` of Sys2Proof/Laws/Ops.lean). -/
def memAddRange (buf : List RealVal) (loc cnt : Nat) (f : Nat → RealVal) : List RealVal :=
  buf.mapIdx fun i v => if loc ≤ i ∧ i < loc + cnt then v.plus (f (i - loc)) else v

/-! ### State elements -/

/-- `DM.pushed <- n`. -/
def State.setPushed (s : State) (n : Nat) : State := { s with dm := { s.dm with pushed := n } }

/-- `DM.fixed <- DM.fixed + ncorr` (R148): once per `FCDEC` call, success or failure alike. -/
def State.addFixed (s : State) (ncorr : Nat) : State :=
  { s with dm := { s.dm with fixed := s.dm.fixed + BitVec.ofNat 32 ncorr } }

/-- The session's fields written back. -/
def State.setSession (s : State) (ss : Session) : State := { s with dm := { s.dm with session := some ss } }

/-- `DM.payload <- p; DM.paylen <- len(p); DM.payvalid <- 1` (R226, R227). -/
def State.deliver (s : State) (p : List Byte) : State := { s with dm := { s.dm with payload := some p } }

/-- The trigger's record written back. -/
def State.setTr (s : State) (t : TrState) : State := { s with tr := t }

/-- `emit` (R15, R45): events appended to the event output. -/
def State.emit (s : State) (es : List Event) : State := { s with evt := s.evt ++ es }

/-! ### Abandon (trap entry) and return -/

/-- `TRGRESET(T, base)` on a record (R197): everything but `cben` starts afresh. -/
def trReset (t : TrState) (base : Nat) : TrState := TrState.fresh base t.cben

/-- `ToWaiting` (spec/46_demodulator.md R221): the session ceases to exist and the trigger is re-armed at the index
of the next sample. -/
def State.toWaiting (s : State) : State :=
  { s with dm := { s.dm with session := none }, tr := trReset s.tr s.dm.pushed }

/-- The abandon sequence of R316: the partial count is added, then `ToWaiting`. Nothing is saved and there is
nothing to return to (R319). -/
def State.abandon (s : State) (ncorr : Nat) : State := (s.addFixed ncorr).toWaiting

/-! ### The host's moves between operations -/

/-- Building an instance (R9, R344, U1): refused for a configuration that is not well-formed. -/
def State.build (c : Cfg) : Host.Outcome State Fault Refusal :=
  if c.wf then .next (State.ofCfg c) else .refused .illFormedConfig

/-- Hardware reset (spec/70_reset_and_hazards.md R340, R341): a transition available only between operations. The
configuration is kept; the commands the host has yet to issue are the host's own. -/
def State.hardReset (s : State) : State :=
  { State.ofCfg s.cfg with port := { pending := s.port.pending, answer := none } }

/-- The host drains the event output between operations (R45, R320). -/
def State.drainEvents (s : State) : State := { s with evt := [] }

/-- The host issues a command behind those already issued (R64). -/
def State.issue (s : State) (c : Command) : State :=
  { s with port := { s.port with pending := s.port.pending ++ [c] } }

end Sys2Proof.Machine
end

