-- ==== Sys2Proof/Machine/Checksum.lean ====
section
/-! DEFINITION. The two checksums: spec/41_crc_checksum.md, operations `CRC16` (R122) and `CHK8` (R125). -/

namespace Sys2Proof.Machine

/-- One bit of R120: shift right by one and, when the bit shifted out was 1, exclusive-or the polynomial. -/
def crcBit {w : Nat} (poly c : BitVec w) : BitVec w :=
  if c.getLsbD 0 then (c >>> 1) ^^^ poly else c >>> 1

/-- `k` bits of R120. -/
def crcBits {w : Nat} (poly : BitVec w) : Nat → BitVec w → BitVec w
  | 0, c => c
  | k + 1, c => crcBits poly k (crcBit poly c)

/-- One byte of R120: into the low 8 bits of the register, then eight bit steps. -/
def crcByte {w : Nat} (poly c : BitVec w) (b : Byte) : BitVec w := crcBits poly 8 (c ^^^ b.setWidth w)

/-- `CRC16` of a byte sequence (R121, R122). -/
def crc16 (bs : List Byte) : U16 := bs.foldl (crcByte Config.crc16Poly) 0

/-- `CHK8` of a byte sequence (R124, R125). -/
def chk8 (bs : List Byte) : Byte := bs.foldl (crcByte Config.chk8Poly) 0

/-- The two bytes of a CRC16 in transmitted order: bits 15..8 first (spec/20_memory.md R52). -/
def crcBytes (c : U16) : List Byte := [c.extractLsb' 8 8, c.extractLsb' 0 8]

/-- `CRC16` (R122). -/
def execCrc16 (s : State) : Host.Outcome State Fault Refusal :=
  unitOp s fun o => do
    let bs ← o.bytes 0
    return ⟨[.int (crc16 bs).toNat], []⟩

/-- `CHK8` (R125). -/
def execChk8 (s : State) : Host.Outcome State Fault Refusal :=
  unitOp s fun o => do
    let bs ← o.bytes 0
    return ⟨[.int (chk8 bs).toNat], []⟩

end Sys2Proof.Machine
end

