-- ==== Sys2Proof/Machine/Field.lean ====
section
/-! DEFINITION. The field GF(16) and polynomials over it: spec/40_gf16_reed_solomon.md R100 to R105. Addition is
`^^^` (R101). -/

namespace Sys2Proof.Machine

/-- `a << i` taken into a 7-bit product when bit `i` of `b` is set (R102). -/
def gfPartial (a b : Sym) (i : Nat) : BitVec 7 := if b.getLsbD i then (a.setWidth 7) <<< i else 0

/-- The reduction of one bit of the product by `0x13 << (i - 4)` (R102). -/
def gfReduceBit (r : BitVec 7) (i : Nat) : BitVec 7 :=
  if r.getLsbD i then r ^^^ (Config.gfPoly <<< (i - 4)) else r

/-- Multiplication by the bit-level definition of R102: the carry-less product, then bits 6, 5 and 4 reduced. -/
def gmul (a b : Sym) : Sym :=
  let r := gfPartial a b 0 ^^^ gfPartial a b 1 ^^^ gfPartial a b 2 ^^^ gfPartial a b 3
  (gfReduceBit (gfReduceBit (gfReduceBit r 6) 5) 4).setWidth 4

/-- The powers `alpha^0 .. alpha^14` of R102. -/
def expTable : List Sym := [1, 2, 4, 8, 3, 6, 12, 11, 5, 10, 7, 14, 15, 13, 9]

/-- `alpha^e`; exponents are reduced modulo 15 (R114). -/
def alphaPow (e : Nat) : Sym := expTable.getD (e % 15) 0

/-- The inverses of R103, for 1 to 15. -/
def invTable : List Sym := [1, 9, 14, 13, 11, 7, 6, 15, 2, 12, 5, 10, 4, 3, 8]

/-- `inv(a)` of R103; there is none for 0 (U20). -/
def ginv (a : Sym) : Option Sym := if a = 0 then none else invTable[a.toNat - 1]?

/-- `a / b` of R103. -/
def gdiv (a b : Sym) : Option Sym := (ginv b).map (gmul a)

/-- `c(v)` by Horner's rule, element 0 the highest power (R104). -/
def polyEval (c : List Sym) (v : Sym) : Sym := c.foldl (fun r x => gmul r v ^^^ x) 0

/-- `c(x) * (x - r)`, highest power first. -/
def polyMulRoot (c : List Sym) (r : Sym) : List Sym :=
  List.zipWith (· ^^^ ·) (c ++ [0]) (0 :: c.map (gmul r))

/-- The generator polynomial `g_P(x) = (x - alpha^1) ... (x - alpha^P)` of R105, highest power first. -/
def genPoly : Nat → List Sym
  | 0 => [1]
  | p + 1 => polyMulRoot (genPoly p) (alphaPow (p + 1))

/-! Polynomials with the lowest power first, as R111 writes them. -/

/-- The sum of two polynomials. -/
def lowAdd : List Sym → List Sym → List Sym
  | [], ys => ys
  | xs, [] => xs
  | x :: xs, y :: ys => (x ^^^ y) :: lowAdd xs ys

/-- `k * x^m * c(x)`. -/
def lowScaleShift (k : Sym) (m : Nat) (c : List Sym) : List Sym := List.replicate m 0 ++ c.map (gmul k)

/-- The value at `v`. -/
def lowEval : List Sym → Sym → Sym
  | [], _ => 0
  | c :: cs, v => c ^^^ gmul v (lowEval cs v)

/-- The product of two polynomials. -/
def lowMul : List Sym → List Sym → List Sym
  | [], _ => []
  | c :: cs, d => lowAdd (d.map (gmul c)) (0 :: lowMul cs d)

/-- The formal derivative: the sum over odd `k` of `c[k] * x^(k-1)`. -/
def lowDeriv (c : List Sym) : List Sym := (c.tail).mapIdx fun i x => if i % 2 = 0 then x else 0

/-- The degree: the index of the last coefficient that is not 0, and 0 for a constant. -/
def lowDegree (c : List Sym) : Nat := (c.mapIdx fun i x => if x = 0 then 0 else i).foldl max 0

end Sys2Proof.Machine
end

