-- ==== Sys2Proof/Machine/ReedSolomon.lean ====
section
/-! DEFINITION. The Reed-Solomon code: spec/40_gf16_reed_solomon.md, operations `RSENC` (R108) and `RSDEC` (R110),
the decoder by the reference algorithm of R111. -/

namespace Sys2Proof.Machine

/-- Exclusive-or of `ys` into the front of a sequence. -/
def xorFront : List Sym → List Sym → List Sym
  | x :: xs, y :: ys => (x ^^^ y) :: xorFront xs ys
  | xs, [] => xs
  | [], _ => []

/-- The division loop of R108: at each of `d` steps the leading symbol `c` leaves and `c * g_P[1..P]` is added to the
`P` symbols behind it. What is left after `d` steps is the remainder. -/
def rsDivide (g : List Sym) : Nat → List Sym → List Sym
  | d + 1, c :: rest => rsDivide g d (xorFront rest (g.tail.map (gmul c)))
  | _, rem => rem

/-- The parity symbols of R108: the remainder of `data(x) * x^P` divided by `g_P(x)`. -/
def rsParity (data : List Sym) (p : Nat) : List Sym :=
  rsDivide (genPoly p) data.length (data ++ List.replicate p 0)

/-- The code word of R108: data symbols, then parity. -/
def rsEnc (data : List Sym) (p : Nat) : List Sym := data ++ rsParity data p

/-- The syndromes `S_1 .. S_P` of R107. -/
def syndromes (word : List Sym) (p : Nat) : List Sym :=
  (List.range p).map fun j => polyEval word (alphaPow (j + 1))

/-- Membership in `C(n, P)`, `n` the length (R106). -/
def isCodeword (word : List Sym) (p : Nat) : Bool := (syndromes word p).all (· == 0)

/-- The Hamming distance of two sequences of one length. -/
def hamming (a b : List Sym) : Nat := (List.zipWith (fun x y => if x = y then 0 else 1) a b).sum

/-- The variables of the Berlekamp-Massey loop of R111. -/
structure BmState where
  lam : List Sym
  bp : List Sym
  l : Nat
  m : Nat
  b : Sym
  deriving DecidableEq, Repr

/-- The start of the loop of R111. -/
def bmInit : BmState := { lam := [1], bp := [1], l := 0, m := 1, b := 1 }

/-- The discrepancy `d` at step `k` of R111; `sy[j]` is `S_(j+1)`. -/
def bmDiscrepancy (sy : List Sym) (st : BmState) (k : Nat) : Sym :=
  ((List.range st.l).map fun i => gmul (st.lam.getD (i + 1) 0) (sy.getD (k - (i + 1)) 0)).foldl (· ^^^ ·)
    (sy.getD k 0)

/-- One step of the Berlekamp-Massey loop of R111; `none` where a divisor would be 0. -/
def bmStep (sy : List Sym) (st : BmState) (k : Nat) : Option BmState :=
  let d := bmDiscrepancy sy st k
  if d = 0 then some { st with m := st.m + 1 }
  else
    match gdiv d st.b with
    | none => none
    | some q =>
      let lam := lowAdd st.lam (lowScaleShift q st.m st.bp)
      if 2 * st.l ≤ k then some { lam := lam, bp := st.lam, l := k + 1 - st.l, m := 1, b := d }
      else some { st with lam := lam, m := st.m + 1 }

/-- The whole loop, for `k` in `0 .. P - 1`. -/
def berlekampMassey (sy : List Sym) : Option BmState :=
  (List.range sy.length).foldlM (bmStep sy) bmInit

/-- `X_i = alpha^(n-1-i)` of R111. -/
def locator (n i : Nat) : Sym := alphaPow (n - 1 - i)

/-- The inverse of `X_i`. -/
def locatorInv (n i : Nat) : Sym := alphaPow (15 - (n - 1 - i) % 15)

/-- The Chien search of R111: the positions whose inverse locator is a root of `Lam`. -/
def chien (lam : List Sym) (n : Nat) : List Nat :=
  (List.range n).filter fun i => lowEval lam (locatorInv n i) == 0

/-- The Forney correction of one position (R111); `none` where the divisor or the error value would be 0. -/
def forneyAt (om dlam : List Sym) (n : Nat) (cw : List Sym) (i : Nat) : Option (List Sym) :=
  match gdiv (lowEval om (locatorInv n i)) (lowEval dlam (locatorInv n i)) with
  | none => none
  | some e => if e = 0 then none else some (cw.set i (cw.getD i 0 ^^^ e))

/-- The reference decoder of R111: the code word and the number of symbols changed; `none` is
`E_UNCORRECTABLE`. -/
def rsDec (word : List Sym) (p : Nat) : Option (List Sym × Nat) :=
  let n := word.length
  let sy := syndromes word p
  if sy.all (· == 0) then some (word, 0)
  else
    match berlekampMassey sy with
    | none => none
    | some st =>
      if p / 2 < st.l ∨ lowDegree st.lam ≠ st.l then none
      else
        let pos := chien st.lam n
        if pos.length ≠ st.l then none
        else
          match pos.foldlM (forneyAt ((lowMul sy st.lam).take p) (lowDeriv st.lam) n) word with
          | none => none
          | some cw => if isCodeword cw p then some (cw, st.l) else none

/-- `RSENC` (R108). -/
def execRsenc (s : State) : Host.Outcome State Fault Refusal :=
  unitOp s fun o => do
    let data ← o.syms 0
    let p ← o.int 0
    require (decide (1 ≤ p) && decide (data.length + p ≤ 15)) .operand
    return ⟨[], [symsBuf (rsEnc data p)]⟩

/-- `RSDEC` (R110). -/
def execRsdec (s : State) : Host.Outcome State Fault Refusal :=
  unitOp s fun o => do
    let word ← o.syms 0
    let p ← o.int 0
    require (decide (1 ≤ p) && decide (p < word.length) && decide (word.length ≤ 15)) .operand
    match rsDec word p with
    | none => throw (plainFail .uncorrectable)
    | some (cw, ncorr) => return ⟨[.int ncorr], [symsBuf cw]⟩

end Sys2Proof.Machine
end

