-- ==== Sys2Proof/Machine/FrameCodec.lean ====
section
/-! DEFINITION. The frame codec: spec/42_frame_codec.md, operations `ILV` (R142), `DILV` (R143), `HDRENC` (R133),
`HDRDEC` (R134), `FCENC` (R144), `FCDEC` (R146), `FCENCB` (R145). -/

namespace Sys2Proof.Machine

/-! ### Bytes and symbols (R130) -/

/-- `B2S` of R130: high nibble first (spec/20_memory.md R53). -/
def b2s (bs : List Byte) : List Sym := bs.flatMap fun b => [b.extractLsb' 4 4, b.extractLsb' 0 4]

/-- `S2B` of R130, for an even number of symbols. -/
def s2b : List Sym → List Byte
  | h :: l :: rest => (h ++ l) :: s2b rest
  | _ => []

/-! ### Blocks (R131, R132) -/

/-- The blocks of `k` symbols of a sequence, the last one short: `ceil(len / k)` of them, for `k ≥ 1`. -/
def blocksOf (k : Nat) (l : List Sym) : List (List Sym) :=
  (List.range (ceilDiv l.length k)).map fun i => (l.drop (i * k)).take k

/-! ### Interleaver (R142, R143) -/

/-- The order in which R142 reads a stream of `n` symbols: for `j = 0 .. B-1`, the indices `j, j + B, ...` below
`n`. -/
def ilvOrder (n b : Nat) : List Nat :=
  (List.range b).flatMap fun j => (List.range (ceilDiv (n - j) b)).map fun i => i * b + j

/-- `ILV` of R142. -/
def ilv {α : Type} (syms : List α) (b : Nat) : List α :=
  (ilvOrder syms.length b).filterMap fun c => syms[c]?

/-- `DILV` of R143: the symbols written back, in the order `ILV` reads them, over a sequence of the same length. -/
def dilv {α : Type} (syms : List α) (b : Nat) : List α :=
  ((ilvOrder syms.length b).zip syms).foldl (fun out ct => out.set ct.1 ct.2) syms

/-! ### Header (R133, R134) -/

/-- The three header bytes (R78, R133); reserved bits are 0. -/
def hdrEnc (len : Byte) (level : BitVec 2) (crc : Bool) : List Byte :=
  let b1 : Byte := (BitVec.ofBool crc).setWidth 8 <<< 3 ||| level.setWidth 8
  [len, b1, chk8 [len, b1]]

/-- `HDRDEC` of R134: length, then checksum, then level; reserved bits are ignored once the checksum has passed
(R79). -/
def hdrDec (c : Cfg) (hdr : List Byte) : Res Hdr :=
  match hdr with
  | [b0, b1, b2] =>
    if chk8 [b0, b1] ≠ b2 then .error (plainFail .hdrchk)
    else if c.nlev ≤ (b1.extractLsb' 0 2).toNat then .error (plainFail .hdrchk)
    else .ok { len := b0, level := b1.extractLsb' 0 2, crc := b1.getLsbD 3 }
  | _ => .error badOperand

/-! ### Encode (R144, R145) -/

/-- The shape test of R145 and R146. -/
def fcShapeOk (b p : Nat) : Bool :=
  decide (1 ≤ p) && decide (p < b) && decide (b ≤ 15) && (b - p) % 2 == 0

/-- The bytes to send (R145): the payload and, when asked, its CRC16. -/
def withCrc (payload : List Byte) (crc : Bool) : List Byte :=
  if crc then payload ++ crcBytes (crc16 payload) else payload

/-- The steps of R145 on legal operands: bytes to symbols, blocks, `RSENC` of each, interleave. -/
def fcEncode (payload : List Byte) (b p : Nat) (crc : Bool) : List Sym :=
  ilv ((blocksOf (b - p) (b2s (withCrc payload crc))).flatMap fun blk => rsEnc blk p) b

/-- `FCENCB` of R145, with its conditions in their order. -/
def fcEncB (payload : List Byte) (b p : Nat) (crc : Bool) : Res (List Sym) :=
  if ¬ fcShapeOk b p then .error badOperand
  else if Config.maxLen < payload.length then .error (plainFail .length)
  else .ok (fcEncode payload b p crc)

/-- `FCENC` of R144. -/
def fcEnc (c : Cfg) (payload : List Byte) (level : Nat) (crc : Bool) : Res (List Sym) :=
  match c.eccAt level with
  | none => .error badOperand
  | some (b, p) => fcEncB payload b p crc

/-! ### Decode (R146) -/

/-- The outcomes of R146; `ncorr` is recorded on success and on both failures (D14). -/
inductive FcOutcome where
  | done (payload : List Byte) (ncorr : Nat)
  | uncorrectable (ncorr : Nat)
  | crcMismatch (ncorr : Nat)
  | badShape
  deriving DecidableEq, Repr

/-- The block loop of R146, from `ncorr` and the data symbols so far: blocks in stream order; `Sum.inl` is
`E_UNCORRECTABLE` with the count of the blocks before the failing one. -/
def decodeBlocks (p : Nat) : List (List Sym) → Nat → List Sym → Nat ⊕ (Nat × List Sym)
  | [], ncorr, d => .inr (ncorr, d)
  | blk :: rest, ncorr, d =>
    match rsDec blk p with
    | none => .inl ncorr
    | some (cw, n) => decodeBlocks p rest (ncorr + n) (d ++ cw.take (blk.length - p))

/-- The operand tests of R146 (R132, D15), for a stream of `n` symbols. -/
def fcDecOk (n b p : Nat) (hasCrc : Bool) : Bool :=
  let nb := ceilDiv n b
  let last := n - (nb - 1) * b
  fcShapeOk b p
    && (n == 0 || (decide (p < last) && (last - p) % 2 == 0))
    && (!hasCrc || decide (4 ≤ n - nb * p))

/-- The CRC test of R123 on reassembled bytes: the payload without its two CRC bytes when they match. -/
def crcStrip (bs : List Byte) : Option (List Byte) :=
  let body := bs.take (bs.length - 2)
  if crcBytes (crc16 body) = bs.drop (bs.length - 2) then some body else none

/-- `FCDEC` of R146. -/
def fcDec (syms : List Sym) (b p : Nat) (hasCrc : Bool) : FcOutcome :=
  if ¬ fcDecOk syms.length b p hasCrc then .badShape
  else
    match decodeBlocks p (blocksOf b (dilv syms b)) 0 [] with
    | .inl ncorr => .uncorrectable ncorr
    | .inr (ncorr, d) =>
      let bs := s2b d
      if ¬ hasCrc then .done bs ncorr
      else
        match crcStrip bs with
        | none => .crcMismatch ncorr
        | some body => .done body ncorr

/-! ### The operations -/

/-- The block size operand of `ILV` and `DILV`: 1 to 65535. -/
def ilvBlock (o : Operands) : Res Nat := do
  let b ← o.int 0
  require (decide (1 ≤ b) && decide (b ≤ 65535)) .operand
  return b

/-- `ILV` (R142). -/
def execIlv (s : State) : Host.Outcome State Fault Refusal :=
  unitOp s fun o => do
    let syms ← o.syms 0
    let b ← ilvBlock o
    return ⟨[], [symsBuf (ilv syms b)]⟩

/-- `DILV` (R143). -/
def execDilv (s : State) : Host.Outcome State Fault Refusal :=
  unitOp s fun o => do
    let syms ← o.syms 0
    let b ← ilvBlock o
    return ⟨[], [symsBuf (dilv syms b)]⟩

/-- `HDRENC` (R133). -/
def execHdrenc (s : State) : Host.Outcome State Fault Refusal :=
  unitOp s fun o => do
    let len ← o.int 0
    let level ← o.int 1
    let crc ← o.bit 2
    require (decide (len ≤ 255) && decide (level < s.cfg.nlev)) .operand
    return ⟨[], [bytesBuf (hdrEnc (BitVec.ofNat 8 len) (BitVec.ofNat 2 level) crc)]⟩

/-- `HDRDEC` (R134). -/
def execHdrdec (s : State) : Host.Outcome State Fault Refusal :=
  unitOp s fun o => do
    let hdr ← o.bytes 0
    let h ← hdrDec s.cfg hdr
    return ⟨[.int h.len.toNat, .int h.level.toNat, bitSlot h.crc], []⟩

/-- `FCENC` (R144). -/
def execFcenc (s : State) : Host.Outcome State Fault Refusal :=
  unitOp s fun o => do
    let payload ← o.bytes 0
    let level ← o.int 0
    let crc ← o.bit 1
    let syms ← fcEnc s.cfg payload level crc
    return ⟨[], [symsBuf syms]⟩

/-- `ncorr` as the `U32` that `FCDEC` answers (R14, R146): the exact count, or a free value where no `U32` is it, which
takes a stream of more than `2^32` symbols (log 22). -/
def ncorrWord (n : Nat) : U32 := if n < 2 ^ 32 then BitVec.ofNat 32 n else Config.wideCount n

/-- The result slot of `ncorr`. -/
def ncorrSlot (n : Nat) : Slot := .int (ncorrWord n).toNat

/-- `FCDEC` (R146). -/
def execFcdec (s : State) : Host.Outcome State Fault Refusal :=
  unitOp s fun o => do
    let syms ← o.syms 0
    let b ← o.int 0
    let p ← o.int 1
    let hasCrc ← o.bit 2
    match fcDec syms b p hasCrc with
    | .badShape => throw badOperand
    | .uncorrectable n => throw ⟨.uncorrectable, [ncorrSlot n]⟩
    | .crcMismatch n => throw ⟨.crc, [ncorrSlot n]⟩
    | .done payload n => return ⟨[ncorrSlot n], [bytesBuf payload]⟩

/-- `FCENCB` (R145). -/
def execFcencb (s : State) : Host.Outcome State Fault Refusal :=
  unitOp s fun o => do
    let payload ← o.bytes 0
    let b ← o.int 0
    let p ← o.int 1
    let crc ← o.bit 2
    let syms ← fcEncB payload b p crc
    return ⟨[], [symsBuf syms]⟩

end Sys2Proof.Machine
end

