-- ==== Sys2Proof/Machine/Mapper.lean ====
section
/-! DEFINITION. The symbol mapper: spec/45_symbol_mapper.md, operations `SYM2FREQ` (R211) and `ARGMAX` (R212). -/

namespace Sys2Proof.Machine

/-- The frequency indices of a word (R72, R211): group A at the first symbol, group B at 16 plus the second. -/
def sym2freq (sa sb : Sym) : Nat × Nat := (sa.toNat, 16 + sb.toNat)

/-- The decision for one group of 16 levels starting at `base` (R212): the comparison is strict, so a tie keeps the
lower index (D19). -/
def argmaxGroup (levels : List Level) (base : Nat) : Nat :=
  (List.range 15).foldl
    (fun best i =>
      if Level.lt (levels.getD (base + best) .negInf) (levels.getD (base + (i + 1)) .negInf) then i + 1 else best)
    0

/-- `ARGMAX` of 32 levels (R212). -/
def argmax (levels : List Level) : Sym × Sym :=
  (BitVec.ofNat 4 (argmaxGroup levels 0), BitVec.ofNat 4 (argmaxGroup levels 16))

/-- `SYM2FREQ` (R211). -/
def execSym2freq (s : State) : Host.Outcome State Fault Refusal :=
  unitOp s fun o => do
    let sa ← o.int 0
    let sb ← o.int 1
    require (decide (sa ≤ 15) && decide (sb ≤ 15)) .operand
    let r := sym2freq (BitVec.ofNat 4 sa) (BitVec.ofNat 4 sb)
    return ⟨[.int r.1, .int r.2], []⟩

/-- `ARGMAX` (R212). -/
def execArgmax (s : State) : Host.Outcome State Fault Refusal :=
  unitOp s fun o => do
    let levels ← o.levels 0
    require (levels.length == 32) .operand
    let r := argmax levels
    return ⟨[.int r.1.toNat, .int r.2.toNat], []⟩

end Sys2Proof.Machine
end

