-- ==== Sys2Proof/Machine/Window.lean ====
section
/-! DEFINITION. Window functions and the streaming tone generator: spec/47_windows_tone_generator.md, operations
`HANN` (R263), `TUKEY` (R264), `TONE` (R266). -/

namespace Sys2Proof.Machine

/-- The symmetric Hann window of R263 for `N ≥ 1` and `i < N`: `0.5 * (1 - cos(2 * pi * i / (N - 1)))`. -/
def hannW (i n : Nat) : RealVal :=
  if n = 1 then .rat 1
  else (RealVal.rat (1 / 2)).times ((RealVal.rat 1).minus (RealVal.cosOf (.rat ((i : Rat) / ((n : Rat) - 1)))))

/-- A raised cosine `0.5 * (1 + cos(pi * y))` of R264: half of `y` is the angle in turns. -/
def raisedCos (y : RealVal) : RealVal :=
  (RealVal.rat (1 / 2)).times ((RealVal.rat 1).plus (RealVal.cosOf (y.divBy (.rat 2))))

/-- The Tukey window of R264 for `N ≥ 1`, `i < N` and `0 ≤ alpha ≤ 1`. -/
def tukeyW (i n : Nat) (alpha : RealVal) : RealVal :=
  if n = 1 ∨ alpha.isZero then .rat 1
  else
    let x : RealVal := .rat ((i : Rat) / ((n : Rat) - 1))
    let half := alpha.divBy (.rat 2)
    let r := ((RealVal.rat 2).times x).divBy alpha
    if RealVal.lt x half then raisedCos (r.minus (.rat 1))
    else if RealVal.lt ((RealVal.rat 1).minus half) x then
      raisedCos ((r.minus ((RealVal.rat 2).divBy alpha)).plus (.rat 1))
    else .rat 1

/-- Sample `n` of a tone of frequency `f` at amplitude 1 (R266): `sin(2 * pi * f * n / FS)`. -/
def toneSample (c : Cfg) (f : RealVal) (n : Nat) : RealVal :=
  RealVal.sinOf ((f.times (RealVal.ofNat n)).divBy c.fs)

/-- `TONE` on a buffer (R266). -/
def toneInto (c : Cfg) (buf : List RealVal) (loc cnt phase : Nat) (f amp : RealVal) : List RealVal :=
  memAddRange buf loc cnt fun j => amp.times (toneSample c f (phase + j))

/-- A tone frequency is legal when it lies in (0, FS/2) (R163, R266). -/
def freqOk (c : Cfg) (f : RealVal) : Bool := RealVal.lt (.rat 0) f && RealVal.lt f (c.fs.divBy (.rat 2))

/-- `HANN` (R263). -/
def execHann (s : State) : Host.Outcome State Fault Refusal :=
  unitOp s fun o => do
    let i ← o.int 0
    let n ← o.int 1
    require (decide (1 ≤ n) && decide (i < n)) .operand
    return ⟨[.real (hannW i n)], []⟩

/-- `TUKEY` (R264). -/
def execTukey (s : State) : Host.Outcome State Fault Refusal :=
  unitOp s fun o => do
    let i ← o.int 0
    let n ← o.int 1
    let alpha ← o.real 2
    require (decide (1 ≤ n) && decide (i < n) && RealVal.le (.rat 0) alpha && RealVal.le alpha (.rat 1)) .operand
    return ⟨[.real (tukeyW i n alpha)], []⟩

/-- `TONE` (R266). -/
def execTone (s : State) : Host.Outcome State Fault Refusal :=
  unitOp s fun o => do
    let buf ← o.reals 0
    let loc ← o.int 0
    let cnt ← o.int 1
    let phase ← o.int 2
    let f ← o.real 3
    let amp ← o.real 4
    require (decide (loc + cnt ≤ buf.length) && freqOk s.cfg f) .operand
    return ⟨[], [.reals (toneInto s.cfg buf loc cnt phase f amp)]⟩

end Sys2Proof.Machine
end

