-- ==== Sys2Proof/Machine/Goertzel.lean ====
section
/-! DEFINITION. The streaming Goertzel analyzer: spec/43_goertzel_analyzer.md, operations `GZINIT` (R163), `GZPROC`
(R164), `GZRMS` (R166), `GZRESET` (R168), `LOGPOW` (R169). -/

namespace Sys2Proof.Machine

/-- `c = 2 * cos(omega)` with `omega = 2 * pi * f / FS` (R161): `f` is not rounded to a bin. -/
def gzCoef (c : Cfg) (f : RealVal) : RealVal := (RealVal.rat 2).times (RealVal.cosOf (f.divBy c.fs))

/-- `GzStep` (R162): one sample into the recurrence, weighted by the Hann window when `hw` is set. -/
def gzStep (c : Cfg) (f : RealVal) (n : Nat) (hw : Bool) (g : GzState) (x : RealVal) : GzState :=
  let x' := if hw then x.times (hannW g.n n) else x
  { s1 := (x'.plus ((gzCoef c f).times g.s1)).minus g.s2, s2 := g.s1, n := g.n + 1 }

/-- The squared magnitude `m2` of R166. -/
def gzM2 (c : Cfg) (f : RealVal) (g : GzState) : RealVal :=
  ((g.s1.times g.s1).plus (g.s2.times g.s2)).minus (((gzCoef c f).times g.s1).times g.s2)

/-- `sqrt(2 * m2) / N` of R166. -/
def gzRms (c : Cfg) (f : RealVal) (n : Nat) (g : GzState) : RealVal :=
  (RealVal.sqrtOf ((RealVal.rat 2).times (gzM2 c f g))).divBy (RealVal.ofNat n)

/-- `LOGPOW(GZRMS(..))` of a full window, as the demodulator and the trigger take it (R188, R225). -/
def gzLevel (c : Cfg) (f : RealVal) (n : Nat) (g : GzState) : Level := logPow (gzRms c f n g)

/-- The samples of a range into the recurrence, in increasing index order (R164, R171). -/
def gzFold (c : Cfg) (f : RealVal) (n : Nat) (hw : Bool) (g : GzState) (xs : List RealVal) : GzState :=
  xs.foldl (gzStep c f n hw) g

/-- The constants `(f, N, hw)` of an analyzer (R161, R163): slots 0, 1 and 2 of every operation that needs them
(log 7). -/
def gzConsts (c : Cfg) (o : Operands) : Res (RealVal × Nat × Bool) := do
  let f ← o.real 0
  let n ← o.int 1
  let hw ← o.bit 2
  require (freqOk c f && decide (1 ≤ n)) .operand
  return (f, n, hw)

/-- `GZINIT` (R163). -/
def execGzinit (s : State) : Host.Outcome State Fault Refusal :=
  unitOp s fun o => do
    let _ ← gzConsts s.cfg o
    return ⟨[.gz GzState.zero], []⟩

/-- `GZPROC` (R164). A record with `g.n > N`, which R44 excludes, is not refused as an operand: every range of it, the
empty one too, overruns (R164 as written; the model's choice, log 7). -/
def execGzproc (s : State) : Host.Outcome State Fault Refusal :=
  unitOp s fun o => do
    let (f, n, hw) ← gzConsts s.cfg o
    let g ← o.gz 3
    let buf ← o.reals 0
    let lo ← o.int 4
    let hi ← o.int 5
    require (decide (lo ≤ hi) && decide (hi ≤ buf.length)) .operand
    require (decide (g.n + (hi - lo) ≤ n)) .overrun
    return ⟨[.gz (gzFold s.cfg f n hw g ((buf.drop lo).take (hi - lo)))], []⟩

/-- `GZRMS` (R166). A record with `g.n > N`, which R44 excludes, is not refused as an operand: it is not ready (R166 as
written; the model's choice, log 7). -/
def execGzrms (s : State) : Host.Outcome State Fault Refusal :=
  unitOp s fun o => do
    let (f, n, _) ← gzConsts s.cfg o
    let g ← o.gz 3
    require (g.n == n) .notready
    return ⟨[.real (gzRms s.cfg f n g)], []⟩

/-- `GZRESET` (R168). -/
def execGzreset (s : State) : Host.Outcome State Fault Refusal :=
  unitOp s fun o => do
    let _ ← o.gz 0
    return ⟨[.gz GzState.zero], []⟩

/-- `LOGPOW` (R169). -/
def execLogpow (s : State) : Host.Outcome State Fault Refusal :=
  unitOp s fun o => do
    let rms ← o.real 0
    require (RealVal.le (.rat 0) rms) .operand
    return ⟨[.level (logPow rms)], []⟩

end Sys2Proof.Machine
end

