-- ==== Sys2Proof/Machine/Trigger.lean ====
section
/-! DEFINITION. The trigger detector: spec/44_trigger_detector.md, the reference design of R187 to R196 and the
operations `TRGPUSH` (R189), `TRGRESET` (R197), `TRGMAXWIN` (R198), `TRGSETCB` (R199). -/

namespace Sys2Proof.Machine

/-! ### Noise floor (R192) -/

/-- Insertion into a sequence of levels in increasing order. -/
def insertLevel (l : Level) : List Level → List Level
  | [] => [l]
  | x :: xs => if Level.lt l x then l :: x :: xs else x :: insertLevel l xs

/-- A sequence of levels in increasing order, `-inf` first. -/
def sortLevels : List Level → List Level
  | [] => []
  | x :: xs => insertLevel x (sortLevels xs)

/-- The lower median: the element of index `(len - 1) div 2` in increasing order (R192). -/
def lowerMedian (ls : List Level) : Level := (sortLevels ls).getD ((ls.length - 1) / 2) .negInf

/-! ### Peak interpolation and index rounding (R194, R195) -/

/-- `delta` of R194: the vertex of the parabola through three finite levels, limited to `[-0.5, 0.5]`; 0 when a level is
not finite or the parabola is degenerate. -/
def peakDelta : Level → Level → Level → RealVal
  | .fin a, .fin b, .fin c =>
    let d := (a.minus ((RealVal.rat 2).times b)).plus c
    if d.isZero then .rat 0
    else RealVal.clamp (.rat (-1 / 2)) (.rat (1 / 2)) (((RealVal.rat (1 / 2)).times (a.minus c)).divBy d)
  | _, _, _ => .rat 0

/-- The greatest number from `lo` to `lo + k` that is `lo` or passes the test. -/
def greatestFrom (ok : Nat → Bool) (lo : Nat) : Nat → Nat
  | 0 => lo
  | k + 1 => if ok (lo + k + 1) then lo + k + 1 else greatestFrom ok lo k

/-- `floor(delta * H + (A + G) / 2 + 0.5)` of R195: the greatest integer not above it, which the limits of `delta` put
between its values at -0.5 and at 0.5. The whole number `p * H` of R195 stands outside the floor. -/
def peakShift (c : Cfg) (la lb lc : Level) : Nat :=
  let r := ((peakDelta la lb lc).times (RealVal.ofNat c.trgH)).plus (.rat (((c.trgA + c.g : Nat) : Rat) / 2 + 1 / 2))
  let lo := (c.trgA + c.g + 1 - c.trgH) / 2
  greatestFrom (fun n => RealVal.le (RealVal.ofNat n) r) lo ((c.trgA + c.g + 1 + c.trgH) / 2 - lo)

/-! ### Decision (R193) -/

/-- `L_q[v]` when window `w` has just completed (R191). -/
def levelAt (hist : List Level) (w v : Nat) : Option Level :=
  if w - v < hist.length then hist[hist.length - 1 - (w - v)]? else none

/-- `Decide(T, w)` of R193, evaluated when window `w` has just completed; the candidate peak is window `w - 1`. -/
def decideTrigger (c : Cfg) (t : TrState) (w : Nat) : Option Nat :=
  if w < 7 then none
  else do
    let p := w - 1
    let la ← levelAt t.hist1 w (p - 1)
    let lb ← levelAt t.hist1 w p
    let lc ← levelAt t.hist1 w w
    let l0 ← levelAt t.hist0 w (p - 6)
    if Level.lt la lb && !Level.lt lb lc
        && Level.lt ((lowerMedian t.hist1).addDb c.snr) lb
        && Level.lt ((lowerMedian t.hist0).addDb c.snr) l0 then
      some (t.base + (p * c.trgH + peakShift c la lb lc))
    else none

/-! ### One sample (R188) -/

/-- One sample into both analyzers of a lane. -/
def laneStep (c : Cfg) (l : Lane) (x : RealVal) : Lane :=
  { q0 := gzStep c c.gate1 c.trgA true l.q0 x, q1 := gzStep c c.gate2 c.trgA true l.q1 x }

/-- Append a level and drop the oldest when the history grows past 18 (R39, R188). -/
def pushLevel (hist : List Level) (l : Level) : List Level :=
  let h := hist ++ [l]
  if Config.trgK < h.length then h.tail else h

/-- A window completes in the lane `l`: both levels enter the histories, the window is counted and `Decide` is
evaluated (R188). A count past the range of an `Idx` makes the operation refuse (log 11). -/
def completeWindow (c : Cfg) (t : TrState) (l : Lane) : TrState × Option Nat :=
  let t' : TrState :=
    { t with
      hist0 := pushLevel t.hist0 (gzLevel c c.gate1 c.trgA l.q0)
      hist1 := pushLevel t.hist1 (gzLevel c c.gate2 c.trgA l.q1)
      m := t.m + 1 }
  (t', decideTrigger c t' t.m)

/-- The sample counted and given to the lanes: lane 1 from local index `H` on (R188). -/
def trFeed (c : Cfg) (t : TrState) (x : RealVal) : TrState :=
  { t with
    lane0 := laneStep c t.lane0 x
    lane1 := if c.trgH ≤ t.n then laneStep c t.lane1 x else t.lane1
    n := t.n + 1 }

/-- The two lanes looked at in order after a sample; a full one completes its window and starts afresh (R188). -/
def trComplete (c : Cfg) (t : TrState) : TrState × Option Nat :=
  let r0 : TrState × Option Nat :=
    if t.lane0.q0.n = c.trgA then completeWindow c { t with lane0 := Lane.zero } t.lane0 else (t, none)
  if r0.1.lane1.q0.n = c.trgA then completeWindow c { r0.1 with lane1 := Lane.zero } r0.1.lane1 else r0

/-- `TrStep(T, x)` of R188: the new record, and `some t0` exactly on the sample that declares detection. -/
def trStep (c : Cfg) (t : TrState) (x : RealVal) : TrState × Option Nat :=
  match t.found with
  | some _ => ({ t with n := t.n + 1 }, none)
  | none =>
    let r := trComplete c (trFeed c t x)
    match r.2 with
    | none => r
    | some t0 => ({ r.1 with found := some t0 }, some t0)

/-- The events a step emits (R196): one, on the detecting sample, when notification is enabled. -/
def trEvents (t : TrState) (r : Option Nat) : List Event :=
  match r with
  | some t0 => if t.cben then [.trig t0] else []
  | none => []

/-- A chunk through `TrStep`, in increasing index order (R189), with the events emitted. -/
def trPush (c : Cfg) (t : TrState) : List RealVal → TrState × List Event
  | [] => (t, [])
  | x :: xs =>
    let r := trStep c t x
    let rest := trPush c r.1 xs
    (rest.1, trEvents t r.2 ++ rest.2)

/-! ### The operations -/

/-- Whether the record can take a sample: `GzStep` of every lane that R188 feeds is defined (R162: `g.n < N`). A record
with a lane at its full count, which R44 allows and no operation answers, cannot. -/
def trReady (c : Cfg) (t : TrState) : Bool :=
  t.found.isSome || (decide (t.lane0.q0.n < c.trgA) && (decide (t.n < c.trgH) || decide (t.lane1.q0.n < c.trgA)))

/-- `TRGPUSH` (R189). Two refusals with `E_OPERAND` are the model's choice beside the one of the counter bound: a chunk
that holds a sample where `GzStep` is not defined (log 8), and a record to answer with an index that is no `Idx`.
That only the record to answer is tested, and not the records between its samples, is the model's choice too (log 11). -/
def execTrgpush (s : State) : Host.Outcome State Fault Refusal :=
  unitOp s fun o => do
    let t ← o.tr s.cfg 0
    let chunk ← o.reals 0
    require (decide (t.base + t.n + chunk.length < idxLimit)) .operand
    require (chunk.isEmpty || trReady s.cfg t) .operand
    let r := trPush s.cfg t chunk
    require r.1.inRange .operand
    return ⟨[.tr r.1, .optIdx r.1.found], [.events r.2]⟩

/-- `TRGRESET` (R197). -/
def execTrgreset (s : State) : Host.Outcome State Fault Refusal :=
  unitOp s fun o => do
    let t ← o.tr s.cfg 0
    let base ← o.int 1
    return ⟨[.tr (trReset t base)], []⟩

/-- `TRGMAXWIN` (R198). -/
def execTrgmaxwin (s : State) : Host.Outcome State Fault Refusal :=
  unitOp s fun _ => return ⟨[.int s.cfg.maxwin], []⟩

/-- `TRGSETCB` (R199). -/
def execTrgsetcb (s : State) : Host.Outcome State Fault Refusal :=
  unitOp s fun o => do
    let t ← o.tr s.cfg 0
    let enable ← o.bit 1
    return ⟨[.tr { t with cben := enable }], []⟩

end Sys2Proof.Machine
end

