-- ==== Sys2Proof/Machine/Demodulator.lean ====
section
/-! DEFINITION. The streaming demodulator and the decode-side host commands: spec/46_demodulator.md, operations
`PUSHF` (R222), `PUSHI` (R228), `GETPAYLOAD` (R229), `GETMAXWIN` (R230), `RESET` (R231), `GETFIXED` (R232), `SETCB`
(R233). -/

namespace Sys2Proof.Machine

/-! ### Detection (R224) -/

/-- The session that detection opens (R224). -/
def freshSession (t0 : Nat) : Session :=
  { t0 := t0, k := 0, phase := .header, sym := [], need := Config.hdrSyms, an := Vector.replicate 32 GzState.zero }

/-- `Detect(t0)` of R224: the session is opened and the corrected-error counter cleared; an earlier payload stays
readable (D30). -/
def State.detect (s : State) (t0 : Nat) : State :=
  { s with dm := { s.dm with session := some (freshSession t0), fixed := 0 } }

/-! ### A full buffer (R226, R227) -/

/-- The session after a good header (R226): the payload buffer, and the tone-start reference moved past the four
header words. -/
def payloadSession (c : Cfg) (ss : Session) (h : Hdr) (need : Nat) : Session :=
  { ss with t0 := ss.t0 + 4 * (c.w + c.s), k := 0, phase := .payload h, sym := [], need := need }

/-- `HeaderFull()` of R226. `FCDEC` of eight symbols never has a bad shape; that case abandons like the others. -/
def State.headerFull (s : State) (ss : Session) : State × Bool :=
  match fcDec ss.sym Config.hdrSyms Config.hdrPar false with
  | .badShape => (s.abandon 0, false)
  | .uncorrectable n => (s.abandon n, false)
  | .crcMismatch n => (s.abandon n, false)
  | .done bytes n =>
    match hdrDec s.cfg bytes with
    | .error _ => (s.abandon n, false)
    | .ok h =>
      let bp := (s.cfg.eccAt h.level.toNat).getD (0, 0)
      let need := nsym h.len.toNat bp.1 bp.2 h.crc
      if need = 0 then (((s.addFixed n).deliver []).toWaiting, true)
      else ((s.addFixed n).setSession (payloadSession s.cfg ss h need), false)

/-- `PayloadFull()` of R227. -/
def State.payloadFull (s : State) (ss : Session) (h : Hdr) : State × Bool :=
  let bp := (s.cfg.eccAt h.level.toNat).getD (0, 0)
  match fcDec ss.sym bp.1 bp.2 h.crc with
  | .badShape => (s.abandon 0, false)
  | .uncorrectable n => (s.abandon n, false)
  | .crcMismatch n => (s.abandon n, false)
  | .done p n => (((s.addFixed n).deliver p).toWaiting, true)

/-! ### One sample (R223, R225) -/

/-- `ts` of R225: the first sample of the current word's burst. -/
def burstStart (c : Cfg) (ss : Session) : Nat := ss.t0 + ss.k * (c.w + c.s) + c.s

/-- The analyzers after sample `n` (R225): each takes it when it lies in the analyzer's own window. -/
def feedAnalyzers (c : Cfg) (ss : Session) (n : Nat) (x : RealVal) : Vector GzState 32 :=
  Vector.ofFn fun f =>
    let lo := burstStart c ss + c.winOff f
    if lo ≤ n ∧ n < lo + c.winLen f then gzStep c c.freq[f] (c.winLen f) false ss.an[f] x else ss.an[f]

/-- Whether every analyzer has consumed its full window: the word boundary (R225, D41). -/
def allFull (c : Cfg) (an : Vector GzState 32) : Bool :=
  (List.finRange 32).all fun f => an[f].n == c.winLen f

/-- The 32 levels of a word (R225). -/
def wordLevels (c : Cfg) (an : Vector GzState 32) : List Level :=
  (List.finRange 32).map fun f => gzLevel c c.freq[f] (c.winLen f) an[f]

/-- The session after a word boundary (R225): two symbols appended, the word counted, the analyzers reset. -/
def wordDone (c : Cfg) (ss : Session) (an : Vector GzState 32) : Session :=
  let ab := argmax (wordLevels c an)
  { ss with sym := ss.sym ++ [ab.1, ab.2], k := ss.k + 1, an := Vector.replicate 32 GzState.zero }

/-- `ParseSample(n, x)` of R225. -/
def State.parseSample (s : State) (ss : Session) (n : Nat) (x : RealVal) : State × Bool :=
  let an := feedAnalyzers s.cfg ss n x
  if allFull s.cfg an then
    let ss' := wordDone s.cfg ss an
    if ss'.sym.length = ss'.need then
      match ss'.phase with
      | .header => s.headerFull ss'
      | .payload h => s.payloadFull ss' h
    else (s.setSession ss', false)
  else (s.setSession { ss with an := an }, false)

/-- `DmStep(x)` of R223: one sample, examined by the trigger or by the parser, and counted in either case. -/
def State.dmStep (s : State) (x : RealVal) : State × Bool :=
  let n := s.dm.pushed
  let s' := s.setPushed (n + 1)
  match s.dm.session with
  | none =>
    let r := trStep s.cfg s.tr x
    let s'' := (s'.setTr r.1).emit (trEvents s.tr r.2)
    match r.2 with
    | none => (s'', false)
    | some t0 => (s''.detect t0, false)
  | some ss => s'.parseSample ss n x

/-- The rest of a chunk after `ready` (R222, D27): counted, not examined. -/
def State.skipRest (s : State) (rest : Nat) : State :=
  let n := s.dm.pushed + rest
  (s.setPushed n).setTr { s.tr with base := n }

/-- The sample loop of `PUSHF` (R222). -/
def State.pushSamples (s : State) : List RealVal → State × Bool
  | [] => (s, false)
  | x :: xs =>
    let r := s.dmStep x
    if r.2 then (r.1.skipRest xs.length, true) else r.1.pushSamples xs

/-- Whether the tone-start reference and the analyzer counts of a session are of type `Idx` (R28, R44). -/
def Session.inRange (ss : Session) : Bool :=
  decide (ss.t0 < idxLimit) && (List.finRange 32).all fun f => decide (ss.an[f].n < idxLimit)

/-- Whether every index that a push may have written is an `Idx` (R14): those of the session, those of the trigger, and
the starts of the events past the first `before` (R45). -/
def State.indicesInRange (s : State) (before : Nat) : Bool :=
  s.dm.session.all Session.inRange && s.tr.inRange
    && ((s.evt.drop before).all fun | .trig t0 => decide (t0 < idxLimit))

/-- `PUSHF` on a chunk (R222): refused when the sample counter would pass its bound (R22), or another index that it
leaves would; that the indices between its samples are not tested is the model's choice (log 11). -/
def State.push (s : State) (chunk : List RealVal) : Res (State × Bool) :=
  if ¬ s.dm.pushed + chunk.length < idxLimit then .error badOperand
  else if (s.pushSamples chunk).1.indicesInRange s.evt.length then .ok (s.pushSamples chunk)
  else .error badOperand

/-- `RESET` of R231. -/
def State.softReset (s : State) : State :=
  { s with dm := { session := none, pushed := 0, fixed := 0, payload := none }, tr := trReset s.tr 0 }

/-- A 16-bit sample as a real (R228, D26). -/
def pcmSample (v : Int) : RealVal := .rat ((v : Rat) / 32768)

/-! ### The operations -/

/-- `PUSHF` (R222). -/
def execPushf (s : State) : Host.Outcome State Fault Refusal :=
  hostOp s fun o => do
    let chunk ← o.reals 0
    let r ← s.push chunk
    return (r.1, ⟨[bitSlot r.2], []⟩)

/-- `PUSHI` (R228). -/
def execPushi (s : State) : Host.Outcome State Fault Refusal :=
  hostOp s fun o => do
    let chunk ← o.pcm 0
    let r ← s.push (chunk.map pcmSample)
    return (r.1, ⟨[bitSlot r.2], []⟩)

/-- `GETPAYLOAD` (R229). -/
def execGetpayload (s : State) : Host.Outcome State Fault Refusal :=
  hostOp s fun _ =>
    match s.dm.payload with
    | none => throw (plainFail .notready)
    | some p => return (s, ⟨[.int p.length], [bytesBuf p]⟩)

/-- `GETMAXWIN` (R230). -/
def execGetmaxwin (s : State) : Host.Outcome State Fault Refusal :=
  hostOp s fun _ => return (s, ⟨[.int s.cfg.maxwin], []⟩)

/-- `RESET` (R231). -/
def execReset (s : State) : Host.Outcome State Fault Refusal :=
  hostOp s fun _ => return (s.softReset, ⟨[], []⟩)

/-- `GETFIXED` (R232). -/
def execGetfixed (s : State) : Host.Outcome State Fault Refusal :=
  hostOp s fun _ => return (s, ⟨[.int s.dm.fixed.toNat], []⟩)

/-- `SETCB` (R233). -/
def execSetcb (s : State) : Host.Outcome State Fault Refusal :=
  hostOp s fun o => do
    let enable ← o.bit 0
    return (s.setTr { s.tr with cben := enable }, ⟨[], []⟩)

end Sys2Proof.Machine
end

