-- ==== Sys2Proof/Machine/Synthesizer.lean ====
section
/-! DEFINITION. The signal synthesizer: spec/48_synthesizer.md, operations `SETPAYLOAD` (R282) and `GETSAMPLES`
(R283). -/

namespace Sys2Proof.Machine

/-- The frame length for `nsym` symbols (R75, R282). -/
def frameTotal (c : Cfg) (nsym : Nat) : Nat := 2 * c.g + nsym / 2 * (c.s + c.w)

/-- The header's eight symbols (R135). -/
def headerSyms (len level : Nat) (crc : Bool) : List Sym :=
  fcEncode (hdrEnc (BitVec.ofNat 8 len) (BitVec.ofNat 2 level) crc) Config.hdrSyms Config.hdrPar false

/-- The frame's symbols on legal operands (R77, R282): the header, then the payload stream. -/
def frameSyms (payload : List Byte) (level b p : Nat) (crc : Bool) : List Sym :=
  headerSyms payload.length level crc ++ fcEncode payload b p crc

/-- The synthesizer loaded with a frame (R282). -/
def loadedSynth (c : Cfg) (sym : List Sym) : Synth :=
  { sym := sym, cursor := 0, total := frameTotal c sym.length, loaded := true }

/-- `SETPAYLOAD` of R282: the level is tested before the length (D39), and on either condition `SY` is unchanged. A
frame whose length is no `Idx` (R43) is refused like an operand out of range (log 11). -/
def State.setPayload (s : State) (payload : List Byte) (level : Nat) (crc : Bool) : Res (State × Nat) :=
  match s.cfg.eccAt level with
  | none => .error badOperand
  | some (b, p) =>
    if Config.maxLen < payload.length then .error (plainFail .length)
    else
      let y := loadedSynth s.cfg (frameSyms payload level b p crc)
      if y.total < idxLimit then .ok ({ s with sy := y }, y.total) else .error badOperand

/-- A tone at amplitude 1 of a frequency index (R284). -/
def indexTone (c : Cfg) (i n : Nat) : RealVal := toneSample c (c.freqAt i) n

/-- Sample `i` of the burst of a word (R284): both tones at half amplitude (R281), under the Tukey window. -/
def burstSample (c : Cfg) (sa sb : Sym) (i : Nat) : RealVal :=
  let f := sym2freq sa sb
  ((RealVal.rat (1 / 2)).times ((indexTone c f.1 i).plus (indexTone c f.2 i))).times
    (tukeyW i c.w (.rat Config.tukeyAlpha))

/-- `Sig(pos)` of R284: the frame at power 1. -/
def sig (c : Cfg) (y : Synth) (pos : Nat) : RealVal :=
  if pos < c.g then (toneSample c c.gate1 pos).times (hannW pos c.g)
  else if pos < 2 * c.g then (toneSample c c.gate2 (pos - c.g)).times (hannW (pos - c.g) c.g)
  else if y.total ≤ pos then .rat 0
  else
    let q := pos - 2 * c.g
    let w := q / (c.s + c.w)
    let r := q % (c.s + c.w)
    if r < c.s then .rat 0
    else burstSample c (y.sym.getD (2 * w) 0) (y.sym.getD (2 * w + 1) 0) (r - c.s)

/-- The buffer after `GETSAMPLES` (R283): additive (R61). -/
def pulled (c : Cfg) (y : Synth) (buf : List RealVal) (power : RealVal) : List RealVal :=
  memAddRange buf 0 buf.length fun j => power.times (sig c y (y.cursor + j))

/-- `GETSAMPLES` of R283. -/
def State.getSamples (s : State) (buf : List RealVal) (power : RealVal) : Res (State × List RealVal) :=
  if ¬ s.sy.loaded then .error (plainFail .notready)
  else if ¬ s.sy.cursor + buf.length < idxLimit then .error badOperand
  else .ok ({ s with sy := { s.sy with cursor := s.sy.cursor + buf.length } }, pulled s.cfg s.sy buf power)

/-- `SETPAYLOAD` (R282). -/
def execSetpayload (s : State) : Host.Outcome State Fault Refusal :=
  hostOp s fun o => do
    let payload ← o.bytes 0
    let level ← o.int 0
    let crc ← o.bit 1
    let r ← s.setPayload payload level crc
    return (r.1, ⟨[.int r.2], []⟩)

/-- `GETSAMPLES` (R283). -/
def execGetsamples (s : State) : Host.Outcome State Fault Refusal :=
  hostOp s fun o => do
    let buf ← o.reals 0
    let power ← o.real 0
    let r ← s.getSamples buf power
    return (r.1, ⟨[], [.reals r.2]⟩)

end Sys2Proof.Machine
end

