-- ==== Sys2Proof/Machine/Demo.lean ====
section
/-! DEFINITION. The loop-back self test: spec/49_demo.md, operation `DEMO` (R301). -/

namespace Sys2Proof.Machine

/-- The payload of the scenario of R300. -/
def demoPayload : List Byte := [1, 2, 3, 4, 5]

/-- A sequence cut into `cnt` chunks of `size`, the last one short (R301). -/
def chunksOf (size : Nat) : Nat → List RealVal → List (List RealVal)
  | 0, _ => []
  | cnt + 1, xs => xs.take size :: chunksOf size cnt (xs.drop size)

/-- The chunks pushed one after another; the flag is `seen` (R301). -/
def State.pushAll (s : State) : List (List RealVal) → Bool → Res (State × Bool)
  | [], seen => .ok (s, seen)
  | c :: cs, seen =>
    match s.push c with
    | .error e => .error e
    | .ok (t, ready) => t.pushAll cs (seen || ready)

/-- The result of R301 after the pushes. -/
def demoPass (s : State) (seen : Bool) : Bool :=
  seen && s.dm.payload == some demoPayload && s.dm.fixed == 0

/-- `DEMO` of R301, each line the named operation on the instance itself; `scratch` lives inside the block. -/
def State.demo (s : State) : Res (State × Bool) := do
  let (s1, total) ← s.setPayload demoPayload s.cfg.deflev true
  let (s2, scratch) ← s1.getSamples (List.replicate total (.rat 0)) (.rat 1)
  let s3 := s2.softReset
  let (s4, seen) ← s3.pushAll (chunksOf s.cfg.maxwin (ceilDiv total s.cfg.maxwin) scratch) false
  return (s4, demoPass s4 seen)

/-- `DEMO` (R301). -/
def execDemo (s : State) : Host.Outcome State Fault Refusal :=
  hostOp s fun _ => do
    let r ← s.demo
    return (r.1, ⟨[bitSlot r.2], []⟩)

end Sys2Proof.Machine
end

