-- ==== Sys2Proof/Machine/Dispatch.lean ====
section
/-! DEFINITION. The dispatch: one arm per operation of spec/30_encoding.md R90. -/

namespace Sys2Proof.Machine

/-- The meaning of an operation at a state whose next command carries its operands. -/
def exec (i : Instr) (s : State) : Host.Outcome State Fault Refusal :=
  match i with
  | .crc16 => Sys2Proof.Machine.execCrc16 s
  | .chk8 => Sys2Proof.Machine.execChk8 s
  | .rsenc => Sys2Proof.Machine.execRsenc s
  | .rsdec => Sys2Proof.Machine.execRsdec s
  | .ilv => Sys2Proof.Machine.execIlv s
  | .dilv => Sys2Proof.Machine.execDilv s
  | .hdrenc => Sys2Proof.Machine.execHdrenc s
  | .hdrdec => Sys2Proof.Machine.execHdrdec s
  | .fcenc => Sys2Proof.Machine.execFcenc s
  | .fcdec => Sys2Proof.Machine.execFcdec s
  | .fcencb => Sys2Proof.Machine.execFcencb s
  | .gzinit => Sys2Proof.Machine.execGzinit s
  | .gzproc => Sys2Proof.Machine.execGzproc s
  | .gzrms => Sys2Proof.Machine.execGzrms s
  | .gzreset => Sys2Proof.Machine.execGzreset s
  | .logpow => Sys2Proof.Machine.execLogpow s
  | .hann => Sys2Proof.Machine.execHann s
  | .tukey => Sys2Proof.Machine.execTukey s
  | .tone => Sys2Proof.Machine.execTone s
  | .trgpush => Sys2Proof.Machine.execTrgpush s
  | .trgreset => Sys2Proof.Machine.execTrgreset s
  | .trgmaxwin => Sys2Proof.Machine.execTrgmaxwin s
  | .trgsetcb => Sys2Proof.Machine.execTrgsetcb s
  | .sym2freq => Sys2Proof.Machine.execSym2freq s
  | .argmax => Sys2Proof.Machine.execArgmax s
  | .pushf => Sys2Proof.Machine.execPushf s
  | .pushi => Sys2Proof.Machine.execPushi s
  | .getpayload => Sys2Proof.Machine.execGetpayload s
  | .getmaxwin => Sys2Proof.Machine.execGetmaxwin s
  | .reset => Sys2Proof.Machine.execReset s
  | .getfixed => Sys2Proof.Machine.execGetfixed s
  | .setcb => Sys2Proof.Machine.execSetcb s
  | .setpayload => Sys2Proof.Machine.execSetpayload s
  | .getsamples => Sys2Proof.Machine.execGetsamples s
  | .demo => Sys2Proof.Machine.execDemo s

end Sys2Proof.Machine
end

