-- ==== Sys2Proof/Machine/Step.lean ====
section
/-! DEFINITION. One step: the next command of the port is fetched, decoded and performed (spec/30_encoding.md R88,
spec/20_memory.md R64). -/

namespace Sys2Proof.Machine

/-- One step. With no command issued the block is idle and keeps all state (spec/60_exceptions.md R323). An opcode
the decoder rejects answers `E_ILLEGAL` and changes no state (R91). -/
def step (s : State) : Host.Outcome State Fault Refusal :=
  match s.fetch with
  | none => .next s
  | some op =>
    match decode [op] with
    | .ok (i, _) => exec i s
    | .error _ => .next (s.raise (plainFail .illegal))

/-- The state with a command word placed where `step` fetches: as the word of the next command, whose operand
record stays as it is (an empty one where no command is issued). -/
def State.withFetchWord (s : State) (nbits w : Nat) : State :=
  let op : Byte := (tableBytes nbits w).headD 0
  match s.port.pending with
  | [] => { s with port := { s.port with pending := [{ op := op, x := [], b := [] }] } }
  | c :: rest => { s with port := { s.port with pending := { c with op := op } :: rest } }

end Sys2Proof.Machine
end

