-- ==== Sys2Proof/Safety.lean ====
section
/-! DEFINITION. What counts as a safe run, in the terms the statements use: how an operation ends, the numbers behind
the real results, and the invariants that hold between operations (spec/10_state.md R32, R33, R36 to R43). -/

namespace Sys2Proof

/-- Two sequences of one length differ in this position only, and there they do differ. -/
def DifferOnlyAt {α : Type} (a b : List α) (i : Nat) : Prop :=
  a.length = b.length ∧ a[i]? ≠ b[i]? ∧ ∀ j, j ≠ i → a[j]? = b[j]?

end Sys2Proof

namespace Sys2Proof.Machine

/-! ### How an operation ends -/

/-- An operation completes: a next state, neither a fault nor a refusal. -/
def Completes (o : Host.Outcome State Fault Refusal) : Prop := ∃ t, o = .next t

/-- The host commands of the receive side (spec/46_demodulator.md). -/
def DecodeSide (i : Instr) : Prop :=
  i = .pushf ∨ i = .pushi ∨ i = .getpayload ∨ i = .getmaxwin ∨ i = .reset ∨ i = .getfixed ∨ i = .setcb

/-- The host commands of the transmit side (spec/48_synthesizer.md). -/
def EncodeSide (i : Instr) : Prop := i = .setpayload ∨ i = .getsamples

/-- The streams `FCDEC` can be asked to decode (R146, R132): a legal block shape, a last block with at least one data
symbol and an even number of them, and room for the two CRC bytes when there is a CRC. -/
def StreamShape (n b p : Nat) (crc : Bool) : Prop :=
  (1 ≤ p ∧ p < b ∧ b ≤ 15 ∧ (b - p) % 2 = 0) ∧
  (0 < n → p < n - ((n + b - 1) / b - 1) * b ∧ (n - ((n + b - 1) / b - 1) * b - p) % 2 = 0) ∧
  (crc = true → 4 ≤ n - (n + b - 1) / b * p)

/-- Chunks pushed one after another, each to its end: the state after them and whether any push was ready
(R234). -/
def State.pushEach (s : State) : List (List RealVal) → State × Bool
  | [] => (s, false)
  | c :: cs =>
    let r := s.pushSamples c
    let q := r.1.pushEach cs
    (q.1, r.2 || q.2)

/-! ### The trigger while it scans (R37 to R39, R188) -/

/-- The relations that hold of a record that has scanned `t.n` samples since its reset without a detection: both
analyzers of a lane hold the position in the lane's window, the windows counted are those that have ended, and the
histories hold the last 18 levels. -/
structure TrState.Scanning (c : Cfg) (t : TrState) : Prop where
  found : t.found = none
  lane00 : t.lane0.q0.n = t.n % c.trgA
  lane01 : t.lane0.q1.n = t.n % c.trgA
  lane10 : t.lane1.q0.n = (t.n - c.trgH) % c.trgA
  lane11 : t.lane1.q1.n = (t.n - c.trgH) % c.trgA
  windows : t.m = t.n / c.trgH - 1
  hist0 : t.hist0.length = min t.m Config.trgK
  hist1 : t.hist1.length = min t.m Config.trgK

/-- The lower median of a sequence of levels (R192): a level of the sequence that, in increasing order, stands at index
`(len - 1) div 2`. -/
def LowerMedian (l : Level) (ls : List Level) : Prop :=
  l ∈ ls ∧ ls.countP (fun x => Level.lt x l) ≤ (ls.length - 1) / 2 ∧
    (ls.length - 1) / 2 < ls.countP (fun x => !Level.lt l x)

/-- `delta` of R194, over the real numbers. -/
noncomputable def deltaReal : Level → Level → Level → ℝ
  | .fin a, .fin b, .fin c =>
    let d := a.toReal - 2 * b.toReal + c.toReal
    if d = 0 then 0 else max (-1 / 2) (min (1 / 2) (1 / 2 * (a.toReal - c.toReal) / d))
  | _, _, _ => 0

/-- `L_q[v]` of R191 after window `w` has completed. -/
def levelOf (hist : List Level) (w v : Nat) : Option Level := hist[hist.length - 1 - (w - v)]?

/-- R193 to R195 read as a relation on the record that window `w` has just completed: the tests hold of the levels, and
`t0` is the index that R195 gives. -/
def TrState.Decides (c : Cfg) (t : TrState) (w t0 : Nat) : Prop :=
  7 ≤ w ∧ ∃ la lb lc l0 b0 b1 : Level,
    levelOf t.hist1 w (w - 2) = some la ∧ levelOf t.hist1 w (w - 1) = some lb ∧ levelOf t.hist1 w w = some lc ∧
    levelOf t.hist0 w (w - 7) = some l0 ∧ LowerMedian b0 t.hist0 ∧ LowerMedian b1 t.hist1 ∧
    (Level.lt la lb = true ∧ Level.lt lb lc = false) ∧
    Level.lt (b1.addDb c.snr) lb = true ∧ Level.lt (b0.addDb c.snr) l0 = true ∧
    (t0 : ℤ) = t.base + ⌊((w : ℝ) - 1) * c.trgH + deltaReal la lb lc * c.trgH + ((c.trgA : ℝ) + c.g) / 2 + 1 / 2⌋

/-! ### The session while it parses (R32, R33, R225) -/

/-- The size of the buffer the session fills (R32): 8 for the header, `NSYM` of the header's fields for the
payload. -/
def Session.NeedRight (c : Cfg) (ss : Session) : Prop :=
  match ss.phase with
  | .header => ss.need = Config.hdrSyms
  | .payload h => ∃ bp, c.eccAt h.level.toNat = some bp ∧ ss.need = nsym h.len.toNat bp.1 bp.2 h.crc

/-- The relations that hold of a session when `pushed` samples have been pushed: two symbols for each word, a buffer
that is not full, and every analyzer at the place in its window that the sample count and the tone-start reference
give (R33, R58, R225). -/
structure Session.Timely (c : Cfg) (pushed : Nat) (ss : Session) : Prop where
  words : ss.sym.length = 2 * ss.k
  room : ss.sym.length < ss.need
  even : ss.need % 2 = 0
  needRight : ss.NeedRight c
  analyzers : ∀ f : Fin 32, ss.an[f].n = min (c.winLen f) (pushed - (burstStart c ss + c.winOff f))
  notFull : ∃ f : Fin 32, ss.an[f].n < c.winLen f

/-! ### The invariants -/

/-- The receive side between operations: in `WAITING_TRIGGER` the trigger scans in step with the sample count (R27,
R37), in `PARSING_SYMBOLS` the session is timely (R36); every index it holds or has reported is an `Idx` (R14, R28, R37
to R40, R44, R45). -/
structure State.Timing (s : State) : Prop where
  cfgWf : s.cfg.wf = true
  inRange : s.dm.pushed < idxLimit
  waiting : s.dm.session = none → s.tr.Scanning s.cfg ∧ s.tr.base + s.tr.n = s.dm.pushed
  parsing : ∀ ss, s.dm.session = some ss → ss.Timely s.cfg s.dm.pushed
  start : ∀ ss, s.dm.session = some ss → ss.t0 < idxLimit
  trigger : s.tr.inRange = true
  events : ∀ t0, .trig t0 ∈ s.evt → t0 < idxLimit

/-- The bounds of `DM.fixed` (R34) and of `DM.payload` (R35): no correction is counted before the header decodes, one
at most by the header, 1543 at most in all. -/
structure State.Bounds (s : State) : Prop where
  fixedMax : s.dm.fixed.toNat ≤ 1543
  fixedHeader : ∀ ss, s.dm.session = some ss → ss.phase = .header → s.dm.fixed = 0
  fixedPayload : ∀ ss h, s.dm.session = some ss → ss.phase = .payload h → s.dm.fixed.toNat ≤ 1
  payloadLen : ∀ p, s.dm.payload = some p → p.length ≤ Config.maxLen

/-- The synthesizer between operations (R42, R43): a loaded frame has an even number of symbols, at least the
header's eight, and the length of R75; before that everything is at its reset value. -/
structure State.SynthWf (s : State) : Prop where
  inRange : s.sy.cursor < idxLimit
  totalInRange : s.sy.total < idxLimit
  whenLoaded : s.sy.loaded = true →
    s.sy.sym.length % 2 = 0 ∧ Config.hdrSyms ≤ s.sy.sym.length ∧ s.sy.total = frameTotal s.cfg s.sy.sym.length
  unloaded : s.sy.loaded = false → s.sy = { sym := [], cursor := 0, total := 0, loaded := false }

end Sys2Proof.Machine
end

