-- ==== Sys2Proof/Certificates/Slice0/Obligations.lean ====
section
/-! DEFINITION. The statements for the provers. Each docstring names the rules of spec/ it rests on and, where a
clause is the model's own convention, the log entry. Operand records are those of spec/30_encoding.md R90 as R88
lays them out. -/

section
open Sys2Proof Sys2Proof.Machine

/-! ### Encoding and step -/

/-- R90, R92: the decoder reads the one byte of a command, gives back the operation it stands for and leaves the rest;
and it reads an operation from nothing else. -/
def Obligations.DecodeAndEncodeAgree : Prop :=
  (∀ (i : Instr) (rest : List Byte), decode (encode i ++ rest) = .ok (i, rest)) ∧
  (∀ (bs : List Byte) (i : Instr) (rest : List Byte), decode bs = .ok (i, rest) → bs = encode i ++ rest) ∧
  (∀ i : Instr, decodeTableWord 8 (opcode i).toNat = some i)

/-- R90: words written out bit by bit from the opcode column decode to the operation of their row. -/
def Obligations.WrittenOutWordsDecode : Prop :=
  decodeOp 0b00010000#8 = some .crc16 ∧ decodeOp 0b00010011#8 = some .rsdec ∧
  decodeOp 0b00011010#8 = some .fcencb ∧ decodeOp 0b00100001#8 = some .gzproc ∧
  decodeOp 0b00110010#8 = some .tone ∧ decodeOp 0b01000011#8 = some .trgsetcb ∧
  decodeOp 0b01010001#8 = some .argmax ∧ decodeOp 0b01100010#8 = some .getpayload ∧
  decodeOp 0b01110001#8 = some .getsamples ∧ decodeOp 0b01111111#8 = some .demo

/-- R64, R88: a step fetches the host's next command and is `exec` of the operation it decodes to; with no command
issued the block is idle and keeps all state (R323). The command list is the model's own (log 4). -/
def Obligations.StepRunsTheDecodedOperation : Prop :=
  (∀ (s : State) (c : Command) (rest : List Command) (i : Instr),
    s.port.pending = c :: rest → decode [c.op] = .ok (i, []) → step s = exec i s) ∧
  (∀ s : State, s.port.pending = [] → step s = .next s) ∧
  (∀ (s : State) (i : Instr),
    step (s.withFetchWord 8 (opcode i).toNat) = exec i (s.withFetchWord 8 (opcode i).toNat))

/-- R91: every opcode that R90 does not list answers `E_ILLEGAL` (code 8) with no result and no change of state; the
two ranges R91 names hold no opcode of R90. -/
def Obligations.IllegalOpcodeIsRefused : Prop :=
  (∀ (s : State) (c : Command) (rest : List Command),
    s.port.pending = c :: rest → (∀ i : Instr, c.op ≠ opcode i) →
    ∃ t, step s = .next t ∧ t.port = { pending := rest, answer := some ⟨8, [], []⟩ } ∧
      t.cfg = s.cfg ∧ t.dm = s.dm ∧ t.tr = s.tr ∧ t.sy = s.sy ∧ t.evt = s.evt) ∧
  (∀ (op : Byte) (i : Instr), op.toNat ≤ 0x0F ∨ 0x80 ≤ op.toNat → op ≠ opcode i)

/-! ### Whole-machine rules -/

/-- R88, R311, R24: every operation in every state ends with a status, one of the codes 0 to 8; its command is then
done, and the configuration is as before. -/
def Obligations.EveryOperationAnswers : Prop :=
  ∀ (i : Instr) (s : State), ∃ t a, exec i s = .next t ∧
    t.port = { pending := s.port.pending.tail, answer := some a } ∧ a.st.toNat ≤ 8 ∧ t.cfg = s.cfg

/-- R314, R312, R313: an operation that ends with a condition changes no state element, no buffer and no event; only
the port's answer tells of it. -/
def Obligations.RefusedOperationChangesNothing : Prop :=
  ∀ (i : Instr) (s t : State) (a : Answer), exec i s = .next t → t.port.answer = some a → a.st ≠ 0 →
    t = s.answerWith a ∧ a.b = []

/-- R89: a unit operation is a pure function of its operands and of `CFG`: it changes no instance state, and its
answer is the same in every state with the same operands and configuration. -/
def Obligations.UnitOperationsArePure : Prop :=
  ∀ (i : Instr) (s : State), i.format = .U → ∃ a, exec i s = .next (s.answerWith a) ∧
    ∀ s' : State, s'.cfg = s.cfg → s'.operands = s.operands → exec i s' = .next (s'.answerWith a)

/-- R239: the receive commands neither read nor write `SY`, and the transmit commands neither read nor write `DM`,
`TR` and `EVT`: replacing the other side's state before an operation or after it is the same. -/
def Obligations.ReceiveAndTransmitAreIndependent : Prop :=
  (∀ (i : Instr) (s t : State) (y : Synth), DecodeSide i → exec i s = .next t →
    t.sy = s.sy ∧ exec i { s with sy := y } = .next { t with sy := y }) ∧
  (∀ (i : Instr) (s t : State) (d : Demod) (r : TrState) (e : List Event), EncodeSide i → exec i s = .next t →
    t.dm = s.dm ∧ t.tr = s.tr ∧ t.evt = s.evt ∧
      exec i { s with dm := d, tr := r, evt := e } = .next { t with dm := d, tr := r, evt := e })

/-- R45, R41, R196: no operation takes an event back, none adds one while notification is disabled, and no operation
but `SETCB` writes the enable. -/
def Obligations.EventsOnlyGrowAndNeedTheEnable : Prop :=
  ∀ (i : Instr) (s t : State), exec i s = .next t →
    s.evt <+: t.evt ∧ (s.tr.cben = false → t.evt = s.evt) ∧ (i ≠ .setcb → t.tr.cben = s.tr.cben)

/-- R20 to R45 by their writers: which operations may change the demodulator, the trigger, the synthesizer and the
events; and a payload once held is dropped by `RESET` (and `DEMO`, which contains one) only (R35). -/
def Obligations.EveryStateElementHasItsWriters : Prop :=
  ∀ (i : Instr) (s t : State), exec i s = .next t →
    (t.dm ≠ s.dm → i = .pushf ∨ i = .pushi ∨ i = .reset ∨ i = .demo) ∧
    (t.tr ≠ s.tr → i = .pushf ∨ i = .pushi ∨ i = .reset ∨ i = .setcb ∨ i = .demo) ∧
    (t.sy ≠ s.sy → i = .setpayload ∨ i = .getsamples ∨ i = .demo) ∧
    (t.evt ≠ s.evt → i = .pushf ∨ i = .pushi ∨ i = .demo) ∧
    (s.dm.payvalid = true → t.dm.payvalid = false → i = .reset ∨ i = .demo)

/-! ### Checksums -/

/-- R120, R122, R125: both operations complete on every byte sequence, with the register that starts at 0 and takes
each byte in by eight shift steps; a buffer with an element that is no byte is refused. -/
def Obligations.ChecksumOperationsComplete : Prop :=
  (∀ (s : State) (bs : List Byte), s.operands = ⟨[], [bytesBuf bs]⟩ →
    exec .crc16 s = .next (s.ret ⟨[.int (crc16 bs).toNat], []⟩) ∧
    exec .chk8 s = .next (s.ret ⟨[.int (chk8 bs).toNat], []⟩)) ∧
  (∀ (s : State) (x : List Slot) (vs : List Int), s.operands = ⟨x, [.ints vs]⟩ → (∃ v ∈ vs, v < 0 ∨ 255 < v) →
    exec .crc16 s = .next (s.raise badOperand) ∧ exec .chk8 s = .next (s.raise badOperand)) ∧
  crc16 [] = 0 ∧ chk8 [] = 0 ∧
  (∀ (bs : List Byte) (b : Byte),
    crc16 (bs ++ [b]) = (List.range 8).foldl
      (fun c _ => if c.getLsbD 0 then (c >>> 1) ^^^ 0xA001#16 else c >>> 1) (crc16 bs ^^^ b.setWidth 16) ∧
    chk8 (bs ++ [b]) = (List.range 8).foldl
      (fun c _ => if c.getLsbD 0 then (c >>> 1) ^^^ 0x8C#8 else c >>> 1) (chk8 bs ^^^ b))

/-- R127: both checksums are linear over inputs of one length. R125: a sequence with its own `CHK8` appended has
checksum 0. R122 and spec/95_test_vectors.md section 2.2: so has one with its CRC16 appended low byte first. -/
def Obligations.ChecksumLaws : Prop :=
  (∀ a b : List Byte, a.length = b.length →
    crc16 (List.zipWith (· ^^^ ·) a b) = crc16 a ^^^ crc16 b ∧
    chk8 (List.zipWith (· ^^^ ·) a b) = chk8 a ^^^ chk8 b) ∧
  (∀ bs : List Byte, chk8 (bs ++ [chk8 bs]) = 0) ∧
  (∀ bs : List Byte, crc16 (bs ++ [(crc16 bs).extractLsb' 0 8, (crc16 bs).extractLsb' 8 8]) = 0)

/-! ### The field and the Reed-Solomon code -/

/-- R102, R103: exponents of `alpha` add in a product, every element but 0 has its inverse, and the product is
commutative, associative and distributes over `^^^`. -/
def Obligations.FieldArithmetic : Prop :=
  (∀ i j : Nat, gmul (alphaPow i) (alphaPow j) = alphaPow (i + j)) ∧
  (∀ a : Sym, a ≠ 0 → ∃ e < 15, a = alphaPow e ∧ ginv a = some (alphaPow (15 - e)) ∧
    gmul a (alphaPow (15 - e)) = 1) ∧
  (∀ a b : Sym, gmul a b = gmul b a) ∧
  (∀ a b c : Sym, gmul (gmul a b) c = gmul a (gmul b c) ∧ gmul a (b ^^^ c) = gmul a b ^^^ gmul a c)

/-- R108: `RSENC` completes on legal operands with the data followed by `P` parity symbols, and is refused
otherwise; so is an element that is no symbol (R51). -/
def Obligations.RsencCompletes : Prop :=
  (∀ (s : State) (x : List Slot) (vs : List Int), s.operands = ⟨x, [.ints vs]⟩ → (∃ v ∈ vs, v < 0 ∨ 15 < v) →
    exec .rsenc s = .next (s.raise badOperand)) ∧
  ∀ (s : State) (data : List Sym) (p : Nat), s.operands = ⟨[.int p], [symsBuf data]⟩ →
    (1 ≤ p ∧ data.length + p ≤ 15 →
      exec .rsenc s = .next (s.ret ⟨[], [symsBuf (data ++ rsParity data p)]⟩) ∧ (rsParity data p).length = p) ∧
    (¬(1 ≤ p ∧ data.length + p ≤ 15) → exec .rsenc s = .next (s.raise badOperand))

/-- R108, R106, R105: the result of `RSENC` is the one member of `C(d + P, P)` whose first `d` symbols are the
data. -/
def Obligations.RsencGivesTheOneCodeword : Prop :=
  ∀ (data : List Sym) (p : Nat), 1 ≤ p → data.length + p ≤ 15 →
    isCodeword (rsEnc data p) p = true ∧
    ∀ w : List Sym, w.length = data.length + p → w.take data.length = data → isCodeword w p = true →
      w = rsEnc data p

/-- R108: `RSENC` is linear for data of one length. -/
def Obligations.RsencIsLinear : Prop :=
  ∀ (a b : List Sym) (p : Nat), a.length = b.length → 1 ≤ p → a.length + p ≤ 15 →
    rsEnc (List.zipWith (· ^^^ ·) a b) p = List.zipWith (· ^^^ ·) (rsEnc a p) (rsEnc b p)

/-- R110: `RSDEC` refuses a bad shape; else it returns what the decoder finds or raises `E_UNCORRECTABLE`; a word
that is a code word comes back with no change counted. R51: an element that is no symbol is refused. -/
def Obligations.RsdecCompletes : Prop :=
  (∀ (s : State) (x : List Slot) (vs : List Int), s.operands = ⟨x, [.ints vs]⟩ → (∃ v ∈ vs, v < 0 ∨ 15 < v) →
    exec .rsdec s = .next (s.raise badOperand)) ∧
  ∀ (s : State) (word : List Sym) (p : Nat), s.operands = ⟨[.int p], [symsBuf word]⟩ →
    (1 ≤ p → p < word.length → word.length ≤ 15 → isCodeword word p = true →
      exec .rsdec s = .next (s.ret ⟨[.int 0], [symsBuf word]⟩)) ∧
    (1 ≤ p → p < word.length → word.length ≤ 15 → ∀ cw n, rsDec word p = some (cw, n) →
      exec .rsdec s = .next (s.ret ⟨[.int n], [symsBuf cw]⟩)) ∧
    (1 ≤ p → p < word.length → word.length ≤ 15 → rsDec word p = none →
      exec .rsdec s = .next (s.raise ⟨.uncorrectable, []⟩)) ∧
    (¬(1 ≤ p ∧ p < word.length ∧ word.length ≤ 15) → exec .rsdec s = .next (s.raise badOperand))

/-- R110, R111: what `RSDEC` returns is a code word of the same length, at the reported distance from the word
received, and that distance is within the correction radius. -/
def Obligations.RsdecIsSound : Prop :=
  ∀ (word cw : List Sym) (p n : Nat), 1 ≤ p → p < word.length → word.length ≤ 15 → rsDec word p = some (cw, n) →
    cw.length = word.length ∧ isCodeword cw p = true ∧ hamming cw word = n ∧ n ≤ p / 2

/-- R110: whenever a code word lies within the correction radius, `RSDEC` returns it with the distance, and where none
lies there it gives up. -/
def Obligations.RsdecMeetsTheRelation : Prop :=
  ∀ (word : List Sym) (p : Nat), 1 ≤ p → p < word.length → word.length ≤ 15 →
    (∀ c : List Sym, c.length = word.length → isCodeword c p = true → hamming c word ≤ p / 2 →
      rsDec word p = some (c, hamming c word)) ∧
    ((∀ c : List Sym, c.length = word.length → isCodeword c p = true → p / 2 < hamming c word) →
      rsDec word p = none)

/-- R110 at `P = 2` (the shape of the header, R80): one wrong symbol anywhere in a code word of any legal length is
corrected and counted once, whatever its bits (R113). -/
def Obligations.TwoParitySymbolsCorrectOneError : Prop :=
  ∀ (cw : List Sym) (i : Nat) (e : Sym), 2 < cw.length → cw.length ≤ 15 → isCodeword cw 2 = true →
    i < cw.length → e ≠ 0 → rsDec (cw.set i (cw.getD i 0 ^^^ e)) 2 = some (cw, 1)

/-! ### Frame codec -/

/-- R143: interleave and deinterleave are mutual inverses for every length and every block size from 1 on. -/
def Obligations.InterleaverIsInvertible : Prop :=
  ∀ (syms : List Sym) (b : Nat), 1 ≤ b → dilv (ilv syms b) b = syms ∧ ilv (dilv syms b) b = syms

/-- R142: the closed form of the interleave; with one block or none it does nothing. R147: two symbols of one block are
at least `n div B` apart in the interleaved stream. -/
def Obligations.InterleaverPositions : Prop :=
  (∀ (syms : List Sym) (b i j : Nat), 1 ≤ b → j < b → i * b + j < syms.length →
    (ilv syms b)[j * (syms.length / b) + min j (syms.length % b) + i]? = syms[i * b + j]?) ∧
  (∀ (syms : List Sym) (b : Nat), 1 ≤ b →
    (ilv syms b).length = syms.length ∧ (syms.length ≤ b → ilv syms b = syms)) ∧
  (∀ n b k1 k2 c1 c2 : Nat, 1 ≤ b → (ilvOrder n b)[k1]? = some c1 → (ilvOrder n b)[k2]? = some c2 →
    k1 < k2 → k2 < k1 + n / b → c1 / b ≠ c2 / b)

/-- R142, R143: `ILV` and `DILV` complete for block sizes 1 to 65535 and refuse 0. That a block size above 65535 is
refused too is the model's reading of the operand's type (log 13, with R88), not a test that R142 or R143 writes out. R51: an element that is no symbol is refused. -/
def Obligations.InterleaveOperationsComplete : Prop :=
  (∀ (s : State) (x : List Slot) (vs : List Int), s.operands = ⟨x, [.ints vs]⟩ → (∃ v ∈ vs, v < 0 ∨ 15 < v) →
    exec .ilv s = .next (s.raise badOperand) ∧ exec .dilv s = .next (s.raise badOperand)) ∧
  ∀ (s : State) (syms : List Sym) (b : Nat), s.operands = ⟨[.int b], [symsBuf syms]⟩ →
    (1 ≤ b ∧ b ≤ 65535 →
      exec .ilv s = .next (s.ret ⟨[], [symsBuf (ilv syms b)]⟩) ∧
      exec .dilv s = .next (s.ret ⟨[], [symsBuf (dilv syms b)]⟩)) ∧
    (¬(1 ≤ b ∧ b ≤ 65535) →
      exec .ilv s = .next (s.raise badOperand) ∧ exec .dilv s = .next (s.raise badOperand))

/-- R133, R134: the header operations. `HDRENC` lays out length, level and flag and appends their checksum; an operand
out of range, the flag among them, is refused. `HDRDEC` tests the length of its operand, then the checksum, then the
level, and ignores the reserved bits; an element of the operand that is no byte is refused. -/
def Obligations.HeaderOperationsComplete : Prop :=
  (∀ (s : State) (len level : Nat) (crc : Bool), s.cfg.wf = true →
    s.operands = ⟨[.int len, .int level, bitSlot crc], []⟩ →
    (len ≤ 255 ∧ level < s.cfg.nlev →
      exec .hdrenc s = .next (s.ret ⟨[], [.ints [(len : Int), ((8 * crc.toNat + level : Nat) : Int),
        ((chk8 [BitVec.ofNat 8 len, BitVec.ofNat 8 (8 * crc.toNat + level)]).toNat : Int)]]⟩)) ∧
    (¬(len ≤ 255 ∧ level < s.cfg.nlev) → exec .hdrenc s = .next (s.raise badOperand))) ∧
  (∀ (s : State) (len level flag : Nat), s.operands = ⟨[.int len, .int level, .int flag], []⟩ → 1 < flag →
    exec .hdrenc s = .next (s.raise badOperand)) ∧
  (∀ (s : State) (b0 b1 b2 : Byte), s.operands = ⟨[], [bytesBuf [b0, b1, b2]]⟩ →
    (chk8 [b0, b1] = b2 ∧ b1.toNat % 4 < s.cfg.nlev →
      exec .hdrdec s = .next
        (s.ret ⟨[.int b0.toNat, .int (b1.toNat % 4), .int (b1.toNat / 8 % 2)], []⟩)) ∧
    (¬(chk8 [b0, b1] = b2 ∧ b1.toNat % 4 < s.cfg.nlev) → exec .hdrdec s = .next (s.raise ⟨.hdrchk, []⟩))) ∧
  (∀ (s : State) (bs : List Byte), s.operands = ⟨[], [bytesBuf bs]⟩ → bs.length ≠ 3 →
    exec .hdrdec s = .next (s.raise badOperand)) ∧
  (∀ (s : State) (x : List Slot) (vs : List Int), s.operands = ⟨x, [.ints vs]⟩ → (∃ v ∈ vs, v < 0 ∨ 255 < v) →
    exec .hdrdec s = .next (s.raise badOperand))

/-- R80, R134, R135: the eight transmitted header symbols decode to the three header bytes, and those to the fields; one
wrong symbol among the eight is corrected and counted. -/
def Obligations.HeaderSurvivesOneWrongSymbol : Prop :=
  ∀ (c : Cfg) (len level : Nat) (crc : Bool), c.wf = true → len ≤ 255 → level < c.nlev →
    fcDec (headerSyms len level crc) 8 2 false =
      .done (hdrEnc (BitVec.ofNat 8 len) (BitVec.ofNat 2 level) crc) 0 ∧
    hdrDec c (hdrEnc (BitVec.ofNat 8 len) (BitVec.ofNat 2 level) crc) =
      .ok { len := BitVec.ofNat 8 len, level := BitVec.ofNat 2 level, crc := crc } ∧
    ∀ (hs : List Sym) (i : Nat), DifferOnlyAt hs (headerSyms len level crc) i →
      fcDec hs 8 2 false = .done (hdrEnc (BitVec.ofNat 8 len) (BitVec.ofNat 2 level) crc) 1

/-- R144, R145, R140, R318: `FCENCB` and `FCENC` complete on legal operands with `NSYM` symbols; a bad shape, level or
flag is refused before an over-long payload; so is an element that is no byte (R88). -/
def Obligations.EncodeOperationsComplete : Prop :=
  (∀ (s : State) (x : List Slot) (vs : List Int), s.operands = ⟨x, [.ints vs]⟩ → (∃ v ∈ vs, v < 0 ∨ 255 < v) →
    exec .fcenc s = .next (s.raise badOperand) ∧ exec .fcencb s = .next (s.raise badOperand)) ∧
  (∀ (s : State) (payload : List Byte) (b p : Nat) (crc : Bool),
    s.operands = ⟨[.int b, .int p, bitSlot crc], [bytesBuf payload]⟩ →
    (1 ≤ p ∧ p < b ∧ b ≤ 15 ∧ (b - p) % 2 = 0 → payload.length ≤ 255 →
      exec .fcencb s = .next (s.ret ⟨[], [symsBuf (fcEncode payload b p crc)]⟩) ∧
      (fcEncode payload b p crc).length = nsym payload.length b p crc) ∧
    (1 ≤ p ∧ p < b ∧ b ≤ 15 ∧ (b - p) % 2 = 0 → 255 < payload.length →
      exec .fcencb s = .next (s.raise ⟨.length, []⟩)) ∧
    (¬(1 ≤ p ∧ p < b ∧ b ≤ 15 ∧ (b - p) % 2 = 0) → exec .fcencb s = .next (s.raise badOperand))) ∧
  (∀ (s : State) (payload : List Byte) (level : Nat) (crc : Bool), s.cfg.wf = true →
    s.operands = ⟨[.int level, bitSlot crc], [bytesBuf payload]⟩ →
    (∀ b p, s.cfg.eccAt level = some (b, p) → payload.length ≤ 255 →
      exec .fcenc s = .next (s.ret ⟨[], [symsBuf (fcEncode payload b p crc)]⟩)) ∧
    (level < s.cfg.nlev → 255 < payload.length → exec .fcenc s = .next (s.raise ⟨.length, []⟩)) ∧
    (s.cfg.nlev ≤ level → exec .fcenc s = .next (s.raise badOperand))) ∧
  (∀ (s : State) (payload : List Byte) (b p level flag : Nat), 1 < flag →
    (s.operands = ⟨[.int b, .int p, .int flag], [bytesBuf payload]⟩ →
      exec .fcencb s = .next (s.raise badOperand)) ∧
    (s.operands = ⟨[.int level, .int flag], [bytesBuf payload]⟩ → exec .fcenc s = .next (s.raise badOperand)))

/-- R149: decoding an encoded payload gives it back with nothing corrected, for every legal `(B, P)`, every payload of 0
to 255 bytes and both values of the flag; as the operation `FCDEC` on the result of `FCENCB`. R150: a stream that differs
from the encoding in at most `P div 2` symbols of each block still gives the payload back, with the total number of wrong
symbols as the count. -/
def Obligations.CodecRoundTrip : Prop :=
  ∀ (s : State) (payload : List Byte) (b p : Nat) (crc : Bool),
    1 ≤ p → p < b → b ≤ 15 → (b - p) % 2 = 0 → payload.length ≤ 255 →
    (s.operands = ⟨[.int b, .int p, bitSlot crc], [symsBuf (fcEncode payload b p crc)]⟩ →
      exec .fcdec s = .next (s.ret ⟨[.int 0], [bytesBuf payload]⟩)) ∧
    (∀ syms : List Sym, s.operands = ⟨[.int b, .int p, bitSlot crc], [symsBuf syms]⟩ →
      syms.length = (fcEncode payload b p crc).length →
      (∀ (i : Nat) (got sent : List Sym), (blocksOf b (dilv syms b))[i]? = some got →
        (blocksOf b (dilv (fcEncode payload b p crc) b))[i]? = some sent → hamming got sent ≤ p / 2) →
      exec .fcdec s = .next (s.ret ⟨[.int (hamming syms (fcEncode payload b p crc))], [bytesBuf payload]⟩))

/-- R151: a valid encoding of bytes whose last two are not the CRC16 of the rest, high byte first (R52), gives `E_CRC`
with nothing corrected. -/
def Obligations.WrongCrcIsCaught : Prop :=
  ∀ (s : State) (body : List Byte) (hi lo : Byte) (b p : Nat),
    1 ≤ p → p < b → b ≤ 15 → (b - p) % 2 = 0 → hi ++ lo ≠ crc16 body →
    s.operands = ⟨[.int b, .int p, bitSlot true], [symsBuf (fcEncode (body ++ [hi, lo]) b p false)]⟩ →
    exec .fcdec s = .next (s.raise ⟨.crc, [.int 0]⟩)

/-- R146, R132, D14: everything `FCDEC` answers. A stream of an impossible shape, a flag above 1 and an element that is no
symbol (R51) are refused. It gives up at the first block, in stream order, that `RSDEC` gives up on, and answers the count of the blocks before it. When
every block decodes it answers the count over all blocks, with the bytes of the data symbols, or with a flag the bytes
before a matching CRC16, high byte first, and `E_CRC` where it does not match. The count is a `U32`; what it shows for
`2^32` corrections or more the spec does not say (log 22). -/
def Obligations.FcdecStopsAtTheFirstBadBlock : Prop :=
  (∀ (s : State) (syms : List Sym) (b p : Nat) (crc : Bool),
    s.operands = ⟨[.int b, .int p, bitSlot crc], [symsBuf syms]⟩ →
    (StreamShape syms.length b p crc →
      (∀ (good : List (List Sym)) (bad : List Sym) (rest : List (List Sym)) (res : List (List Sym × Nat)),
        blocksOf b (dilv syms b) = good ++ bad :: rest →
        good.map (fun w => rsDec w p) = res.map some → rsDec bad p = none →
        ∃ k : U32, ((res.map Prod.snd).sum < 2 ^ 32 → k.toNat = (res.map Prod.snd).sum) ∧
          exec .fcdec s = .next (s.raise ⟨.uncorrectable, [.int k.toNat]⟩)) ∧
      (∀ (res : List (List Sym × Nat)) (bytes : List Byte),
        (blocksOf b (dilv syms b)).map (fun w => rsDec w p) = res.map some →
        bytes = s2b (res.flatMap fun r => r.1.take (r.1.length - p)) →
        ∃ k : U32, ((res.map Prod.snd).sum < 2 ^ 32 → k.toNat = (res.map Prod.snd).sum) ∧
          (crc = false → exec .fcdec s = .next (s.ret ⟨[.int k.toNat], [bytesBuf bytes]⟩)) ∧
          (crc = true → ∃ (body : List Byte) (hi lo : Byte), bytes = body ++ [hi, lo] ∧
            (hi ++ lo = crc16 body → exec .fcdec s = .next (s.ret ⟨[.int k.toNat], [bytesBuf body]⟩)) ∧
            (hi ++ lo ≠ crc16 body → exec .fcdec s = .next (s.raise ⟨.crc, [.int k.toNat]⟩))))) ∧
    (¬StreamShape syms.length b p crc → exec .fcdec s = .next (s.raise badOperand))) ∧
  (∀ (s : State) (syms : List Sym) (b p flag : Nat), 1 < flag →
    s.operands = ⟨[.int b, .int p, .int flag], [symsBuf syms]⟩ → exec .fcdec s = .next (s.raise badOperand)) ∧
  (∀ (s : State) (x : List Slot) (vs : List Int), s.operands = ⟨x, [.ints vs]⟩ → (∃ v ∈ vs, v < 0 ∨ 15 < v) →
    exec .fcdec s = .next (s.raise badOperand))

/-! ### Analyzer -/

/-- R162, R163, R164, R168: `GZINIT`, `GZRESET` and `GZPROC` on legal operands; `GZPROC` applies the recurrence of R162,
exactly, to the samples of its range in order, refuses a bad range before an overrun, and consumes nothing when refused.
That `GZPROC` tests `f` and `N` like `GZINIT`, and takes a record with `g.n > N` as an overrun, is the model's reading
(log 7). -/
def Obligations.AnalyzerOperationsComplete : Prop :=
  (∀ (s : State) (f : RealVal) (n : Nat) (hw : Bool), s.operands = ⟨[.real f, .int n, bitSlot hw], []⟩ →
    (0 < f.toReal ∧ f.toReal < s.cfg.fs.toReal / 2 ∧ 1 ≤ n ∧ n < idxLimit →
      exec .gzinit s = .next (s.ret ⟨[.gz GzState.zero], []⟩)) ∧
    (¬(0 < f.toReal ∧ f.toReal < s.cfg.fs.toReal / 2 ∧ 1 ≤ n ∧ n < idxLimit) →
      exec .gzinit s = .next (s.raise badOperand))) ∧
  (∀ (s : State) (f : RealVal) (n flag : Nat), s.operands = ⟨[.real f, .int n, .int flag], []⟩ → 1 < flag →
    exec .gzinit s = .next (s.raise badOperand)) ∧
  (∀ (s : State) (g : GzState), s.operands = ⟨[.gz g], []⟩ → g.n < idxLimit →
    exec .gzreset s = .next (s.ret ⟨[.gz GzState.zero], []⟩)) ∧
  (∀ (s : State) (f : RealVal) (n : Nat) (hw : Bool) (g : GzState) (lo hi : Nat) (buf : List RealVal),
    s.operands = ⟨[.real f, .int n, bitSlot hw, .gz g, .int lo, .int hi], [.reals buf]⟩ →
    0 < f.toReal → f.toReal < s.cfg.fs.toReal / 2 → 1 ≤ n → n < idxLimit → g.n < idxLimit → hi < idxLimit →
    (lo ≤ hi ∧ hi ≤ buf.length → g.n + (hi - lo) ≤ n →
      exec .gzproc s = .next (s.ret ⟨[.gz (gzFold s.cfg f n hw g ((buf.drop lo).take (hi - lo)))], []⟩) ∧
      (gzFold s.cfg f n hw g ((buf.drop lo).take (hi - lo))).n = g.n + (hi - lo)) ∧
    (lo ≤ hi ∧ hi ≤ buf.length → n < g.n + (hi - lo) → exec .gzproc s = .next (s.raise ⟨.overrun, []⟩)) ∧
    (¬(lo ≤ hi ∧ hi ≤ buf.length) → exec .gzproc s = .next (s.raise badOperand))) ∧
  (∀ (c : Cfg) (f : RealVal) (n : Nat) (hw : Bool) (g : GzState) (x : RealVal), ∃ s0 : RealVal,
    gzFold c f n hw g [] = g ∧ gzFold c f n hw g [x] = ⟨s0, g.s1, g.n + 1⟩ ∧
    s0.toReal = x.toReal * (if hw then (hannW g.n n).toReal else 1) +
      2 * Real.cos (2 * Real.pi * (f.toReal / c.fs.toReal)) * g.s1.toReal - g.s2.toReal)

/-- R164, R171: splitting a range of `GZPROC`, in one buffer or over two, is invisible. R172: with samples in `[-1, 1]`
the two terms of a record that started at `(0, 0, 0)` are at most `n / sin(omega)` after `n` samples of the window. -/
def Obligations.AnalyzerSplittingIsInvisible : Prop :=
  (∀ (c : Cfg) (f : RealVal) (n : Nat) (hw : Bool) (g : GzState) (buf : List RealVal) (lo mid hi : Nat),
    lo ≤ mid → mid ≤ hi → hi ≤ buf.length →
    gzFold c f n hw g ((buf.drop lo).take (hi - lo)) =
      gzFold c f n hw (gzFold c f n hw g ((buf.drop lo).take (mid - lo))) ((buf.drop mid).take (hi - mid))) ∧
  (∀ (c : Cfg) (f : RealVal) (n : Nat) (hw : Bool) (g : GzState) (xs ys : List RealVal),
    gzFold c f n hw g (xs ++ ys) = gzFold c f n hw (gzFold c f n hw g xs) ys) ∧
  (∀ (c : Cfg) (f : RealVal) (n : Nat) (hw : Bool) (xs : List RealVal), 0 < c.fs.toReal → 0 < f.toReal →
    f.toReal < c.fs.toReal / 2 → xs.length ≤ n → (∀ x ∈ xs, |x.toReal| ≤ 1) →
    |(gzFold c f n hw GzState.zero xs).s1.toReal| ≤
      xs.length / Real.sin (2 * Real.pi * (f.toReal / c.fs.toReal)) ∧
    |(gzFold c f n hw GzState.zero xs).s2.toReal| ≤
      xs.length / Real.sin (2 * Real.pi * (f.toReal / c.fs.toReal)))

/-- R166: `GZRMS` of a full window completes with `sqrt(2 * m2) / N`, where
`m2 = s1^2 + s2^2 - 2 * cos(omega) * s1 * s2` is never negative; a window that is not full is not ready. That `GZRMS`
tests `f` and `N`, and takes a record with `g.n > N` as not ready, is the model's reading (log 7). -/
def Obligations.GzrmsGivesTheMagnitude : Prop :=
  ∀ (s : State) (f : RealVal) (n : Nat) (hw : Bool) (g : GzState) (m2 : ℝ),
    s.operands = ⟨[.real f, .int n, bitSlot hw, .gz g], []⟩ →
    0 < f.toReal → f.toReal < s.cfg.fs.toReal / 2 → 1 ≤ n → n < idxLimit → g.n < idxLimit →
    m2 = g.s1.toReal ^ 2 + g.s2.toReal ^ 2 -
      2 * Real.cos (2 * Real.pi * (f.toReal / s.cfg.fs.toReal)) * g.s1.toReal * g.s2.toReal →
    (g.n = n → ∃ r : RealVal, exec .gzrms s = .next (s.ret ⟨[.real r], []⟩) ∧
      r.toReal = Real.sqrt (2 * m2) / n ∧ 0 ≤ r.toReal ∧ 0 ≤ m2 ∧ r.toReal ^ 2 = 2 * m2 / (n : ℝ) ^ 2) ∧
    (g.n ≠ n → exec .gzrms s = .next (s.raise ⟨.notready, []⟩))

/-- R169: `LOGPOW` completes on every nonnegative real, with `-inf` at 0 and `20 * log10 rms` above, and refuses a
negative operand. -/
def Obligations.LogpowCompletes : Prop :=
  ∀ (s : State) (rms : RealVal), s.operands = ⟨[.real rms], []⟩ →
    (rms.toReal = 0 → exec .logpow s = .next (s.ret ⟨[.level .negInf], []⟩)) ∧
    (0 < rms.toReal → ∃ l : RealVal, exec .logpow s = .next (s.ret ⟨[.level (.fin l)], []⟩) ∧
      l.toReal = 20 * Real.logb 10 rms.toReal) ∧
    (rms.toReal < 0 → exec .logpow s = .next (s.raise badOperand))

/-- R170: finite levels compare as the exact real numbers they stand for, `-inf` is below every one of them and not below
itself; the order is total (neither being below is an equivalence); a finite level plus a real is their sum, and `-inf`
plus a real is `-inf`. -/
def Obligations.LevelComparisonIsExact : Prop :=
  (∀ a b : RealVal, Level.lt (.fin a) (.fin b) = true ↔ a.toReal < b.toReal) ∧
  (∀ a : RealVal, Level.lt .negInf (.fin a) = true ∧ Level.lt (.fin a) .negInf = false) ∧
  Level.lt .negInf .negInf = false ∧
  (∀ a b c : Level,
    (Level.lt a b = true → Level.lt b c = true → Level.lt a c = true) ∧
    (Level.lt a b = false → Level.lt b c = false → Level.lt a c = false)) ∧
  (∀ r : RealVal, Level.addDb .negInf r = .negInf) ∧
  (∀ a r : RealVal, ∃ l : RealVal, Level.addDb (.fin a) r = .fin l ∧ l.toReal = a.toReal + r.toReal)

/-! ### Windows and tone -/

/-- R16, R260: the real operations the rules use are the mathematical ones: `+`, `-`, `*`, `/`, the square root, the
cosine and the sine (of `2 * pi` times an angle in turns), the logarithm to base 10, and the comparisons. R261 (a):
what the implementation at hand shows for a result, and its tone generator for a sine, is within its stated error
(log 5). -/
def Obligations.CosineBehavesAsACosine : Prop :=
  (∀ a b : RealVal, (a.plus b).toReal = a.toReal + b.toReal ∧ (a.minus b).toReal = a.toReal - b.toReal ∧
    (a.times b).toReal = a.toReal * b.toReal ∧ (a.divBy b).toReal = a.toReal / b.toReal) ∧
  (∀ a : RealVal, a.cosOf.toReal = Real.cos (2 * Real.pi * a.toReal) ∧
    a.sinOf.toReal = Real.sin (2 * Real.pi * a.toReal) ∧ a.sqrtOf.toReal = Real.sqrt a.toReal ∧
    a.logOf.toReal = Real.logb 10 a.toReal) ∧
  (∀ a b : RealVal, (RealVal.lt a b = true ↔ a.toReal < b.toReal) ∧ (RealVal.le a b = true ↔ a.toReal ≤ b.toReal) ∧
    (a.isZero = true ↔ a.toReal = 0)) ∧
  (∀ (k : Nat) (v : RealVal), |v.shown k - v.toReal| ≤ implementation.resultError k v) ∧
  (∀ (w : implementation.Format) (n : Nat), |implementation.read (implementation.toneSine w n) -
    Real.sin (implementation.read w * n)| ≤ implementation.toneError w n)

/-- R263, R264: `HANN` and `TUKEY` complete on legal operands with the exact values of their rules: 1 for one sample, else
`0.5 * (1 - cos(2 * pi * i / (N - 1)))`, and the three branches of R264 with their ends. Both lie in `[0, 1]`, are
symmetric and start at 0, and `TUKEY` is `HANN` at `alpha = 1` and 1 at `alpha = 0`. Other operands are refused. -/
def Obligations.WindowOperationsComplete : Prop :=
  (∀ (s : State) (i n : Nat), s.operands = ⟨[.int i, .int n], []⟩ →
    (1 ≤ n ∧ i < n ∧ n < idxLimit → ∃ w : RealVal, exec .hann s = .next (s.ret ⟨[.real w], []⟩) ∧
      w = hannW i n ∧ (n = 1 → w.toReal = 1) ∧
      (2 ≤ n → w.toReal = 1 / 2 * (1 - Real.cos (2 * Real.pi * i / ((n : ℝ) - 1))))) ∧
    (¬(1 ≤ n ∧ i < n ∧ n < idxLimit) → exec .hann s = .next (s.raise badOperand))) ∧
  (∀ (s : State) (i n : Nat) (alpha : RealVal) (x a : ℝ), s.operands = ⟨[.int i, .int n, .real alpha], []⟩ →
    x = i / ((n : ℝ) - 1) → a = alpha.toReal →
    (1 ≤ n ∧ i < n ∧ n < idxLimit ∧ 0 ≤ a ∧ a ≤ 1 →
      ∃ w : RealVal, exec .tukey s = .next (s.ret ⟨[.real w], []⟩) ∧ w = tukeyW i n alpha ∧
        (n = 1 ∨ a = 0 → w.toReal = 1) ∧
        (2 ≤ n → 0 < a →
          (x < a / 2 → w.toReal = 1 / 2 * (1 + Real.cos (Real.pi * (2 * x / a - 1)))) ∧
          (a / 2 ≤ x → 1 - a / 2 < x →
            w.toReal = 1 / 2 * (1 + Real.cos (Real.pi * (2 * x / a - 2 / a + 1)))) ∧
          (a / 2 ≤ x → x ≤ 1 - a / 2 → w.toReal = 1))) ∧
    (¬(1 ≤ n ∧ i < n ∧ n < idxLimit ∧ 0 ≤ a ∧ a ≤ 1) → exec .tukey s = .next (s.raise badOperand))) ∧
  (∀ (i n : Nat) (alpha : RealVal), i < n → 0 ≤ alpha.toReal → alpha.toReal ≤ 1 →
    (0 ≤ (hannW i n).toReal ∧ (hannW i n).toReal ≤ 1 ∧ (hannW i n).toReal = (hannW (n - 1 - i) n).toReal ∧
      (2 ≤ n → (hannW 0 n).toReal = 0)) ∧
    (0 ≤ (tukeyW i n alpha).toReal ∧ (tukeyW i n alpha).toReal ≤ 1 ∧
      (tukeyW i n alpha).toReal = (tukeyW (n - 1 - i) n alpha).toReal ∧
      (2 ≤ n → 0 < alpha.toReal → (tukeyW 0 n alpha).toReal = 0)) ∧
    (alpha.toReal = 1 → (tukeyW i n alpha).toReal = (hannW i n).toReal) ∧
    (alpha.toReal = 0 → (tukeyW i n alpha).toReal = 1))

/-- R266, R61: `TONE` completes on legal operands; it adds `amp * sin(2 * pi * f * (phase + j) / FS)` at the `cnt` places
from `loc` on and leaves every other place of the buffer; splitting it is invisible; other operands are refused. -/
def Obligations.ToneIsAdditive : Prop :=
  (∀ (s : State) (buf : List RealVal) (loc cnt phase : Nat) (f amp : RealVal),
    s.operands = ⟨[.int loc, .int cnt, .int phase, .real f, .real amp], [.reals buf]⟩ →
    loc < idxLimit → cnt < idxLimit → phase < idxLimit →
    (loc + cnt ≤ buf.length ∧ 0 < f.toReal ∧ f.toReal < s.cfg.fs.toReal / 2 →
      ∃ out, exec .tone s = .next (s.ret ⟨[], [.reals out]⟩) ∧ out.length = buf.length ∧
        (∀ j, j < cnt → ∃ u v : RealVal, buf[loc + j]? = some u ∧ out[loc + j]? = some v ∧
          v.toReal = u.toReal + amp.toReal *
            Real.sin (2 * Real.pi * f.toReal * ((phase + j : Nat) : ℝ) / s.cfg.fs.toReal)) ∧
        (∀ k, k < loc ∨ loc + cnt ≤ k → out[k]? = buf[k]?)) ∧
    (¬(loc + cnt ≤ buf.length ∧ 0 < f.toReal ∧ f.toReal < s.cfg.fs.toReal / 2) →
      exec .tone s = .next (s.raise badOperand))) ∧
  (∀ (c : Cfg) (buf : List RealVal) (loc a b phase : Nat) (f amp : RealVal),
    toneInto c buf loc (a + b) phase f amp =
      toneInto c (toneInto c buf loc a phase f amp) (loc + a) b (phase + a) f amp)

/-! ### Trigger -/

/-- R188, R189: `TRGPUSH` completes on a record of its type whose lanes have room, where every index of the record to
answer is an `Idx`; it counts the whole chunk and emits at most one event. A latched record and an empty chunk need no
room. Refused with `E_OPERAND`: a chunk that would pass the bound of the sample index (R189); and, the model's choice, a
sample for a record that feeds a lane at its full count (log 8) and an index to answer (a start, a count of windows or of
a lane) past the range of an `Idx` (log 11). What makes a record a value of its type is log 8. -/
def Obligations.TrgpushCompletes : Prop :=
  ∀ (s : State) (t : TrState) (chunk : List RealVal), s.operands = ⟨[.tr t], [.reals chunk]⟩ →
    t.typed s.cfg = true →
    (t.base + t.n + chunk.length < idxLimit →
      t.found.isSome = true ∨ chunk = [] ∨
        (t.lane0.q0.n < s.cfg.trgA ∧ (t.n < s.cfg.trgH ∨ t.lane1.q0.n < s.cfg.trgA)) →
      (trPush s.cfg t chunk).1.inRange = true →
      exec .trgpush s = .next (s.ret ⟨[.tr (trPush s.cfg t chunk).1, .optIdx (trPush s.cfg t chunk).1.found],
        [.events (trPush s.cfg t chunk).2]⟩)) ∧
    (s.cfg.wf = true → t.Scanning s.cfg → t.base + t.n + chunk.length + s.cfg.g < idxLimit →
      ∃ (u : TrState) (es : List Event),
        exec .trgpush s = .next (s.ret ⟨[.tr u, .optIdx u.found], [.events es]⟩) ∧ (u, es) = trPush s.cfg t chunk) ∧
    ((trPush s.cfg t chunk).1.n = t.n + chunk.length ∧ (trPush s.cfg t chunk).1.base = t.base ∧
      (trPush s.cfg t chunk).1.cben = t.cben ∧ (trPush s.cfg t chunk).2.length ≤ 1) ∧
    (idxLimit ≤ t.base + t.n + chunk.length → exec .trgpush s = .next (s.raise badOperand)) ∧
    (t.found = none → chunk ≠ [] →
      t.lane0.q0.n = s.cfg.trgA ∨ (s.cfg.trgH ≤ t.n ∧ t.lane1.q0.n = s.cfg.trgA) →
      exec .trgpush s = .next (s.raise badOperand)) ∧
    ((∃ t0, (trPush s.cfg t chunk).1.found = some t0 ∧ idxLimit ≤ t0) ∨ idxLimit ≤ (trPush s.cfg t chunk).1.m ∨
        idxLimit ≤ (trPush s.cfg t chunk).1.lane0.q0.n ∨ idxLimit ≤ (trPush s.cfg t chunk).1.lane1.q0.n →
      exec .trgpush s = .next (s.raise badOperand))

/-- R185: chunking is invisible to the detector, and after a reset its report depends on the base and the samples only.
R190: once latched it only counts. -/
def Obligations.TriggerChunkingAndLatch : Prop :=
  (∀ (c : Cfg) (t : TrState) (xs ys : List RealVal),
    (trPush c t (xs ++ ys)).1 = (trPush c (trPush c t xs).1 ys).1 ∧
    (trPush c t (xs ++ ys)).2 = (trPush c t xs).2 ++ (trPush c (trPush c t xs).1 ys).2) ∧
  (∀ (c : Cfg) (t t' : TrState) (base : Nat) (xs : List RealVal),
    (trPush c (trReset t base) xs).1.found = (trPush c (trReset t' base) xs).1.found) ∧
  (∀ (c : Cfg) (t : TrState) (xs : List RealVal) (t0 : Nat), t.found = some t0 →
    trPush c t xs = ({ t with n := t.n + xs.length }, []))

/-- R201: on samples that are exactly 0 since the last reset no detection is ever declared: every level is `-inf`, none
is above another, and neither the latch nor an event appears. -/
def Obligations.TriggerNeverFiresOnSilence : Prop :=
  ∀ (c : Cfg) (t : TrState) (base : Nat) (xs : List RealVal), c.wf = true → (∀ x ∈ xs, x.toReal = 0) →
    (trPush c (trReset t base) xs).1.found = none ∧
    (trPush c (trReset t base) xs).2 = [] ∧
    (∀ l ∈ (trPush c (trReset t base) xs).1.hist0, l = .negInf) ∧
    (∀ l ∈ (trPush c (trReset t base) xs).1.hist1, l = .negInf) ∧
    (∀ a ∈ (trPush c (trReset t base) xs).1.hist1,
      ∀ b ∈ (trPush c (trReset t base) xs).1.hist1, Level.lt a b = false)

/-- R188, R191 to R195: the trigger detects exactly when R193 says so. One sample into a scanning record completes a
window when the sample count reaches a multiple of the hop from the second on; that window's two levels then enter the
histories, and the second component is `some t0` exactly when the tests of R193 hold of the levels, with the noise floor
of R192 and the index of R194 and R195. R184, R346: that start lies after the last sample consumed, and none is declared
before `9 * TRG_H` samples since the last reset. A sample without a detection keeps the relations of a scanning record
(R37 to R39), which a fresh record has. -/
def Obligations.TriggerIsCausal : Prop :=
  ∀ (c : Cfg) (t u : TrState) (x : RealVal) (r : Option Nat), c.wf = true →
    (∀ (base : Nat) (cben : Bool), (TrState.fresh base cben).Scanning c) ∧
    (t.Scanning c → trStep c t x = (u, r) →
      (∀ t0, r = some t0 ↔ c.trgH ∣ t.n + 1 ∧ 2 * c.trgH ≤ t.n + 1 ∧ u.Decides c t.m t0) ∧
      (c.trgH ∣ t.n + 1 ∧ 2 * c.trgH ≤ t.n + 1 →
        ∃ (l : Lane) (g0 g1 : GzState), l = (if t.m % 2 = 0 then t.lane0 else t.lane1) ∧
          g0 = gzFold c c.gate1 c.trgA true l.q0 [x] ∧ g1 = gzFold c c.gate2 c.trgA true l.q1 [x] ∧
          u.hist0 = (if t.hist0.length < 18 then t.hist0 else t.hist0.tail) ++ [logPow (gzRms c c.gate1 c.trgA g0)] ∧
          u.hist1 = (if t.hist1.length < 18 then t.hist1 else t.hist1.tail) ++ [logPow (gzRms c c.gate2 c.trgA g1)]) ∧
      (¬(c.trgH ∣ t.n + 1 ∧ 2 * c.trgH ≤ t.n + 1) → u.hist0 = t.hist0 ∧ u.hist1 = t.hist1) ∧
      (∀ t0, r = some t0 → t.base + t.n < t0 ∧ 9 * c.trgH ≤ t.n + 1 ∧ u.found = some t0) ∧
      (r = none → u.Scanning c ∧ u.n = t.n + 1))

/-- R197, R198, R199: `TRGRESET`, `TRGMAXWIN` and `TRGSETCB` complete. What makes a record a value of its type is
log 8. -/
def Obligations.TriggerRecordOperationsComplete : Prop :=
  (∀ (s : State) (t : TrState) (base : Nat), s.operands = ⟨[.tr t, .int base], []⟩ → t.typed s.cfg = true →
    base < idxLimit →
    exec .trgreset s = .next (s.ret
      ⟨[.tr ⟨base, 0, Lane.zero, Lane.zero, 0, [], [], none, t.cben⟩], []⟩)) ∧
  (∀ s : State, exec .trgmaxwin s = .next (s.ret ⟨[.int (2 * (s.cfg.g / 6))], []⟩)) ∧
  (∀ (s : State) (t : TrState) (enable : Nat), s.operands = ⟨[.tr t, .int enable], []⟩ → t.typed s.cfg = true →
    (enable ≤ 1 → exec .trgsetcb s = .next (s.ret ⟨[.tr { t with cben := decide (enable = 1) }], []⟩)) ∧
    (1 < enable → exec .trgsetcb s = .next (s.raise badOperand)))

/-! ### Mapper -/

/-- R211, R72: `SYM2FREQ` completes on symbols and is refused otherwise. R213: on levels with a strict greatest in each
group `ARGMAX` gives the pair whose frequency indices those are. -/
def Obligations.MapperInvertsItself : Prop :=
  (∀ (s : State) (sa sb : Nat), s.operands = ⟨[.int sa, .int sb], []⟩ →
    (sa ≤ 15 ∧ sb ≤ 15 → exec .sym2freq s = .next (s.ret ⟨[.int sa, .int (16 + sb)], []⟩)) ∧
    (¬(sa ≤ 15 ∧ sb ≤ 15) → exec .sym2freq s = .next (s.raise badOperand))) ∧
  (∀ (levels : List Level) (sa sb : Sym), levels.length = 32 →
    (∀ i < 16, i ≠ sa.toNat →
      Level.lt (levels.getD i .negInf) (levels.getD (sym2freq sa sb).1 .negInf) = true) →
    (∀ i < 16, i ≠ sb.toNat →
      Level.lt (levels.getD (16 + i) .negInf) (levels.getD (sym2freq sa sb).2 .negInf) = true) →
    argmax levels = (sa, sb))

/-- R212: `ARGMAX` completes on 32 levels; in each group it picks the lowest index among the greatest levels, and the
groups are decided independently. Another length is refused. -/
def Obligations.ArgmaxPicksTheLowestGreatest : Prop :=
  ∀ (s : State) (levels : List Level), s.operands = ⟨[], [.levels levels]⟩ →
    (levels.length = 32 → ∃ sa sb : Nat, exec .argmax s = .next (s.ret ⟨[.int sa, .int sb], []⟩) ∧
      sa < 16 ∧ sb < 16 ∧
      (∀ i < 16, Level.lt (levels.getD sa .negInf) (levels.getD i .negInf) = false) ∧
      (∀ i < sa, Level.lt (levels.getD i .negInf) (levels.getD sa .negInf) = true) ∧
      (∀ i < 16, Level.lt (levels.getD (16 + sb) .negInf) (levels.getD (16 + i) .negInf) = false) ∧
      (∀ i < sb, Level.lt (levels.getD (16 + i) .negInf) (levels.getD (16 + sb) .negInf) = true)) ∧
    (levels.length ≠ 32 → exec .argmax s = .next (s.raise badOperand))

/-! ### Demodulator -/

/-- R222, R228, R22, R27: a push completes within the bound of the sample counter, counts the whole chunk and answers
whether a message completed; `PUSHI` is `PUSHF` of the samples divided by 32768; a chunk past the bound is refused. That a
push is also refused when an index it writes is no `Idx` is the model's choice (log 11); between operations, with a gate
and four words of room below the bound, it never is. -/
def Obligations.PushOperationsComplete : Prop :=
  (∀ (s : State) (xs : List RealVal), s.operands = ⟨[], [.reals xs]⟩ →
    (s.dm.pushed + xs.length < idxLimit → (s.pushSamples xs).1.indicesInRange s.evt.length = true →
      exec .pushf s = .next ((s.pushSamples xs).1.ret ⟨[bitSlot (s.pushSamples xs).2], []⟩)) ∧
    (s.Timing → s.dm.pushed + xs.length + s.cfg.g + 4 * (s.cfg.w + s.cfg.s) < idxLimit →
      (∀ ss, s.dm.session = some ss → ss.t0 + 4 * (s.cfg.w + s.cfg.s) < idxLimit) →
      exec .pushf s = .next ((s.pushSamples xs).1.ret ⟨[bitSlot (s.pushSamples xs).2], []⟩)) ∧
    (s.pushSamples xs).1.dm.pushed = s.dm.pushed + xs.length ∧
    (idxLimit ≤ s.dm.pushed + xs.length ∨ (s.pushSamples xs).1.indicesInRange s.evt.length = false →
      exec .pushf s = .next (s.raise badOperand))) ∧
  (∀ (s : State) (vs : List Int) (xs : List RealVal), s.operands = ⟨[], [.ints vs]⟩ →
    xs = vs.map (fun v : Int => RealVal.rat ((v : Rat) / 32768)) →
    ((∀ v ∈ vs, -32768 ≤ v ∧ v ≤ 32767) →
      (s.dm.pushed + xs.length < idxLimit → (s.pushSamples xs).1.indicesInRange s.evt.length = true →
        exec .pushi s = .next ((s.pushSamples xs).1.ret ⟨[bitSlot (s.pushSamples xs).2], []⟩)) ∧
      (s.Timing → s.dm.pushed + xs.length + s.cfg.g + 4 * (s.cfg.w + s.cfg.s) < idxLimit →
        (∀ ss, s.dm.session = some ss → ss.t0 + 4 * (s.cfg.w + s.cfg.s) < idxLimit) →
        exec .pushi s = .next ((s.pushSamples xs).1.ret ⟨[bitSlot (s.pushSamples xs).2], []⟩)) ∧
      ((s.pushSamples xs).1.indicesInRange s.evt.length = false → exec .pushi s = .next (s.raise badOperand))) ∧
    ((∃ v ∈ vs, v < -32768 ∨ 32767 < v) ∨ idxLimit ≤ s.dm.pushed + vs.length →
      exec .pushi s = .next (s.raise badOperand)))

/-- R222, R226, R227, R235: what a push leaves: `SY`, the configuration and the enable always; the payload unless the
push is ready; and after a ready push the session is gone, a payload is held and the trigger scans afresh from the next
sample. -/
def Obligations.PushFrame : Prop :=
  ∀ (s t : State) (xs : List RealVal) (ready : Bool), s.pushSamples xs = (t, ready) →
    t.sy = s.sy ∧ t.cfg = s.cfg ∧ t.port = s.port ∧ t.tr.cben = s.tr.cben ∧
    (ready = false → t.dm.payload = s.dm.payload) ∧
    (ready = true → t.dm.session = none ∧ t.dm.payload.isSome = true ∧
      t.tr = ⟨t.dm.pushed, 0, Lane.zero, Lane.zero, 0, [], [], none, s.tr.cben⟩)

/-- R234: chunking invariance. If no push of a cutting is ready, the pushes leave what one push of the whole leaves,
which is not ready either. If a push is ready, so is the push of the whole, and it differs from the cutting up to that
push only in the samples after it, counted and not examined. -/
def Obligations.ChunkingIsInvisible : Prop :=
  (∀ (s : State) (cs : List (List RealVal)), (s.pushEach cs).2 = false →
    s.pushSamples cs.flatten = ((s.pushEach cs).1, false)) ∧
  (∀ (s : State) (before : List (List RealVal)) (c : List RealVal) (after : List (List RealVal)),
    (s.pushEach before).2 = false → ((s.pushEach before).1.pushSamples c).2 = true →
    s.pushSamples (before ++ c :: after).flatten =
      (((s.pushEach before).1.pushSamples c).1.skipRest after.flatten.length, true))

/-- R223, R224, R196: the sample that declares a detection opens a session with the reported start, clears the
corrected-error counter, keeps the payload, and emits `TRIG` exactly when notification is enabled. R226, R227, R316: a
full buffer that does not decode abandons the message: the partial count is added, the session is dropped, the trigger is
re-armed, and nothing else changes. R226: a header that decodes to a message without symbols delivers the empty payload
and is ready; any other opens the payload buffer with the tone-start reference past the header. R227: a payload that
decodes is delivered as `FCDEC` returned it, and is ready. -/
def Obligations.DetectionAndAbandon : Prop :=
  (∀ (s : State) (x : RealVal) (tr : TrState) (t0 : Nat), s.dm.session = none →
    trStep s.cfg s.tr x = (tr, some t0) →
    s.dmStep x = ({ s with
      dm := ⟨some ⟨t0, 0, .header, [], 8, Vector.replicate 32 GzState.zero⟩, s.dm.pushed + 1, 0, s.dm.payload⟩
      tr := tr
      evt := if s.tr.cben then s.evt ++ [.trig t0] else s.evt }, false)) ∧
  (∀ (s : State) (ss : Session) (n : Nat),
    (fcDec ss.sym 8 2 false = .uncorrectable n ∨
      ∃ bytes f, fcDec ss.sym 8 2 false = .done bytes n ∧ hdrDec s.cfg bytes = .error f) →
    s.headerFull ss = ({ s with
      dm := ⟨none, s.dm.pushed, s.dm.fixed + BitVec.ofNat 32 n, s.dm.payload⟩
      tr := trReset s.tr s.dm.pushed }, false)) ∧
  (∀ (s : State) (ss : Session) (bytes : List Byte) (n b p : Nat) (h : Hdr),
    fcDec ss.sym 8 2 false = .done bytes n → hdrDec s.cfg bytes = .ok h → s.cfg.eccAt h.level.toNat = some (b, p) →
    (nsym h.len.toNat b p h.crc = 0 → s.headerFull ss = ({ s with
      dm := ⟨none, s.dm.pushed, s.dm.fixed + BitVec.ofNat 32 n, some []⟩
      tr := trReset s.tr s.dm.pushed }, true)) ∧
    (nsym h.len.toNat b p h.crc ≠ 0 → s.headerFull ss = ({ s with
      dm := ⟨some ⟨ss.t0 + 4 * (s.cfg.w + s.cfg.s), 0, .payload h, [], nsym h.len.toNat b p h.crc, ss.an⟩,
        s.dm.pushed, s.dm.fixed + BitVec.ofNat 32 n, s.dm.payload⟩ }, false))) ∧
  (∀ (s : State) (ss : Session) (h : Hdr) (b p n : Nat), s.cfg.eccAt h.level.toNat = some (b, p) →
    (fcDec ss.sym b p h.crc = .uncorrectable n ∨ fcDec ss.sym b p h.crc = .crcMismatch n →
      s.payloadFull ss h = ({ s with
        dm := ⟨none, s.dm.pushed, s.dm.fixed + BitVec.ofNat 32 n, s.dm.payload⟩
        tr := trReset s.tr s.dm.pushed }, false)) ∧
    (∀ payload, fcDec ss.sym b p h.crc = .done payload n → s.payloadFull ss h = ({ s with
      dm := ⟨none, s.dm.pushed, s.dm.fixed + BitVec.ofNat 32 n, some payload⟩
      tr := trReset s.tr s.dm.pushed }, true)))

/-- R225, R33, R58: a word is read from its own windows and from nothing else. From a session whose analyzers are empty
and whose next burst has not begun, the samples up to the word boundary give the two symbols that `ARGMAX` picks from the
levels of the 32 centered windows, whatever the other samples are; the analyzers start afresh. The word that fills the
buffer hands the session with its two new symbols to `HeaderFull` or `PayloadFull`, by its phase; any other word leaves
it parsing. -/
def Obligations.WordIsReadFromItsOwnWindows : Prop :=
  ∀ (s : State) (ss ss' : Session) (xs : List RealVal), s.cfg.wf = true → s.dm.session = some ss →
    ss.an = Vector.replicate 32 GzState.zero → s.dm.pushed ≤ burstStart s.cfg ss →
    s.dm.pushed + xs.length = burstStart s.cfg ss + s.cfg.wordEnd →
    ∀ sa sb, argmax ((List.finRange 32).map fun f => gzLevel s.cfg s.cfg.freq[f] (s.cfg.winLen f)
        (gzFold s.cfg s.cfg.freq[f] (s.cfg.winLen f) false GzState.zero
          ((xs.drop (burstStart s.cfg ss + s.cfg.winOff f - s.dm.pushed)).take (s.cfg.winLen f)))) = (sa, sb) →
    ss' = { ss with sym := ss.sym ++ [sa, sb], k := ss.k + 1, an := Vector.replicate 32 GzState.zero } →
    (ss.sym.length + 2 < ss.need →
      s.pushSamples xs = ((s.setPushed (s.dm.pushed + xs.length)).setSession ss', false)) ∧
    (ss.sym.length + 2 = ss.need →
      (ss.phase = .header → s.pushSamples xs = (s.setPushed (s.dm.pushed + xs.length)).headerFull ss') ∧
      (∀ h, ss.phase = .payload h → s.pushSamples xs = (s.setPushed (s.dm.pushed + xs.length)).payloadFull ss' h))

/-- R236, R359: a detection followed by exactly-zero samples delivers the empty message: once the four header words have
passed the push is ready, with an empty payload and no correction counted. -/
def Obligations.SilenceAfterTriggerIsAnEmptyMessage : Prop :=
  ∀ (s : State) (t0 : Nat) (xs : List RealVal), s.cfg.wf = true → s.dm.session = some (freshSession t0) →
    s.dm.pushed ≤ t0 → t0 + 4 * (s.cfg.w + s.cfg.s) ≤ s.dm.pushed + xs.length → (∀ x ∈ xs, x.toReal = 0) →
    (s.pushSamples xs).2 = true ∧ (s.pushSamples xs).1.dm.payload = some [] ∧
    (s.pushSamples xs).1.dm.fixed = s.dm.fixed

/-- R229 to R233: the other decode-side commands complete: `GETPAYLOAD` when a payload is held (else it is not ready),
`GETMAXWIN`, `GETFIXED`, `SETCB` on a bit, and `RESET`, which clears the demodulator, re-arms the trigger at 0 and keeps
the enable, the synthesizer and the events. -/
def Obligations.ReceiverCommandsComplete : Prop :=
  (∀ (s : State) (p : List Byte), s.dm.payload = some p →
    exec .getpayload s = .next (s.ret ⟨[.int p.length], [bytesBuf p]⟩)) ∧
  (∀ s : State, s.dm.payload = none → exec .getpayload s = .next (s.raise ⟨.notready, []⟩)) ∧
  (∀ s : State, exec .getmaxwin s = .next (s.ret ⟨[.int (2 * (s.cfg.g / 6))], []⟩)) ∧
  (∀ s : State, exec .getfixed s = .next (s.ret ⟨[.int s.dm.fixed.toNat], []⟩)) ∧
  (∀ (s : State) (enable : Nat), s.operands = ⟨[.int enable], []⟩ →
    (enable ≤ 1 → exec .setcb s = .next
      (State.ret { s with tr := { s.tr with cben := decide (enable = 1) } } ⟨[], []⟩)) ∧
    (1 < enable → exec .setcb s = .next (s.raise badOperand))) ∧
  (∀ s : State, exec .reset s = .next (State.ret { s with
      dm := { session := none, pushed := 0, fixed := 0, payload := none }
      tr := ⟨0, 0, Lane.zero, Lane.zero, 0, [], [], none, s.tr.cben⟩ } ⟨[], []⟩))

/-! ### Synthesizer -/

/-- R282, R75, R140: `SETPAYLOAD` loads the header's eight symbols and the payload's `NSYM`, rewinds the cursor and
answers the frame's length; a bad level or flag, or an element that is no byte (R88), is refused before an over-long
payload, and each leaves `SY`. That a
frame whose length is no `Idx` is refused is the model's choice (log 11). -/
def Obligations.SetpayloadCompletes : Prop :=
  (∀ (s : State) (x : List Slot) (vs : List Int), s.operands = ⟨x, [.ints vs]⟩ → (∃ v ∈ vs, v < 0 ∨ 255 < v) →
    exec .setpayload s = .next (s.raise badOperand)) ∧
  (∀ (s : State) (payload : List Byte) (level flag : Nat), 1 < flag →
    s.operands = ⟨[.int level, .int flag], [bytesBuf payload]⟩ → exec .setpayload s = .next (s.raise badOperand)) ∧
  ∀ (s : State) (payload : List Byte) (level : Nat) (crc : Bool), s.cfg.wf = true →
    s.operands = ⟨[.int level, bitSlot crc], [bytesBuf payload]⟩ →
    (∀ b p total, s.cfg.eccAt level = some (b, p) → payload.length ≤ 255 →
      total = 2 * s.cfg.g + (8 + nsym payload.length b p crc) / 2 * (s.cfg.s + s.cfg.w) →
      (total < idxLimit → ∃ t : State,
        exec .setpayload s = .next (t.ret ⟨[.int total], []⟩) ∧
        t = { s with sy := t.sy } ∧ t.sy.cursor = 0 ∧ t.sy.loaded = true ∧ t.sy.total = total ∧
        t.sy.sym = headerSyms payload.length level crc ++ fcEncode payload b p crc ∧
        (headerSyms payload.length level crc).length = 8) ∧
      (idxLimit ≤ total → exec .setpayload s = .next (s.raise badOperand))) ∧
    (level < s.cfg.nlev → 255 < payload.length → exec .setpayload s = .next (s.raise ⟨.length, []⟩)) ∧
    (s.cfg.nlev ≤ level → exec .setpayload s = .next (s.raise badOperand))

/-- R283, R61: `GETSAMPLES` of a loaded frame completes: each element of the buffer grows by the frame's sample at its
position times `power`, and the cursor advances by the buffer's length; buffer boundaries are invisible; positions past
the end add nothing; with no frame it is not ready, and past the bound of the cursor it is refused. R284: the frame's
sample is that of gate 1, gate 2, the gap, or the burst of its word, with their windows, and 0 past the end. -/
def Obligations.GetsamplesIsAdditive : Prop :=
  (∀ (s : State) (buf : List RealVal) (power : RealVal), s.operands = ⟨[.real power], [.reals buf]⟩ →
    (s.sy.loaded = true → s.sy.cursor + buf.length < idxLimit → ∃ out,
      exec .getsamples s = .next
        (State.ret { s with sy := { s.sy with cursor := s.sy.cursor + buf.length } } ⟨[], [.reals out]⟩) ∧
      out.length = buf.length ∧
      ∀ (j : Nat) (u : RealVal), buf[j]? = some u → ∃ v : RealVal, out[j]? = some v ∧
        v.toReal = u.toReal + power.toReal * (sig s.cfg s.sy (s.sy.cursor + j)).toReal) ∧
    (s.sy.loaded = false → exec .getsamples s = .next (s.raise ⟨.notready, []⟩)) ∧
    (s.sy.loaded = true → idxLimit ≤ s.sy.cursor + buf.length →
      exec .getsamples s = .next (s.raise badOperand))) ∧
  (∀ (c : Cfg) (y : Synth) (a b : List RealVal) (power : RealVal),
    pulled c y (a ++ b) power = pulled c y a power ++ pulled c { y with cursor := y.cursor + a.length } b power) ∧
  (∀ (c : Cfg) (y : Synth) (i : Nat), i < c.g →
    (sig c y i).toReal =
      Real.sin (2 * Real.pi * c.freq[16].toReal * i / c.fs.toReal) * (hannW i c.g).toReal ∧
    (sig c y (c.g + i)).toReal =
      Real.sin (2 * Real.pi * c.freq[18].toReal * i / c.fs.toReal) * (hannW i c.g).toReal) ∧
  (∀ (c : Cfg) (y : Synth) (w r : Nat), r < c.s + c.w → 2 * c.g + w * (c.s + c.w) + r < y.total →
    (r < c.s → (sig c y (2 * c.g + w * (c.s + c.w) + r)).toReal = 0) ∧
    (∀ (i : Nat) (sa sb : Sym) (fa fb : Fin 32), r = c.s + i → y.sym[2 * w]? = some sa →
      y.sym[2 * w + 1]? = some sb → fa.val = sa.toNat → fb.val = 16 + sb.toNat →
      (sig c y (2 * c.g + w * (c.s + c.w) + r)).toReal =
        1 / 2 * (Real.sin (2 * Real.pi * c.freq[fa].toReal * i / c.fs.toReal) +
          Real.sin (2 * Real.pi * c.freq[fb].toReal * i / c.fs.toReal)) *
        (tukeyW i c.w (.rat (1 / 2))).toReal)) ∧
  (∀ (c : Cfg) (y : Synth) (pos : Nat), 2 * c.g ≤ pos → y.total ≤ pos → (sig c y pos).toReal = 0)

/-- R285: no sample of a frame at power 1 leaves `[-1, 1]`; and a zeroed buffer filled at a power within `[-1, 1]` holds
nothing outside that range. -/
def Obligations.SignalStaysInRange : Prop :=
  ∀ (c : Cfg) (y : Synth), c.wf = true →
    (∀ pos : Nat, |(sig c y pos).toReal| ≤ 1) ∧
    ∀ (buf : List RealVal) (power : RealVal), (∀ u ∈ buf, u.toReal = 0) → |power.toReal| ≤ 1 →
      ∀ x ∈ pulled c y buf power, |x.toReal| ≤ 1

/-! ### Self test -/

/-- R301: `DEMO` completes wherever its frame's length, with a gate and four words to spare, is below the bound of an
`Idx` (near the bound the inner commands refuse, log 10): it leaves the demo frame fully pulled, every sample of it
counted and the enable kept; it answers 1 exactly when one of the pushes of the frame's samples, `MAXWIN` at a time, was
ready, the payload came back and nothing was corrected; and the answer depends on the configuration only. -/
def Obligations.DemoCompletes : Prop :=
  ∀ (s : State) (b p total : Nat) (cs : List (List RealVal)), s.cfg.wf = true →
    s.cfg.eccAt s.cfg.deflev = some (b, p) →
    total = 2 * s.cfg.g + (8 + nsym 5 b p true) / 2 * (s.cfg.s + s.cfg.w) →
    total + s.cfg.g + 4 * (s.cfg.w + s.cfg.s) < idxLimit →
    cs.flatten = pulled s.cfg ⟨frameSyms [1, 2, 3, 4, 5] s.cfg.deflev b p true, 0, total, true⟩
      (List.replicate total (.rat 0)) (.rat 1) →
    (∀ c ∈ cs, c ≠ [] ∧ c.length ≤ s.cfg.maxwin) → (∀ i, i + 1 < cs.length → (cs.getD i []).length = s.cfg.maxwin) →
    ∃ (t : State) (pass seen : Bool), exec .demo s = .next (t.ret ⟨[bitSlot pass], []⟩) ∧
      t.cfg = s.cfg ∧ t.port = s.port ∧
      t.sy = ⟨frameSyms [1, 2, 3, 4, 5] s.cfg.deflev b p true, total, total, true⟩ ∧
      t.dm.pushed = total ∧ t.tr.cben = s.tr.cben ∧
      (∃ q : State, s.softReset.pushEach cs = (q, seen) ∧ t.dm = q.dm ∧ t.tr = q.tr ∧ t.evt = q.evt) ∧
      (pass = true ↔ seen = true ∧ t.dm.payload = some [1, 2, 3, 4, 5] ∧ t.dm.fixed = 0) ∧
      ∀ s' : State, s'.cfg = s.cfg → ∃ t' : State, exec .demo s' = .next (t'.ret ⟨[bitSlot pass], []⟩)

/-! ### Reset and invariants -/

/-- R340, R46, R9: hardware reset leaves every element at its reset value and keeps the configuration; the machine after
reset is that state for its own configuration, and an instance is built for a well-formed configuration only. The
commands the host has yet to issue are the model's own and stay (log 4). -/
def Obligations.HardwareResetLeavesTheTable : Prop :=
  (∀ s : State, s.hardReset = { s with
    dm := { session := none, pushed := 0, fixed := 0, payload := none }
    tr := ⟨0, 0, Lane.zero, Lane.zero, 0, [], [], none, false⟩
    sy := { sym := [], cursor := 0, total := 0, loaded := false }
    evt := []
    port := { pending := s.port.pending, answer := none } }) ∧
  State.reset.hardReset = State.reset ∧
  (∀ c : Cfg, c.wf = true → State.build c = .next (State.ofCfg c)) ∧
  (∀ c : Cfg, c.wf = false → State.build c = .refused .illFormedConfig)

/-- The machine right after reset, and any instance built for a well-formed configuration, meets the three
invariants (R36, R46). -/
def Obligations.ResetMeetsTheInvariants : Prop :=
  (State.reset.Timing ∧ State.reset.Bounds ∧ State.reset.SynthWf) ∧
  ∀ c : Cfg, c.wf = true → (State.ofCfg c).Timing ∧ (State.ofCfg c).Bounds ∧ (State.ofCfg c).SynthWf

/-- R225, R32, R33, R37 to R39, R58: every step keeps the receive side in time: while waiting, the trigger's counts
follow the sample count; while parsing, every analyzer stands where the sample count and the tone-start reference
put it. R28, R40, R45: every start held or reported stays in the range of an `Idx`, by the refusals of log 11. -/
def Obligations.StepKeepsTheTiming : Prop :=
  ∀ s t : State, s.Timing → step s = .next t → t.Timing

/-- R34, R35, R152: every step keeps the bound 1543 of the corrected-error counter and the bound 255 of the payload's
length, in states that are in time. -/
def Obligations.StepKeepsTheBounds : Prop :=
  ∀ s t : State, s.Timing → s.Bounds → step s = .next t → t.Bounds

/-- R42, R43: every step keeps the synthesizer well-formed: a loaded frame has an even number of symbols, at least
eight, and the length of R75, in the range of an `Idx` by the refusal of log 11. -/
def Obligations.StepKeepsTheSynthesizer : Prop :=
  ∀ s t : State, s.cfg.wf = true → s.SynthWf → step s = .next t → t.SynthWf

end
end

