-- ==== Sys2Proof/Laws/Numerics.lean ====
section
/-! SUPPORT. The real arithmetic is exact (spec/00_scope.md R16, spec/47_windows_tone_generator.md R260): what number each
operation gives, what each comparison decides, and what the `Numerics` record of the implementation promises (R261). -/

namespace Sys2Proof

namespace RealVal

/-! ### The order -/

/-- The order of values is that of the numbers they stand for. -/
@[simp] theorem lt_iff (a b : RealVal) : lt a b = true ↔ a.toReal < b.toReal := by
  unfold lt
  split
  · simp [toReal]
  · exact (@realOrder realOrder_nonempty ()).lt_iff _ _

theorem lt_eq_false (a b : RealVal) : lt a b = false ↔ b.toReal ≤ a.toReal := by
  rw [← not_lt, ← lt_iff, Bool.not_eq_true]

@[simp] theorem le_iff (a b : RealVal) : le a b = true ↔ a.toReal ≤ b.toReal := by
  simp [le, lt_eq_false]

@[simp] theorem toReal_rat (q : Rat) : (rat q).toReal = (q : ℝ) := rfl

@[simp] theorem toReal_ofNat (n : Nat) : (ofNat n).toReal = (n : ℝ) := by simp [ofNat]

@[simp] theorem isZero_iff (a : RealVal) : a.isZero = true ↔ a.toReal = 0 := by
  rw [isZero, Bool.and_eq_true, le_iff, le_iff, toReal_rat, Rat.cast_zero, ← le_antisymm_iff]

theorem isZero_eq_false (a : RealVal) : a.isZero = false ↔ a.toReal ≠ 0 := by
  rw [ne_eq, ← isZero_iff, Bool.not_eq_true]

/-! ### Arithmetic -/

@[simp] theorem toReal_plus (a b : RealVal) : (a.plus b).toReal = a.toReal + b.toReal := by
  unfold plus
  split
  · simp
  · split <;> simp_all [toReal]
  · split <;> simp_all [toReal]
  · rfl

@[simp] theorem toReal_minus (a b : RealVal) : (a.minus b).toReal = a.toReal - b.toReal := by
  unfold minus
  split
  · simp
  · split <;> simp_all [toReal]
  · rfl

@[simp] theorem toReal_times (a b : RealVal) : (a.times b).toReal = a.toReal * b.toReal := by
  unfold times
  split
  · simp
  · split <;> simp_all [toReal]
  · split <;> simp_all [toReal]
  · rfl

@[simp] theorem toReal_divBy (a b : RealVal) : (a.divBy b).toReal = a.toReal / b.toReal := by
  unfold divBy
  split
  · simp
  · split <;> simp_all [toReal]
  · rfl

/-! ### Silence stays the rational 0 -/

theorem plus_zero (a : RealVal) : a.plus (.rat 0) = a := by
  cases a <;> simp [plus]

theorem zero_plus (a : RealVal) : (RealVal.rat 0).plus a = a := by
  cases a <;> simp [plus]

theorem times_zero (a : RealVal) : a.times (.rat 0) = .rat 0 := by
  cases a <;> simp [times]

theorem zero_times (a : RealVal) : (RealVal.rat 0).times a = .rat 0 := by
  cases a <;> simp [times]

/-! ### Elementary functions -/

/-- A whole number of turns less, the cosine is the same. -/
theorem cos_fracPart (t : Rat) : Real.cos (2 * Real.pi * (fracPart t : ℝ)) = Real.cos (2 * Real.pi * (t : ℝ)) := by
  have h : 2 * Real.pi * ((fracPart t : Rat) : ℝ) = 2 * Real.pi * (t : ℝ) - (t.floor : ℤ) * (2 * Real.pi) := by
    unfold fracPart; push_cast; ring
  rw [h, Real.cos_sub_int_mul_two_pi]

/-- The table holds cosines. -/
theorem cosTable_some {u q : Rat} (h : cosTable u = some q) : Real.cos (2 * Real.pi * (u : ℝ)) = (q : ℝ) := by
  have third : Real.cos (2 * Real.pi / 3) = -1 / 2 := by
    rw [show 2 * Real.pi / 3 = Real.pi - Real.pi / 3 by ring, Real.cos_pi_sub, Real.cos_pi_div_three]; norm_num
  have mirror : ∀ x : ℝ, Real.cos (2 * Real.pi - x) = Real.cos x := Real.cos_two_pi_sub
  unfold cosTable at h
  split at h
  · cases h; simp [*]
  split at h
  · cases h
    rename_i hu
    subst hu
    push_cast
    rw [show 2 * Real.pi * (1 / 2) = Real.pi by ring, Real.cos_pi]
  split at h
  · cases h
    rename_i hu
    rcases hu with rfl | rfl <;> push_cast
    · rw [show 2 * Real.pi * (1 / 4) = Real.pi / 2 by ring, Real.cos_pi_div_two]
    · rw [show 2 * Real.pi * (3 / 4) = 2 * Real.pi - Real.pi / 2 by ring, mirror, Real.cos_pi_div_two]
  split at h
  · cases h
    rename_i hu
    rcases hu with rfl | rfl <;> push_cast
    · rw [show 2 * Real.pi * (1 / 6) = Real.pi / 3 by ring, Real.cos_pi_div_three]
    · rw [show 2 * Real.pi * (5 / 6) = 2 * Real.pi - Real.pi / 3 by ring, mirror, Real.cos_pi_div_three]
  split at h
  · cases h
    rename_i hu
    rcases hu with rfl | rfl <;> push_cast
    · rw [show 2 * Real.pi * (1 / 3) = 2 * Real.pi / 3 by ring, third]
    · rw [show 2 * Real.pi * (2 / 3) = 2 * Real.pi - 2 * Real.pi / 3 by ring, mirror, third]
  · cases h

@[simp] theorem toReal_cosOf (a : RealVal) : a.cosOf.toReal = Real.cos (2 * Real.pi * a.toReal) := by
  unfold cosOf
  split
  · rename_i t
    split
    · rename_i q h
      rw [toReal_rat, toReal_rat, ← cos_fracPart, cosTable_some h]
    · rfl
  · rfl

@[simp] theorem toReal_sinOf (a : RealVal) : a.sinOf.toReal = Real.sin (2 * Real.pi * a.toReal) := by
  rw [sinOf, toReal_cosOf, toReal_minus, toReal_rat, ← Real.cos_sub_pi_div_two]
  congr 1
  push_cast
  ring

@[simp] theorem toReal_sqrtOf (a : RealVal) : a.sqrtOf.toReal = Real.sqrt a.toReal := by
  unfold sqrtOf
  split
  · split
    · rename_i q h
      rw [toReal_rat, toReal_rat, Real.sqrt_eq_zero_of_nonpos (by exact_mod_cast h), Rat.cast_zero]
    · rfl
  · rfl

@[simp] theorem toReal_logOf (a : RealVal) : a.logOf.toReal = Real.logb 10 a.toReal := by
  unfold logOf
  split
  · split <;> simp_all [toReal]
  · rfl

/-- A value limited to a range lies in it, and is the value itself inside it (R194). -/
theorem toReal_clamp (lo hi a : RealVal) (h : lo.toReal ≤ hi.toReal) :
    (clamp lo hi a).toReal = max lo.toReal (min hi.toReal a.toReal) := by
  unfold clamp
  split
  · rename_i h1
    rw [lt_iff] at h1
    rw [max_eq_left (min_le_of_right_le h1.le)]
  · rename_i h1
    rw [lt_iff, not_lt] at h1
    split
    · rename_i h2
      rw [lt_iff] at h2
      rw [min_eq_left h2.le, max_eq_right h]
    · rename_i h2
      rw [lt_iff, not_lt] at h2
      rw [min_eq_right h2, max_eq_right h1]

/-! ### What the implementation shows (R261) -/

/-- What may be assumed of the implementation at hand. -/
theorem implementation_admissible : implementation.Admissible := (@Config.numerics admissibleNumerics_nonempty).property

/-- What an implementation shows is within its stated error of the exact value. -/
theorem shown_accurate (k : Nat) (v : RealVal) : |v.shown k - v.toReal| ≤ implementation.resultError k v :=
  implementation_admissible.accurate k v

end RealVal

/-! ### Levels -/

/-- The level of 0 is `-inf`. -/
theorem logPow_zero {r : RealVal} (h : r.toReal = 0) : logPow r = .negInf := by
  unfold logPow
  rw [if_pos (by simpa using h)]

/-- The level of any other value is `20 * log10` of it (R169). -/
theorem logPow_of_ne {r : RealVal} (h : r.toReal ≠ 0) :
    ∃ l : RealVal, logPow r = .fin l ∧ l.toReal = 20 * Real.logb 10 r.toReal := by
  refine ⟨_, if_neg (by simpa using h), ?_⟩
  simp

@[simp] theorem Level.lt_fin (a b : RealVal) : Level.lt (.fin a) (.fin b) = true ↔ a.toReal < b.toReal :=
  RealVal.lt_iff a b

@[simp] theorem Level.negInf_lt_fin (a : RealVal) : Level.lt .negInf (.fin a) = true := rfl
@[simp] theorem Level.fin_lt_negInf (a : RealVal) : Level.lt (.fin a) .negInf = false := rfl
@[simp] theorem Level.negInf_lt_negInf : Level.lt .negInf .negInf = false := rfl
@[simp] theorem Level.addDb_negInf (r : RealVal) : Level.addDb .negInf r = .negInf := rfl
@[simp] theorem Level.addDb_fin (a r : RealVal) : Level.addDb (.fin a) r = .fin (a.plus r) := rfl

end Sys2Proof
end

