-- ==== Sys2Proof/Laws/Config.lean ====
section
/-! SUPPORT. What a well-formed configuration gives (spec/00_scope.md R8, R9), the window geometry of
spec/10_state.md R33, and that the instance behind `State.reset` is well-formed. -/

namespace Sys2Proof

namespace Config

/-- `openBelow` gives a point strictly between 0 and its top, whatever the free constant is. -/
theorem openBelow_range {top : RealVal} (h : 0 < top.toReal) (n : Nat) :
    0 < (openBelow top n).toReal ∧ (openBelow top n).toReal < top.toReal := by
  have h2 : (0 : ℝ) < 2 ^ realAtom n := Real.rpow_pos_of_pos (by norm_num) _
  have hv : (openBelow top n).toReal = top.toReal / (1 + 2 ^ realAtom n) := by
    simp [openBelow, RealVal.toReal]
  rw [hv]
  exact ⟨by positivity, div_lt_self h (by linarith)⟩

/-- Every pair of the table of legal shapes satisfies R9. -/
theorem legalShapes_wf : ∀ i : Fin 21, shapeWf legalShapes[i] = true := by decide

/-- The instance behind `State.reset` is well-formed, whatever the opaque constants are. -/
theorem cfg_wf : cfg.wf = true := by
  have hfs : 0 < cfg.fs.toReal := Real.rpow_pos_of_pos (by norm_num) _
  have hfreq : cfg.freqWf = true := by
    simp only [Cfg.freqWf, List.all_eq_true]
    intro f hf
    rw [Vector.mem_toList_iff, cfg, Vector.mem_ofFn] at hf
    obtain ⟨i, rfl⟩ := hf
    have hhalf : (RealVal.div (.exp2 (.atom 0)) (.rat 2)).toReal = cfg.fs.toReal / 2 := by
      simp [RealVal.toReal, cfg]
    have h := openBelow_range (top := .div (.exp2 (.atom 0)) (.rat 2)) (by rw [hhalf]; linarith) (i.val + 1)
    rw [Bool.and_eq_true, RealVal.lt_iff, RealVal.lt_iff, RealVal.toReal_divBy]
    refine ⟨by simpa using h.1, ?_⟩
    rw [hhalf] at h
    simpa using h.2
  have hwlim : cfg.wlimWf = true := by
    simp only [Cfg.wlimWf, cfg, List.all_eq_true, decide_eq_true_eq]
    intro n hn
    rw [Vector.mem_toList_iff, Vector.mem_ofFn] at hn
    obtain ⟨i, rfl⟩ := hn
    omega
  have hlev : cfg.levelsWf = true := by
    have h4 := nlevLess1.isLt
    have hm : deflevRaw % (nlevLess1.val + 1) < nlevLess1.val + 1 := Nat.mod_lt _ (by omega)
    simp only [Cfg.levelsWf, cfg, List.length_map, List.length_range, Bool.and_eq_true, decide_eq_true_eq]
    omega
  have hecc : cfg.eccWf = true := by
    simp only [Cfg.eccWf, cfg, List.all_map, List.all_eq_true, List.mem_range, Function.comp]
    intro l _
    exact legalShapes_wf _
  have hlen : cfg.lengthsWf = true := by simp [Cfg.lengthsWf, cfg]
  have hfs' : cfg.fsWf = true := by simpa [Cfg.fsWf] using hfs
  simp [Cfg.wf, hfs', hlen, hfreq, hwlim, hlev, hecc]

end Config

namespace Cfg

variable {c : Cfg}

/-- The parts of well-formedness, each under its own name. -/
theorem wf_parts (h : c.wf = true) : c.fsWf = true ∧ c.lengthsWf = true ∧ c.freqWf = true ∧ c.wlimWf = true ∧
    c.levelsWf = true ∧ c.eccWf = true := by
  simp only [Cfg.wf, Bool.and_eq_true] at h
  tauto

theorem fs_pos (h : c.wf = true) : 0 < c.fs.toReal := by
  simpa [Cfg.fsWf] using (wf_parts h).1

theorem one_le_w (h : c.wf = true) : 1 ≤ c.w := by
  have := (wf_parts h).2.1
  simp [Cfg.lengthsWf] at this
  exact this.1

theorem twelve_le_g (h : c.wf = true) : 12 ≤ c.g := by
  have := (wf_parts h).2.1
  simp [Cfg.lengthsWf] at this
  exact this.2

theorem wlim_pos (h : c.wf = true) (f : Fin 32) : 1 ≤ c.wlim[f] := by
  have := (wf_parts h).2.2.2.1
  simp only [Cfg.wlimWf, List.all_eq_true, decide_eq_true_eq] at this
  exact this _ (by simp [Vector.mem_toList_iff])

theorem freq_range (h : c.wf = true) (f : Fin 32) :
    0 < c.freq[f].toReal ∧ c.freq[f].toReal < c.fs.toReal / 2 := by
  have := (wf_parts h).2.2.1
  simp only [Cfg.freqWf, List.all_eq_true, Bool.and_eq_true, RealVal.lt_iff, RealVal.toReal_divBy,
    RealVal.toReal_rat] at this
  simpa using this c.freq[f] (by simp [Vector.mem_toList_iff])

theorem nlev_range (h : c.wf = true) : 1 ≤ c.nlev ∧ c.nlev ≤ 4 ∧ c.deflev < c.nlev := by
  have := (wf_parts h).2.2.2.2.1
  simpa [Cfg.levelsWf, Cfg.nlev, and_assoc] using this

/-- Every level's shape satisfies R9. -/
theorem eccAt_shape (h : c.wf = true) {l b p : Nat} (hl : c.eccAt l = some (b, p)) :
    1 ≤ p ∧ p < b ∧ b ≤ 15 ∧ (b - p) % 2 = 0 ∧ p % 2 = 0 := by
  have he := (wf_parts h).2.2.2.2.2
  simp only [Cfg.eccWf, List.all_eq_true] at he
  have := he (b, p) (List.mem_of_getElem? hl)
  simp only [shapeWf, Bool.and_eq_true, decide_eq_true_eq, beq_iff_eq] at this
  omega

/-- A level has a shape exactly when it is below `NLEV`. -/
theorem eccAt_some_iff {l : Nat} : (∃ bp, c.eccAt l = some bp) ↔ l < c.nlev := by
  rw [← Option.isSome_iff_exists]
  simp [Cfg.eccAt, Cfg.nlev]

theorem eccAt_none_iff {l : Nat} : c.eccAt l = none ↔ c.nlev ≤ l := by
  simp [Cfg.eccAt, Cfg.nlev]

/-- `G ≥ 12` gives `H ≥ 2` (R187). -/
theorem two_le_trgH (h : c.wf = true) : 2 ≤ c.trgH := by
  have := twelve_le_g h
  simp only [Cfg.trgH, Config.trgGw]
  omega

theorem trgA_eq (c : Cfg) : c.trgA = 2 * c.trgH := rfl

/-- Six hops fit into a gate (R195). -/
theorem six_trgH_le_g (c : Cfg) : 6 * c.trgH ≤ c.g := by
  simp only [Cfg.trgH, Config.trgGw]; omega

theorem winLen_pos (h : c.wf = true) (f : Fin 32) : 1 ≤ c.winLen f := by
  have h1 := one_le_w h
  have h2 := wlim_pos h f
  simp only [Cfg.winLen]
  omega

/-- Every window lies inside the word (R33). -/
theorem winOff_add_winLen_le (c : Cfg) (f : Fin 32) : c.winOff f + c.winLen f ≤ c.w := by
  simp only [Cfg.winOff, Cfg.winLen]
  omega

theorem foldl_max_le {α : Type} (g : α → Nat) (l : List α) (m k : Nat) (hm : m ≤ k) (hg : ∀ a ∈ l, g a ≤ k) :
    l.foldl (fun m a => max m (g a)) m ≤ k := by
  induction l generalizing m with
  | nil => exact hm
  | cons a l ih =>
    exact ih _ (Nat.max_le.2 ⟨hm, hg a (by simp)⟩) fun b hb => hg b (by simp [hb])

theorem le_foldl_max {α : Type} (g : α → Nat) (l : List α) (m : Nat) :
    m ≤ l.foldl (fun m a => max m (g a)) m ∧ ∀ a ∈ l, g a ≤ l.foldl (fun m a => max m (g a)) m := by
  induction l generalizing m with
  | nil => simp
  | cons b l ih =>
    obtain ⟨h1, h2⟩ := ih (max m (g b))
    refine ⟨by simp only [List.foldl_cons]; omega, ?_⟩
    intro a ha
    rcases List.mem_cons.1 ha with rfl | ha
    · simp only [List.foldl_cons]; omega
    · exact h2 a ha

/-- The word is decided inside its burst (R225: `E ≤ W`). -/
theorem wordEnd_le (c : Cfg) : c.wordEnd ≤ c.w :=
  foldl_max_le _ _ 0 _ (Nat.zero_le _) fun f _ => winOff_add_winLen_le c f

/-- Every window has ended when the word is decided (R225). -/
theorem window_le_wordEnd (c : Cfg) (f : Fin 32) : c.winOff f + c.winLen f ≤ c.wordEnd :=
  (le_foldl_max (fun f => c.winOff f + c.winLen f) (List.finRange 32) 0).2 f (List.mem_finRange f)

end Cfg
end Sys2Proof
end

