-- ==== Sys2Proof/Laws/Codec.lean ====
section
/-! SUPPORT. The field, the code and the frame codec piece by piece (spec/40_gf16_reed_solomon.md,
spec/42_frame_codec.md): lengths, units of the field, and everything each shared function can answer. -/

namespace Sys2Proof.Machine

/-! ### The field -/

@[simp] theorem gmul_zero (a : Sym) : gmul a 0 = 0 := by revert a; decide
@[simp] theorem zero_gmul (a : Sym) : gmul 0 a = 0 := by revert a; decide
@[simp] theorem gmul_one (a : Sym) : gmul a 1 = a := by revert a; decide
@[simp] theorem one_gmul (a : Sym) : gmul 1 a = a := by revert a; decide

/-- The inverse is absent for 0 only (R103). -/
theorem ginv_eq_none_iff (a : Sym) : ginv a = none ↔ a = 0 := by revert a; decide

@[simp] theorem polyEval_nil (v : Sym) : polyEval [] v = 0 := rfl

/-- Horner's rule takes one more coefficient (R104). -/
theorem polyEval_append_singleton (c : List Sym) (x v : Sym) :
    polyEval (c ++ [x]) v = gmul (polyEval c v) v ^^^ x := by
  simp [polyEval]

/-- A generator polynomial has degree `P` (R105). -/
theorem genPoly_length (p : Nat) : (genPoly p).length = p + 1 := by
  induction p with
  | zero => rfl
  | succ n ih => simp [genPoly, polyMulRoot, ih]

/-! ### Lengths -/

theorem xorFront_length (xs ys : List Sym) : (xorFront xs ys).length = xs.length := by
  induction xs generalizing ys with
  | nil => cases ys <;> rfl
  | cons x xs ih => cases ys <;> simp [xorFront, ih]

/-- What the division leaves after its `d` steps (R108). -/
theorem rsDivide_length (g : List Sym) (d : Nat) (rem : List Sym) : (rsDivide g d rem).length = rem.length - d := by
  induction d generalizing rem with
  | zero => cases rem <;> rfl
  | succ n ih =>
    cases rem with
    | nil => simp [rsDivide]
    | cons c rest => simp [rsDivide, ih, xorFront_length]

theorem b2s_length (bs : List Byte) : (b2s bs).length = 2 * bs.length := by
  induction bs with
  | nil => rfl
  | cons b bs ih => simp only [b2s, List.flatMap_cons, List.length_append, List.length_cons] at ih ⊢; simp; omega

theorem withCrc_length (payload : List Byte) (crc : Bool) :
    (withCrc payload crc).length = payload.length + 2 * crc.toNat := by
  cases crc <;> simp [withCrc, crcBytes]

theorem hdrEnc_length (len : Byte) (level : BitVec 2) (crc : Bool) : (hdrEnc len level crc).length = 3 := rfl

/-- There are `ceil(len / k)` blocks (R131). -/
theorem blocksOf_length (k : Nat) (l : List Sym) : (blocksOf k l).length = ceilDiv l.length k := by
  simp [blocksOf]

/-! ### What each function can answer -/

/-- Everything `RSDEC`'s decoder can answer: a word without syndromes comes back as it is; else what comes back has passed
the final check (R111). -/
theorem rsDec_cases (word : List Sym) (p : Nat) :
    ((syndromes word p).all (· == 0) = true ∧ rsDec word p = some (word, 0)) ∨
      ((syndromes word p).all (· == 0) = false ∧
        (rsDec word p = none ∨ ∃ cw n, rsDec word p = some (cw, n) ∧ isCodeword cw p = true ∧ n ≤ p / 2)) := by
  unfold rsDec
  simp only
  split
  · exact .inl ⟨‹_›, rfl⟩
  · right
    refine ⟨Bool.not_eq_true _ ▸ ‹¬_›, ?_⟩
    split
    · exact .inl rfl
    · rename_i st hb
      split
      · exact .inl rfl
      · rename_i hl
        rw [not_or, not_lt] at hl
        split
        · exact .inl rfl
        · split
          · exact .inl rfl
          · split
            · exact .inr ⟨_, _, rfl, ‹_›, hl.1⟩
            · exact .inl rfl

/-- A code word decodes to itself with nothing corrected (R110 (a)). -/
theorem rsDec_of_isCodeword {word : List Sym} {p : Nat} (h : isCodeword word p = true) :
    rsDec word p = some (word, 0) := by
  rcases rsDec_cases word p with ⟨_, e⟩ | ⟨e, _⟩
  · exact e
  · rw [show (syndromes word p).all (· == 0) = true from h] at e; cases e

/-- The decoder counts within the correction radius (R110). -/
theorem rsDec_count {word cw : List Sym} {p n : Nat} (h : rsDec word p = some (cw, n)) : n ≤ p / 2 := by
  rcases rsDec_cases word p with ⟨_, e⟩ | ⟨_, e | ⟨_, _, e, _, hn⟩⟩
  · rw [e] at h
    obtain ⟨-, rfl⟩ := Prod.mk.inj (Option.some.inj h)
    exact Nat.zero_le _
  · rw [e] at h; cases h
  · rw [e] at h
    obtain ⟨-, rfl⟩ := Prod.mk.inj (Option.some.inj h)
    exact hn

/-- What the decoder returns is a code word (R111, the final check). -/
theorem rsDec_isCodeword {word cw : List Sym} {p n : Nat} (h : rsDec word p = some (cw, n)) :
    isCodeword cw p = true := by
  rcases rsDec_cases word p with ⟨hz, e⟩ | ⟨_, e | ⟨_, _, e, hc, _⟩⟩
  · rw [e] at h
    obtain ⟨rfl, -⟩ := Prod.mk.inj (Option.some.inj h)
    exact hz
  · rw [e] at h; cases h
  · rw [e] at h
    obtain ⟨rfl, -⟩ := Prod.mk.inj (Option.some.inj h)
    exact hc

/-- Everything `HDRDEC` can answer (R134). -/
theorem hdrDec_ok {c : Cfg} {hdr : List Byte} {h : Hdr} (e : hdrDec c hdr = .ok h) :
    ∃ b1 b2, hdr = [h.len, b1, b2] ∧ chk8 [h.len, b1] = b2 ∧ h.level.toNat < c.nlev ∧
      h.level = b1.extractLsb' 0 2 ∧ h.crc = b1.getLsbD 3 := by
  unfold hdrDec at e
  split at e
  · rename_i b0 b1 b2
    split at e
    · cases e
    · split at e
      · cases e
      · cases e
        exact ⟨b1, b2, rfl, not_not.1 ‹_›, Nat.not_le.1 ‹_›, rfl, rfl⟩
  · cases e

/-- A header that decodes names a level of the table (R134). -/
theorem hdrDec_level {c : Cfg} {hdr : List Byte} {h : Hdr} (e : hdrDec c hdr = .ok h) :
    ∃ bp, c.eccAt h.level.toNat = some bp := by
  obtain ⟨_, _, _, _, hl, _⟩ := hdrDec_ok e
  exact Cfg.eccAt_some_iff.2 hl

/-- The block loop goes through a block that decodes (R146). -/
theorem decodeBlocks_cons_some {p : Nat} {blk cw : List Sym} {n : Nat} (h : rsDec blk p = some (cw, n))
    (rest : List (List Sym)) (ncorr : Nat) (d : List Sym) :
    decodeBlocks p (blk :: rest) ncorr d = decodeBlocks p rest (ncorr + n) (d ++ cw.take (blk.length - p)) := by
  simp [decodeBlocks, h]

/-- The block loop stops at a block that does not (R146). -/
theorem decodeBlocks_cons_none {p : Nat} {blk : List Sym} (h : rsDec blk p = none) (rest : List (List Sym))
    (ncorr : Nat) (d : List Sym) : decodeBlocks p (blk :: rest) ncorr d = .inl ncorr := by
  simp [decodeBlocks, h]

/-- The count of the block loop grows by at most the correction radius a block (R152). -/
theorem decodeBlocks_count (p : Nat) (blks : List (List Sym)) (ncorr : Nat) (d : List Sym) :
    match decodeBlocks p blks ncorr d with
    | .inl n => n ≤ ncorr + blks.length * (p / 2)
    | .inr r => r.1 ≤ ncorr + blks.length * (p / 2) := by
  induction blks generalizing ncorr d with
  | nil => simp [decodeBlocks]
  | cons blk rest ih =>
    cases h : rsDec blk p with
    | none => rw [decodeBlocks_cons_none h]; exact Nat.le_add_right _ _
    | some r =>
      obtain ⟨cw, n⟩ := r
      rw [decodeBlocks_cons_some h]
      have hn := rsDec_count h
      have := ih (ncorr + n) (d ++ cw.take (blk.length - p))
      have hs : (blk :: rest).length * (p / 2) = rest.length * (p / 2) + p / 2 := by
        rw [List.length_cons, Nat.succ_mul]
      split at this <;> omega

/-- A count that a `U32` can hold is answered as it is (R14, R146). -/
theorem ncorrWord_of_lt {n : Nat} (h : n < 2 ^ 32) : (ncorrWord n).toNat = n := by
  rw [ncorrWord, if_pos h, BitVec.toNat_ofNat, Nat.mod_eq_of_lt h]

@[simp] theorem ncorrSlot_of_lt {n : Nat} (h : n < 2 ^ 32) : ncorrSlot n = .int n := by
  rw [ncorrSlot, ncorrWord_of_lt h]

/-- Everything `FCDEC` can answer (R146). -/
theorem fcDec_cases (syms : List Sym) (b p : Nat) (crc : Bool) :
    (fcDecOk syms.length b p crc = false ∧ fcDec syms b p crc = .badShape) ∨
    (fcDecOk syms.length b p crc = true ∧
      ((∃ n, decodeBlocks p (blocksOf b (dilv syms b)) 0 [] = .inl n ∧ fcDec syms b p crc = .uncorrectable n) ∨
      ∃ n d, decodeBlocks p (blocksOf b (dilv syms b)) 0 [] = .inr (n, d) ∧
        (crc = false ∧ fcDec syms b p crc = .done (s2b d) n ∨
          crc = true ∧ crcStrip (s2b d) = none ∧ fcDec syms b p crc = .crcMismatch n ∨
          crc = true ∧ ∃ body, crcStrip (s2b d) = some body ∧ fcDec syms b p crc = .done body n))) := by
  unfold fcDec
  cases hok : fcDecOk syms.length b p crc with
  | false => exact .inl ⟨rfl, by simp⟩
  | true =>
    right
    refine ⟨rfl, ?_⟩
    simp only [not_true_eq_false, if_false]
    cases hd : decodeBlocks p (blocksOf b (dilv syms b)) 0 [] with
    | inl n => exact .inl ⟨n, rfl, rfl⟩
    | inr r =>
      obtain ⟨n, d⟩ := r
      refine .inr ⟨n, d, rfl, ?_⟩
      cases crc with
      | false => exact .inl ⟨rfl, by simp⟩
      | true =>
        right
        cases hc : crcStrip (s2b d) with
        | none => exact .inl ⟨rfl, rfl, by simp [hc]⟩
        | some body => exact .inr ⟨rfl, body, rfl, by simp [hc]⟩

/-- Everything `SETPAYLOAD` can answer (R282, log 11). -/
theorem setPayload_cases (s : State) (payload : List Byte) (level : Nat) (crc : Bool) :
    (s.cfg.eccAt level = none ∧ s.setPayload payload level crc = .error badOperand) ∨
    ∃ b p, s.cfg.eccAt level = some (b, p) ∧
      (Config.maxLen < payload.length ∧ s.setPayload payload level crc = .error (plainFail .length) ∨
        payload.length ≤ Config.maxLen ∧
          (frameTotal s.cfg (frameSyms payload level b p crc).length < idxLimit ∧
              s.setPayload payload level crc =
                .ok ({ s with sy := loadedSynth s.cfg (frameSyms payload level b p crc) },
                  frameTotal s.cfg (frameSyms payload level b p crc).length) ∨
            idxLimit ≤ frameTotal s.cfg (frameSyms payload level b p crc).length ∧
              s.setPayload payload level crc = .error badOperand)) := by
  unfold State.setPayload
  cases h : s.cfg.eccAt level with
  | none => exact .inl ⟨rfl, rfl⟩
  | some bp =>
    obtain ⟨b, p⟩ := bp
    refine .inr ⟨b, p, rfl, ?_⟩
    simp only
    split
    · exact .inl ⟨‹_›, rfl⟩
    · refine .inr ⟨Nat.not_lt.1 ‹_›, ?_⟩
      split
      · exact .inl ⟨‹_›, rfl⟩
      · exact .inr ⟨Nat.not_lt.1 ‹_›, rfl⟩

/-- Everything `GETSAMPLES` can answer (R283). -/
theorem getSamples_cases (s : State) (buf : List RealVal) (power : RealVal) :
    (s.sy.loaded = false ∧ s.getSamples buf power = .error (plainFail .notready)) ∨
    (s.sy.loaded = true ∧ idxLimit ≤ s.sy.cursor + buf.length ∧ s.getSamples buf power = .error badOperand) ∨
    (s.sy.loaded = true ∧ s.sy.cursor + buf.length < idxLimit ∧ s.getSamples buf power =
      .ok ({ s with sy := { s.sy with cursor := s.sy.cursor + buf.length } }, pulled s.cfg s.sy buf power)) := by
  unfold State.getSamples
  cases h : s.sy.loaded with
  | false => exact .inl ⟨rfl, by simp⟩
  | true =>
    right
    rw [if_neg (by simp)]
    split
    · exact .inl ⟨rfl, Nat.not_lt.1 ‹_›, rfl⟩
    · exact .inr ⟨rfl, not_not.1 ‹_›, rfl⟩

end Sys2Proof.Machine
end

