-- ==== Sys2Proof/Laws/State.lean ====
section
/-! SUPPORT. One lemma per field of `State` and update, true by `rfl`, so that no proof unfolds a record update. -/

namespace Sys2Proof.Machine

variable (s : State)

@[simp] theorem State.answerWith_cfg (a : Answer) : (s.answerWith a).cfg = s.cfg := rfl
@[simp] theorem State.answerWith_dm (a : Answer) : (s.answerWith a).dm = s.dm := rfl
@[simp] theorem State.answerWith_tr (a : Answer) : (s.answerWith a).tr = s.tr := rfl
@[simp] theorem State.answerWith_sy (a : Answer) : (s.answerWith a).sy = s.sy := rfl
@[simp] theorem State.answerWith_evt (a : Answer) : (s.answerWith a).evt = s.evt := rfl
@[simp] theorem State.answerWith_port (a : Answer) : (s.answerWith a).port = { pending := s.port.pending.tail, answer := some a } := rfl

@[simp] theorem State.ret_cfg (r : Reply) : (s.ret r).cfg = s.cfg := rfl
@[simp] theorem State.ret_dm (r : Reply) : (s.ret r).dm = s.dm := rfl
@[simp] theorem State.ret_tr (r : Reply) : (s.ret r).tr = s.tr := rfl
@[simp] theorem State.ret_sy (r : Reply) : (s.ret r).sy = s.sy := rfl
@[simp] theorem State.ret_evt (r : Reply) : (s.ret r).evt = s.evt := rfl
@[simp] theorem State.ret_port (r : Reply) : (s.ret r).port = { pending := s.port.pending.tail, answer := some ⟨statusOk, r.x, r.b⟩ } := rfl

@[simp] theorem State.raise_cfg (f : Fail) : (s.raise f).cfg = s.cfg := rfl
@[simp] theorem State.raise_dm (f : Fail) : (s.raise f).dm = s.dm := rfl
@[simp] theorem State.raise_tr (f : Fail) : (s.raise f).tr = s.tr := rfl
@[simp] theorem State.raise_sy (f : Fail) : (s.raise f).sy = s.sy := rfl
@[simp] theorem State.raise_evt (f : Fail) : (s.raise f).evt = s.evt := rfl
@[simp] theorem State.raise_port (f : Fail) : (s.raise f).port = { pending := s.port.pending.tail, answer := some ⟨f.cond.code, f.x, []⟩ } := rfl

@[simp] theorem State.setPushed_cfg (n : Nat) : (s.setPushed n).cfg = s.cfg := rfl
@[simp] theorem State.setPushed_dm (n : Nat) : (s.setPushed n).dm = { s.dm with pushed := n } := rfl
@[simp] theorem State.setPushed_tr (n : Nat) : (s.setPushed n).tr = s.tr := rfl
@[simp] theorem State.setPushed_sy (n : Nat) : (s.setPushed n).sy = s.sy := rfl
@[simp] theorem State.setPushed_evt (n : Nat) : (s.setPushed n).evt = s.evt := rfl
@[simp] theorem State.setPushed_port (n : Nat) : (s.setPushed n).port = s.port := rfl

@[simp] theorem State.addFixed_cfg (n : Nat) : (s.addFixed n).cfg = s.cfg := rfl
@[simp] theorem State.addFixed_dm (n : Nat) : (s.addFixed n).dm = { s.dm with fixed := s.dm.fixed + BitVec.ofNat 32 n } := rfl
@[simp] theorem State.addFixed_tr (n : Nat) : (s.addFixed n).tr = s.tr := rfl
@[simp] theorem State.addFixed_sy (n : Nat) : (s.addFixed n).sy = s.sy := rfl
@[simp] theorem State.addFixed_evt (n : Nat) : (s.addFixed n).evt = s.evt := rfl
@[simp] theorem State.addFixed_port (n : Nat) : (s.addFixed n).port = s.port := rfl

@[simp] theorem State.setSession_cfg (ss : Session) : (s.setSession ss).cfg = s.cfg := rfl
@[simp] theorem State.setSession_dm (ss : Session) : (s.setSession ss).dm = { s.dm with session := some ss } := rfl
@[simp] theorem State.setSession_tr (ss : Session) : (s.setSession ss).tr = s.tr := rfl
@[simp] theorem State.setSession_sy (ss : Session) : (s.setSession ss).sy = s.sy := rfl
@[simp] theorem State.setSession_evt (ss : Session) : (s.setSession ss).evt = s.evt := rfl
@[simp] theorem State.setSession_port (ss : Session) : (s.setSession ss).port = s.port := rfl

@[simp] theorem State.deliver_cfg (p : List Byte) : (s.deliver p).cfg = s.cfg := rfl
@[simp] theorem State.deliver_dm (p : List Byte) : (s.deliver p).dm = { s.dm with payload := some p } := rfl
@[simp] theorem State.deliver_tr (p : List Byte) : (s.deliver p).tr = s.tr := rfl
@[simp] theorem State.deliver_sy (p : List Byte) : (s.deliver p).sy = s.sy := rfl
@[simp] theorem State.deliver_evt (p : List Byte) : (s.deliver p).evt = s.evt := rfl
@[simp] theorem State.deliver_port (p : List Byte) : (s.deliver p).port = s.port := rfl

@[simp] theorem State.setTr_cfg (t : TrState) : (s.setTr t).cfg = s.cfg := rfl
@[simp] theorem State.setTr_dm (t : TrState) : (s.setTr t).dm = s.dm := rfl
@[simp] theorem State.setTr_tr (t : TrState) : (s.setTr t).tr = t := rfl
@[simp] theorem State.setTr_sy (t : TrState) : (s.setTr t).sy = s.sy := rfl
@[simp] theorem State.setTr_evt (t : TrState) : (s.setTr t).evt = s.evt := rfl
@[simp] theorem State.setTr_port (t : TrState) : (s.setTr t).port = s.port := rfl

@[simp] theorem State.emit_cfg (es : List Event) : (s.emit es).cfg = s.cfg := rfl
@[simp] theorem State.emit_dm (es : List Event) : (s.emit es).dm = s.dm := rfl
@[simp] theorem State.emit_tr (es : List Event) : (s.emit es).tr = s.tr := rfl
@[simp] theorem State.emit_sy (es : List Event) : (s.emit es).sy = s.sy := rfl
@[simp] theorem State.emit_evt (es : List Event) : (s.emit es).evt = s.evt ++ es := rfl
@[simp] theorem State.emit_port (es : List Event) : (s.emit es).port = s.port := rfl

@[simp] theorem State.toWaiting_cfg : (s.toWaiting).cfg = s.cfg := rfl
@[simp] theorem State.toWaiting_dm : (s.toWaiting).dm = { s.dm with session := none } := rfl
@[simp] theorem State.toWaiting_tr : (s.toWaiting).tr = trReset s.tr s.dm.pushed := rfl
@[simp] theorem State.toWaiting_sy : (s.toWaiting).sy = s.sy := rfl
@[simp] theorem State.toWaiting_evt : (s.toWaiting).evt = s.evt := rfl
@[simp] theorem State.toWaiting_port : (s.toWaiting).port = s.port := rfl

@[simp] theorem State.abandon_cfg (n : Nat) : (s.abandon n).cfg = s.cfg := rfl
@[simp] theorem State.abandon_dm (n : Nat) : (s.abandon n).dm = { s.dm with session := none, fixed := s.dm.fixed + BitVec.ofNat 32 n } := rfl
@[simp] theorem State.abandon_tr (n : Nat) : (s.abandon n).tr = trReset s.tr s.dm.pushed := rfl
@[simp] theorem State.abandon_sy (n : Nat) : (s.abandon n).sy = s.sy := rfl
@[simp] theorem State.abandon_evt (n : Nat) : (s.abandon n).evt = s.evt := rfl
@[simp] theorem State.abandon_port (n : Nat) : (s.abandon n).port = s.port := rfl

@[simp] theorem State.detect_cfg (t0 : Nat) : (s.detect t0).cfg = s.cfg := rfl
@[simp] theorem State.detect_dm (t0 : Nat) : (s.detect t0).dm = { s.dm with session := some (freshSession t0), fixed := 0 } := rfl
@[simp] theorem State.detect_tr (t0 : Nat) : (s.detect t0).tr = s.tr := rfl
@[simp] theorem State.detect_sy (t0 : Nat) : (s.detect t0).sy = s.sy := rfl
@[simp] theorem State.detect_evt (t0 : Nat) : (s.detect t0).evt = s.evt := rfl
@[simp] theorem State.detect_port (t0 : Nat) : (s.detect t0).port = s.port := rfl

@[simp] theorem State.skipRest_cfg (n : Nat) : (s.skipRest n).cfg = s.cfg := rfl
@[simp] theorem State.skipRest_dm (n : Nat) : (s.skipRest n).dm = { s.dm with pushed := s.dm.pushed + n } := rfl
@[simp] theorem State.skipRest_tr (n : Nat) : (s.skipRest n).tr = { s.tr with base := s.dm.pushed + n } := rfl
@[simp] theorem State.skipRest_sy (n : Nat) : (s.skipRest n).sy = s.sy := rfl
@[simp] theorem State.skipRest_evt (n : Nat) : (s.skipRest n).evt = s.evt := rfl
@[simp] theorem State.skipRest_port (n : Nat) : (s.skipRest n).port = s.port := rfl

@[simp] theorem State.softReset_cfg : (s.softReset).cfg = s.cfg := rfl
@[simp] theorem State.softReset_dm : (s.softReset).dm = { session := none, pushed := 0, fixed := 0, payload := none } := rfl
@[simp] theorem State.softReset_tr : (s.softReset).tr = trReset s.tr 0 := rfl
@[simp] theorem State.softReset_sy : (s.softReset).sy = s.sy := rfl
@[simp] theorem State.softReset_evt : (s.softReset).evt = s.evt := rfl
@[simp] theorem State.softReset_port : (s.softReset).port = s.port := rfl

@[simp] theorem State.drainEvents_cfg : (s.drainEvents).cfg = s.cfg := rfl
@[simp] theorem State.drainEvents_dm : (s.drainEvents).dm = s.dm := rfl
@[simp] theorem State.drainEvents_tr : (s.drainEvents).tr = s.tr := rfl
@[simp] theorem State.drainEvents_sy : (s.drainEvents).sy = s.sy := rfl
@[simp] theorem State.drainEvents_evt : (s.drainEvents).evt = [] := rfl
@[simp] theorem State.drainEvents_port : (s.drainEvents).port = s.port := rfl

@[simp] theorem State.issue_cfg (c : Command) : (s.issue c).cfg = s.cfg := rfl
@[simp] theorem State.issue_dm (c : Command) : (s.issue c).dm = s.dm := rfl
@[simp] theorem State.issue_tr (c : Command) : (s.issue c).tr = s.tr := rfl
@[simp] theorem State.issue_sy (c : Command) : (s.issue c).sy = s.sy := rfl
@[simp] theorem State.issue_evt (c : Command) : (s.issue c).evt = s.evt := rfl
@[simp] theorem State.issue_port (c : Command) : (s.issue c).port = { s.port with pending := s.port.pending ++ [c] } := rfl

@[simp] theorem State.hardReset_cfg : (s.hardReset).cfg = s.cfg := rfl
@[simp] theorem State.hardReset_dm : (s.hardReset).dm = (State.ofCfg s.cfg).dm := rfl
@[simp] theorem State.hardReset_tr : (s.hardReset).tr = (State.ofCfg s.cfg).tr := rfl
@[simp] theorem State.hardReset_sy : (s.hardReset).sy = (State.ofCfg s.cfg).sy := rfl
@[simp] theorem State.hardReset_evt : (s.hardReset).evt = [] := rfl
@[simp] theorem State.hardReset_port : (s.hardReset).port = { pending := s.port.pending, answer := none } := rfl

@[simp] theorem trReset_base (t : TrState) (n : Nat) : (trReset t n).base = n := rfl
@[simp] theorem trReset_n (t : TrState) (n : Nat) : (trReset t n).n = 0 := rfl
@[simp] theorem trReset_m (t : TrState) (n : Nat) : (trReset t n).m = 0 := rfl
@[simp] theorem trReset_lane0 (t : TrState) (n : Nat) : (trReset t n).lane0 = Lane.zero := rfl
@[simp] theorem trReset_lane1 (t : TrState) (n : Nat) : (trReset t n).lane1 = Lane.zero := rfl
@[simp] theorem trReset_hist0 (t : TrState) (n : Nat) : (trReset t n).hist0 = [] := rfl
@[simp] theorem trReset_hist1 (t : TrState) (n : Nat) : (trReset t n).hist1 = [] := rfl
@[simp] theorem trReset_found (t : TrState) (n : Nat) : (trReset t n).found = none := rfl
@[simp] theorem trReset_cben (t : TrState) (n : Nat) : (trReset t n).cben = t.cben := rfl

end Sys2Proof.Machine
end

