-- ==== Sys2Proof/Laws/Window.lean ====
section
/-! SUPPORT. The window functions and the tone on the numbers (spec/47_windows_tone_generator.md R263, R264, R266). -/

namespace Sys2Proof.Machine

/-- The Hann window (R263). -/
theorem toReal_hannW (i n : Nat) :
    (hannW i n).toReal = if n = 1 then 1 else 1 / 2 * (1 - Real.cos (2 * Real.pi * i / ((n : ℝ) - 1))) := by
  unfold hannW
  split
  · simp
  · simp [mul_div_assoc]

theorem hannW_range (i n : Nat) : 0 ≤ (hannW i n).toReal ∧ (hannW i n).toReal ≤ 1 := by
  rw [toReal_hannW]
  have h1 := Real.neg_one_le_cos (2 * Real.pi * i / ((n : ℝ) - 1))
  have h2 := Real.cos_le_one (2 * Real.pi * i / ((n : ℝ) - 1))
  split <;> constructor <;> linarith

@[simp] theorem toReal_raisedCos (y : RealVal) :
    (raisedCos y).toReal = 1 / 2 * (1 + Real.cos (Real.pi * y.toReal)) := by
  have h : 2 * Real.pi * (y.toReal / 2) = Real.pi * y.toReal := by ring
  simp [raisedCos, h]

/-- The Tukey window, branch by branch (R264). -/
theorem toReal_tukeyW (i n : Nat) (alpha : RealVal) (x a : ℝ) (hx : x = i / ((n : ℝ) - 1)) (ha : a = alpha.toReal) :
    (tukeyW i n alpha).toReal =
      if n = 1 ∨ a = 0 then 1
      else if x < a / 2 then 1 / 2 * (1 + Real.cos (Real.pi * (2 * x / a - 1)))
      else if 1 - a / 2 < x then 1 / 2 * (1 + Real.cos (Real.pi * (2 * x / a - 2 / a + 1)))
      else 1 := by
  subst hx ha
  unfold tukeyW
  simp only [RealVal.isZero_iff, RealVal.lt_iff, RealVal.toReal_rat, RealVal.toReal_divBy, RealVal.toReal_minus]
  push_cast
  split
  · simp
  · split
    · simp
    · split <;> simp

/-- A tone sample (R266). -/
@[simp] theorem toReal_toneSample (c : Cfg) (f : RealVal) (n : Nat) :
    (toneSample c f n).toReal = Real.sin (2 * Real.pi * f.toReal * n / c.fs.toReal) := by
  have h : 2 * Real.pi * (f.toReal * n / c.fs.toReal) = 2 * Real.pi * f.toReal * n / c.fs.toReal := by ring
  simp [toneSample, h]

/-- The frequency test is that of the numbers (R163, R266). -/
@[simp] theorem freqOk_iff (c : Cfg) (f : RealVal) :
    freqOk c f = true ↔ 0 < f.toReal ∧ f.toReal < c.fs.toReal / 2 := by
  simp [freqOk]

end Sys2Proof.Machine
end

