-- ==== Sys2Proof/Laws/Trigger.lean ====
section
/-! SUPPORT. The trigger detector step by step (spec/44_trigger_detector.md R188 to R195): what one sample does to the
analyzers, what a completed window does, everything `trStep` can do, and the range of the reported index. -/

namespace Sys2Proof.Machine

/-! ### Analyzers -/

@[simp] theorem gzStep_n (c : Cfg) (f : RealVal) (n : Nat) (hw : Bool) (g : GzState) (x : RealVal) :
    (gzStep c f n hw g x).n = g.n + 1 := rfl

@[simp] theorem gzStep_s2 (c : Cfg) (f : RealVal) (n : Nat) (hw : Bool) (g : GzState) (x : RealVal) :
    (gzStep c f n hw g x).s2 = g.s1 := rfl

@[simp] theorem gzFold_nil (c : Cfg) (f : RealVal) (n : Nat) (hw : Bool) (g : GzState) : gzFold c f n hw g [] = g := rfl

@[simp] theorem gzFold_cons (c : Cfg) (f : RealVal) (n : Nat) (hw : Bool) (g : GzState) (x : RealVal) (xs : List RealVal) :
    gzFold c f n hw g (x :: xs) = gzFold c f n hw (gzStep c f n hw g x) xs := rfl

/-- The recurrence of R162 on the numbers. -/
theorem gzStep_s1 (c : Cfg) (f : RealVal) (n : Nat) (hw : Bool) (g : GzState) (x : RealVal) :
    (gzStep c f n hw g x).s1.toReal = x.toReal * (if hw then (hannW g.n n).toReal else 1) +
      2 * Real.cos (2 * Real.pi * (f.toReal / c.fs.toReal)) * g.s1.toReal - g.s2.toReal := by
  cases hw <;> simp [gzStep, gzCoef]

/-- The squared magnitude of R166 on the numbers. -/
theorem toReal_gzM2 (c : Cfg) (f : RealVal) (g : GzState) :
    (gzM2 c f g).toReal = g.s1.toReal ^ 2 + g.s2.toReal ^ 2 -
      2 * Real.cos (2 * Real.pi * (f.toReal / c.fs.toReal)) * g.s1.toReal * g.s2.toReal := by
  simp [gzM2, gzCoef, pow_two]

/-- The magnitude is never negative (R166). -/
theorem gzM2_nonneg (c : Cfg) (f : RealVal) (g : GzState) : 0 ≤ (gzM2 c f g).toReal := by
  rw [toReal_gzM2]
  have h := Real.cos_sq_add_sin_sq (2 * Real.pi * (f.toReal / c.fs.toReal))
  nlinarith [sq_nonneg (g.s1.toReal - Real.cos (2 * Real.pi * (f.toReal / c.fs.toReal)) * g.s2.toReal),
    sq_nonneg (Real.sin (2 * Real.pi * (f.toReal / c.fs.toReal)) * g.s2.toReal)]

/-- `GZRMS` on the numbers (R166). -/
theorem toReal_gzRms (c : Cfg) (f : RealVal) (n : Nat) (g : GzState) :
    (gzRms c f n g).toReal = Real.sqrt (2 * (gzM2 c f g).toReal) / n := by
  simp [gzRms]

/-- An analyzer at rest: both terms are the number 0. -/
def GzState.Rest (g : GzState) : Prop := g.s1.toReal = 0 ∧ g.s2.toReal = 0

theorem GzState.zero_rest : GzState.zero.Rest := by simp [GzState.Rest]

/-- A sample that is 0 leaves an analyzer at rest at rest. -/
theorem gzStep_rest (c : Cfg) (f : RealVal) (n : Nat) (hw : Bool) {g : GzState} {x : RealVal} (hg : g.Rest)
    (hx : x.toReal = 0) : (gzStep c f n hw g x).Rest := by
  refine ⟨?_, hg.1⟩
  rw [gzStep_s1, hx, hg.1, hg.2]
  ring

/-- An analyzer at rest reads `-inf`. -/
theorem gzLevel_rest (c : Cfg) (f : RealVal) (n : Nat) {g : GzState} (hg : g.Rest) : gzLevel c f n g = .negInf := by
  refine logPow_zero ?_
  rw [toReal_gzRms, toReal_gzM2, hg.1, hg.2]
  simp

@[simp] theorem laneStep_q0_n (c : Cfg) (l : Lane) (x : RealVal) : (laneStep c l x).q0.n = l.q0.n + 1 := rfl
@[simp] theorem laneStep_q1_n (c : Cfg) (l : Lane) (x : RealVal) : (laneStep c l x).q1.n = l.q1.n + 1 := rfl

/-! ### Histories -/

/-- A history holds at most 18 levels (R39). -/
theorem pushLevel_length (hist : List Level) (l : Level) (h : hist.length ≤ Config.trgK) :
    (pushLevel hist l).length = min (hist.length + 1) Config.trgK := by
  unfold pushLevel
  simp only [List.length_append, List.length_singleton]
  split
  · simp only [List.length_tail, List.length_append, List.length_singleton]; omega
  · simp only [List.length_append, List.length_singleton]; omega

/-- What enters a history is the new level or was there. -/
theorem mem_pushLevel {hist : List Level} {l a : Level} (h : a ∈ pushLevel hist l) : a = l ∨ a ∈ hist := by
  unfold pushLevel at h
  simp only at h
  split at h
  · have := List.mem_of_mem_tail h
    simp at this
    tauto
  · simp at h
    tauto

theorem insertLevel_length (l : Level) (ls : List Level) : (insertLevel l ls).length = ls.length + 1 := by
  induction ls with
  | nil => rfl
  | cons x xs ih => simp only [insertLevel]; split <;> simp [ih]

theorem mem_insertLevel {l a : Level} {ls : List Level} : a ∈ insertLevel l ls ↔ a = l ∨ a ∈ ls := by
  induction ls with
  | nil => simp [insertLevel]
  | cons x xs ih =>
    simp only [insertLevel]
    split
    · simp
    · simp [ih]; tauto

/-- Sorting keeps the levels. -/
theorem mem_sortLevels {a : Level} {ls : List Level} : a ∈ sortLevels ls ↔ a ∈ ls := by
  induction ls with
  | nil => rfl
  | cons x xs ih => simp [sortLevels, mem_insertLevel, ih]

theorem sortLevels_length (ls : List Level) : (sortLevels ls).length = ls.length := by
  induction ls with
  | nil => rfl
  | cons x xs ih => simp [sortLevels, insertLevel_length, ih]

/-! ### The reported index (R194, R195) -/

theorem greatestFrom_range (ok : Nat → Bool) (lo k : Nat) :
    lo ≤ greatestFrom ok lo k ∧ greatestFrom ok lo k ≤ lo + k := by
  induction k with
  | zero => simp [greatestFrom]
  | succ k ih => simp only [greatestFrom]; split <;> omega

/-- Where the test holds exactly up to some number of the range, that number is found. -/
theorem greatestFrom_eq {ok : Nat → Bool} {lo k m : Nat} (hlo : lo ≤ m) (hk : m ≤ lo + k)
    (hok : ∀ n, ok n = true ↔ n ≤ m) : greatestFrom ok lo k = m := by
  induction k with
  | zero => simp only [greatestFrom]; omega
  | succ k ih =>
    simp only [greatestFrom]
    split
    · have := (hok _).1 ‹_›
      omega
    · refine ih ?_
      by_contra hc
      exact absurd ((hok (lo + k + 1)).2 (by omega)) ‹_›

/-- The index lies within half a hop of the centre, as the limit of `delta` has it. -/
theorem peakShift_range (c : Cfg) (la lb lc : Level) :
    (c.trgA + c.g + 1 - c.trgH) / 2 ≤ peakShift c la lb lc ∧
      peakShift c la lb lc ≤ (c.trgA + c.g + 1 + c.trgH) / 2 := by
  unfold peakShift
  have h := greatestFrom_range
    (fun n => RealVal.le (RealVal.ofNat n) (((peakDelta la lb lc).times (RealVal.ofNat c.trgH)).plus
      (.rat (((c.trgA + c.g : Nat) : Rat) / 2 + 1 / 2))))
    ((c.trgA + c.g + 1 - c.trgH) / 2)
    ((c.trgA + c.g + 1 + c.trgH) / 2 - (c.trgA + c.g + 1 - c.trgH) / 2)
  exact ⟨h.1, by simp only at h ⊢; omega⟩

/-- The interpolation is that of R194 on the numbers. -/
theorem toReal_peakDelta (la lb lc : Level) : (peakDelta la lb lc).toReal = deltaReal la lb lc := by
  unfold peakDelta deltaReal
  split
  · simp only [RealVal.isZero_iff, RealVal.toReal_plus, RealVal.toReal_minus, RealVal.toReal_times,
      RealVal.toReal_rat]
    push_cast
    split
    · simp
    · rw [RealVal.toReal_clamp _ _ _ (by norm_num)]
      simp
  · simp

theorem deltaReal_range (la lb lc : Level) : -1 / 2 ≤ deltaReal la lb lc ∧ deltaReal la lb lc ≤ 1 / 2 := by
  unfold deltaReal
  split
  · simp only
    split
    · norm_num
    · exact ⟨le_max_left _ _, max_le (by norm_num) (min_le_left _ _)⟩
  · norm_num

/-- The shift is the rounding of R195, exactly. -/
theorem peakShift_eq_floor (c : Cfg) (la lb lc : Level) :
    (peakShift c la lb lc : ℤ) = ⌊deltaReal la lb lc * c.trgH + ((c.trgA : ℝ) + c.g) / 2 + 1 / 2⌋ := by
  have hd := deltaReal_range la lb lc
  have hH : c.trgH ≤ c.trgA := by simp only [Cfg.trgA]; omega
  generalize hr : deltaReal la lb lc * c.trgH + ((c.trgA : ℝ) + c.g) / 2 + 1 / 2 = r
  have hH0 : (0 : ℝ) ≤ c.trgH := Nat.cast_nonneg _
  have hr1 : ((c.trgA : ℝ) + c.g + 1 - c.trgH) / 2 ≤ r := by rw [← hr]; nlinarith [hd.1]
  have hr2 : r ≤ ((c.trgA : ℝ) + c.g + 1 + c.trgH) / 2 := by rw [← hr]; nlinarith [hd.2]
  have hcast : ((c.trgA + c.g + 1 - c.trgH : Nat) : ℝ) = (c.trgA : ℝ) + c.g + 1 - c.trgH := by
    rw [Nat.cast_sub (by omega)]; push_cast; ring
  have hlo : (((c.trgA + c.g + 1 - c.trgH) / 2 : Nat) : ℝ) ≤ r :=
    (Nat.cast_div_le (α := ℝ)).trans (by rw [hcast]; exact_mod_cast hr1)
  have h0 : 0 ≤ r := le_trans (Nat.cast_nonneg _) hlo
  rw [← Int.natCast_floor_eq_floor h0, Int.natCast_inj]
  unfold peakShift
  refine greatestFrom_eq (Nat.le_floor hlo) ?_ fun n => ?_
  · have h1 : ⌊r⌋₊ ≤ (c.trgA + c.g + 1 + c.trgH) / 2 := by
      rw [Nat.le_div_iff_mul_le (by norm_num)]
      have := Nat.floor_le h0
      have h2 : ((⌊r⌋₊ * 2 : Nat) : ℝ) ≤ ((c.trgA + c.g + 1 + c.trgH : Nat) : ℝ) := by push_cast; linarith
      exact_mod_cast h2
    omega
  · rw [RealVal.le_iff, Nat.le_floor_iff h0, ← hr]
    simp only [RealVal.toReal_plus, RealVal.toReal_times, RealVal.toReal_ofNat, RealVal.toReal_rat,
      toReal_peakDelta]
    push_cast
    rw [add_assoc]

/-- Everything a positive decision says (R193). -/
theorem decideTrigger_some {c : Cfg} {t : TrState} {w t0 : Nat} (h : decideTrigger c t w = some t0) :
    7 ≤ w ∧ ∃ la lb lc l0, levelAt t.hist1 w (w - 2) = some la ∧ levelAt t.hist1 w (w - 1) = some lb ∧
      levelAt t.hist1 w w = some lc ∧ levelAt t.hist0 w (w - 7) = some l0 ∧
      Level.lt la lb = true ∧ Level.lt lb lc = false ∧
      Level.lt ((lowerMedian t.hist1).addDb c.snr) lb = true ∧
      Level.lt ((lowerMedian t.hist0).addDb c.snr) l0 = true ∧
      t0 = t.base + ((w - 1) * c.trgH + peakShift c la lb lc) := by
  unfold decideTrigger at h
  split at h
  · cases h
  · rename_i hw
    simp only [bind, Option.bind_eq_some_iff] at h
    obtain ⟨la, h1, lb, h2, lc, h3, l0, h4, h5⟩ := h
    split at h5
    · rename_i hc
      simp only [Bool.and_eq_true, Bool.not_eq_true'] at hc
      refine ⟨by omega, la, lb, lc, l0, h1, h2, h3, h4, hc.1.1.1, hc.1.1.2, hc.1.2, hc.2, ?_⟩
      exact (Option.some.inj h5).symm
    · cases h5

/-! ### One sample (R188) -/

@[simp] theorem trFeed_base (c : Cfg) (t : TrState) (x : RealVal) : (trFeed c t x).base = t.base := rfl
@[simp] theorem trFeed_n (c : Cfg) (t : TrState) (x : RealVal) : (trFeed c t x).n = t.n + 1 := rfl
@[simp] theorem trFeed_m (c : Cfg) (t : TrState) (x : RealVal) : (trFeed c t x).m = t.m := rfl
@[simp] theorem trFeed_hist0 (c : Cfg) (t : TrState) (x : RealVal) : (trFeed c t x).hist0 = t.hist0 := rfl
@[simp] theorem trFeed_hist1 (c : Cfg) (t : TrState) (x : RealVal) : (trFeed c t x).hist1 = t.hist1 := rfl
@[simp] theorem trFeed_found (c : Cfg) (t : TrState) (x : RealVal) : (trFeed c t x).found = t.found := rfl
@[simp] theorem trFeed_cben (c : Cfg) (t : TrState) (x : RealVal) : (trFeed c t x).cben = t.cben := rfl
@[simp] theorem trFeed_lane0 (c : Cfg) (t : TrState) (x : RealVal) : (trFeed c t x).lane0 = laneStep c t.lane0 x := rfl

@[simp] theorem completeWindow_base (c : Cfg) (t : TrState) (l : Lane) : (completeWindow c t l).1.base = t.base := rfl
@[simp] theorem completeWindow_n (c : Cfg) (t : TrState) (l : Lane) : (completeWindow c t l).1.n = t.n := rfl
@[simp] theorem completeWindow_m (c : Cfg) (t : TrState) (l : Lane) : (completeWindow c t l).1.m = t.m + 1 := rfl
@[simp] theorem completeWindow_found (c : Cfg) (t : TrState) (l : Lane) :
    (completeWindow c t l).1.found = t.found := rfl
@[simp] theorem completeWindow_cben (c : Cfg) (t : TrState) (l : Lane) : (completeWindow c t l).1.cben = t.cben := rfl
@[simp] theorem completeWindow_lane0 (c : Cfg) (t : TrState) (l : Lane) :
    (completeWindow c t l).1.lane0 = t.lane0 := rfl
@[simp] theorem completeWindow_lane1 (c : Cfg) (t : TrState) (l : Lane) :
    (completeWindow c t l).1.lane1 = t.lane1 := rfl

/-- Everything the look at the lanes can do when at most one of them is full: nothing, or one window completes in lane 0,
or one in lane 1. -/
theorem trComplete_cases (c : Cfg) (t : TrState) (h : t.lane0.q0.n = c.trgA → t.lane1.q0.n ≠ c.trgA) :
    (t.lane0.q0.n ≠ c.trgA ∧ t.lane1.q0.n ≠ c.trgA ∧ trComplete c t = (t, none)) ∨
      (t.lane0.q0.n = c.trgA ∧ trComplete c t = completeWindow c { t with lane0 := Lane.zero } t.lane0) ∨
      (t.lane1.q0.n = c.trgA ∧ trComplete c t = completeWindow c { t with lane1 := Lane.zero } t.lane1) := by
  unfold trComplete
  by_cases h0 : t.lane0.q0.n = c.trgA
  · have h1 := h h0
    refine .inr (.inl ⟨h0, ?_⟩)
    simp [h0, h1]
  · by_cases h1 : t.lane1.q0.n = c.trgA
    · exact .inr (.inr ⟨h1, by simp [h0, h1]⟩)
    · exact .inl ⟨h0, h1, by simp [h0, h1]⟩

/-- What the look at the lanes leaves in every case. -/
theorem trComplete_frame (c : Cfg) (t : TrState) :
    (trComplete c t).1.base = t.base ∧ (trComplete c t).1.n = t.n ∧ (trComplete c t).1.found = t.found ∧
      (trComplete c t).1.cben = t.cben := by
  unfold trComplete
  by_cases h0 : t.lane0.q0.n = c.trgA
  · simp only [h0, if_true]
    split <;> exact ⟨rfl, rfl, rfl, rfl⟩
  · simp only [h0, if_false]
    split <;> exact ⟨rfl, rfl, rfl, rfl⟩

/-- Everything `trStep` can do: a latched record counts (R190); a scanning one is fed and looked at, and what the look
decides is latched. -/
theorem trStep_cases (c : Cfg) (t : TrState) (x : RealVal) :
    (t.found.isSome = true ∧ trStep c t x = ({ t with n := t.n + 1 }, none)) ∨
      (t.found = none ∧ (trComplete c (trFeed c t x)).2 = none ∧
        trStep c t x = ((trComplete c (trFeed c t x)).1, none)) ∨
      ∃ t0, t.found = none ∧ (trComplete c (trFeed c t x)).2 = some t0 ∧
        trStep c t x = ({ (trComplete c (trFeed c t x)).1 with found := some t0 }, some t0) := by
  unfold trStep
  cases hf : t.found with
  | some v => exact .inl ⟨rfl, rfl⟩
  | none =>
    right
    rcases hc : trComplete c (trFeed c t x) with ⟨u, _ | t0⟩
    · exact .inl ⟨rfl, rfl, rfl⟩
    · exact .inr ⟨t0, rfl, rfl, rfl⟩

/-- One sample is one more counted, in the same numbering, with the enable kept (R37, R41). -/
theorem trStep_frame (c : Cfg) (t : TrState) (x : RealVal) :
    (trStep c t x).1.base = t.base ∧ (trStep c t x).1.n = t.n + 1 ∧ (trStep c t x).1.cben = t.cben := by
  obtain ⟨h1, h2, _, h4⟩ := trComplete_frame c (trFeed c t x)
  rcases trStep_cases c t x with ⟨_, h⟩ | ⟨_, _, h⟩ | ⟨t0, _, _, h⟩
  · rw [h]; exact ⟨rfl, rfl, rfl⟩
  · rw [h]; exact ⟨h1, h2, h4⟩
  · rw [h]; exact ⟨h1, h2, h4⟩

/-- The second component is a detection exactly when the latch is set by this sample. -/
theorem trStep_found (c : Cfg) (t : TrState) (x : RealVal) (t0 : Nat) :
    (trStep c t x).2 = some t0 → t.found = none ∧ (trStep c t x).1.found = some t0 := by
  intro h
  rcases trStep_cases c t x with ⟨_, e⟩ | ⟨_, _, e⟩ | ⟨t1, hn, _, e⟩
  · rw [e] at h; cases h
  · rw [e] at h; cases h
  · rw [e] at h ⊢
    exact ⟨hn, h⟩

/-! ### The ranges of the indices (R14) -/

/-- What it means that the indices of a trigger record are in range (R37, R39, R40, R44). -/
theorem TrState.inRange_iff (t : TrState) : t.inRange = true ↔
    t.base < idxLimit ∧ t.n < idxLimit ∧ t.m < idxLimit ∧ (∀ t0, t.found = some t0 → t0 < idxLimit) ∧
      (t.lane0.q0.n < idxLimit ∧ t.lane0.q1.n < idxLimit) ∧ t.lane1.q0.n < idxLimit ∧ t.lane1.q1.n < idxLimit := by
  simp [TrState.inRange, Lane.inRange, Option.all_eq_true, and_assoc]

/-- A record of its type has its indices in range. -/
theorem TrState.typed_inRange {c : Cfg} {t : TrState} (h : t.typed c = true) : t.inRange = true := by
  unfold TrState.typed at h
  simp only [Bool.and_eq_true] at h
  tauto

@[simp] theorem inRange_trReset (t : TrState) (base : Nat) : (trReset t base).inRange = decide (base < idxLimit) := by
  rw [Bool.eq_iff_iff, TrState.inRange_iff]
  simp [trReset]

@[simp] theorem inRange_setCb (t : TrState) (cben : Bool) : { t with cben := cben }.inRange = t.inRange := rfl

/-- A record that scans has its indices in range when its base and its samples are. -/
theorem TrState.Scanning.inRange {c : Cfg} {t : TrState} (h : t.Scanning c) (hb : t.base < idxLimit)
    (hn : t.n < idxLimit) : t.inRange = true := by
  rw [TrState.inRange_iff, h.found, h.lane00, h.lane01, h.lane10, h.lane11, h.windows]
  have h1 := Nat.mod_le t.n c.trgA
  have h2 := Nat.mod_le (t.n - c.trgH) c.trgA
  have h3 := Nat.div_le_self t.n c.trgH
  exact ⟨hb, hn, by omega, by simp, by omega, by omega, by omega⟩

@[simp] theorem trPush_nil (c : Cfg) (t : TrState) : trPush c t [] = (t, []) := rfl

@[simp] theorem trPush_cons (c : Cfg) (t : TrState) (x : RealVal) (xs : List RealVal) :
    trPush c t (x :: xs) = ((trPush c (trStep c t x).1 xs).1,
      trEvents t (trStep c t x).2 ++ (trPush c (trStep c t x).1 xs).2) := rfl

end Sys2Proof.Machine
end

