-- ==== Sys2Proof/Laws/Demodulator.lean ====
section
/-! SUPPORT. The demodulator sample by sample (spec/46_demodulator.md R222 to R227): everything a full buffer and one
sample can do, and what each leaves alone. -/

namespace Sys2Proof.Machine

/-! ### A full buffer -/

/-- Everything `HeaderFull` can do (R226): abandon, deliver the empty message, or open the payload buffer. -/
theorem headerFull_cases (s : State) (ss : Session) :
    (∃ n, s.headerFull ss = (s.abandon n, false)) ∨
      (∃ bytes n h, fcDec ss.sym Config.hdrSyms Config.hdrPar false = .done bytes n ∧
        hdrDec s.cfg bytes = .ok h ∧ s.headerFull ss = (((s.addFixed n).deliver []).toWaiting, true)) ∨
      (∃ bytes n h need, fcDec ss.sym Config.hdrSyms Config.hdrPar false = .done bytes n ∧
        hdrDec s.cfg bytes = .ok h ∧ 0 < need ∧
        need = nsym h.len.toNat ((s.cfg.eccAt h.level.toNat).getD (0, 0)).1
          ((s.cfg.eccAt h.level.toNat).getD (0, 0)).2 h.crc ∧
        s.headerFull ss = ((s.addFixed n).setSession (payloadSession s.cfg ss h need), false)) := by
  unfold State.headerFull
  split
  · exact .inl ⟨0, rfl⟩
  · exact .inl ⟨_, rfl⟩
  · exact .inl ⟨_, rfl⟩
  · rename_i bytes n hd
    cases hh : hdrDec s.cfg bytes with
    | error e => exact .inl ⟨n, rfl⟩
    | ok h =>
      right
      simp only
      split
      · exact .inl ⟨bytes, n, h, hd, hh, rfl⟩
      · exact .inr ⟨bytes, n, h, _, hd, hh, Nat.pos_of_ne_zero ‹_›, rfl, rfl⟩

/-- Everything `PayloadFull` can do (R227): abandon, or deliver what decodes. -/
theorem payloadFull_cases (s : State) (ss : Session) (h : Hdr) :
    (∃ n, s.payloadFull ss h = (s.abandon n, false)) ∨
      (∃ p n, fcDec ss.sym ((s.cfg.eccAt h.level.toNat).getD (0, 0)).1 ((s.cfg.eccAt h.level.toNat).getD (0, 0)).2
          h.crc = .done p n ∧ s.payloadFull ss h = (((s.addFixed n).deliver p).toWaiting, true)) := by
  unfold State.payloadFull
  simp only
  split
  · exact .inl ⟨0, rfl⟩
  · exact .inl ⟨_, rfl⟩
  · exact .inl ⟨_, rfl⟩
  · rename_i p n hd
    exact .inr ⟨p, n, hd, rfl⟩

/-! ### One sample -/

/-- Everything `ParseSample` can do (R225): feed the analyzers, decide a word, or decide the word that fills the buffer. -/
theorem parseSample_cases (s : State) (ss : Session) (n : Nat) (x : RealVal) :
    (allFull s.cfg (feedAnalyzers s.cfg ss n x) = false ∧
      s.parseSample ss n x = (s.setSession { ss with an := feedAnalyzers s.cfg ss n x }, false)) ∨
    (allFull s.cfg (feedAnalyzers s.cfg ss n x) = true ∧
      ((wordDone s.cfg ss (feedAnalyzers s.cfg ss n x)).sym.length ≠ ss.need ∧
          s.parseSample ss n x = (s.setSession (wordDone s.cfg ss (feedAnalyzers s.cfg ss n x)), false) ∨
        (wordDone s.cfg ss (feedAnalyzers s.cfg ss n x)).sym.length = ss.need ∧
          (ss.phase = .header ∧
              s.parseSample ss n x = s.headerFull (wordDone s.cfg ss (feedAnalyzers s.cfg ss n x)) ∨
            ∃ h, ss.phase = .payload h ∧
              s.parseSample ss n x = s.payloadFull (wordDone s.cfg ss (feedAnalyzers s.cfg ss n x)) h))) := by
  unfold State.parseSample
  simp only
  cases hf : allFull s.cfg (feedAnalyzers s.cfg ss n x) with
  | false => exact .inl ⟨rfl, by simp⟩
  | true =>
    right
    refine ⟨rfl, ?_⟩
    simp only [if_true]
    by_cases hl : (wordDone s.cfg ss (feedAnalyzers s.cfg ss n x)).sym.length = ss.need
    · right
      refine ⟨hl, ?_⟩
      rw [if_pos (show _ = (wordDone s.cfg ss (feedAnalyzers s.cfg ss n x)).need from hl)]
      cases hp : ss.phase with
      | header =>
        refine .inl ⟨rfl, ?_⟩
        rw [show (wordDone s.cfg ss (feedAnalyzers s.cfg ss n x)).phase = .header from hp]
      | payload h =>
        refine .inr ⟨h, rfl, ?_⟩
        rw [show (wordDone s.cfg ss (feedAnalyzers s.cfg ss n x)).phase = .payload h from hp]
    · left
      refine ⟨hl, ?_⟩
      rw [if_neg (show ¬ _ = (wordDone s.cfg ss (feedAnalyzers s.cfg ss n x)).need from hl)]

@[simp] theorem wordDone_sym_length (c : Cfg) (ss : Session) (an : Vector GzState 32) :
    (wordDone c ss an).sym.length = ss.sym.length + 2 := by
  simp [wordDone]

@[simp] theorem wordDone_k (c : Cfg) (ss : Session) (an : Vector GzState 32) : (wordDone c ss an).k = ss.k + 1 := rfl
@[simp] theorem wordDone_t0 (c : Cfg) (ss : Session) (an : Vector GzState 32) : (wordDone c ss an).t0 = ss.t0 := rfl
@[simp] theorem wordDone_need (c : Cfg) (ss : Session) (an : Vector GzState 32) :
    (wordDone c ss an).need = ss.need := rfl
@[simp] theorem wordDone_phase (c : Cfg) (ss : Session) (an : Vector GzState 32) :
    (wordDone c ss an).phase = ss.phase := rfl

/-- Each analyzer takes a sample of its own window and no other (R225). -/
theorem feedAnalyzers_get (c : Cfg) (ss : Session) (n : Nat) (x : RealVal) (f : Fin 32) :
    (feedAnalyzers c ss n x)[f] =
      if burstStart c ss + c.winOff f ≤ n ∧ n < burstStart c ss + c.winOff f + c.winLen f then
        gzStep c c.freq[f] (c.winLen f) false ss.an[f] x
      else ss.an[f] := by
  simp [feedAnalyzers]

/-- The word boundary: every analyzer's window is full (R225). -/
theorem allFull_iff (c : Cfg) (an : Vector GzState 32) : allFull c an = true ↔ ∀ f : Fin 32, an[f].n = c.winLen f := by
  simp [allFull, List.all_eq_true]

/-- What a sample leaves alone while parsing, whatever it does. -/
theorem parseSample_frame (s : State) (ss : Session) (n : Nat) (x : RealVal) :
    (s.parseSample ss n x).1.cfg = s.cfg ∧ (s.parseSample ss n x).1.sy = s.sy ∧
      (s.parseSample ss n x).1.evt = s.evt ∧ (s.parseSample ss n x).1.port = s.port ∧
      (s.parseSample ss n x).1.dm.pushed = s.dm.pushed ∧ (s.parseSample ss n x).1.tr.cben = s.tr.cben := by
  rcases parseSample_cases s ss n x with ⟨_, h⟩ | ⟨_, ⟨_, h⟩ | ⟨_, ⟨_, h⟩ | ⟨hd, _, h⟩⟩⟩
  · rw [h]; simp
  · rw [h]; simp
  · rw [h]
    rcases headerFull_cases s (wordDone s.cfg ss (feedAnalyzers s.cfg ss n x)) with
      ⟨_, e⟩ | ⟨_, _, _, _, _, e⟩ | ⟨_, _, _, _, _, _, _, _, e⟩ <;> rw [e] <;> simp
  · rw [h]
    rcases payloadFull_cases s (wordDone s.cfg ss (feedAnalyzers s.cfg ss n x)) hd with ⟨_, e⟩ | ⟨_, _, _, e⟩ <;>
      rw [e] <;> simp

/-- Everything `DmStep` can do while waiting (R223): the trigger steps, and a detection opens a session. -/
theorem dmStep_waiting {s : State} (h : s.dm.session = none) (x : RealVal) :
    ((trStep s.cfg s.tr x).2 = none ∧
        s.dmStep x = ((s.setPushed (s.dm.pushed + 1)).setTr (trStep s.cfg s.tr x).1, false)) ∨
      ∃ t0, (trStep s.cfg s.tr x).2 = some t0 ∧
        s.dmStep x = ((((s.setPushed (s.dm.pushed + 1)).setTr (trStep s.cfg s.tr x).1).emit
          (trEvents s.tr (some t0))).detect t0, false) := by
  unfold State.dmStep
  simp only [h]
  rcases hr : trStep s.cfg s.tr x with ⟨u, _ | t0⟩
  · left
    refine ⟨rfl, ?_⟩
    simp [trEvents, State.emit, State.setTr, State.setPushed]
  · exact .inr ⟨t0, rfl, rfl⟩

/-- `DmStep` while parsing is `ParseSample` of the sample's index (R223). -/
theorem dmStep_parsing {s : State} {ss : Session} (h : s.dm.session = some ss) (x : RealVal) :
    s.dmStep x = (s.setPushed (s.dm.pushed + 1)).parseSample ss s.dm.pushed x := by
  unfold State.dmStep
  simp only [h]

/-- One sample is one more counted, in either state (R223, R27). -/
theorem dmStep_pushed (s : State) (x : RealVal) : (s.dmStep x).1.dm.pushed = s.dm.pushed + 1 := by
  cases h : s.dm.session with
  | none => rcases dmStep_waiting h x with ⟨_, e⟩ | ⟨_, _, e⟩ <;> rw [e] <;> simp
  | some ss => rw [dmStep_parsing h]; exact (parseSample_frame _ ss _ x).2.2.2.2.1

/-- What a sample leaves alone: the configuration, the synthesizer and the port (R239). -/
theorem dmStep_frame (s : State) (x : RealVal) :
    (s.dmStep x).1.cfg = s.cfg ∧ (s.dmStep x).1.sy = s.sy ∧ (s.dmStep x).1.port = s.port := by
  cases h : s.dm.session with
  | none => rcases dmStep_waiting h x with ⟨_, e⟩ | ⟨_, _, e⟩ <;> rw [e] <;> simp
  | some ss =>
    rw [dmStep_parsing h]
    obtain ⟨h1, h2, _, h3, _⟩ := parseSample_frame (s.setPushed (s.dm.pushed + 1)) ss s.dm.pushed x
    exact ⟨h1, h2, h3⟩

/-! ### A chunk (R222) -/

@[simp] theorem pushSamples_nil (s : State) : s.pushSamples [] = (s, false) := rfl

/-- A sample that completes a message ends the push; the rest is counted. -/
theorem pushSamples_ready {s : State} {x : RealVal} (h : (s.dmStep x).2 = true) (xs : List RealVal) :
    s.pushSamples (x :: xs) = ((s.dmStep x).1.skipRest xs.length, true) := by
  simp [State.pushSamples, h]

/-- A sample that completes nothing is followed by the rest of the chunk. -/
theorem pushSamples_more {s : State} {x : RealVal} (h : (s.dmStep x).2 = false) (xs : List RealVal) :
    s.pushSamples (x :: xs) = (s.dmStep x).1.pushSamples xs := by
  simp [State.pushSamples, h]

/-- Two rests are one. -/
theorem skipRest_skipRest (s : State) (a b : Nat) : (s.skipRest a).skipRest b = s.skipRest (a + b) := by
  simp [State.skipRest, State.setPushed, State.setTr, Nat.add_assoc]

/-- What `PUSHF` can answer: the samples pushed, a refusal at the counter's bound (R22), or a refusal of another index
past the range of an `Idx` (log 11). -/
theorem push_cases (s : State) (chunk : List RealVal) :
    (s.dm.pushed + chunk.length < idxLimit ∧ (s.pushSamples chunk).1.indicesInRange s.evt.length = true ∧
        s.push chunk = .ok (s.pushSamples chunk)) ∨
      ((idxLimit ≤ s.dm.pushed + chunk.length ∨ (s.pushSamples chunk).1.indicesInRange s.evt.length = false) ∧
        s.push chunk = .error badOperand) := by
  unfold State.push
  split
  · exact .inr ⟨.inl (Nat.not_lt.1 ‹_›), rfl⟩
  · split
    · exact .inl ⟨not_not.1 ‹_›, ‹_›, rfl⟩
    · exact .inr ⟨.inr (Bool.not_eq_true _ ▸ ‹¬_›), rfl⟩

/-- What it means that the indices of a session are in range (R28, R44). -/
theorem Session.inRange_iff (ss : Session) :
    ss.inRange = true ↔ ss.t0 < idxLimit ∧ ∀ f : Fin 32, ss.an[f].n < idxLimit := by
  simp [Session.inRange]

/-- What it means that the indices a push may have written are in range (R14, R28, R40, R44, R45). -/
theorem indicesInRange_iff (s : State) (before : Nat) : s.indicesInRange before = true ↔
    (∀ ss, s.dm.session = some ss → ss.inRange = true) ∧ s.tr.inRange = true ∧
      ∀ t0, .trig t0 ∈ s.evt.drop before → t0 < idxLimit := by
  unfold State.indicesInRange
  rw [Bool.and_eq_true, Bool.and_eq_true, and_assoc]
  refine and_congr (by simp [Option.all_eq_true]) (and_congr Iff.rfl ?_)
  rw [List.all_eq_true]
  constructor
  · intro h t0 ht
    simpa using h _ ht
  · rintro h ⟨t0⟩ ht
    simpa using h _ ht

end Sys2Proof.Machine
end

