-- ==== Sys2Proof/Laws/Demo.lean ====
section
/-! SUPPORT. The chunks of the self test and their pushes (spec/49_demo.md R301). -/

namespace Sys2Proof.Machine

/-- Enough chunks hold the whole sequence. -/
theorem chunksOf_flatten (size cnt : Nat) (xs : List RealVal) (h : xs.length ≤ cnt * size) :
    (chunksOf size cnt xs).flatten = xs := by
  induction cnt generalizing xs with
  | zero =>
    have : xs = [] := List.eq_nil_of_length_eq_zero (by omega)
    simp [this, chunksOf]
  | succ n ih =>
    rw [chunksOf, List.flatten_cons, ih _ (by rw [List.length_drop, Nat.succ_mul] at *; omega),
      List.take_append_drop]

@[simp] theorem chunksOf_length (size cnt : Nat) (xs : List RealVal) : (chunksOf size cnt xs).length = cnt := by
  induction cnt generalizing xs with
  | zero => rfl
  | succ n ih => simp [chunksOf, ih]

/-- Chunk `i` is `size` long, or what is left. -/
theorem chunksOf_getElem (size cnt : Nat) (xs : List RealVal) (i : Nat) (h : i < cnt) :
    ((chunksOf size cnt xs).getD i []).length = min size (xs.length - i * size) := by
  induction cnt generalizing xs i with
  | zero => omega
  | succ n ih =>
    cases i with
    | zero => simp [chunksOf]
    | succ i =>
      have := ih (xs.drop size) i (by omega)
      rw [chunksOf, List.getD_cons_succ, this, List.length_drop, Nat.succ_mul]
      congr 1
      omega

/-- One chunk pushed, then the rest. -/
theorem pushAll_cons (s : State) (c : List RealVal) (cs : List (List RealVal)) (seen : Bool) :
    (∃ f, s.push c = .error f ∧ s.pushAll (c :: cs) seen = .error f) ∨
      ∃ t ready, s.push c = .ok (t, ready) ∧ s.pushAll (c :: cs) seen = t.pushAll cs (seen || ready) := by
  rw [State.pushAll]
  cases h : s.push c with
  | error f => exact .inl ⟨f, rfl, rfl⟩
  | ok r => exact .inr ⟨r.1, r.2, rfl, rfl⟩

end Sys2Proof.Machine
end

