-- ==== Sys2Proof/Laws/Dispatch.lean ====
section
/-! SUPPORT. The dispatch, one lemma per operation: `exec` is its meaning. -/

namespace Sys2Proof.Machine

@[simp] theorem exec_crc16 (s : State) : exec .crc16 s = execCrc16 s := rfl
@[simp] theorem exec_chk8 (s : State) : exec .chk8 s = execChk8 s := rfl
@[simp] theorem exec_rsenc (s : State) : exec .rsenc s = execRsenc s := rfl
@[simp] theorem exec_rsdec (s : State) : exec .rsdec s = execRsdec s := rfl
@[simp] theorem exec_ilv (s : State) : exec .ilv s = execIlv s := rfl
@[simp] theorem exec_dilv (s : State) : exec .dilv s = execDilv s := rfl
@[simp] theorem exec_hdrenc (s : State) : exec .hdrenc s = execHdrenc s := rfl
@[simp] theorem exec_hdrdec (s : State) : exec .hdrdec s = execHdrdec s := rfl
@[simp] theorem exec_fcenc (s : State) : exec .fcenc s = execFcenc s := rfl
@[simp] theorem exec_fcdec (s : State) : exec .fcdec s = execFcdec s := rfl
@[simp] theorem exec_fcencb (s : State) : exec .fcencb s = execFcencb s := rfl
@[simp] theorem exec_gzinit (s : State) : exec .gzinit s = execGzinit s := rfl
@[simp] theorem exec_gzproc (s : State) : exec .gzproc s = execGzproc s := rfl
@[simp] theorem exec_gzrms (s : State) : exec .gzrms s = execGzrms s := rfl
@[simp] theorem exec_gzreset (s : State) : exec .gzreset s = execGzreset s := rfl
@[simp] theorem exec_logpow (s : State) : exec .logpow s = execLogpow s := rfl
@[simp] theorem exec_hann (s : State) : exec .hann s = execHann s := rfl
@[simp] theorem exec_tukey (s : State) : exec .tukey s = execTukey s := rfl
@[simp] theorem exec_tone (s : State) : exec .tone s = execTone s := rfl
@[simp] theorem exec_trgpush (s : State) : exec .trgpush s = execTrgpush s := rfl
@[simp] theorem exec_trgreset (s : State) : exec .trgreset s = execTrgreset s := rfl
@[simp] theorem exec_trgmaxwin (s : State) : exec .trgmaxwin s = execTrgmaxwin s := rfl
@[simp] theorem exec_trgsetcb (s : State) : exec .trgsetcb s = execTrgsetcb s := rfl
@[simp] theorem exec_sym2freq (s : State) : exec .sym2freq s = execSym2freq s := rfl
@[simp] theorem exec_argmax (s : State) : exec .argmax s = execArgmax s := rfl
@[simp] theorem exec_pushf (s : State) : exec .pushf s = execPushf s := rfl
@[simp] theorem exec_pushi (s : State) : exec .pushi s = execPushi s := rfl
@[simp] theorem exec_getpayload (s : State) : exec .getpayload s = execGetpayload s := rfl
@[simp] theorem exec_getmaxwin (s : State) : exec .getmaxwin s = execGetmaxwin s := rfl
@[simp] theorem exec_reset (s : State) : exec .reset s = execReset s := rfl
@[simp] theorem exec_getfixed (s : State) : exec .getfixed s = execGetfixed s := rfl
@[simp] theorem exec_setcb (s : State) : exec .setcb s = execSetcb s := rfl
@[simp] theorem exec_setpayload (s : State) : exec .setpayload s = execSetpayload s := rfl
@[simp] theorem exec_getsamples (s : State) : exec .getsamples s = execGetsamples s := rfl
@[simp] theorem exec_demo (s : State) : exec .demo s = execDemo s := rfl

end Sys2Proof.Machine
end

