-- ==== Sys2Proof/Laws/Operands.lean ====
section
/-! SUPPORT. What each operand reader gives on the operand forms of spec/30_encoding.md R88, and what it can answer. -/

namespace Sys2Proof.Machine

/-! ### Raising -/

@[simp] theorem require_true (c : Cond) : require true c = .ok () := rfl
@[simp] theorem require_false (c : Cond) : require false c = .error (plainFail c) := rfl

/-- A test passes exactly when it holds. -/
theorem require_eq_ok {b : Bool} {c : Cond} {u : Unit} : require b c = .ok u ↔ b = true := by
  cases b <;> simp [require]

@[simp] theorem res_bind_ok {α β : Type} (a : α) (f : α → Res β) : (Except.ok a : Res α) >>= f = f a := rfl
@[simp] theorem res_bind_error {α β : Type} (e : Fail) (f : α → Res β) :
    (Except.error e : Res α) >>= f = .error e := rfl
@[simp] theorem res_pure {α : Type} (a : α) : (pure a : Res α) = .ok a := rfl
@[simp] theorem res_throw {α : Type} (e : Fail) : (throw e : Res α) = .error e := rfl

/-- A sequence of two steps ends with a result exactly when both do. -/
theorem res_bind_eq_ok {α β : Type} {x : Res α} {f : α → Res β} {b : β} :
    x >>= f = .ok b ↔ ∃ a, x = .ok a ∧ f a = .ok b := by
  cases x <;> simp

/-! ### Slots -/

/-- An integer slot in range is read as it is. -/
theorem Operands.int_ok {o : Operands} {i v : Nat} (h : o.x[i]? = some (.int v)) (hv : v < idxLimit) :
    o.int i = .ok v := by
  simp [Operands.int, h, hv]

/-- An integer slot out of range is refused (R88). -/
theorem Operands.int_out {o : Operands} {i v : Nat} (h : o.x[i]? = some (.int v)) (hv : idxLimit ≤ v) :
    o.int i = .error badOperand := by
  simp [Operands.int, h, Nat.not_lt.2 hv]

/-- What reading an integer can answer. -/
theorem Operands.int_cases (o : Operands) (i : Nat) :
    (∃ v, o.x[i]? = some (.int v) ∧ v < idxLimit ∧ o.int i = .ok v) ∨ o.int i = .error badOperand := by
  unfold Operands.int
  split
  · split
    · exact .inl ⟨_, ‹_›, ‹_›, rfl⟩
    · exact .inr rfl
  · exact .inr rfl

/-- A flag slot that holds a bit is read as it is (R84). -/
theorem Operands.bit_ok {o : Operands} {i : Nat} {b : Bool} (h : o.x[i]? = some (bitSlot b)) :
    o.bit i = .ok b := by
  cases b <;> simp [Operands.bit, bitSlot] at h ⊢ <;> simp [h]

/-- A flag slot that holds another number is refused (R84). -/
theorem Operands.bit_out {o : Operands} {i v : Nat} (h : o.x[i]? = some (.int v)) (hv : 1 < v) :
    o.bit i = .error badOperand := by
  obtain ⟨k, rfl⟩ : ∃ k, v = k + 2 := ⟨v - 2, by omega⟩
  simp [Operands.bit, h]

/-- A real slot is read whole (R88). -/
theorem Operands.real_ok {o : Operands} {i : Nat} {r : RealVal} (h : o.x[i]? = some (.real r)) : o.real i = .ok r := by
  simp [Operands.real, h]

theorem Operands.gz_ok {o : Operands} {i : Nat} {g : GzState} (h : o.x[i]? = some (.gz g)) (hg : g.n < idxLimit) :
    o.gz i = .ok g := by
  simp [Operands.gz, h, hg]

theorem Operands.tr_ok {o : Operands} {c : Cfg} {i : Nat} {t : TrState} (h : o.x[i]? = some (.tr t))
    (ht : t.typed c = true) : o.tr c i = .ok t := by
  simp [Operands.tr, h, ht]

/-! ### Buffers -/

theorem Operands.ints_ok {o : Operands} {i : Nat} {lo hi : Int} {vs : List Int} (h : o.b[i]? = some (.ints vs))
    (hv : ∀ v ∈ vs, lo ≤ v ∧ v ≤ hi) : o.ints i lo hi = .ok vs := by
  have : (vs.all fun v => decide (lo ≤ v) && decide (v ≤ hi)) = true := by
    simpa [List.all_eq_true] using hv
  simp only [Operands.ints, h]
  rw [if_pos this]

theorem Operands.ints_out {o : Operands} {i : Nat} {lo hi : Int} {vs : List Int} (h : o.b[i]? = some (.ints vs))
    (hv : ∃ v ∈ vs, v < lo ∨ hi < v) : o.ints i lo hi = .error badOperand := by
  have : ¬(vs.all fun v => decide (lo ≤ v) && decide (v ≤ hi)) = true := by
    simp only [List.all_eq_true, Bool.and_eq_true, decide_eq_true_eq, not_forall]
    obtain ⟨v, hm, hv⟩ := hv
    exact ⟨v, hm, by omega⟩
  simp only [Operands.ints, h]
  rw [if_neg this]

/-- A byte sequence is read back as it was written (R50). -/
theorem Operands.bytes_ok {o : Operands} {i : Nat} {bs : List Byte} (h : o.b[i]? = some (bytesBuf bs)) :
    o.bytes i = .ok bs := by
  have hv : ∀ v ∈ bs.map (fun b => (b.toNat : Int)), (0 : Int) ≤ v ∧ v ≤ 255 := by
    intro v hv
    obtain ⟨b, _, rfl⟩ := List.mem_map.1 hv
    have := b.isLt
    omega
  have hmap : (bs.map fun b => (b.toNat : Int)).map (fun v => BitVec.ofInt 8 v) = bs := by
    rw [List.map_map]
    conv_rhs => rw [← List.map_id bs]
    exact List.map_congr_left fun b _ => by simp
  simp only [Operands.bytes, Operands.ints_ok h hv, hmap]

/-- A buffer with an element that is no byte is refused (R88). -/
theorem Operands.bytes_out {o : Operands} {i : Nat} {vs : List Int} (h : o.b[i]? = some (.ints vs))
    (hv : ∃ v ∈ vs, v < 0 ∨ 255 < v) : o.bytes i = .error badOperand := by
  simp only [Operands.bytes, Operands.ints_out h hv]

/-- A buffer with an element that is no symbol is refused (R51). -/
theorem Operands.syms_out {o : Operands} {i : Nat} {vs : List Int} (h : o.b[i]? = some (.ints vs))
    (hv : ∃ v ∈ vs, v < 0 ∨ 15 < v) : o.syms i = .error badOperand := by
  simp only [Operands.syms, Operands.ints_out h hv]

/-- A symbol sequence is read back as it was written (R51). -/
theorem Operands.syms_ok {o : Operands} {i : Nat} {ss : List Sym} (h : o.b[i]? = some (symsBuf ss)) :
    o.syms i = .ok ss := by
  have hv : ∀ v ∈ ss.map (fun b => (b.toNat : Int)), (0 : Int) ≤ v ∧ v ≤ 15 := by
    intro v hv
    obtain ⟨b, _, rfl⟩ := List.mem_map.1 hv
    have := b.isLt
    omega
  have hmap : (ss.map fun b => (b.toNat : Int)).map (fun v => BitVec.ofInt 4 v) = ss := by
    rw [List.map_map]
    conv_rhs => rw [← List.map_id ss]
    exact List.map_congr_left fun b _ => by simp
  simp only [Operands.syms, Operands.ints_ok h hv, hmap]

theorem Operands.reals_ok {o : Operands} {i : Nat} {vs : List RealVal} (h : o.b[i]? = some (.reals vs)) :
    o.reals i = .ok vs := by
  simp [Operands.reals, h]

theorem Operands.levels_ok {o : Operands} {i : Nat} {vs : List Level} (h : o.b[i]? = some (.levels vs)) :
    o.levels i = .ok vs := by
  simp [Operands.levels, h]

end Sys2Proof.Machine
end

