-- ==== Sys2Proof/Laws/Ops.lean ====
section
/-! SUPPORT. What the shared operations do: how an operation ends (spec/30_encoding.md R89, spec/60_exceptions.md R314),
and the additive write (spec/20_memory.md R60, R61). -/

namespace Sys2Proof.Machine

/-! ### How an operation ends -/

/-- Everything a unit operation can do: it answers its results or its condition, and changes nothing else. -/
theorem unitOp_cases (s : State) (body : Operands → Res Reply) :
    (∃ r, body s.operands = .ok r ∧ unitOp s body = .next (s.ret r)) ∨
      (∃ f, body s.operands = .error f ∧ unitOp s body = .next (s.raise f)) := by
  unfold unitOp State.settleUnit
  cases body s.operands with
  | ok r => exact .inl ⟨r, rfl, rfl⟩
  | error f => exact .inr ⟨f, rfl, rfl⟩

/-- Everything a host command can do: it ends in the state its rule writes, with its results, or with its condition in
the state before it. -/
theorem hostOp_cases (s : State) (body : Operands → Res (State × Reply)) :
    (∃ t r, body s.operands = .ok (t, r) ∧ hostOp s body = .next (t.ret r)) ∨
      (∃ f, body s.operands = .error f ∧ hostOp s body = .next (s.raise f)) := by
  unfold hostOp State.settleHost
  cases body s.operands with
  | ok p => exact .inl ⟨p.1, p.2, rfl, rfl⟩
  | error f => exact .inr ⟨f, rfl, rfl⟩

theorem unitOp_ok {s : State} {body : Operands → Res Reply} {r : Reply} (h : body s.operands = .ok r) :
    unitOp s body = .next (s.ret r) := by
  simp [unitOp, State.settleUnit, h]

theorem unitOp_error {s : State} {body : Operands → Res Reply} {f : Fail} (h : body s.operands = .error f) :
    unitOp s body = .next (s.raise f) := by
  simp [unitOp, State.settleUnit, h]

theorem hostOp_ok {s t : State} {body : Operands → Res (State × Reply)} {r : Reply}
    (h : body s.operands = .ok (t, r)) : hostOp s body = .next (t.ret r) := by
  simp [hostOp, State.settleHost, h]

theorem hostOp_error {s : State} {body : Operands → Res (State × Reply)} {f : Fail}
    (h : body s.operands = .error f) : hostOp s body = .next (s.raise f) := by
  simp [hostOp, State.settleHost, h]

/-- A condition's code is one of 1 to 8 (R311). -/
theorem Cond.code_range (c : Cond) : 1 ≤ c.code.toNat ∧ c.code.toNat ≤ 8 := by
  cases c <;> decide

theorem Cond.code_ne_ok (c : Cond) : c.code ≠ statusOk := by
  cases c <;> decide

/-- Distinct conditions have distinct codes (R311). -/
theorem Cond.code_injective (a b : Cond) (h : a.code = b.code) : a = b := by
  revert h
  cases a <;> cases b <;> decide

theorem State.raise_eq_answerWith (s : State) (f : Fail) : s.raise f = s.answerWith ⟨f.cond.code, f.x, []⟩ := rfl

theorem State.ret_eq_answerWith (s : State) (r : Reply) : s.ret r = s.answerWith ⟨statusOk, r.x, r.b⟩ := rfl

/-! ### The additive write (R60, R61) -/

@[simp] theorem memAddRange_length (buf : List RealVal) (loc cnt : Nat) (f : Nat → RealVal) :
    (memAddRange buf loc cnt f).length = buf.length := by
  simp [memAddRange]

/-- Each place of the range grows by its value, every other place stays. -/
theorem memAddRange_getElem? (buf : List RealVal) (loc cnt : Nat) (f : Nat → RealVal) (k : Nat) :
    (memAddRange buf loc cnt f)[k]? =
      buf[k]?.map fun v => if loc ≤ k ∧ k < loc + cnt then v.plus (f (k - loc)) else v := by
  simp [memAddRange, List.getElem?_mapIdx]

@[simp] theorem memAddRange_zero (buf : List RealVal) (loc : Nat) (f : Nat → RealVal) : memAddRange buf loc 0 f = buf := by
  apply List.ext_getElem?
  intro k
  rw [memAddRange_getElem?]
  cases h : buf[k]? with
  | none => rfl
  | some v => simp

/-- A range is added in two parts with the same result. -/
theorem memAddRange_add (buf : List RealVal) (loc a b : Nat) (f : Nat → RealVal) :
    memAddRange buf loc (a + b) f = memAddRange (memAddRange buf loc a f) (loc + a) b (fun j => f (a + j)) := by
  apply List.ext_getElem?
  intro k
  rw [memAddRange_getElem?, memAddRange_getElem?, memAddRange_getElem?]
  cases h : buf[k]? with
  | none => rfl
  | some v =>
    simp only [Option.map_some]
    congr 1
    by_cases h1 : loc ≤ k
    · by_cases h2 : k < loc + a
      · rw [if_pos ⟨h1, by omega⟩, if_neg (by omega), if_pos ⟨h1, h2⟩]
      · by_cases h3 : k < loc + a + b
        · have h4 : k - loc = a + (k - (loc + a)) := by omega
          rw [if_pos ⟨h1, by omega⟩, if_pos ⟨by omega, h3⟩, if_neg (by omega), ← h4]
        · rw [if_neg (by omega), if_neg (by omega), if_neg (by omega)]
    · rw [if_neg (by omega), if_neg (by omega), if_neg (by omega)]

/-- One place: the range of length 1 is `MemAdd` (R51). -/
theorem memAddRange_one (buf : List RealVal) (loc : Nat) (f : Nat → RealVal) (h : loc < buf.length) :
    memAddRange buf loc 1 f = memAdd buf loc (f 0) := by
  apply List.ext_getElem?
  intro k
  rw [memAddRange_getElem?, memAdd, memWrite, memRead, List.getElem?_set]
  by_cases hk : loc = k
  · subst hk
    simp [h, List.getD_eq_getElem?_getD]
  · rw [if_neg hk]
    cases hb : buf[k]? with
    | none => rfl
    | some v =>
      simp only [Option.map_some]
      rw [if_neg (by omega)]

/-- The range is the loop of single `MemAdd`s in increasing index order (R60). -/
theorem memAddRange_eq_loop (buf : List RealVal) (loc cnt : Nat) (f : Nat → RealVal) (h : loc + cnt ≤ buf.length) :
    memAddRange buf loc cnt f = (List.range cnt).foldl (fun b j => memAdd b (loc + j) (f j)) buf := by
  induction cnt with
  | zero => simp
  | succ n ih =>
    rw [memAddRange_add, List.range_succ, List.foldl_append, ← ih (by omega)]
    rw [memAddRange_one _ _ _ (by simp; omega)]
    rfl

end Sys2Proof.Machine
end

