-- ==== Sys2Proof/Laws/PerInstr.lean ====
section
/-! SUPPORT. The laws that hold of every operation as syntax, one lemma per constructor of `Instr`. -/

/-- The command word of an operation decodes to it and leaves nothing over, also by the table's bit numbering
(spec/30_encoding.md R90, R92). -/
def Sys2Proof.Laws.EncodingRoundTrip.Statement (i : Sys2Proof.Instr) : Prop :=
  Sys2Proof.decode (Sys2Proof.encode i) = .ok (i, []) ∧
    Sys2Proof.decodeTableWord 8 (Sys2Proof.opcode i).toNat = some i

namespace Sys2Proof.Laws.EncodingRoundTrip

theorem crc16 : Statement .crc16 := ⟨rfl, rfl⟩
theorem chk8 : Statement .chk8 := ⟨rfl, rfl⟩
theorem rsenc : Statement .rsenc := ⟨rfl, rfl⟩
theorem rsdec : Statement .rsdec := ⟨rfl, rfl⟩
theorem ilv : Statement .ilv := ⟨rfl, rfl⟩
theorem dilv : Statement .dilv := ⟨rfl, rfl⟩
theorem hdrenc : Statement .hdrenc := ⟨rfl, rfl⟩
theorem hdrdec : Statement .hdrdec := ⟨rfl, rfl⟩
theorem fcenc : Statement .fcenc := ⟨rfl, rfl⟩
theorem fcdec : Statement .fcdec := ⟨rfl, rfl⟩
theorem fcencb : Statement .fcencb := ⟨rfl, rfl⟩
theorem gzinit : Statement .gzinit := ⟨rfl, rfl⟩
theorem gzproc : Statement .gzproc := ⟨rfl, rfl⟩
theorem gzrms : Statement .gzrms := ⟨rfl, rfl⟩
theorem gzreset : Statement .gzreset := ⟨rfl, rfl⟩
theorem logpow : Statement .logpow := ⟨rfl, rfl⟩
theorem hann : Statement .hann := ⟨rfl, rfl⟩
theorem tukey : Statement .tukey := ⟨rfl, rfl⟩
theorem tone : Statement .tone := ⟨rfl, rfl⟩
theorem trgpush : Statement .trgpush := ⟨rfl, rfl⟩
theorem trgreset : Statement .trgreset := ⟨rfl, rfl⟩
theorem trgmaxwin : Statement .trgmaxwin := ⟨rfl, rfl⟩
theorem trgsetcb : Statement .trgsetcb := ⟨rfl, rfl⟩
theorem sym2freq : Statement .sym2freq := ⟨rfl, rfl⟩
theorem argmax : Statement .argmax := ⟨rfl, rfl⟩
theorem pushf : Statement .pushf := ⟨rfl, rfl⟩
theorem pushi : Statement .pushi := ⟨rfl, rfl⟩
theorem getpayload : Statement .getpayload := ⟨rfl, rfl⟩
theorem getmaxwin : Statement .getmaxwin := ⟨rfl, rfl⟩
theorem reset : Statement .reset := ⟨rfl, rfl⟩
theorem getfixed : Statement .getfixed := ⟨rfl, rfl⟩
theorem setcb : Statement .setcb := ⟨rfl, rfl⟩
theorem setpayload : Statement .setpayload := ⟨rfl, rfl⟩
theorem getsamples : Statement .getsamples := ⟨rfl, rfl⟩
theorem demo : Statement .demo := ⟨rfl, rfl⟩

end Sys2Proof.Laws.EncodingRoundTrip
end

