-- ==== Sys2Proof/Laws/Step.lean ====
section
/-! SUPPORT. Everything a step can do (spec/30_encoding.md R88, R91). -/

namespace Sys2Proof.Machine

/-- A step is idle, performs the operation its command decodes to, or answers `E_ILLEGAL`. -/
theorem step_cases (s : State) :
    (s.port.pending = [] ∧ step s = .next s) ∨
      ∃ c rest, s.port.pending = c :: rest ∧
        ((∃ i, decodeOp c.op = some i ∧ step s = exec i s) ∨
          (decodeOp c.op = none ∧ step s = .next (s.raise (plainFail .illegal)))) := by
  unfold step State.fetch
  cases hp : s.port.pending with
  | nil => exact .inl ⟨rfl, rfl⟩
  | cons c rest =>
    refine .inr ⟨c, rest, rfl, ?_⟩
    cases hd : decodeOp c.op with
    | none => exact .inr ⟨rfl, by simp [decode, hd]⟩
    | some i => exact .inl ⟨i, rfl, by simp [decode, hd]⟩

/-- The operand record of the command in progress (R21). -/
theorem operands_cons {s : State} {c : Command} {rest : List Command} (h : s.port.pending = c :: rest) :
    s.operands = ⟨c.x, c.b⟩ := by
  simp [State.operands, h]

end Sys2Proof.Machine
end

