-- ==== Sys2Proof/Tests/Slice0.lean ====
section
/-! SUPPORT. Tests: the well-formedness smoke, every opcode written out, one or two vectors of
spec/95_test_vectors.md per operation, and for every statement with hypotheses a concrete state that meets them. -/

namespace Sys2Proof.Tests
open Sys2Proof Sys2Proof.Machine

/-! The kernel evaluates most of these; one after another, since each waiting thread reserves memory. -/
set_option Elab.async false

/-! ### Configurations -/

/-- `DEMOCFG` of spec/00_scope.md R12 and spec/49_demo.md R302: `FREQ[i] = 1720 * 2^(i/15)`. -/
def demoCfg : Cfg :=
  { fs := .rat 44100
    w := 2646
    g := 5292
    s := 441
    freq := Vector.ofFn fun i => .mul (.rat 1720) (.exp2 (.rat ((i.val : Rat) / 15)))
    wlim := #v[1085, 1085, 1036, 989, 944, 902, 861, 822, 785, 750, 716, 684, 653, 623, 595, 568,
               543, 518, 495, 472, 451, 431, 411, 393, 375, 358, 342, 327, 312, 298, 284, 272]
    snr := .rat 15
    ecc := [(14, 2), (14, 4), (12, 6), (10, 6)]
    deflev := 2 }

/-- A configuration small enough to run in the kernel, with every frequency at a sixth or a fourth of a turn a sample,
where the cosine is exact. -/
def tinyCfg : Cfg :=
  { fs := .rat 12
    w := 6
    g := 12
    s := 1
    freq := Vector.ofFn fun i => if i.val % 2 = 0 then .rat 2 else .rat 3
    wlim := Vector.ofFn fun i => 3 + i.val % 4
    snr := .rat 3
    ecc := [(4, 2), (6, 4), (12, 6)]
    deflev := 0 }

/-- `DEMOCFG` is well-formed (R12): its highest frequency is below `1720 * 2^3`, under half the rate. -/
theorem test_demoCfg_wf : demoCfg.wf = true := by
  have hfreq : demoCfg.freqWf = true := by
    simp only [Cfg.freqWf, List.all_eq_true]
    intro f hf
    rw [Vector.mem_toList_iff, demoCfg, Vector.mem_ofFn] at hf
    obtain ⟨i, rfl⟩ := hf
    have h0 : (0 : ℝ) < 2 ^ ((i.val : ℝ) / 15) := Real.rpow_pos_of_pos (by norm_num) _
    have h1 : (2 : ℝ) ^ ((i.val : ℝ) / 15) ≤ 2 ^ (3 : ℝ) := by
      refine Real.rpow_le_rpow_of_exponent_le (by norm_num) ?_
      have : (i.val : ℝ) ≤ 31 := by exact_mod_cast Nat.lt_succ_iff.1 i.isLt
      linarith
    have h2 : (2 : ℝ) ^ (3 : ℝ) = 8 := by norm_num
    rw [Bool.and_eq_true, RealVal.lt_iff, RealVal.lt_iff, RealVal.toReal_divBy]
    simp only [RealVal.toReal, demoCfg]
    push_cast
    constructor <;> linarith
  have hrest : (demoCfg.fsWf && demoCfg.lengthsWf && demoCfg.wlimWf && demoCfg.levelsWf && demoCfg.eccWf) = true := by
    decide +kernel
  simp only [Bool.and_eq_true] at hrest
  simp [Cfg.wf, hfreq, hrest]
theorem test_tinyCfg_wf : tinyCfg.wf = true := by decide +kernel

/-! ### Well-formedness: one ill-formed term for each check, refused (R8, R9) -/

theorem test_wf_instr : Instr.wf .demo = true := rfl
theorem test_wf_refuses_rate : Cfg.fsWf { tinyCfg with fs := .rat 0 } = false := by decide +kernel
theorem test_wf_refuses_word : Cfg.lengthsWf { tinyCfg with w := 0 } = false := by decide +kernel
theorem test_wf_refuses_gate : Cfg.lengthsWf { tinyCfg with g := 11 } = false := by decide +kernel
theorem test_wf_refuses_nyquist :
    Cfg.freqWf { tinyCfg with freq := tinyCfg.freq.set 31 (.rat 6) } = false := by decide +kernel
theorem test_wf_refuses_zero_frequency :
    Cfg.freqWf { tinyCfg with freq := tinyCfg.freq.set 0 (.rat 0) } = false := by decide +kernel
theorem test_wf_refuses_window : Cfg.wlimWf { tinyCfg with wlim := tinyCfg.wlim.set 7 0 } = false := by decide +kernel
theorem test_wf_refuses_no_level : Cfg.levelsWf { tinyCfg with ecc := [] } = false := by decide +kernel
theorem test_wf_refuses_five_levels :
    Cfg.levelsWf { tinyCfg with ecc := List.replicate 5 (4, 2) } = false := by decide +kernel
theorem test_wf_refuses_default : Cfg.levelsWf { tinyCfg with deflev := 3 } = false := by decide +kernel
theorem test_wf_refuses_shapes :
    shapeWf (4, 0) = false ∧ shapeWf (4, 4) = false ∧ shapeWf (16, 2) = false ∧ shapeWf (5, 2) = false ∧
    shapeWf (6, 3) = false ∧ Cfg.eccWf { tinyCfg with ecc := [(4, 2), (5, 2)] } = false := by decide +kernel
theorem test_build_refuses : State.build { tinyCfg with deflev := 3 } = .refused .illFormedConfig :=
  if_neg (by decide +kernel)
theorem test_build : State.build tinyCfg = .next (State.ofCfg tinyCfg) := if_pos (by decide +kernel)

/-! ### Decoding: the opcode column of spec/30_encoding.md R90, bit by bit -/

theorem test_decode_codec :
    decodeOp 0b00010000#8 = some .crc16 ∧ decodeOp 0b00010001#8 = some .chk8 ∧
    decodeOp 0b00010010#8 = some .rsenc ∧ decodeOp 0b00010011#8 = some .rsdec ∧
    decodeOp 0b00010100#8 = some .ilv ∧ decodeOp 0b00010101#8 = some .dilv ∧
    decodeOp 0b00010110#8 = some .hdrenc ∧ decodeOp 0b00010111#8 = some .hdrdec ∧
    decodeOp 0b00011000#8 = some .fcenc ∧ decodeOp 0b00011001#8 = some .fcdec ∧
    decodeOp 0b00011010#8 = some .fcencb := by decide

theorem test_decode_signal :
    decodeOp 0b00100000#8 = some .gzinit ∧ decodeOp 0b00100001#8 = some .gzproc ∧
    decodeOp 0b00100010#8 = some .gzrms ∧ decodeOp 0b00100011#8 = some .gzreset ∧
    decodeOp 0b00100100#8 = some .logpow ∧ decodeOp 0b00110000#8 = some .hann ∧
    decodeOp 0b00110001#8 = some .tukey ∧ decodeOp 0b00110010#8 = some .tone ∧
    decodeOp 0b01000000#8 = some .trgpush ∧ decodeOp 0b01000001#8 = some .trgreset ∧
    decodeOp 0b01000010#8 = some .trgmaxwin ∧ decodeOp 0b01000011#8 = some .trgsetcb ∧
    decodeOp 0b01010000#8 = some .sym2freq ∧ decodeOp 0b01010001#8 = some .argmax := by decide

theorem test_decode_host :
    decodeOp 0b01100000#8 = some .pushf ∧ decodeOp 0b01100001#8 = some .pushi ∧
    decodeOp 0b01100010#8 = some .getpayload ∧ decodeOp 0b01100011#8 = some .getmaxwin ∧
    decodeOp 0b01100100#8 = some .reset ∧ decodeOp 0b01100101#8 = some .getfixed ∧
    decodeOp 0b01100110#8 = some .setcb ∧ decodeOp 0b01110000#8 = some .setpayload ∧
    decodeOp 0b01110001#8 = some .getsamples ∧ decodeOp 0b01111111#8 = some .demo := by decide

/-- The opcodes of spec/95_test_vectors.md section 2.11 that name no operation. -/
theorem test_decode_refuses :
    ([0x00#8, 0x1B#8, 0x25#8, 0x33#8, 0x44#8, 0x52#8, 0x67#8, 0x72#8, 0x7E#8, 0x80#8, 0xFF#8].all
      fun op => decodeOp op == none) = true ∧ decodeTableWord 8 0x80 = none ∧ decode [] = .error .noByte := by decide

/-! ### Helpers -/

/-- A fresh instance with one command issued. -/
def cmd (c : Cfg) (op : Byte) (x : List Slot) (b : List Buf) : State := (State.ofCfg c).issue ⟨op, x, b⟩

/-- The answer a step gives. -/
def answer (o : Host.Outcome State Fault Refusal) : Option Answer :=
  match o with
  | .next t => t.port.answer
  | _ => none

/-- The state a step gives. -/
def after (o : Host.Outcome State Fault Refusal) (s : State) : State :=
  match o with
  | .next t => t
  | _ => s

/-- The answer of one command on a fresh instance of `tinyCfg`. -/
def ask (op : Byte) (x : List Slot) (b : List Buf) : Option Answer := answer (step (cmd tinyCfg op x b))

/-- The answer of one command on a fresh instance of `demoCfg`. -/
def askDemo (op : Byte) (x : List Slot) (b : List Buf) : Option Answer := answer (step (cmd demoCfg op x b))

/-- A real number in a slot. -/
abbrev re (q : Rat) : Slot := .real (.rat q)

/-- Rational samples. -/
abbrev reals (qs : List Rat) : List RealVal := qs.map .rat

/-- A rational number of decibels. -/
abbrev db (q : Rat) : Level := .fin (.rat q)

/-- An analyzer record with rational terms. -/
abbrev gz (s1 s2 : Rat) (n : Nat) : GzState := ⟨.rat s1, .rat s2, n⟩

/-! ### One operation at a time; the section of spec/95_test_vectors.md is named -/

/-- Section 2.2. -/
theorem test_crc16_check : ask 0x10 [] [.ints [0x31, 0x32, 0x33, 0x34, 0x35, 0x36, 0x37, 0x38, 0x39]] =
    some ⟨0, [.int 0xBB3D], []⟩ := by decide +kernel
theorem test_crc16_message : ask 0x10 [] [.ints [1, 2, 3, 4, 5]] = some ⟨0, [.int 0xBB0E], []⟩ := by decide +kernel
theorem test_chk8_check : ask 0x11 [] [.ints [0x31, 0x32, 0x33, 0x34, 0x35, 0x36, 0x37, 0x38, 0x39]] =
    some ⟨0, [.int 0xA1], []⟩ := by decide +kernel
theorem test_chk8_refuses_256 : ask 0x11 [] [.ints [256]] = some ⟨5, [], []⟩ := by decide +kernel

/-- Section 2.1: block 0 of the payload of program P1. -/
theorem test_rsenc : ask 0x12 [.int 6] [.ints [0, 1, 0, 2, 0, 3]] =
    some ⟨0, [], [.ints [0, 1, 0, 2, 0, 3, 14, 7, 8, 15, 13, 13]]⟩ := by decide +kernel
theorem test_rsenc_refuses : ask 0x12 [.int 0] [.ints [1]] = some ⟨5, [], []⟩ := by decide +kernel
/-- Section 2.1: four errors, miscorrected. -/
theorem test_rsdec_miscorrects : ask 0x13 [.int 6] [.ints [0, 7, 0, 8, 13, 3, 14, 7, 8, 15, 13, 14]] =
    some ⟨0, [.int 3], [.ints [0, 7, 0, 8, 13, 10, 14, 14, 13, 15, 13, 14]]⟩ := by decide +kernel
theorem test_rsdec_gives_up : ask 0x13 [.int 6] [.ints [0, 0, 3, 2, 0, 4, 14, 7, 8, 15, 1, 13]] =
    some ⟨1, [], []⟩ := by decide +kernel

/-- Section 2.3. -/
theorem test_ilv : ask 0x14 [.int 4] [.ints [0, 1, 2, 3, 4, 5, 6, 7, 8, 9]] =
    some ⟨0, [], [.ints [0, 4, 8, 1, 5, 9, 2, 6, 3, 7]]⟩ := by decide +kernel
theorem test_dilv : ask 0x15 [.int 3] [.ints [0, 3, 6, 1, 4, 2, 5]] =
    some ⟨0, [], [.ints [0, 1, 2, 3, 4, 5, 6]]⟩ := by decide +kernel
theorem test_hdrenc : askDemo 0x16 [.int 255, .int 3, .int 1] [] =
    some ⟨0, [], [.ints [0xFF, 0x0B, 0xA1]]⟩ := by decide +kernel
theorem test_hdrdec_reserved : askDemo 0x17 [] [.ints [0x05, 0xFE, 0x94]] =
    some ⟨0, [.int 5, .int 2, .int 1], []⟩ := by decide +kernel
theorem test_hdrdec_bad : askDemo 0x17 [] [.ints [0x05, 0x0A, 0x80]] = some ⟨3, [], []⟩ := by decide +kernel
theorem test_fcenc : askDemo 0x18 [.int 2, .int 1] [.ints [1, 2, 3, 4, 5]] =
    some ⟨0, [], [.ints [0, 0, 0, 1, 4, 14, 0, 0, 12, 2, 5, 7, 0, 11, 1, 3, 11, 4, 14, 1, 6, 7, 15, 4, 8, 5, 15, 9, 13,
      11, 13, 4]]⟩ := by decide +kernel
theorem test_fcenc_length : askDemo 0x18 [.int 2, .int 1] [.ints (List.replicate 256 0)] =
    some ⟨4, [], []⟩ := by decide +kernel
/-- Section 2.3: blocks 0 and 1 damaged, the second beyond the radius. -/
theorem test_fcdec_partial_count : ask 0x19 [.int 12, .int 6, .int 1]
    [.ints [1, 1, 0, 0, 5, 14, 0, 1, 12, 2, 4, 7, 0, 11, 1, 3, 11, 4, 14, 1, 6, 7, 15, 4, 8, 5, 15, 9, 13, 11, 13, 4]] =
    some ⟨1, [.int 2], []⟩ := by decide +kernel
theorem test_fcdec_crc : ask 0x19 [.int 12, .int 6, .int 1]
    [.ints [0, 0, 0, 1, 4, 14, 0, 0, 12, 2, 6, 7, 0, 11, 1, 3, 11, 4, 14, 7, 6, 7, 1, 4, 8, 8, 15, 0, 13, 10, 13, 15]] =
    some ⟨2, [.int 0], []⟩ := by decide +kernel
theorem test_fcencb : ask 0x1A [.int 14, .int 2, .int 0]
    [.ints [0xDE, 0xAD, 0xBE, 0xEF, 0x00, 0x11, 0x22, 0x33]] =
    some ⟨0, [], [.ints [13, 2, 14, 2, 10, 3, 13, 3, 11, 4, 14, 5, 14, 15, 0, 0, 1, 1, 10, 2]]⟩ := by decide +kernel

/-- Section 2.4 (there with `FS = 44100` and `f = 11025`: a quarter turn a sample, as 3 of 12 here). -/
theorem test_gzinit : askDemo 0x20 [re 11025, .int 4, .int 0] [] = some ⟨0, [.gz (gz (0) (0) 0)], []⟩ := by decide +kernel
theorem test_gzproc_hann : askDemo 0x21 [re 11025, .int 4, .int 1, .gz (gz (0) (0) 0), .int 0, .int 4]
    [.reals (reals [0, 1, 0, -1])] = some ⟨0, [.gz (gz (-3 / 4) (0) 4)], []⟩ := by decide +kernel
theorem test_gzproc_overrun : askDemo 0x21 [re 11025, .int 4, .int 0, .gz (gz (-2) (0) 4), .int 0, .int 1]
    [.reals (reals [1 / 2])] = some ⟨6, [], []⟩ := by decide +kernel
/-- Section 2.4: `sqrt(8) / 4`. -/
theorem test_gzrms : askDemo 0x22 [re 11025, .int 4, .int 0, .gz (gz (-2) (0) 4)] [] =
    some ⟨0, [.real (.div (.sqrt (.rat 8)) (.rat 4))], []⟩ := by decide +kernel
theorem test_gzrms_early : askDemo 0x22 [re 11025, .int 4, .int 0, .gz (gz (1) (0) 2)] [] =
    some ⟨7, [], []⟩ := by decide +kernel
theorem test_gzreset : ask 0x23 [.gz (gz (-2) (0) 4)] [] = some ⟨0, [.gz (gz (0) (0) 0)], []⟩ := by decide +kernel
theorem test_logpow_zero : ask 0x24 [re 0] [] = some ⟨0, [.level .negInf], []⟩ := by decide +kernel
theorem test_logpow_negative : ask 0x24 [re (-1)] [] = some ⟨5, [], []⟩ := by decide +kernel

/-- Section 2.4: `LOGPOW 1.0` is 0. -/
theorem test_logpow_one : ask 0x24 [re 1] [] = some ⟨0, [.level (db 0)], []⟩ := by decide +kernel

/-- A configuration with the rate of the example of R166. -/
def rate8000 : Cfg := { tinyCfg with fs := .rat 8000 }

/-- R166: with `FS = 8000`, `f = 1000` and `N = 8`, eight samples of 1 read exactly 0, although the coefficient `c` is the
irrational square root of 2. -/
theorem test_gzrms_eight_ones :
    gzLevel rate8000 (.rat 1000) 8
      (gzFold rate8000 (.rat 1000) 8 false GzState.zero (reals (List.replicate 8 1))) =
        .negInf := by
  refine gzLevel_rest _ _ _ ?_
  have hc : 2 * Real.cos (2 * Real.pi * (1000 / 8000)) = Real.sqrt 2 := by
    rw [show 2 * Real.pi * (1000 / 8000) = Real.pi / 4 by ring, Real.cos_pi_div_four]
    ring
  have h2 : Real.sqrt 2 * Real.sqrt 2 = 2 := Real.mul_self_sqrt (by norm_num)
  have step : ∀ (g : GzState) (a b : ℝ), g.s1.toReal = a → g.s2.toReal = b →
      (gzStep rate8000 (.rat 1000) 8 false g (.rat 1)).s1.toReal =
          1 + Real.sqrt 2 * a - b ∧
        (gzStep rate8000 (.rat 1000) 8 false g (.rat 1)).s2.toReal = a := by
    rintro g a b rfl rfl
    refine ⟨?_, rfl⟩
    rw [gzStep_s1, ← hc]
    simp [rate8000]
  have h1 := step GzState.zero 0 0 (by simp) (by simp)
  have h2' := step _ _ _ h1.1 h1.2
  have h3 := step _ _ _ h2'.1 h2'.2
  have h4 := step _ _ _ h3.1 h3.2
  have h5 := step _ _ _ h4.1 h4.2
  have h6 := step _ _ _ h5.1 h5.2
  have h7 := step _ _ _ h6.1 h6.2
  have h8 := step _ _ _ h7.1 h7.2
  generalize Real.sqrt 2 = c at h2 h8
  refine ⟨h8.1.trans ?_, h8.2.trans ?_⟩
  · linear_combination (c ^ 5 + c ^ 4 - 3 * c ^ 3 - 2 * c ^ 2 + c) * h2
  · linear_combination (c ^ 4 + c ^ 3 - 2 * c ^ 2 - c) * h2

/-- Section 2.8. -/
theorem test_hann : ask 0x30 [.int 1, .int 4] [] = some ⟨0, [re (3 / 4)], []⟩ := by decide +kernel
theorem test_hann_refuses : ask 0x30 [.int 5, .int 5] [] = some ⟨5, [], []⟩ := by decide +kernel
theorem test_tukey : ask 0x31 [.int 7, .int 9, re (1 / 2)] [] = some ⟨0, [re (1 / 2)], []⟩ := by decide +kernel
theorem test_tukey_refuses : ask 0x31 [.int 0, .int 9, re (3 / 2)] [] = some ⟨5, [], []⟩ := by decide +kernel
/-- R266: at a quarter turn a sample the tone is 0, 1, 0, -1; added, and only inside the range. -/
theorem test_tone : ask 0x32 [.int 1, .int 4, .int 0, re 3, re (1 / 2)] [.reals (reals [5, 0, 1, 0, 0, 7])] =
    some ⟨0, [], [.reals (reals [5, 0, 3 / 2, 0, -1 / 2, 7])]⟩ := by decide +kernel
theorem test_tone_refuses_nyquist : ask 0x32 [.int 0, .int 2, .int 0, re 6, re 1] [.reals (reals [0, 0])] =
    some ⟨5, [], []⟩ := by decide +kernel

/-- A record on the last sample of window 8: the middle windows were the loud ones, and the window now ending is
silent. -/
def ripe (cben : Bool) : TrState :=
  { base := 100
    n := 19
    lane0 := ⟨gz 0 0 3, gz 0 0 3⟩
    lane1 := ⟨gz 0 0 1, gz 0 0 1⟩
    m := 8
    hist0 := [.negInf, db 0, .negInf, .negInf, .negInf, .negInf, .negInf, .negInf]
    hist1 := [.negInf, .negInf, .negInf, .negInf, .negInf, .negInf, .negInf, db 0]
    found := none
    cben := cben }

/-- R193 to R196: `t0 = base + 7 * H + (A + G) / 2` with `H = 2`, `A = 4`, `G = 12`. -/
theorem test_trgpush_detects : (ask 0x40 [.tr (ripe true)] [.reals (reals [0])]).map (fun a => (a.x.drop 1, a.b)) =
    some ([.optIdx (some 122)], [.events [.trig 122]]) := by decide +kernel
theorem test_trgpush_silent : (ask 0x40 [.tr (ripe false)] [.reals (reals [0, 0])]).map (fun a => (a.x.drop 1, a.b)) =
    some ([.optIdx (some 122)], [.events []]) := by decide +kernel
/-- Section 2.5. -/
theorem test_trgreset : ask 0x41 [.tr (ripe true), .int 72549] [] =
    some ⟨0, [.tr (TrState.fresh 72549 true)], []⟩ := by decide +kernel
theorem test_trgmaxwin : askDemo 0x42 [] [] = some ⟨0, [.int 1764], []⟩ := by decide +kernel
theorem test_trgsetcb : ask 0x43 [.tr (ripe true), .int 0] [] = some ⟨0, [.tr (ripe false)], []⟩ := by decide +kernel
theorem test_trgsetcb_refuses : ask 0x43 [.tr (ripe true), .int 2] [] = some ⟨5, [], []⟩ := by decide +kernel

/-- Section 2.6. -/
theorem test_sym2freq : ask 0x50 [.int 10, .int 5] [] = some ⟨0, [.int 10, .int 21], []⟩ := by decide +kernel
theorem test_sym2freq_refuses : ask 0x50 [.int 16, .int 0] [] = some ⟨5, [], []⟩ := by decide +kernel
/-- Section 2.6: the tie goes to the lowest index. -/
def tied : List Level :=
  (((List.replicate 32 (db (-20))).set 7 (db (-5))).set 9 (db (-5))).set 31 (db (-1))
theorem test_argmax_tie : ask 0x51 [] [.levels tied] = some ⟨0, [.int 7, .int 15], []⟩ := by decide +kernel
theorem test_argmax_silence : ask 0x51 [] [.levels (List.replicate 32 .negInf)] =
    some ⟨0, [.int 0, .int 0], []⟩ := by decide +kernel

/-- Section 2.7. -/
theorem test_pushf_empty : after (step (cmd tinyCfg 0x60 [] [.reals []])) State.reset =
    (State.ofCfg tinyCfg).answerWith ⟨0, [.int 0], []⟩ := by decide +kernel
theorem test_pushi_scale : after (step (cmd tinyCfg 0x61 [] [.ints [0, 16384, -32768]])) State.reset =
    after (step (cmd tinyCfg 0x60 [] [.reals (reals [0, 1 / 2, -1])])) State.reset := by decide +kernel
theorem test_pushi_refuses : ask 0x61 [] [.ints [32768]] = some ⟨5, [], []⟩ := by decide +kernel
theorem test_getpayload_not_ready : ask 0x62 [] [] = some ⟨7, [], []⟩ := by decide +kernel
theorem test_getmaxwin : askDemo 0x63 [] [] = some ⟨0, [.int 1764], []⟩ := by decide +kernel
theorem test_reset_keeps_enable :
    (after (step (((State.ofCfg tinyCfg).setTr (ripe true)).issue ⟨0x64, [], []⟩)) State.reset).tr =
      TrState.fresh 0 true := by decide +kernel
theorem test_getfixed : ask 0x65 [] [] = some ⟨0, [.int 0], []⟩ := by decide +kernel
theorem test_setcb : (after (step (cmd tinyCfg 0x66 [.int 1] [])) State.reset).tr.cben = true := by decide +kernel
theorem test_setcb_refuses : ask 0x66 [.int 2] [] = some ⟨5, [], []⟩ := by decide +kernel

/-- Section 2.9. -/
theorem test_setpayload : askDemo 0x70 [.int 2, .int 1] [.ints [1, 2, 3, 4, 5]] =
    some ⟨0, [.int 72324], []⟩ := by decide +kernel
theorem test_setpayload_level_first : askDemo 0x70 [.int 4, .int 1] [.ints (List.replicate 256 0)] =
    some ⟨5, [], []⟩ := by decide +kernel
theorem test_getsamples_not_ready : ask 0x71 [re 1] [.reals (reals [0, 0, 0])] = some ⟨7, [], []⟩ := by decide +kernel
/-- R281, R283, R284 in sample 3 of the burst of the word (1, 1) of `tinyCfg`: both tones at three quarters of a turn,
the Tukey window 1 there, so the frame is -1, and half of it is added. -/
theorem test_getsamples_burst :
    answer (step (State.issue { State.ofCfg tinyCfg with sy := { loadedSynth tinyCfg [1, 1] with cursor := 28 } }
      ⟨0x71, [re (1 / 2)], [.reals (reals [1])]⟩)) = some ⟨0, [], [.reals (reals [1 / 2])]⟩ := by decide +kernel

/-- Section 2.10: the frame `DEMO` sends, and the number of its chunks. -/
theorem test_demo_counts :
    (frameSyms demoPayload 2 12 6 true).length = 40 ∧ frameTotal demoCfg 40 = 72324 ∧
    ceilDiv 72324 demoCfg.maxwin = 41 := by decide +kernel

/-- R33, R302: window lengths and offsets of `DEMOCFG`. -/
theorem test_windows :
    (demoCfg.winLen 0, demoCfg.winOff 0, demoCfg.winLen 31, demoCfg.winOff 31, demoCfg.wordEnd) =
      (1085, 781, 272, 1187, 1866) ∧ symcap demoCfg = 1288 := by decide +kernel

/-- R102, R103: products of section 2.1. -/
theorem test_field : gmul 2 8 = 3 ∧ gmul 9 2 = 1 ∧ gmul 15 15 = 10 ∧ gmul 0 9 = 0 ∧ ginv 3 = some 14 ∧
    polyEval [1, 6, 8] 8 = 1 := by decide

/-! ### Witnesses: concrete states and operands that meet the hypotheses of each statement -/

/-- A fresh instance of `tinyCfg` with an operand record; the command word is not looked at. -/
abbrev on (x : List Slot) (b : List Buf) : State := cmd tinyCfg 0 x b

theorem witness_StepRunsTheDecodedOperation :
    (cmd tinyCfg 0x64 [] []).port.pending = ⟨0x64, [], []⟩ :: [] ∧ decode [0x64#8] = .ok (.reset, []) ∧
    (State.ofCfg tinyCfg).port.pending = [] := by decide +kernel

theorem witness_IllegalOpcodeIsRefused :
    (cmd tinyCfg 0x1B [] []).port.pending = ⟨0x1B, [], []⟩ :: [] ∧ ∀ i : Instr, (0x1B#8) ≠ opcode i := by
  refine ⟨rfl, fun i => ?_⟩
  cases i <;> decide

theorem witness_IllegalOpcodeIsRefused_ranges : (0x0F#8).toNat ≤ 0x0F ∧ 0x80 ≤ (0x80#8).toNat := by decide

theorem witness_RefusedOperationChangesNothing :
    exec .getpayload (State.ofCfg tinyCfg) = .next ((State.ofCfg tinyCfg).raise ⟨.notready, []⟩) ∧
    ((State.ofCfg tinyCfg).raise ⟨.notready, []⟩).port.answer = some ⟨7, [], []⟩ ∧ (7 : Byte) ≠ 0 :=
  ⟨rfl, rfl, by decide⟩

theorem witness_UnitOperationsArePure :
    Instr.format .crc16 = .U ∧ (State.ofCfg tinyCfg).hardReset.cfg = (State.ofCfg tinyCfg).cfg ∧
    (State.ofCfg tinyCfg).hardReset.operands = (State.ofCfg tinyCfg).operands := ⟨rfl, rfl, rfl⟩

theorem witness_ReceiveAndTransmitAreIndependent :
    (DecodeSide .reset ∧ exec .reset (State.ofCfg tinyCfg) =
      .next ((State.ofCfg tinyCfg).softReset.ret ⟨[], []⟩)) ∧
    (EncodeSide .getsamples ∧ exec .getsamples (on [re 1] [.reals (reals [0])]) =
      .next ((on [re 1] [.reals (reals [0])]).raise ⟨.notready, []⟩)) :=
  ⟨⟨by simp [DecodeSide], rfl⟩, ⟨by simp [EncodeSide], rfl⟩⟩

theorem witness_EventsOnlyGrowAndNeedTheEnable :
    exec .reset (State.ofCfg tinyCfg) = .next ((State.ofCfg tinyCfg).softReset.ret ⟨[], []⟩) ∧
    (State.ofCfg tinyCfg).tr.cben = false := ⟨rfl, rfl⟩

/-- A state that holds a payload and a loaded frame. -/
def full : State :=
  { State.ofCfg tinyCfg with
    dm := { session := none, pushed := 5, fixed := 2, payload := some [1] }
    tr := TrState.fresh 0 true
    sy := loadedSynth tinyCfg [1, 2, 3, 4, 5, 6, 7, 8]
    evt := [.trig 3] }

theorem witness_EveryStateElementHasItsWriters :
    exec .reset full = .next (full.softReset.ret ⟨[], []⟩) ∧
    (full.softReset.ret ⟨[], []⟩).dm ≠ full.dm ∧
    full.dm.payvalid = true ∧ (full.softReset.ret ⟨[], []⟩).dm.payvalid = false := ⟨rfl, by decide, rfl, rfl⟩

theorem witness_EveryStateElementHasItsWriters_rest :
    exec .setcb (full.issue ⟨0x66, [.int 0], []⟩) = .next (State.ret (State.setTr (full.issue ⟨0x66, [.int 0], []⟩)
      { full.tr with cben := false }) ⟨[], []⟩) ∧
    { full.tr with cben := false } ≠ full.tr := ⟨rfl, by decide +kernel⟩

theorem witness_ChecksumOperationsComplete :
    (on [] [bytesBuf [1, 255]]).operands = ⟨[], [bytesBuf [1, 255]]⟩ := rfl

/-- Buffers with an element below, and one above, the range of a byte and of a symbol: the clause over such buffers in the
statements of `CRC16`, `CHK8`, `RSENC`, `RSDEC`, `ILV`, `DILV`, `HDRDEC`, `FCENC`, `FCENCB`, `FCDEC` and `SETPAYLOAD`. -/
theorem witness_bad_elements :
    (on [.int 2] [.ints [3, -1]]).operands = ⟨[.int 2], [.ints [3, -1]]⟩ ∧
    (∃ v ∈ [(3 : Int), -1], v < 0 ∨ 15 < v) ∧ (∃ v ∈ [(3 : Int), 16], v < 0 ∨ 15 < v) ∧
    (∃ v ∈ [(3 : Int), -1], v < 0 ∨ 255 < v) ∧ ∃ v ∈ [(3 : Int), 256], v < 0 ∨ 255 < v :=
  ⟨rfl, by decide, by decide, by decide, by decide⟩

/-- R51: 16 is a byte and no symbol. -/
theorem test_bad_elements :
    ask 0x12 [.int 2] [.ints [3, 16]] = some ⟨5, [], []⟩ ∧ ask 0x10 [] [.ints [256]] = some ⟨5, [], []⟩ := by
  decide +kernel

theorem witness_FieldArithmetic : (15 : Sym) ≠ 0 := by decide

theorem witness_RsencCompletes :
    (on [.int 2] [symsBuf (List.replicate 13 9)]).operands = ⟨[.int (2 : Nat)], [symsBuf (List.replicate 13 9)]⟩ ∧
    (1 ≤ 2 ∧ (List.replicate 13 (9 : Sym)).length + 2 ≤ 15) ∧
    ¬(1 ≤ 0 ∧ (List.replicate 13 (9 : Sym)).length + 0 ≤ 15) ∧
    ¬(1 ≤ 3 ∧ (List.replicate 13 (9 : Sym)).length + 3 ≤ 15) := ⟨rfl, by decide, by decide, by decide⟩

theorem witness_RsencGivesTheOneCodeword :
    [5, 6, 11].length = [(5 : Sym), 6].length + 1 ∧ [(5 : Sym), 6, 11].take [(5 : Sym), 6].length = [5, 6] ∧
    isCodeword [5, 6, 11] 1 = true ∧ 1 ≤ 1 ∧ [(5 : Sym), 6].length + 1 ≤ 15 := by decide

theorem witness_RsencIsLinear :
    [(3 : Sym), 1, 4].length = [(2 : Sym), 7, 1].length ∧ 1 ≤ 12 ∧ [(3 : Sym), 1, 4].length + 12 ≤ 15 := by decide

theorem witness_RsdecCompletes :
    (on [.int 2] [symsBuf [0, 5, 0, 10, 8, 1, 6, 0]]).operands = ⟨[.int (2 : Nat)], [symsBuf [0, 5, 0, 10, 8, 1, 6, 0]]⟩ ∧
    1 ≤ 2 ∧ 2 < [(0 : Sym), 5, 0, 10, 8, 1, 6, 0].length ∧ [(0 : Sym), 5, 0, 10, 8, 1, 6, 0].length ≤ 15 ∧
    isCodeword [0, 5, 0, 10, 8, 1, 6, 0] 2 = true ∧
    rsDec [0, 5, 0, 13, 8, 1, 6, 0] 2 = some ([0, 5, 0, 10, 8, 1, 6, 0], 1) ∧
    rsDec [0, 5, 0, 13, 8, 1, 7, 0] 2 = none ∧ ¬(1 ≤ 2 ∧ 2 < [(1 : Sym), 2].length ∧ [(1 : Sym), 2].length ≤ 15) :=
  ⟨rfl, by decide +kernel⟩

theorem witness_RsdecIsSound :
    1 ≤ 1 ∧ 1 < [(1 : Sym), 9].length ∧ [(1 : Sym), 9].length ≤ 15 ∧
    rsDec [0, 5, 0, 0, 0, 0, 6, 0] 2 = some ([0, 5, 8, 0, 0, 0, 6, 0], 1) ∧
    2 < [(0 : Sym), 5, 0, 0, 0, 0, 6, 0].length := by decide +kernel

theorem witness_RsdecMeetsTheRelation :
    [(0 : Sym), 5, 0, 10, 8, 1, 6, 0].length = [(0 : Sym), 5, 0, 13, 8, 1, 6, 0].length ∧
    isCodeword [0, 5, 0, 10, 8, 1, 6, 0] 2 = true ∧
    hamming [0, 5, 0, 10, 8, 1, 6, 0] [0, 5, 0, 13, 8, 1, 6, 0] ≤ 2 / 2 := by decide +kernel

/-- No code word lies as near as the word itself when it is none and the radius is 0. -/
theorem witness_RsdecMeetsTheRelation_none :
    1 ≤ 1 ∧ 1 < [(5 : Sym), 7, 11].length ∧ [(5 : Sym), 7, 11].length ≤ 15 ∧
    ∀ c : List Sym, c.length = [(5 : Sym), 7, 11].length → isCodeword c 1 = true →
      1 / 2 < hamming c [5, 7, 11] := by
  refine ⟨by decide, by decide, by decide, fun c hl hc => Nat.pos_of_ne_zero fun h0 => ?_⟩
  match c, hl with
  | [a, b, d], _ =>
    simp [hamming] at h0
    obtain ⟨rfl, rfl, rfl⟩ := h0
    exact absurd hc (by decide)

theorem witness_TwoParitySymbolsCorrectOneError :
    2 < [(0 : Sym), 0, 0].length ∧ [(0 : Sym), 0, 0].length ≤ 15 ∧ isCodeword [0, 0, 0] 2 = true ∧
    2 < [(0 : Sym), 0, 0].length ∧ (15 : Sym) ≠ 0 := by decide

theorem witness_InterleaverIsInvertible : 1 ≤ 1 := by decide

theorem witness_InterleaverPositions :
    1 ≤ 4 ∧ 3 < 4 ∧ 1 * 4 + 3 < (List.replicate 8 (1 : Sym)).length ∧
    (List.replicate 8 (1 : Sym)).length ≤ 8 ∧
    (ilvOrder 10 4)[1]? = some 4 ∧ (ilvOrder 10 4)[2]? = some 8 ∧ 2 < 1 + 10 / 4 := by decide

theorem witness_InterleaveOperationsComplete :
    (on [.int 65535] [symsBuf [3]]).operands = ⟨[.int (65535 : Nat)], [symsBuf [3]]⟩ ∧ (1 ≤ 65535 ∧ 65535 ≤ 65535) ∧
    (1 ≤ 1 ∧ 1 ≤ 65535) ∧ ¬(1 ≤ 0 ∧ 0 ≤ 65535) ∧ ¬(1 ≤ 65536 ∧ 65536 ≤ 65535) :=
  ⟨rfl, by decide, by decide, by decide, by decide⟩

theorem witness_HeaderOperationsComplete :
    tinyCfg.wf = true ∧
    (on [.int 255, .int 2, bitSlot true] []).operands = ⟨[.int (255 : Nat), .int (2 : Nat), bitSlot true], []⟩ ∧
    (255 ≤ 255 ∧ 2 < tinyCfg.nlev) ∧ ¬(256 ≤ 255 ∧ 2 < tinyCfg.nlev) ∧ ¬(255 ≤ 255 ∧ 3 < tinyCfg.nlev) ∧
    (on [] [bytesBuf [0x05, 0x0A, 0x81]]).operands = ⟨[], [bytesBuf [0x05, 0x0A, 0x81]]⟩ ∧
    (chk8 [0x05, 0x0A] = 0x81 ∧ (0x0A#8).toNat % 4 < tinyCfg.nlev) ∧
    ¬(chk8 [0x05, 0x0A] = 0x80 ∧ (0x0A#8).toNat % 4 < tinyCfg.nlev) ∧ [(0x05 : Byte), 0x0A].length ≠ 3 ∧
    (on [.int 5, .int 2, .int 2] []).operands = ⟨[.int (5 : Nat), .int (2 : Nat), .int (2 : Nat)], []⟩ ∧ 1 < 2 := by
  refine ⟨test_tinyCfg_wf, rfl, ?_, ?_, ?_, rfl, ?_, ?_, ?_, rfl, ?_⟩ <;> decide +kernel

theorem witness_HeaderSurvivesOneWrongSymbol :
    tinyCfg.wf = true ∧ 5 ≤ 255 ∧ 2 < tinyCfg.nlev ∧
    DifferOnlyAt [0, 5, 0, 13, 8, 1, 6, 0] (headerSyms 5 2 true) 3 := by
  refine ⟨test_tinyCfg_wf, by decide, by decide, ?_⟩
  have h : headerSyms 5 2 true = [0, 5, 0, 10, 8, 1, 6, 0] := by decide +kernel
  rw [h]
  refine ⟨rfl, by decide, fun j hj => ?_⟩
  match j with
  | 0 | 1 | 2 | 4 | 5 | 6 | 7 => rfl
  | 3 => exact absurd rfl hj
  | n + 8 => rfl

theorem witness_EncodeOperationsComplete :
    (on [.int 12, .int 6, bitSlot true] [bytesBuf [1, 2]]).operands =
      ⟨[.int (12 : Nat), .int (6 : Nat), bitSlot true], [bytesBuf [1, 2]]⟩ ∧
    (1 ≤ 6 ∧ 6 < 12 ∧ 12 ≤ 15 ∧ (12 - 6) % 2 = 0) ∧ (List.replicate 255 (1 : Byte)).length ≤ 255 ∧
    255 < (List.replicate 256 (1 : Byte)).length ∧ ¬(1 ≤ 5 ∧ 5 < 12 ∧ 12 ≤ 15 ∧ (12 - 5) % 2 = 0) ∧
    (on [.int 2, bitSlot true] [bytesBuf [1, 2]]).operands = ⟨[.int (2 : Nat), bitSlot true], [bytesBuf [1, 2]]⟩ ∧
    tinyCfg.wf = true ∧ tinyCfg.eccAt 2 = some (12, 6) ∧ 2 < tinyCfg.nlev ∧ tinyCfg.nlev ≤ 3 := by
  refine ⟨rfl, ?_, ?_, ?_, ?_, rfl, test_tinyCfg_wf, ?_, ?_, ?_⟩ <;> decide +kernel

/-- A flag that is not a bit, for each of the three encoders. -/
theorem witness_flag_operands :
    (on [.int 12, .int 6, .int 2] [bytesBuf [1]]).operands =
      ⟨[.int (12 : Nat), .int (6 : Nat), .int (2 : Nat)], [bytesBuf [1]]⟩ ∧
    (on [.int 2, .int 2] [bytesBuf [1]]).operands = ⟨[.int (2 : Nat), .int (2 : Nat)], [bytesBuf [1]]⟩ ∧ 1 < 2 :=
  ⟨rfl, rfl, by decide⟩

theorem witness_CodecRoundTrip :
    1 ≤ 6 ∧ 6 < 12 ∧ 12 ≤ 15 ∧ (12 - 6) % 2 = 0 ∧ [(1 : Byte), 2].length ≤ 255 ∧
    (on [.int 12, .int 6, bitSlot true] [symsBuf (fcEncode [1, 2] 12 6 true)]).operands =
      ⟨[.int (12 : Nat), .int (6 : Nat), bitSlot true], [symsBuf (fcEncode [1, 2] 12 6 true)]⟩ :=
  ⟨by decide, by decide, by decide, by decide, by decide, rfl⟩

/-- Section 2.3: the payload `[1, 2, 3, 4, 6]` with the CRC of `[1, 2, 3, 4, 5]`. -/
theorem witness_WrongCrcIsCaught :
    1 ≤ 6 ∧ 6 < 12 ∧ 12 ≤ 15 ∧ (12 - 6) % 2 = 0 ∧ (0xBB#8) ++ (0x0E#8) ≠ crc16 [1, 2, 3, 4, 6] ∧
    (on [.int 12, .int 6, bitSlot true] [symsBuf (fcEncode ([1, 2, 3, 4, 6] ++ [0xBB, 0x0E]) 12 6 false)]).operands =
      ⟨[.int (12 : Nat), .int (6 : Nat), bitSlot true],
        [symsBuf (fcEncode ([1, 2, 3, 4, 6] ++ [0xBB, 0x0E]) 12 6 false)]⟩ :=
  ⟨by decide, by decide, by decide, by decide, by decide +kernel, rfl⟩

/-- Section 2.3: two errors in block 0, four in block 1. -/
def badStream : List Sym :=
  [1, 1, 0, 0, 5, 14, 0, 1, 12, 2, 4, 7, 0, 11, 1, 3, 11, 4, 14, 1, 6, 7, 15, 4, 8, 5, 15, 9, 13, 11, 13, 4]

/-- Section 2.3 and the example of R146: the stream of `[1, 2, 3, 4, 5]` with its symbols 0, 3 and 6 wrong. -/
def threeWrong : List Sym :=
  [1, 0, 0, 0, 4, 14, 1, 0, 12, 2, 5, 7, 0, 11, 1, 3, 11, 4, 14, 1, 6, 7, 15, 4, 8, 5, 15, 9, 13, 11, 13, 4]

theorem witness_FcdecStopsAtTheFirstBadBlock :
    (on [.int 12, .int 6, bitSlot true] [symsBuf badStream]).operands =
      ⟨[.int (12 : Nat), .int (6 : Nat), bitSlot true], [symsBuf badStream]⟩ ∧
    StreamShape badStream.length 12 6 true ∧ ¬StreamShape badStream.length 12 5 true ∧
    blocksOf 12 (dilv badStream 12) = [[1, 0, 0, 2, 0, 3, 14, 7, 8, 15, 13, 13]] ++
      [1, 5, 1, 4, 11, 11, 1, 15, 5, 9, 11, 4] :: [[0, 14, 12, 7, 1, 4, 6, 4]] ∧
    [[1, 0, 0, 2, 0, 3, 14, 7, 8, 15, 13, 13]].map (fun w => rsDec w 6) =
      [([(0 : Sym), 1, 0, 2, 0, 3, 14, 7, 8, 15, 13, 13], 2)].map some ∧
    rsDec [1, 5, 1, 4, 11, 11, 1, 15, 5, 9, 11, 4] 6 = none := by
  refine ⟨rfl, ⟨by decide, by decide, by decide⟩, fun h => absurd h.1 (by decide), ?_, ?_, ?_⟩ <;> decide +kernel

/-- Every block decodes; with the payload's own CRC, and without one. -/
theorem witness_FcdecStopsAtTheFirstBadBlock_success :
    (on [.int 12, .int 6, bitSlot true] [symsBuf threeWrong]).operands =
      ⟨[.int (12 : Nat), .int (6 : Nat), bitSlot true], [symsBuf threeWrong]⟩ ∧
    StreamShape threeWrong.length 12 6 true ∧ StreamShape threeWrong.length 12 6 false ∧
    (blocksOf 12 (dilv threeWrong 12)).map (fun w => rsDec w 6) =
      [([(0 : Sym), 1, 0, 2, 0, 3, 14, 7, 8, 15, 13, 13], 3), ([0, 4, 0, 5, 11, 11, 1, 15, 5, 9, 11, 4], 0),
        ([0, 14, 12, 7, 1, 4, 6, 4], 0)].map some ∧
    (on [.int 12, .int 6, .int 2] [symsBuf threeWrong]).operands =
      ⟨[.int (12 : Nat), .int (6 : Nat), .int (2 : Nat)], [symsBuf threeWrong]⟩ ∧ 1 < 2 := by
  refine ⟨rfl, ⟨by decide, by decide, by decide⟩, ⟨by decide, by decide, by decide⟩, ?_, rfl, by decide⟩
  decide +kernel

/-- Three wrong symbols in block 0 of the encoding of `[1, 2, 3, 4, 5]`, within the radius of every block. -/
theorem witness_CodecRoundTrip_corrected :
    threeWrong.length = (fcEncode [1, 2, 3, 4, 5] 12 6 true).length ∧
    hamming threeWrong (fcEncode [1, 2, 3, 4, 5] 12 6 true) = 3 ∧
    List.zipWith hamming (blocksOf 12 (dilv threeWrong 12))
      (blocksOf 12 (dilv (fcEncode [1, 2, 3, 4, 5] 12 6 true) 12)) = [3, 0, 0] := by decide +kernel

/-- R146: the count over three corrected symbols, as the operation. -/
theorem test_fcdec_corrects : ask 0x19 [.int 12, .int 6, .int 1] [symsBuf threeWrong] =
    some ⟨0, [.int 3], [.ints [1, 2, 3, 4, 5]]⟩ := by decide +kernel

/-- The frequency 3 of `tinyCfg` is legal. -/
theorem three_legal : 0 < (RealVal.rat 3).toReal ∧ (RealVal.rat 3).toReal < tinyCfg.fs.toReal / 2 := by
  simp only [RealVal.toReal_rat, tinyCfg]
  norm_num

/-- Half the rate is not. -/
theorem six_illegal : ¬((RealVal.rat 6).toReal < tinyCfg.fs.toReal / 2) := by
  simp only [RealVal.toReal_rat, tinyCfg]
  norm_num

theorem witness_AnalyzerOperationsComplete :
    (on [re 3, .int 4, bitSlot true] []).operands = ⟨[re 3, .int (4 : Nat), bitSlot true], []⟩ ∧
    (0 < (RealVal.rat 3).toReal ∧ (RealVal.rat 3).toReal < tinyCfg.fs.toReal / 2 ∧ 1 ≤ 4 ∧ 4 < idxLimit) ∧
    ¬(0 < (RealVal.rat 6).toReal ∧ (RealVal.rat 6).toReal < tinyCfg.fs.toReal / 2 ∧ 1 ≤ 4 ∧ 4 < idxLimit) ∧
    (on [re 3, .int 4, .int 2] []).operands = ⟨[re 3, .int (4 : Nat), .int (2 : Nat)], []⟩ ∧ 1 < 2 ∧
    (on [.gz (gz 1 2 3)] []).operands = ⟨[.gz (gz 1 2 3)], []⟩ ∧ (gz 1 2 3).n < idxLimit ∧
    (on [re 3, .int 4, bitSlot true, .gz (gz 1 2 3), .int 1, .int 2] [.reals (reals [7, 8])]).operands =
      ⟨[re 3, .int (4 : Nat), bitSlot true, .gz (gz 1 2 3), .int (1 : Nat), .int (2 : Nat)], [.reals (reals [7, 8])]⟩ ∧
    (1 ≤ 2 ∧ 2 ≤ (reals [7, 8]).length) ∧ 3 + (2 - 1) ≤ 4 ∧ 4 < 3 + (2 - 0) ∧
    ¬(1 ≤ 3 ∧ 3 ≤ (reals [7, 8]).length) ∧ ¬(2 ≤ 1 ∧ 1 ≤ (reals [7, 8]).length) :=
  ⟨rfl, ⟨three_legal.1, three_legal.2, by decide, by decide⟩, fun h => six_illegal h.2.1, rfl, by decide, rfl,
    by decide, rfl, by decide, by decide, by decide, by decide, by decide⟩

theorem witness_AnalyzerSplittingIsInvisible :
    (1 ≤ 1 ∧ 1 ≤ 2 ∧ 2 ≤ (reals [7, 8]).length) ∧ 0 < tinyCfg.fs.toReal ∧ 0 < (RealVal.rat 3).toReal ∧
    (RealVal.rat 3).toReal < tinyCfg.fs.toReal / 2 ∧ (reals [1, -1]).length ≤ 2 ∧
    ∀ x ∈ reals [1, -1], |x.toReal| ≤ 1 := by
  refine ⟨by decide, Cfg.fs_pos test_tinyCfg_wf, three_legal.1, three_legal.2, by decide, fun x hx => ?_⟩
  simp only [reals, List.map_cons, List.map_nil, List.mem_cons, List.not_mem_nil, or_false] at hx
  rcases hx with rfl | rfl <;> simp

theorem witness_GzrmsGivesTheMagnitude :
    (on [re 3, .int 4, bitSlot false, .gz (gz (-2) 0 4)] []).operands =
      ⟨[re 3, .int (4 : Nat), bitSlot false, .gz (gz (-2) 0 4)], []⟩ ∧
    0 < (RealVal.rat 3).toReal ∧ (RealVal.rat 3).toReal < tinyCfg.fs.toReal / 2 ∧ 1 ≤ 4 ∧ 4 < idxLimit ∧
    (gz (-2) 0 4).n = 4 ∧ (gz (-2) 0 3).n ≠ 4 :=
  ⟨rfl, three_legal.1, three_legal.2, by decide, by decide, rfl, by decide⟩

theorem witness_LogpowCompletes :
    (on [re (1 / 2)] []).operands = ⟨[re (1 / 2)], []⟩ ∧ 0 < (RealVal.rat (1 / 2)).toReal ∧
    (RealVal.rat (-1)).toReal < 0 ∧ (RealVal.rat 0).toReal = 0 := by
  refine ⟨rfl, ?_, ?_, ?_⟩ <;> simp

theorem witness_LevelComparisonIsExact :
    Level.lt .negInf (db 0) = true ∧ Level.lt (db 0) (db 3) = true ∧ Level.lt (db 3) (db 0) = false ∧
    Level.lt (db 0) .negInf = false := by decide +kernel

theorem witness_WindowOperationsComplete :
    (on [.int 0, .int 1] []).operands = ⟨[.int (0 : Nat), .int (1 : Nat)], []⟩ ∧
    (1 ≤ 1 ∧ 0 < 1 ∧ 1 < idxLimit) ∧ ¬(1 ≤ 5 ∧ 5 < 5 ∧ 5 < idxLimit) ∧ (1 ≤ 9 ∧ 7 < 9 ∧ 9 < idxLimit) ∧ 2 ≤ 9 ∧
    (on [.int 7, .int 9, re 1] []).operands = ⟨[.int (7 : Nat), .int (9 : Nat), re 1], []⟩ ∧
    (0 ≤ (RealVal.rat 1).toReal ∧ (RealVal.rat 1).toReal ≤ 1 ∧ 0 < (RealVal.rat 1).toReal) ∧
    (RealVal.rat 0).toReal = 0 ∧ ¬((RealVal.rat (3 / 2)).toReal ≤ 1) := by
  refine ⟨rfl, by decide, by decide, by decide, by decide, rfl, ?_, ?_, ?_⟩
  · simp
  · simp
  · rw [RealVal.toReal_rat]
    norm_num

/-- The three branches of R264 at `alpha = 1/2` and nine samples, and where they meet. -/
theorem witness_WindowOperationsComplete_branches :
    (1 : ℝ) / (9 - 1) < 1 / 2 / 2 ∧ (1 : ℝ) / 2 / 2 ≤ 2 / (9 - 1) ∧ (2 : ℝ) / (9 - 1) ≤ 1 - 1 / 2 / 2 ∧
    (1 : ℝ) / 2 / 2 ≤ 7 / (9 - 1) ∧ 1 - (1 : ℝ) / 2 / 2 < 7 / (9 - 1) := by norm_num

theorem witness_ToneIsAdditive :
    (on [.int 1, .int 1, .int 0, re 3, re 1] [.reals (reals [7, 8])]).operands =
      ⟨[.int (1 : Nat), .int (1 : Nat), .int (0 : Nat), re 3, re 1], [.reals (reals [7, 8])]⟩ ∧
    1 < idxLimit ∧ 0 < idxLimit ∧
    (1 + 1 ≤ (reals [7, 8]).length ∧ 0 < (RealVal.rat 3).toReal ∧ (RealVal.rat 3).toReal < tinyCfg.fs.toReal / 2) ∧
    ¬(1 + 2 ≤ (reals [7, 8]).length ∧ 0 < (RealVal.rat 3).toReal ∧
      (RealVal.rat 3).toReal < tinyCfg.fs.toReal / 2) :=
  ⟨rfl, by decide, by decide, ⟨by decide, three_legal.1, three_legal.2⟩, fun h => absurd h.1 (by decide)⟩

theorem witness_TrgpushCompletes :
    (on [.tr (ripe true)] [.reals (reals [0])]).operands = ⟨[.tr (ripe true)], [.reals (reals [0])]⟩ ∧
    (ripe true).typed tinyCfg = true ∧ (ripe true).base + (ripe true).n + (reals [0]).length + tinyCfg.g < idxLimit ∧
    (ripe true).lane0.q0.n < tinyCfg.trgA ∧ (ripe true).lane1.q0.n < tinyCfg.trgA ∧
    (trPush tinyCfg (ripe true) (reals [0])).1.found = some 122 ∧
    (trPush tinyCfg (ripe true) (reals [0])).1.inRange = true := by
  refine ⟨rfl, ?_, ?_, ?_, ?_, ?_, ?_⟩ <;> decide +kernel

/-- A record whose lane 0 is at its full count, and one whose detection lies past the range of an index. -/
theorem witness_TrgpushCompletes_refusals :
    { ripe true with lane0 := ⟨gz 0 0 4, gz 0 0 4⟩ }.typed tinyCfg = true ∧ tinyCfg.trgA = 4 ∧
    { ripe true with base := idxLimit - 21 }.typed tinyCfg = true ∧
    (trPush tinyCfg { ripe true with base := idxLimit - 21 } (reals [0])).1.found = some (idxLimit + 1) := by
  refine ⟨?_, ?_, ?_, ?_⟩ <;> decide +kernel

/-- A record whose count of windows is the last `Idx`, one sample before the end of a window. -/
def lastWindow : TrState :=
  { ripe true with m := idxLimit - 1, hist0 := List.replicate 18 .negInf, hist1 := List.replicate 18 .negInf }

/-- A gate so long that a lane may count past the range of an index. -/
def longCfg : Cfg := { tinyCfg with g := 6 * idxLimit }

/-- A record of `longCfg` whose lane 0 is at the last `Idx`. -/
def lastCount : TrState := { TrState.fresh 0 true with lane0 := ⟨gz 0 0 (idxLimit - 1), gz 0 0 (idxLimit - 1)⟩ }

theorem witness_TrgpushCompletes_counts :
    lastWindow.typed tinyCfg = true ∧ idxLimit ≤ (trPush tinyCfg lastWindow (reals [0])).1.m ∧
    lastCount.typed longCfg = true ∧ idxLimit ≤ (trPush longCfg lastCount (reals [0])).1.lane0.q0.n ∧
    { lastCount with lane0 := ⟨gz 0 0 idxLimit, gz 0 0 idxLimit⟩ }.typed longCfg = false := by
  refine ⟨?_, ?_, ?_, ?_, ?_⟩ <;> decide +kernel

/-- R14, R39: a window past the last `Idx` is refused, and a sample that completes none is not. -/
theorem test_trgpush_last_window :
    ask 0x40 [.tr lastWindow] [.reals (reals [0])] = some ⟨5, [], []⟩ ∧
    (ask 0x40 [.tr { lastWindow with lane0 := ⟨gz 0 0 1, gz 0 0 1⟩ }] [.reals (reals [0])]).map Answer.st = some 0 := by
  decide +kernel

/-- A record with a full lane is of its type: it may be reset, but not given a sample. -/
theorem test_trgpush_full_lane :
    ask 0x40 [.tr { ripe true with lane0 := ⟨gz 0 0 4, gz 0 0 4⟩ }] [.reals (reals [0])] = some ⟨5, [], []⟩ ∧
    ask 0x41 [.tr { ripe true with lane0 := ⟨gz 0 0 4, gz 0 0 4⟩ }, .int 7] [] =
      some ⟨0, [.tr (TrState.fresh 7 true)], []⟩ := by decide +kernel

/-- R40: a detection latch past the range of an index is no value of its type. -/
theorem test_trgreset_refuses_latch :
    ask 0x41 [.tr { ripe true with found := some idxLimit }, .int 0] [] = some ⟨5, [], []⟩ := by decide +kernel

/-- A record whose sample index is at its bound. -/
theorem witness_TrgpushCompletes_bound :
    (TrState.fresh (idxLimit - 1) true).typed tinyCfg = true ∧
    idxLimit ≤ (TrState.fresh (idxLimit - 1) true).base + (TrState.fresh (idxLimit - 1) true).n +
      [(0 : Rat)].length := by
  refine ⟨?_, ?_⟩ <;> decide +kernel

theorem witness_TriggerChunkingAndLatch : { ripe true with found := some 9 }.found = some 9 := rfl

theorem witness_TriggerNeverFiresOnSilence :
    tinyCfg.wf = true ∧ ∀ x ∈ [RealVal.rat 0, .sub .pi .pi], x.toReal = 0 := by
  refine ⟨test_tinyCfg_wf, fun x hx => ?_⟩
  simp only [List.mem_cons, List.not_mem_nil, or_false] at hx
  rcases hx with rfl | rfl <;> simp [RealVal.toReal]

theorem ripe_scanning : (ripe true).Scanning tinyCfg where
  found := rfl
  lane00 := by decide
  lane01 := by decide
  lane10 := by decide
  lane11 := by decide
  windows := by decide
  hist0 := by decide
  hist1 := by decide

theorem witness_TriggerIsCausal :
    (ripe true).Scanning tinyCfg ∧ (trStep tinyCfg (ripe true) (.rat 0)).2 = some 122 ∧
    (tinyCfg.trgH ∣ (ripe true).n + 1 ∧ 2 * tinyCfg.trgH ≤ (ripe true).n + 1) ∧
    (TrState.fresh 0 true).Scanning tinyCfg ∧ (trStep tinyCfg (TrState.fresh 0 true) (.rat 1)).2 = none ∧
    ¬(tinyCfg.trgH ∣ (TrState.fresh 0 true).n + 1) := by
  refine ⟨ripe_scanning, ?_, ?_, ⟨rfl, ?_, ?_, ?_, ?_, ?_, ?_, ?_⟩, ?_, ?_⟩ <;> decide +kernel

theorem witness_TriggerRecordOperationsComplete :
    (on [.tr (ripe true), .int (idxLimit - 1)] []).operands = ⟨[.tr (ripe true), .int (idxLimit - 1)], []⟩ ∧
    (ripe true).typed tinyCfg = true ∧ idxLimit - 1 < idxLimit ∧
    (on [.tr (ripe true), .int 1] []).operands = ⟨[.tr (ripe true), .int (1 : Nat)], []⟩ ∧ 1 ≤ 1 ∧ 1 < 2 := by
  refine ⟨rfl, ?_, ?_, rfl, ?_, ?_⟩ <;> decide +kernel

/-- Section 2.6: levels[3] = -9 and levels[26] = -12 among -60. -/
def twoTones : List Level := ((List.replicate 32 (db (-60))).set 3 (db (-9))).set 26 (db (-12))

theorem witness_MapperInvertsItself :
    (on [.int 15, .int 15] []).operands = ⟨[.int (15 : Nat), .int (15 : Nat)], []⟩ ∧ (15 ≤ 15 ∧ 15 ≤ 15) ∧
    ¬(16 ≤ 15 ∧ 0 ≤ 15) ∧ twoTones.length = 32 ∧
    (∀ i < 16, i ≠ (3 : Sym).toNat →
      Level.lt (twoTones.getD i .negInf) (twoTones.getD (sym2freq 3 10).1 .negInf) = true) ∧
    (∀ i < 16, i ≠ (10 : Sym).toNat →
      Level.lt (twoTones.getD (16 + i) .negInf) (twoTones.getD (sym2freq 3 10).2 .negInf) = true) := by
  refine ⟨rfl, ?_, ?_, ?_, ?_, ?_⟩ <;> decide +kernel

theorem witness_ArgmaxPicksTheLowestGreatest :
    (on [] [.levels tied]).operands = ⟨[], [.levels tied]⟩ ∧ tied.length = 32 ∧ (tied.drop 1).length ≠ 32 := by
  refine ⟨rfl, ?_, ?_⟩ <;> decide +kernel

/-- A fresh instance whose sample counter is one below its bound. -/
def nearlyDone : State := (State.ofCfg tinyCfg).setPushed (idxLimit - 1)

theorem witness_PushOperationsComplete :
    (on [] [.reals (reals [1 / 2])]).operands = ⟨[], [.reals (reals [1 / 2])]⟩ ∧
    (on [] [.reals (reals [1 / 2])]).dm.pushed + (reals [1 / 2]).length < idxLimit ∧
    ((on [] [.reals (reals [1 / 2])]).pushSamples (reals [1 / 2])).1.indicesInRange 0 = true ∧
    idxLimit ≤ nearlyDone.dm.pushed + (reals [1 / 2]).length ∧
    (on [] [.ints [-32768, 32767]]).operands = ⟨[], [.ints [-32768, 32767]]⟩ ∧
    (∀ v ∈ [(-32768 : Int), 32767], -32768 ≤ v ∧ v ≤ 32767) ∧ (∃ v ∈ [(32768 : Int)], v < -32768 ∨ 32767 < v) := by
  refine ⟨rfl, ?_, ?_, ?_, rfl, ?_, ?_⟩ <;> decide +kernel

/-- The state of the clause over states in time: a fresh instance, with room below the bound. -/
theorem witness_PushOperationsComplete_timing :
    (on [] [.reals (reals [1 / 2])]).Timing ∧
    (on [] [.reals (reals [1 / 2])]).dm.pushed + (reals [1 / 2]).length + tinyCfg.g + 4 * (tinyCfg.w + tinyCfg.s) <
      idxLimit ∧ (on [] [.reals (reals [1 / 2])]).dm.session = none := by
  refine ⟨⟨test_tinyCfg_wf, by decide, fun _ => ⟨?_, rfl⟩, ?_, ?_, ?_, ?_⟩, by decide, rfl⟩
  · exact ⟨rfl, by decide, by decide, by decide, by decide, by decide, rfl, rfl⟩
  · intro ss h; cases h
  · intro ss h; cases h
  · decide
  · intro t0 h; cases h

/-- A waiting instance whose next sample declares a detection past the range of an index. -/
theorem witness_PushOperationsComplete_start :
    (((State.ofCfg tinyCfg).setTr { ripe true with base := idxLimit - 21 }).pushSamples
      (reals [0])).1.indicesInRange 0 = false := by decide +kernel

/-! The receiver in the last header word of a silent message. -/

/-- Three header words decided, all silent; the fourth burst begins at sample 23. -/
def lastWord : State :=
  { State.ofCfg tinyCfg with
    dm := { session := some { freshSession 1 with k := 3, sym := List.replicate 6 0 }
            pushed := 22
            fixed := 0
            payload := none } }

theorem lastWord_cut :
    (lastWord.pushEach [reals [0], reals [0, 0]]).2 = false ∧
    ((lastWord.pushEach [reals [0], reals [0, 0]]).1.pushSamples (List.replicate 9 (.rat 0))).2 = true := by decide +kernel

theorem witness_PushFrame :
    (lastWord.pushSamples (reals [0])).2 = false ∧
    (lastWord.pushSamples (List.replicate 12 (.rat 0))).2 = true := by decide +kernel

theorem witness_ChunkingIsInvisible :
    (lastWord.pushEach [reals [0], reals [0, 0]]).2 = false ∧
    ((lastWord.pushEach [reals [0], reals [0, 0]]).1.pushSamples (List.replicate 9 (.rat 0))).2 = true := lastWord_cut

/-- A waiting instance one sample before its detection. -/
def aboutToDetect : State := (State.ofCfg tinyCfg).setTr (ripe true)

theorem badHeader : hdrDec tinyCfg [0x05, 0x80, 0x00] = .error ⟨.hdrchk, []⟩ := by
  have h : chk8 [0x05, 0x80] ≠ 0x00 := by decide +kernel
  simp only [hdrDec, ne_eq, h, not_false_eq_true, if_true]

theorem witness_DetectionAndAbandon :
    aboutToDetect.dm.session = none ∧ (trStep aboutToDetect.cfg aboutToDetect.tr (.rat 0)).2 = some 122 ∧
    fcDec [0, 5, 0, 13, 8, 1, 7, 0] 8 2 false = .uncorrectable 0 ∧
    fcDec [0, 5, 8, 0, 0, 0, 6, 0] 8 2 false = .done [0x05, 0x80, 0x00] 0 ∧
    hdrDec tinyCfg [0x05, 0x80, 0x00] = .error ⟨.hdrchk, []⟩ ∧
    tinyCfg.eccAt (2 : BitVec 2).toNat = some (12, 6) ∧ fcDec badStream 12 6 true = .uncorrectable 2 ∧
    fcDec [0, 0, 0, 1, 4, 14, 0, 0, 12, 2, 6, 7, 0, 11, 1, 3, 11, 4, 14, 7, 6, 7, 1, 4, 8, 8, 15, 0, 13, 10, 13, 15]
      12 6 true = .crcMismatch 0 := by
  refine ⟨rfl, ?_, ?_, ?_, badHeader, ?_, ?_, ?_⟩ <;> decide +kernel

/-- A header of a message without symbols and one with symbols, the second with one symbol corrected, and a payload that
decodes with three symbols corrected (section 2.3). -/
theorem witness_DetectionAndAbandon_success :
    fcDec (List.replicate 8 0) 8 2 false = .done [0, 0, 0] 0 ∧
    (∃ h, hdrDec tinyCfg [0, 0, 0] = .ok h ∧ tinyCfg.eccAt h.level.toNat = some (4, 2) ∧
      nsym h.len.toNat 4 2 h.crc = 0) ∧
    fcDec [0, 5, 0, 13, 8, 1, 6, 0] 8 2 false = .done [0x05, 0x0A, 0x81] 1 ∧
    (∃ h, hdrDec tinyCfg [0x05, 0x0A, 0x81] = .ok h ∧ tinyCfg.eccAt h.level.toNat = some (12, 6) ∧
      nsym h.len.toNat 12 6 h.crc ≠ 0) ∧
    fcDec threeWrong 12 6 true = .done [1, 2, 3, 4, 5] 3 := by
  refine ⟨?_, ⟨⟨0, 0, false⟩, ?_, ?_, ?_⟩, ?_, ⟨⟨5, 2, true⟩, ?_, ?_, ?_⟩, ?_⟩
  case refine_2 =>
    have h : chk8 [0, 0] = 0 := by decide +kernel
    simp only [hdrDec, ne_eq, h, not_true_eq_false, if_false]
    rfl
  case refine_6 =>
    have h : chk8 [0x05, 0x0A] = 0x81 := by decide +kernel
    simp only [hdrDec, ne_eq, h, not_true_eq_false, if_false]
    rfl
  all_goals decide +kernel

/-- A session whose next burst begins on the next sample. -/
def atBurst : State :=
  { State.ofCfg tinyCfg with
    dm := { session := some (freshSession 4), pushed := 5, fixed := 0, payload := none } }

theorem witness_WordIsReadFromItsOwnWindows :
    atBurst.cfg.wf = true ∧ atBurst.dm.session = some (freshSession 4) ∧
    (freshSession 4).an = Vector.replicate 32 GzState.zero ∧ atBurst.dm.pushed ≤ burstStart atBurst.cfg (freshSession 4) ∧
    atBurst.dm.pushed + (List.replicate 6 (RealVal.rat 1)).length =
      burstStart atBurst.cfg (freshSession 4) + atBurst.cfg.wordEnd ∧
    (freshSession 4).sym.length + 2 < (freshSession 4).need := by
  refine ⟨test_tinyCfg_wf, rfl, rfl, ?_, ?_, ?_⟩ <;> decide +kernel

/-- The session of `lastWord` in a phase, one word short of its buffer. -/
def lastSession (ph : Phase) : Session := { freshSession 1 with k := 3, sym := List.replicate 6 0, phase := ph }

/-- The word that fills the buffer, in either phase. -/
theorem witness_WordIsReadFromItsOwnWindows_last :
    lastWord.dm.session = some (lastSession .header) ∧ (lastSession .header).phase = .header ∧
    (lastSession (.payload ⟨1, 0, false⟩)).phase = .payload ⟨1, 0, false⟩ ∧
    ∀ ph ∈ [Phase.header, .payload ⟨1, 0, false⟩],
      (lastSession ph).an = Vector.replicate 32 GzState.zero ∧
      lastWord.dm.pushed ≤ burstStart lastWord.cfg (lastSession ph) ∧
      lastWord.dm.pushed + (List.replicate 7 (RealVal.rat 0)).length =
        burstStart lastWord.cfg (lastSession ph) + lastWord.cfg.wordEnd ∧
      (lastSession ph).sym.length + 2 = (lastSession ph).need := by
  refine ⟨rfl, rfl, rfl, ?_⟩
  decide +kernel

/-- R225: the sample that completes the last header word hands the eight symbols to `HeaderFull`, and in phase `PAYLOAD` to
`PayloadFull`. -/
theorem test_push_last_word :
    ((lastWord.pushSamples (List.replicate 7 (.rat 0))) =
      (lastWord.setPushed 29).headerFull { lastSession .header with k := 4, sym := List.replicate 8 0 }) ∧
    ((lastWord.setSession (lastSession (.payload ⟨1, 0, false⟩))).pushSamples (List.replicate 7 (.rat 0)) =
      (lastWord.setPushed 29).payloadFull { lastSession (.payload ⟨1, 0, false⟩) with k := 4, sym := List.replicate 8 0 }
        ⟨1, 0, false⟩) := by decide +kernel

theorem witness_SilenceAfterTriggerIsAnEmptyMessage :
    (atBurst.setPushed 4).cfg.wf = true ∧ (atBurst.setPushed 4).dm.session = some (freshSession 4) ∧
    (atBurst.setPushed 4).dm.pushed ≤ 4 ∧
    4 + 4 * ((atBurst.setPushed 4).cfg.w + (atBurst.setPushed 4).cfg.s) ≤
      (atBurst.setPushed 4).dm.pushed + (List.replicate 28 (RealVal.rat 0)).length ∧
    ∀ x ∈ List.replicate 28 (RealVal.rat 0), x.toReal = 0 := by
  refine ⟨test_tinyCfg_wf, rfl, by decide, by decide, fun x hx => ?_⟩
  rw [List.eq_of_mem_replicate hx]
  simp

theorem witness_ReceiverCommandsComplete :
    full.dm.payload = some [1] ∧ (State.ofCfg tinyCfg).dm.payload = none ∧
    (on [.int 1] []).operands = ⟨[.int (1 : Nat)], []⟩ ∧ 1 ≤ 1 ∧ 1 < 2 := ⟨rfl, rfl, rfl, by decide, by decide⟩

theorem witness_SetpayloadCompletes :
    tinyCfg.wf = true ∧
    (on [.int 2, bitSlot true] [bytesBuf [1, 2]]).operands = ⟨[.int (2 : Nat), bitSlot true], [bytesBuf [1, 2]]⟩ ∧
    tinyCfg.eccAt 2 = some (12, 6) ∧ (List.replicate 255 (1 : Byte)).length ≤ 255 ∧
    2 * tinyCfg.g + (8 + nsym 255 12 6 true) / 2 * (tinyCfg.s + tinyCfg.w) < idxLimit ∧
    255 < (List.replicate 256 (1 : Byte)).length ∧ 2 < tinyCfg.nlev ∧ tinyCfg.nlev ≤ 3 := by
  refine ⟨test_tinyCfg_wf, rfl, ?_, ?_, ?_, ?_, ?_, ?_⟩ <;> decide +kernel

/-- A gate so long that no frame has an index for its length. -/
theorem witness_SetpayloadCompletes_long :
    Cfg.wf { tinyCfg with g := idxLimit } = true ∧
    idxLimit ≤ 2 * idxLimit + (8 + nsym 2 12 6 true) / 2 * (tinyCfg.s + tinyCfg.w) := by decide +kernel

/-- A loaded frame whose cursor is two below its bound. -/
def nearlyPulled : State := { full with sy := { full.sy with cursor := idxLimit - 2 } }

theorem witness_GetsamplesIsAdditive :
    (on [re (1 / 2)] [.reals (reals [7, 8])]).operands = ⟨[re (1 / 2)], [.reals (reals [7, 8])]⟩ ∧
    full.sy.loaded = true ∧ full.sy.cursor + (reals [7, 8]).length < idxLimit ∧
    (State.ofCfg tinyCfg).sy.loaded = false ∧
    nearlyPulled.sy.loaded = true ∧ idxLimit ≤ nearlyPulled.sy.cursor + (reals [7, 8]).length ∧
    2 * tinyCfg.g ≤ 52 ∧ full.sy.total ≤ 52 ∧ (0 < tinyCfg.g ∧ 11 < tinyCfg.g) ∧
    (0 < tinyCfg.s + tinyCfg.w ∧ 2 * tinyCfg.g + 3 * (tinyCfg.s + tinyCfg.w) + 0 < full.sy.total ∧ 0 < tinyCfg.s) ∧
    (6 < tinyCfg.s + tinyCfg.w ∧ 2 * tinyCfg.g + 3 * (tinyCfg.s + tinyCfg.w) + 6 < full.sy.total ∧
      6 = tinyCfg.s + 5 ∧ full.sy.sym[2 * 3]? = some 7 ∧ full.sy.sym[2 * 3 + 1]? = some 8 ∧
      (7 : Fin 32).val = (7 : Sym).toNat ∧ (24 : Fin 32).val = 16 + (8 : Sym).toNat) := by
  refine ⟨rfl, rfl, ?_, rfl, rfl, ?_, ?_, ?_, ?_, ?_, ?_⟩ <;> decide +kernel

theorem witness_SignalStaysInRange :
    tinyCfg.wf = true ∧ |(RealVal.rat (-1)).toReal| ≤ 1 ∧ (∀ u ∈ reals [0], u.toReal = 0) ∧
    (pulled tinyCfg full.sy (reals [0]) (.rat (-1))).length = 1 := by
  refine ⟨test_tinyCfg_wf, by simp, fun u hu => ?_, by simp [pulled, memAddRange]⟩
  simp only [reals, List.map_cons, List.map_nil, List.mem_cons, List.not_mem_nil, or_false] at hu
  simp [hu]

theorem witness_DemoCompletes :
    demoCfg.wf = true ∧ demoCfg.eccAt demoCfg.deflev = some (12, 6) ∧
    72324 = 2 * demoCfg.g + (8 + nsym 5 12 6 true) / 2 * (demoCfg.s + demoCfg.w) ∧
    72324 + demoCfg.g + 4 * (demoCfg.w + demoCfg.s) < idxLimit ∧ demoCfg.maxwin = 1764 ∧
    (State.ofCfg demoCfg).hardReset.cfg = (State.ofCfg demoCfg).cfg := by
  refine ⟨test_demoCfg_wf, ?_, ?_, ?_, ?_, rfl⟩ <;> decide +kernel

/-- The chunks of the demo frame: 40 of 1764 samples and one of 1764 or fewer, whatever the samples are. -/
theorem witness_DemoCompletes_chunks (xs : List RealVal) (h : xs.length = 72324) :
    (chunksOf 1764 41 xs).flatten = xs ∧
    (∀ c ∈ chunksOf 1764 41 xs, c ≠ [] ∧ c.length ≤ 1764) ∧
    ∀ i, i + 1 < (chunksOf 1764 41 xs).length → ((chunksOf 1764 41 xs).getD i []).length = 1764 := by
  refine ⟨chunksOf_flatten _ _ _ (by omega), fun c hc => ?_, fun i hi => ?_⟩
  · obtain ⟨i, hi, rfl⟩ := List.mem_iff_getElem.1 hc
    have := chunksOf_getElem 1764 41 xs i (by simpa using hi)
    rw [List.getD_eq_getElem?_getD, List.getElem?_eq_getElem hi, Option.getD_some] at this
    rw [chunksOf_length] at hi
    refine ⟨fun h0 => ?_, by omega⟩
    rw [h0, List.length_nil] at this
    omega
  · rw [chunksOf_length] at hi
    rw [chunksOf_getElem _ _ _ _ (by omega)]
    omega

theorem witness_HardwareResetLeavesTheTable :
    tinyCfg.wf = true ∧ Cfg.wf { tinyCfg with deflev := 3 } = false := ⟨test_tinyCfg_wf, by decide +kernel⟩

theorem witness_ResetMeetsTheInvariants : tinyCfg.wf = true := test_tinyCfg_wf

theorem lastWord_timely : Session.Timely tinyCfg 22 { freshSession 1 with k := 3, sym := List.replicate 6 0 } where
  words := rfl
  room := by decide
  even := by decide
  needRight := rfl
  analyzers := by decide +kernel
  notFull := ⟨0, by decide +kernel⟩

/-- A command that pushes one silent sample. -/
abbrev pushZero : Command := ⟨0x60, [], [.reals (reals [0])]⟩

theorem lastWord_timing : (lastWord.issue pushZero).Timing := by
  refine ⟨test_tinyCfg_wf, by decide, ?_, ?_, ?_, ?_, ?_⟩
  · intro h; cases h
  · intro ss h; cases h; exact lastWord_timely
  · intro ss h; cases h; decide
  · decide
  · intro t0 h; cases h

/-- A state in time with a session, one that waits, and a step that pushes a sample in each. -/
theorem witness_StepKeepsTheTiming :
    (lastWord.issue pushZero).Timing ∧
    step (lastWord.issue pushZero) = .next (after (step (lastWord.issue pushZero)) State.reset) ∧
    ((aboutToDetect.setPushed 119).issue pushZero).Timing ∧
    step ((aboutToDetect.setPushed 119).issue pushZero) =
      .next (after (step ((aboutToDetect.setPushed 119).issue pushZero)) State.reset) := by
  refine ⟨lastWord_timing, rfl, ⟨test_tinyCfg_wf, by decide, ?_, ?_, ?_, ?_, ?_⟩, rfl⟩
  · intro _; exact ⟨ripe_scanning, rfl⟩
  · intro ss h; cases h
  · intro ss h; cases h
  · decide
  · intro t0 h; cases h

theorem witness_StepKeepsTheBounds :
    (lastWord.issue pushZero).Timing ∧ (lastWord.issue pushZero).Bounds ∧
    step (lastWord.issue pushZero) = .next (after (step (lastWord.issue pushZero)) State.reset) := by
  refine ⟨lastWord_timing, ⟨by decide, ?_, ?_, ?_⟩, rfl⟩
  · intro ss _ _; rfl
  · intro ss h hs hp; cases hs; cases hp
  · intro p hp; cases hp

theorem witness_StepKeepsTheSynthesizer :
    (full.issue ⟨0x71, [re 1], [.reals (reals [0])]⟩).cfg.wf = true ∧ (full.issue ⟨0x71, [re 1], [.reals (reals [0])]⟩).SynthWf ∧
    step (full.issue ⟨0x71, [re 1], [.reals (reals [0])]⟩) =
      .next (after (step (full.issue ⟨0x71, [re 1], [.reals (reals [0])]⟩)) State.reset) := by
  refine ⟨test_tinyCfg_wf, ⟨by decide, by decide, ?_, ?_⟩, rfl⟩
  · intro _; exact ⟨by decide, by decide, by decide⟩
  · intro h; cases h

end Sys2Proof.Tests
end

section
/-! The real operations are the exact ones, and what the implementation shows is within its stated errors
(spec/00_scope.md R16, spec/47_windows_tone_generator.md R260, R261). -/

namespace Sys2Proof.RealVal

/-- The tone generator of the implementation, whichever way it takes its sines, keeps R261 (a). -/
theorem implementation_toneSine_accurate (w : implementation.Format) (n : Nat) :
    |implementation.read (implementation.toneSine w n) - Real.sin (implementation.read w * n)| ≤
      implementation.toneError w n :=
  implementation_admissible.toneAccurate w n

/-- Settles O35: each operation builds a value whose number is that of the mathematical operation, each comparison
decides the one of the numbers, and R261 (a) is assumed of the implementation's record. -/
theorem cosineBehavesAsACosine : Obligations.CosineBehavesAsACosine := by
  refine ⟨fun a b => ?arithmetic, fun a => ?elementary, fun a b => ?comparisons, ?results, ?tone⟩
  case arithmetic => exact ⟨toReal_plus a b, toReal_minus a b, toReal_times a b, toReal_divBy a b⟩
  case elementary => exact ⟨toReal_cosOf a, toReal_sinOf a, toReal_sqrtOf a, toReal_logOf a⟩
  case comparisons => exact ⟨lt_iff a b, le_iff a b, isZero_iff a⟩
  case results => exact shown_accurate
  case tone => exact implementation_toneSine_accurate

end Sys2Proof.RealVal
end

section
/-! What an operation does to the block, said once (spec/30_encoding.md R88, R89): the effect of each operation before
its answer, and the two inductions over it, one over the samples of a push and one over the operations of a step. -/

namespace Sys2Proof.Machine

/-! ### Effects -/

/-- A sequence of two steps of pseudocode (R15) returns only if the first one does and the second one does after it. -/
theorem Res.bind_ok {α β : Type} {x : Res α} {f : α → Res β} {r : β} (h : (x >>= f) = .ok r) :
    ∃ a, x = .ok a ∧ f a = .ok r := by
  cases x with
  | error e => cases h
  | ok a => exact ⟨a, rfl, h⟩

/-- The states in which an operation can leave the block, its command not yet taken off the port: the one before it, or
the one its rule writes. -/
inductive Effect (s : State) : Instr → State → Prop
  | keeps (i : Instr) : Effect s i s
  | pushes {i : Instr} {chunk : List RealVal} {t : State} {ready : Bool} (hi : i = .pushf ∨ i = .pushi)
      (h : s.push chunk = .ok (t, ready)) : Effect s i t
  | resets : Effect s .reset s.softReset
  | enables (enable : Bool) : Effect s .setcb (s.setTr { s.tr with cben := enable })
  | loads {payload : List Byte} {level : Nat} {crc : Bool} {t : State} {total : Nat}
      (h : s.setPayload payload level crc = .ok (t, total)) : Effect s .setpayload t
  | pulls {buf out : List RealVal} {power : RealVal} {t : State} (h : s.getSamples buf power = .ok (t, out)) :
      Effect s .getsamples t
  | demos {t : State} {pass : Bool} (h : s.demo = .ok (t, pass)) : Effect s .demo t

/-- Every format `U` operation is a unit operation (R89). -/
theorem exec_eq_unitOp (i : Instr) (s : State) (hi : i.format = .U) : ∃ body, exec i s = unitOp s body := by
  cases i <;> simp only [Instr.format, reduceCtorEq] at hi <;> simp only [exec] <;> exact ⟨_, rfl⟩

/-- A unit operation only answers (R89). -/
theorem unitOp_effect {s t : State} {body : Operands → Res Reply} (i : Instr) (h : unitOp s body = .next t) :
    ∃ u a, Effect s i u ∧ t = u.answerWith a := by
  rcases unitOp_cases s body with ⟨r, _, e⟩ | ⟨f, _, e⟩
  · cases e.symm.trans h
    exact ⟨s, _, .keeps i, State.ret_eq_answerWith s r⟩
  · cases e.symm.trans h
    exact ⟨s, _, .keeps i, State.raise_eq_answerWith s f⟩

/-- A host command only answers a condition, and else answers in the state its rule writes (R89, R314). -/
theorem hostOp_effect {s t : State} {i : Instr} {body : Operands → Res (State × Reply)}
    (h : hostOp s body = .next t) (hb : ∀ u r, body s.operands = .ok (u, r) → Effect s i u) :
    ∃ u a, Effect s i u ∧ t = u.answerWith a := by
  rcases hostOp_cases s body with ⟨u, r, hu, e⟩ | ⟨f, _, e⟩
  · cases e.symm.trans h
    exact ⟨u, _, hb u r hu, State.ret_eq_answerWith u r⟩
  · cases e.symm.trans h
    exact ⟨s, _, .keeps i, State.raise_eq_answerWith s f⟩

/-- Everything an operation can do: one of its effects, then the answer. -/
theorem exec_effect {i : Instr} {s t : State} (h : exec i s = .next t) :
    ∃ u a, Effect s i u ∧ t = u.answerWith a := by
  cases hf : i.format with
  | U =>
    obtain ⟨body, hb⟩ := exec_eq_unitOp i s hf
    exact unitOp_effect i (hb.symm.trans h)
  | H =>
    cases i <;> simp only [Instr.format, reduceCtorEq] at hf <;> simp only [exec] at h
    case pushf =>
      refine hostOp_effect h fun u r hu => ?_
      obtain ⟨chunk, _, hu⟩ := Res.bind_ok hu
      obtain ⟨q, hq, hu⟩ := Res.bind_ok hu
      cases hu
      exact .pushes (.inl rfl) hq
    case pushi =>
      refine hostOp_effect h fun u r hu => ?_
      obtain ⟨chunk, _, hu⟩ := Res.bind_ok hu
      obtain ⟨q, hq, hu⟩ := Res.bind_ok hu
      cases hu
      exact .pushes (.inr rfl) hq
    case getpayload =>
      refine hostOp_effect h fun u r hu => ?_
      cases hp : s.dm.payload with
      | none => rw [hp] at hu; cases hu
      | some p => rw [hp] at hu; cases hu; exact .keeps _
    case getmaxwin => exact hostOp_effect h fun u r hu => by cases hu; exact .keeps _
    case getfixed => exact hostOp_effect h fun u r hu => by cases hu; exact .keeps _
    case reset => exact hostOp_effect h fun u r hu => by cases hu; exact .resets
    case setcb =>
      refine hostOp_effect h fun u r hu => ?_
      obtain ⟨enable, _, hu⟩ := Res.bind_ok hu
      cases hu
      exact .enables enable
    case setpayload =>
      refine hostOp_effect h fun u r hu => ?_
      obtain ⟨payload, _, hu⟩ := Res.bind_ok hu
      obtain ⟨level, _, hu⟩ := Res.bind_ok hu
      obtain ⟨crc, _, hu⟩ := Res.bind_ok hu
      obtain ⟨q, hq, hu⟩ := Res.bind_ok hu
      cases hu
      exact .loads hq
    case getsamples =>
      refine hostOp_effect h fun u r hu => ?_
      obtain ⟨buf, _, hu⟩ := Res.bind_ok hu
      obtain ⟨power, _, hu⟩ := Res.bind_ok hu
      obtain ⟨q, hq, hu⟩ := Res.bind_ok hu
      cases hu
      exact .pulls hq
    case demo =>
      refine hostOp_effect h fun u r hu => ?_
      obtain ⟨q, hq, hu⟩ := Res.bind_ok hu
      cases hu
      exact .demos hq

/-- A property that the answer on the port does not touch, and that every effect establishes, holds after the step. -/
theorem step_keeps {P : State → Prop} {s t : State} (hport : ∀ u a, P u → P (u.answerWith a))
    (heff : ∀ i u, Effect s i u → P u) (h : step s = .next t) : P t := by
  rcases step_cases s with ⟨_, e⟩ | ⟨c, _, _, ⟨i, _, e⟩ | ⟨_, e⟩⟩
  · cases e.symm.trans h
    exact heff .crc16 _ (.keeps _)
  · obtain ⟨u, a, hu, rfl⟩ := exec_effect (e.symm.trans h)
    exact hport u a (heff i u hu)
  · cases e.symm.trans h
    exact hport s _ (heff .crc16 _ (.keeps _))

/-! ### Pushes -/

section
variable {P : State → Prop} (hsample : ∀ u x, P u → P (u.dmStep x).1) (hskip : ∀ u n, P u → P (u.skipRest n))
include hsample hskip

/-- What every sample keeps, and the count of the samples not examined, the sample loop keeps (R222). -/
theorem pushSamples_keeps (chunk : List RealVal) (s : State) (hs : P s) : P (s.pushSamples chunk).1 := by
  induction chunk generalizing s with
  | nil => exact hs
  | cons x xs ih =>
    cases hr : (s.dmStep x).2 with
    | true => rw [pushSamples_ready hr]; exact hskip _ _ (hsample s x hs)
    | false => rw [pushSamples_more hr]; exact ih _ (hsample s x hs)

theorem push_keeps {s t : State} {chunk : List RealVal} {ready : Bool} (hs : P s)
    (h : s.push chunk = .ok (t, ready)) : P t := by
  rcases push_cases s chunk with ⟨_, _, e⟩ | ⟨_, e⟩
  · have ht : s.pushSamples chunk = (t, ready) := by simpa using e.symm.trans h
    have hkept := pushSamples_keeps hsample hskip chunk s hs
    rwa [ht] at hkept
  · cases e.symm.trans h

theorem pushAll_keeps {chunks : List (List RealVal)} {s t : State} {seen ready : Bool} (hs : P s)
    (h : s.pushAll chunks seen = .ok (t, ready)) : P t := by
  induction chunks generalizing s seen with
  | nil => cases h; exact hs
  | cons c cs ih =>
    rcases pushAll_cons s c cs seen with ⟨f, _, e⟩ | ⟨u, r, hu, e⟩
    · cases e.symm.trans h
    · exact ih (push_keeps hsample hskip hs hu) (e.symm.trans h)

end

/-! ### The transmit side and the self test -/

/-- `SETPAYLOAD` writes the synthesizer (R282). -/
theorem setPayload_frame {s t : State} {payload : List Byte} {level total : Nat} {crc : Bool}
    (h : s.setPayload payload level crc = .ok (t, total)) : t = { s with sy := t.sy } := by
  rcases setPayload_cases s payload level crc with
    ⟨_, e⟩ | ⟨b, p, _, ⟨_, e⟩ | ⟨_, ⟨_, e⟩ | ⟨_, e⟩⟩⟩ <;> cases e.symm.trans h
  rfl

/-- `GETSAMPLES` writes the synthesizer (R283). -/
theorem getSamples_frame {s t : State} {buf out : List RealVal} {power : RealVal}
    (h : s.getSamples buf power = .ok (t, out)) : t = { s with sy := t.sy } := by
  rcases getSamples_cases s buf power with ⟨_, e⟩ | ⟨_, _, e⟩ | ⟨_, _, e⟩ <;> cases e.symm.trans h
  rfl

/-- The self test that completes is a frame loaded and pulled, a `RESET`, and chunks pushed (R301). -/
theorem demo_ok {s t : State} {pass : Bool} (h : s.demo = .ok (t, pass)) :
    ∃ s1 s2 total scratch chunks seen, s.setPayload demoPayload s.cfg.deflev true = .ok (s1, total) ∧
      s1.getSamples (List.replicate total (.rat 0)) (.rat 1) = .ok (s2, scratch) ∧
      s2.softReset.pushAll chunks false = .ok (t, seen) := by
  obtain ⟨⟨s1, total⟩, h1, h⟩ := Res.bind_ok h
  obtain ⟨⟨s2, scratch⟩, h2, h⟩ := Res.bind_ok h
  obtain ⟨⟨s4, seen⟩, h4, h⟩ := Res.bind_ok h
  cases h
  exact ⟨s1, s2, total, scratch, _, seen, h1, h2, h4⟩

/-- To the receive side the self test is a `RESET` and chunks pushed, over a synthesizer already written (R301). -/
theorem demo_receives {s t : State} {pass : Bool} (h : s.demo = .ok (t, pass)) :
    ∃ y chunks seen, State.pushAll { s.softReset with sy := y } chunks false = .ok (t, seen) := by
  obtain ⟨s1, s2, _, _, chunks, seen, h1, h2, h3⟩ := demo_ok h
  have e1 := setPayload_frame h1
  have e2 := getSamples_frame h2
  rw [e2, e1] at h3
  exact ⟨s2.sy, chunks, seen, h3⟩

end Sys2Proof.Machine
end

section
/-! How long the frame codec's results are and how many corrections it counts (spec/42_frame_codec.md R131, R140, R142,
R145, R146, R152), for streams of every length. -/

namespace Sys2Proof.Machine

/-! ### Ceiling division and blocks (R131) -/

/-- Ceiling division is the least quotient that covers (R13). -/
theorem ceilDiv_le_iff {a b c : Nat} (hb : 0 < b) : ceilDiv a b ≤ c ↔ a ≤ b * c :=
  ceilDiv_le_iff_le_mul (α := Nat) hb

/-- The first `m` blocks of a sequence, joined, are its first `m * k` symbols. -/
theorem flatten_range_blocks (k m : Nat) (l : List Sym) :
    ((List.range m).map fun i => (l.drop (i * k)).take k).flatten = l.take (m * k) := by
  induction m with
  | zero => simp
  | succ m ih =>
    rw [List.range_succ, List.map_append, List.flatten_append, ih, Nat.succ_mul, List.take_add]
    simp

/-- The blocks of a sequence, joined, are the sequence (R131). -/
theorem blocksOf_flatten {k : Nat} (hk : 0 < k) (l : List Sym) : (blocksOf k l).flatten = l := by
  have hcover : l.length ≤ k * ceilDiv l.length k := (ceilDiv_le_iff hk).1 le_rfl
  rw [blocksOf, flatten_range_blocks, List.take_of_length_le (by rwa [Nat.mul_comm])]

/-- The lengths of the blocks add up to the length of the sequence. -/
theorem sum_length_blocksOf {k : Nat} (hk : 0 < k) (l : List Sym) :
    ((blocksOf k l).map List.length).sum = l.length := by
  rw [← List.length_flatten, blocksOf_flatten hk]

/-- No block is shorter than the last one (R131). -/
theorem last_le_length_of_mem_blocksOf {k : Nat} {l blk : List Sym} (h : blk ∈ blocksOf k l) :
    min k (l.length - (ceilDiv l.length k - 1) * k) ≤ blk.length := by
  simp only [blocksOf, List.mem_map, List.mem_range] at h
  obtain ⟨i, hi, rfl⟩ := h
  have hmul : i * k ≤ (ceilDiv l.length k - 1) * k := Nat.mul_le_mul_right k (by omega)
  rw [List.length_take, List.length_drop]
  omega

/-- Parts that each give up `p` give up `p` times their number in all. -/
theorem sum_map_sub_add {p : Nat} (blks : List (List Sym)) (h : ∀ blk ∈ blks, p ≤ blk.length) :
    (blks.map fun blk => blk.length - p).sum + blks.length * p = (blks.map List.length).sum := by
  induction blks with
  | nil => simp
  | cons blk rest ih =>
    have hblk := h blk (by simp)
    have hrest := ih fun b hb => h b (by simp [hb])
    simp only [List.map_cons, List.sum_cons, List.length_cons, Nat.succ_mul]
    omega

/-- There are as many coded blocks as data blocks (R132, R140). -/
theorem ceilDiv_nsym (len : Nat) {b p : Nat} (hp : p < b) (crc : Bool) :
    ceilDiv (nsym len b p crc) b = ceilDiv (2 * (len + 2 * crc.toNat)) (b - p) := by
  have hk : 0 < b - p := by omega
  refine eq_of_forall_ge_iff fun c => ?_
  rw [ceilDiv_le_iff (by omega), nsym]
  have hb : b * c = (b - p) * c + p * c := by rw [← Nat.add_mul, Nat.sub_add_cancel hp.le]
  constructor
  · intro h
    by_contra hc
    have hlt : (b - p) * c < 2 * (len + 2 * crc.toNat) := by
      rwa [← Nat.not_le, ← ceilDiv_le_iff hk]
    have hmul := Nat.mul_le_mul_left p (Nat.not_le.1 hc).le
    omega
  · intro h
    have hdata := (ceilDiv_le_iff hk).1 h
    have hmul := Nat.mul_le_mul_left p h
    omega

/-! ### Encoding: the length of a stream (R140, R142, R145) -/

theorem mem_ilvOrder {n b c : Nat} (hb : 0 < b) : c ∈ ilvOrder n b ↔ c < n := by
  simp only [ilvOrder, List.mem_flatMap, List.mem_map, List.mem_range]
  have hcol : ∀ i j, i < ceilDiv (n - j) b ↔ i * b + j < n := fun i j => by
    rw [← Nat.not_le, ceilDiv_le_iff hb, Nat.mul_comm]
    omega
  constructor
  · rintro ⟨j, _, i, hi, rfl⟩
    exact (hcol i j).1 hi
  · intro hc
    have hdm : c / b * b + c % b = c := Nat.div_add_mod' c b
    exact ⟨c % b, Nat.mod_lt c hb, c / b, (hcol _ _).2 (by rwa [hdm]), hdm⟩

theorem nodup_ilvOrder {n b : Nat} (hb : 0 < b) : (ilvOrder n b).Nodup := by
  rw [ilvOrder, List.nodup_flatMap]
  constructor
  · intro j _
    refine (List.nodup_range).map fun i i' h => ?_
    exact Nat.eq_of_mul_eq_mul_right hb (Nat.add_right_cancel h)
  · refine (List.nodup_range).imp_of_mem fun {j j'} hj hj' hne => ?_
    rw [List.mem_range] at hj hj'
    intro c hc hc'
    simp only [List.mem_map] at hc hc'
    obtain ⟨i, _, rfl⟩ := hc
    obtain ⟨i', _, h⟩ := hc'
    have hmod := congrArg (· % b) h
    simp only [Nat.mul_add_mod', Nat.mod_eq_of_lt hj, Nat.mod_eq_of_lt hj'] at hmod
    exact hne hmod.symm

/-- `ILV` reads every index of a stream once (R142). -/
theorem ilvOrder_perm {n b : Nat} (hb : 0 < b) : (ilvOrder n b).Perm (List.range n) :=
  (List.perm_ext_iff_of_nodup (nodup_ilvOrder hb) List.nodup_range).2 fun c => by
    rw [mem_ilvOrder hb, List.mem_range]

theorem filterMap_range_getElem? {α : Type} (l : List α) : (List.range l.length).filterMap (fun c => l[c]?) = l := by
  induction l with
  | nil => rfl
  | cons x xs ih => simpa [List.range_succ_eq_map, List.filterMap_map, Function.comp_def] using ih

/-- `ILV` reorders its symbols (R142). -/
theorem ilv_perm {α : Type} (syms : List α) {b : Nat} (hb : 0 < b) : (ilv syms b).Perm syms := by
  have h := (ilvOrder_perm (n := syms.length) hb).filterMap fun c => syms[c]?
  rwa [filterMap_range_getElem?] at h

theorem ilv_length {α : Type} (syms : List α) {b : Nat} (hb : 0 < b) : (ilv syms b).length = syms.length :=
  (ilv_perm syms hb).length_eq

/-- `DILV` writes over a sequence of the same length (R143). -/
theorem dilv_length {α : Type} (syms : List α) (b : Nat) : (dilv syms b).length = syms.length := by
  have hset : ∀ (cts : List (Nat × α)) (out : List α),
      (cts.foldl (fun out ct => out.set ct.1 ct.2) out).length = out.length := by
    intro cts
    induction cts with
    | nil => intro out; rfl
    | cons ct cts ih => intro out; rw [List.foldl_cons, ih, List.length_set]
  exact hset _ _

/-- A code word is the data and `P` symbols of parity (R108). -/
theorem rsEnc_length (data : List Sym) (p : Nat) : (rsEnc data p).length = data.length + p := by
  rw [rsEnc, rsParity, List.length_append, rsDivide_length, List.length_append, List.length_replicate,
    Nat.add_sub_cancel_left]

/-- The stream of a payload has `NSYM` symbols (R140, R145). -/
theorem fcEncode_length (payload : List Byte) {b p : Nat} (hp : p < b) (crc : Bool) :
    (fcEncode payload b p crc).length = nsym payload.length b p crc := by
  have hk : 0 < b - p := by omega
  have hdata : (b2s (withCrc payload crc)).length = 2 * (payload.length + 2 * crc.toNat) := by
    rw [b2s_length, withCrc_length]
  have hsum : ∀ blks : List (List Sym),
      (blks.flatMap fun blk => rsEnc blk p).length = (blks.map List.length).sum + p * blks.length := by
    intro blks
    induction blks with
    | nil => rfl
    | cons blk rest ih =>
      rw [List.flatMap_cons, List.length_append, ih, rsEnc_length, List.map_cons, List.sum_cons, List.length_cons,
        Nat.mul_succ]
      omega
  rw [fcEncode, ilv_length _ (by omega), hsum, sum_length_blocksOf hk, blocksOf_length, hdata]
  rfl

/-- The stream of a legal level has an even number of symbols (R9, R140). -/
theorem nsym_even (len b : Nat) {p : Nat} (hp : p % 2 = 0) (crc : Bool) : nsym len b p crc % 2 = 0 := by
  have hpar := Nat.mul_mod p (ceilDiv (2 * (len + 2 * crc.toNat)) (b - p)) 2
  rw [hp, Nat.zero_mul, Nat.zero_mod] at hpar
  simp only [nsym]
  omega

/-! ### Decoding: corrections and the length of what comes back (R146, R152) -/

/-- The corrections that `FCDEC` records, on success and on both failures (D14, R146). -/
def FcOutcome.ncorr : FcOutcome → Nat
  | .done _ n => n
  | .uncorrectable n => n
  | .crcMismatch n => n
  | .badShape => 0

/-- At most the correction radius for each block (R152). -/
theorem fcDec_ncorr_le (syms : List Sym) (b p : Nat) (crc : Bool) :
    (fcDec syms b p crc).ncorr ≤ ceilDiv syms.length b * (p / 2) := by
  have hcount := decodeBlocks_count p (blocksOf b (dilv syms b)) 0 []
  rw [blocksOf_length, dilv_length, Nat.zero_add] at hcount
  rcases fcDec_cases syms b p crc with
    ⟨_, e⟩ | ⟨_, ⟨n, hd, e⟩ | ⟨n, d, hd, ⟨_, e⟩ | ⟨_, _, e⟩ | ⟨_, _, _, e⟩⟩⟩ <;> rw [e]
  case inl => exact Nat.zero_le _
  all_goals rw [hd] at hcount; exact hcount

/-- The block loop adds the data symbols of each block to those it has (R146). -/
theorem decodeBlocks_data_length {p : Nat} {blks : List (List Sym)} {ncorr n : Nat} {d out : List Sym}
    (h : decodeBlocks p blks ncorr d = .inr (n, out)) :
    out.length ≤ d.length + (blks.map fun blk => blk.length - p).sum := by
  induction blks generalizing ncorr d with
  | nil => cases h; simp
  | cons blk rest ih =>
    cases hr : rsDec blk p with
    | none => rw [decodeBlocks_cons_none hr] at h; cases h
    | some r =>
      obtain ⟨cw, m⟩ := r
      rw [decodeBlocks_cons_some hr] at h
      have hrest := ih h
      rw [List.length_append, List.length_take] at hrest
      rw [List.map_cons, List.sum_cons]
      omega

/-- Two symbols make a byte (R130). -/
theorem s2b_length (l : List Sym) : (s2b l).length = l.length / 2 := by
  induction l using s2b.induct with
  | case1 h l rest ih => simp only [s2b, List.length_cons, ih]; omega
  | case2 l hl =>
    rcases l with _ | ⟨x, _ | ⟨y, rest⟩⟩
    · rfl
    · simp [s2b]
    · exact absurd rfl (hl x y rest)

theorem crcStrip_length {bs body : List Byte} (h : crcStrip bs = some body) : body.length ≤ bs.length - 2 := by
  unfold crcStrip at h
  simp only at h
  split at h
  · cases h
    rw [List.length_take]
    exact Nat.min_le_left _ _
  · cases h

/-- A stream that `FCDEC` accepts has `P` symbols of parity in each block and the data symbols beside them (R132). -/
theorem sum_data_of_fcDecOk {stream : List Sym} {b p : Nat} {crc : Bool} (h : fcDecOk stream.length b p crc = true) :
    ((blocksOf b stream).map fun blk => blk.length - p).sum = stream.length - ceilDiv stream.length b * p := by
  simp only [fcDecOk, fcShapeOk, Bool.and_eq_true, decide_eq_true_eq, beq_iff_eq, Bool.or_eq_true] at h
  obtain ⟨⟨⟨⟨⟨_, hpb⟩, _⟩, _⟩, hlast⟩, _⟩ := h
  have hblk : ∀ blk ∈ blocksOf b stream, p ≤ blk.length := by
    intro blk hblk
    have hmin := last_le_length_of_mem_blocksOf hblk
    rcases hlast with hz | ⟨hl, _⟩
    · rw [blocksOf, hz, show ceilDiv 0 b = 0 from Nat.div_eq_of_lt (by omega)] at hblk
      cases hblk
    · omega
  have hsum := sum_map_sub_add _ hblk
  rw [sum_length_blocksOf (by omega), blocksOf_length] at hsum
  omega

/-- What `FCDEC` delivers is no longer than the stream's data, less the CRC (R146). -/
theorem fcDec_done_length {syms : List Sym} {b p n : Nat} {crc : Bool} {body : List Byte}
    (h : fcDec syms b p crc = .done body n) :
    body.length ≤ (syms.length - ceilDiv syms.length b * p) / 2 - 2 * crc.toNat := by
  rcases fcDec_cases syms b p crc with
    ⟨_, e⟩ | ⟨hok, ⟨_, _, e⟩ | ⟨_, d, hd, ⟨rfl, e⟩ | ⟨_, _, e⟩ | ⟨rfl, out, hc, e⟩⟩⟩ <;> cases e.symm.trans h
  all_goals
    have hlen := decodeBlocks_data_length hd
    rw [← dilv_length syms b] at hok
    rw [sum_data_of_fcDecOk hok, dilv_length, List.length_nil, Nat.zero_add] at hlen
    have hhalf := Nat.div_le_div_right (c := 2) hlen
  · rw [s2b_length]
    simpa using hhalf
  · have hbody := crcStrip_length hc
    rw [s2b_length] at hbody
    simp only [Bool.toNat_true]
    omega

/-- Of a stream of `NSYM` symbols `FCDEC` delivers at most the declared length (R140, R146). -/
theorem fcDec_nsym_length {syms : List Sym} {b p n len : Nat} {crc : Bool} {body : List Byte} (hp : p < b)
    (hlen : syms.length = nsym len b p crc) (h : fcDec syms b p crc = .done body n) : body.length ≤ len := by
  have hdone := fcDec_done_length h
  rw [hlen, ceilDiv_nsym len hp, nsym] at hdone
  simp only [Nat.mul_comm p, Nat.add_sub_cancel] at hdone
  omega

end Sys2Proof.Machine
end

section
/-! The corrected-error counter and the payload stay within their bounds (spec/10_state.md R34, R35,
spec/42_frame_codec.md R148, R152). -/

namespace Sys2Proof.Machine

/-! ### What a full buffer adds to the counter (R148) -/

theorem headerFull_fixed (s : State) (ss : Session) : (s.headerFull ss).1.dm.fixed =
    s.dm.fixed + BitVec.ofNat 32 (fcDec ss.sym Config.hdrSyms Config.hdrPar false).ncorr := by
  unfold State.headerFull
  cases fcDec ss.sym Config.hdrSyms Config.hdrPar false with
  | badShape => rfl
  | uncorrectable n => rfl
  | crcMismatch n => rfl
  | done bytes n =>
    simp only
    cases hdrDec s.cfg bytes with
    | error e => rfl
    | ok h => simp only; split <;> rfl

theorem payloadFull_fixed (s : State) (ss : Session) (h : Hdr) {b p : Nat}
    (hbp : s.cfg.eccAt h.level.toNat = some (b, p)) :
    (s.payloadFull ss h).1.dm.fixed = s.dm.fixed + BitVec.ofNat 32 (fcDec ss.sym b p h.crc).ncorr := by
  unfold State.payloadFull
  simp only [hbp, Option.getD_some]
  cases fcDec ss.sym b p h.crc <;> rfl

/-- The sum in 32 bits is no more than the sum of the numbers. -/
theorem toNat_add_ofNat_le (x : U32) (n : Nat) : (x + BitVec.ofNat 32 n).toNat ≤ x.toNat + n := by
  rw [BitVec.toNat_add, BitVec.toNat_ofNat]
  omega

/-- R152: the blocks of a payload are at most 257, and each corrects at most 6 symbols. -/
theorem corrections_nsym_le {len b p : Nat} (hlen : len ≤ Config.maxLen) (crc : Bool) (hpb : p < b) (hb : b ≤ 15)
    (hdata : (b - p) % 2 = 0) (hpar : p % 2 = 0) : ceilDiv (nsym len b p crc) b * (p / 2) ≤ 1542 := by
  have hblocks : ceilDiv (nsym len b p crc) b ≤ 257 := by
    rw [ceilDiv_nsym len hpb, ceilDiv_le_iff (by omega)]
    have hcrc := crc.toNat_le
    have hbytes : len ≤ 255 := hlen
    omega
  have hradius : p / 2 ≤ 6 := by omega
  exact Nat.mul_le_mul hblocks hradius

/-! ### The invariant of a push -/

/-- The bounds of R34 and R35 with what a sample needs to keep them: the buffer of a session has the size of R32. -/
structure State.Bounded (s : State) : Prop where
  cfgWf : s.cfg.wf = true
  bounds : s.Bounds
  need : ∀ ss, s.dm.session = some ss → ss.NeedRight s.cfg

/-- The bounds look at the session, the counter and the payload only. -/
theorem State.Bounded.congr {s t : State} (h : s.Bounded) (hcfg : t.cfg = s.cfg)
    (hsession : t.dm.session = s.dm.session) (hfixed : t.dm.fixed = s.dm.fixed)
    (hpayload : t.dm.payload = s.dm.payload) : t.Bounded := by
  obtain ⟨hwf, ⟨hmax, hheader, hsome, hlen⟩, hneed⟩ := h
  refine ⟨hcfg ▸ hwf, ⟨?_, ?_, ?_, ?_⟩, ?_⟩
  · rwa [hfixed]
  · rwa [hsession, hfixed]
  · rwa [hsession, hfixed]
  · rwa [hpayload]
  · rwa [hsession, hcfg]

/-- With no session only the two bounds are left. -/
theorem State.Bounded.of_waiting {s : State} (hwf : s.cfg.wf = true) (hsession : s.dm.session = none)
    (hfixed : s.dm.fixed.toNat ≤ 1543) (hpayload : ∀ p, s.dm.payload = some p → p.length ≤ Config.maxLen) :
    s.Bounded where
  cfgWf := hwf
  bounds :=
    { fixedMax := hfixed
      fixedHeader := fun ss h => by rw [hsession] at h; cases h
      fixedPayload := fun ss _ h => by rw [hsession] at h; cases h
      payloadLen := hpayload }
  need := fun ss h => by rw [hsession] at h; cases h

/-- The analyzers, the symbols and the words of a session do not enter the bounds. -/
theorem State.Bounded.setSession {s : State} {ss ss' : Session} (h : s.Bounded) (hss : s.dm.session = some ss)
    (hphase : ss'.phase = ss.phase) (hneed : ss'.need = ss.need) : (s.setSession ss').Bounded := by
  refine ⟨h.cfgWf, ⟨h.bounds.fixedMax, ?_, ?_, h.bounds.payloadLen⟩, ?_⟩
  · rintro _ ⟨⟩ hp
    exact h.bounds.fixedHeader ss hss (hphase.symm.trans hp)
  · rintro _ hd ⟨⟩ hp
    exact h.bounds.fixedPayload ss hd hss (hphase.symm.trans hp)
  · rintro _ ⟨⟩
    have hright := h.need ss hss
    simp only [Session.NeedRight, hphase, hneed] at hright ⊢
    exact hright

/-! ### One sample keeps it -/

/-- The header adds one correction at most, and the buffer it opens has the size its fields give (R226). -/
theorem headerFull_bounded {s : State} {ss : Session} (hwf : s.cfg.wf = true) (hzero : s.dm.fixed = 0)
    (hpayload : ∀ p, s.dm.payload = some p → p.length ≤ Config.maxLen) (hlen : ss.sym.length = Config.hdrSyms) :
    (s.headerFull ss).1.Bounded := by
  have hcount : (fcDec ss.sym Config.hdrSyms Config.hdrPar false).ncorr ≤ 1 := by
    have h := fcDec_ncorr_le ss.sym Config.hdrSyms Config.hdrPar false
    rwa [hlen] at h
  have hfixed : (s.headerFull ss).1.dm.fixed.toNat ≤ 1 := by
    rw [headerFull_fixed, hzero]
    exact (toNat_add_ofNat_le 0 _).trans (by simpa using hcount)
  have hmax := hfixed.trans (by decide : 1 ≤ 1543)
  rcases headerFull_cases s ss with ⟨n, e⟩ | ⟨bytes, n, h, _, _, e⟩ | ⟨bytes, n, h, need, _, hh, _, hneed, e⟩ <;>
    rw [e] at hfixed hmax ⊢
  · exact .of_waiting hwf rfl hmax hpayload
  · refine .of_waiting hwf rfl hmax ?_
    rintro _ ⟨⟩
    exact Nat.zero_le _
  · refine ⟨hwf, ⟨hmax, ?_, ?_, hpayload⟩, ?_⟩
    · rintro _ ⟨⟩ hp
      cases hp
    · rintro _ _ ⟨⟩ _
      exact hfixed
    · rintro _ ⟨⟩
      obtain ⟨bp, hbp⟩ := hdrDec_level hh
      rw [hbp] at hneed
      exact ⟨bp, hbp, hneed⟩

/-- The payload adds 1542 corrections at most and is at most as long as its header declares (R227, R152). -/
theorem payloadFull_bounded {s : State} {ss : Session} {h : Hdr} {b p : Nat} (hwf : s.cfg.wf = true)
    (hone : s.dm.fixed.toNat ≤ 1) (hpayload : ∀ q, s.dm.payload = some q → q.length ≤ Config.maxLen)
    (hbp : s.cfg.eccAt h.level.toNat = some (b, p)) (hlen : ss.sym.length = nsym h.len.toNat b p h.crc) :
    (s.payloadFull ss h).1.Bounded := by
  obtain ⟨_, hpb, hb, hdata, hpar⟩ := Cfg.eccAt_shape hwf hbp
  have hbyte : h.len.toNat ≤ Config.maxLen := Nat.le_of_lt_succ h.len.isLt
  have hcount : (fcDec ss.sym b p h.crc).ncorr ≤ 1542 := by
    have hle := fcDec_ncorr_le ss.sym b p h.crc
    rw [hlen] at hle
    exact hle.trans (corrections_nsym_le hbyte h.crc hpb hb hdata hpar)
  have hmax : (s.payloadFull ss h).1.dm.fixed.toNat ≤ 1543 := by
    rw [payloadFull_fixed s ss h hbp]
    exact (toNat_add_ofNat_le _ _).trans (Nat.add_le_add hone hcount)
  rcases payloadFull_cases s ss h with ⟨n, e⟩ | ⟨body, n, hdone, e⟩ <;> rw [e] at hmax ⊢
  · exact .of_waiting hwf rfl hmax hpayload
  · refine .of_waiting hwf rfl hmax ?_
    rintro _ ⟨⟩
    rw [hbp] at hdone
    exact (fcDec_nsym_length hpb hlen hdone).trans hbyte

/-- A parsed sample keeps the bounds (R225). -/
theorem parseSample_bounded {s : State} {ss : Session} (hs : s.Bounded) (hss : s.dm.session = some ss) (n : Nat)
    (x : RealVal) : (s.parseSample ss n x).1.Bounded := by
  have hneed := hs.need ss hss
  rcases parseSample_cases s ss n x with ⟨_, e⟩ | ⟨_, ⟨_, e⟩ | ⟨hfull, ⟨hp, e⟩ | ⟨h, hp, e⟩⟩⟩ <;> rw [e]
  · exact hs.setSession hss rfl rfl
  · exact hs.setSession hss rfl rfl
  · simp only [Session.NeedRight, hp] at hneed
    exact headerFull_bounded hs.cfgWf (hs.bounds.fixedHeader ss hss hp) hs.bounds.payloadLen (hfull.trans hneed)
  · simp only [Session.NeedRight, hp] at hneed
    obtain ⟨⟨b, p⟩, hbp, hneed⟩ := hneed
    exact payloadFull_bounded hs.cfgWf (hs.bounds.fixedPayload ss h hss hp) hs.bounds.payloadLen hbp
      (hfull.trans hneed)

/-- A sample keeps the bounds, in either state (R223). -/
theorem dmStep_bounded (s : State) (x : RealVal) (hs : s.Bounded) : (s.dmStep x).1.Bounded := by
  cases hss : s.dm.session with
  | none =>
    rcases dmStep_waiting hss x with ⟨_, e⟩ | ⟨t0, _, e⟩ <;> rw [e]
    · exact hs.congr rfl rfl rfl rfl
    · refine ⟨hs.cfgWf, ⟨Nat.zero_le _, ?_, ?_, hs.bounds.payloadLen⟩, ?_⟩
      · intro _ _ _
        rfl
      · rintro _ _ ⟨⟩ hp
        cases hp
      · rintro _ ⟨⟩
        rfl
  | some ss =>
    have hcounted : (s.setPushed (s.dm.pushed + 1)).Bounded := hs.congr rfl rfl rfl rfl
    rw [dmStep_parsing hss]
    exact parseSample_bounded hcounted hss _ x

theorem skipRest_bounded (s : State) (n : Nat) (hs : s.Bounded) : (s.skipRest n).Bounded :=
  hs.congr rfl rfl rfl rfl

/-- `RESET` clears the counter and drops the payload (R231). -/
theorem softReset_bounded {s : State} (hwf : s.cfg.wf = true) : s.softReset.Bounded :=
  .of_waiting hwf rfl (Nat.zero_le _) fun p h => by cases h

/-! ### Every operation keeps it -/

theorem effect_bounded {s u : State} {i : Instr} (hs : s.Bounded) (h : Effect s i u) : u.Bounded := by
  cases h with
  | keeps => exact hs
  | pushes _ h => exact push_keeps dmStep_bounded skipRest_bounded hs h
  | resets => exact softReset_bounded hs.cfgWf
  | enables enable => exact hs.congr rfl rfl rfl rfl
  | loads h => rw [setPayload_frame h]; exact hs.congr rfl rfl rfl rfl
  | pulls h => rw [getSamples_frame h]; exact hs.congr rfl rfl rfl rfl
  | demos h =>
    obtain ⟨y, chunks, seen, h⟩ := demo_receives h
    have hreset : State.Bounded { s.softReset with sy := y } := (softReset_bounded hs.cfgWf).congr rfl rfl rfl rfl
    exact pushAll_keeps dmStep_bounded skipRest_bounded hreset h

/-- Settles O59: a state in time is `Bounded`, and every step keeps `Bounded`. -/
theorem stepKeepsTheBounds : Obligations.StepKeepsTheBounds := by
  intro s t htiming hbounds h
  have hs : s.Bounded := ⟨htiming.cfgWf, hbounds, fun ss hss => (htiming.parsing ss hss).needRight⟩
  have ht : t.Bounded :=
    step_keeps (fun u a hu => hu.congr rfl rfl rfl rfl) (fun i u hu => effect_bounded hs hu) h
  exact ht.bounds

end Sys2Proof.Machine
end

section
/-! Which operation writes which state element (spec/10_state.md R20 to R45), and when an event is added (R45, R196). -/

namespace Sys2Proof.Machine

/-! ### Events (R41, R45, R196) -/

/-- What the event output and the enable can have become: events are added only, none without the enable, and the
enable is the same. -/
structure State.Notifies (s u : State) : Prop where
  grows : s.evt <+: u.evt
  silent : s.tr.cben = false → u.evt = s.evt
  enable : u.tr.cben = s.tr.cben

/-- Where no event is added and the enable is not written. -/
theorem State.Notifies.of_eq {s u : State} (hevt : u.evt = s.evt) (henable : u.tr.cben = s.tr.cben) : s.Notifies u :=
  ⟨hevt ▸ List.prefix_rfl, fun _ => hevt, henable⟩

theorem State.Notifies.trans {s u v : State} (h : s.Notifies u) (h' : u.Notifies v) : s.Notifies v where
  grows := h.grows.trans h'.grows
  silent hs := (h'.silent (h.enable.trans hs)).trans (h.silent hs)
  enable := h'.enable.trans h.enable

/-- Without the enable a detection emits nothing (R196). -/
theorem trEvents_of_disabled {t : TrState} (h : t.cben = false) (r : Option Nat) : trEvents t r = [] := by
  cases r with
  | none => rfl
  | some t0 => simp [trEvents, h]

/-- One sample: the trigger emits while waiting, the parser never does (R223). -/
theorem dmStep_notifies (s : State) (x : RealVal) : s.Notifies (s.dmStep x).1 := by
  cases hss : s.dm.session with
  | none =>
    obtain ⟨_, _, henable⟩ := trStep_frame s.cfg s.tr x
    rcases dmStep_waiting hss x with ⟨_, e⟩ | ⟨t0, _, e⟩ <;> rw [e]
    · exact .of_eq rfl henable
    · refine ⟨List.prefix_append _ _, fun hoff => ?_, henable⟩
      simp [trEvents_of_disabled hoff]
  | some ss =>
    rw [dmStep_parsing hss]
    obtain ⟨_, _, hevt, _, _, henable⟩ := parseSample_frame (s.setPushed (s.dm.pushed + 1)) ss s.dm.pushed x
    exact .of_eq hevt henable

theorem notifies_dmStep {s : State} (u : State) (x : RealVal) (h : s.Notifies u) : s.Notifies (u.dmStep x).1 :=
  h.trans (dmStep_notifies u x)

theorem notifies_skipRest {s : State} (u : State) (n : Nat) (h : s.Notifies u) : s.Notifies (u.skipRest n) :=
  h.trans (.of_eq rfl rfl)

/-- Every operation but `SETCB` keeps the enable and emits under it only. -/
theorem effect_notifies {s u : State} {i : Instr} (hi : i ≠ .setcb) (h : Effect s i u) : s.Notifies u := by
  cases h with
  | keeps => exact .of_eq rfl rfl
  | pushes _ h => exact push_keeps notifies_dmStep notifies_skipRest (.of_eq rfl rfl) h
  | resets => exact .of_eq rfl rfl
  | enables => exact absurd rfl hi
  | loads h => rw [setPayload_frame h]; exact .of_eq rfl rfl
  | pulls h => rw [getSamples_frame h]; exact .of_eq rfl rfl
  | demos h =>
    obtain ⟨y, chunks, seen, h⟩ := demo_receives h
    have hreset : s.Notifies { s.softReset with sy := y } := .of_eq rfl rfl
    exact pushAll_keeps notifies_dmStep notifies_skipRest hreset h

/-- `SETCB` adds no event (R233). -/
theorem effect_setcb_evt {s u : State} (h : Effect s .setcb u) : u.evt = s.evt := by
  cases h with
  | keeps => rfl
  | pushes hi _ => rcases hi with hi | hi <;> cases hi
  | enables => rfl

/-- Settles O9: every sample only adds events under the enable, and only `SETCB` writes the enable. -/
theorem eventsOnlyGrowAndNeedTheEnable : Obligations.EventsOnlyGrowAndNeedTheEnable := by
  intro i s t h
  obtain ⟨u, a, hu, rfl⟩ := exec_effect h
  by_cases hi : i = .setcb
  · subst hi
    have hevt := effect_setcb_evt hu
    exact ⟨hevt ▸ List.prefix_rfl, fun _ => hevt, fun hne => absurd rfl hne⟩
  · have hn := effect_notifies hi hu
    exact ⟨hn.grows, hn.silent, fun _ => hn.enable⟩

/-! ### The payload (R35) -/

/-- A full header buffer drops no payload (R226, D30). -/
theorem headerFull_keeps_payvalid {s : State} (ss : Session) (h : s.dm.payvalid = true) :
    (s.headerFull ss).1.dm.payvalid = true := by
  rcases headerFull_cases s ss with ⟨_, e⟩ | ⟨_, _, _, _, _, e⟩ | ⟨_, _, _, _, _, _, _, _, e⟩ <;> rw [e]
  · exact h
  · rfl
  · exact h

/-- A full payload buffer drops no payload, it may put a new one in its place (R227, D30). -/
theorem payloadFull_keeps_payvalid {s : State} (ss : Session) (hdr : Hdr) (h : s.dm.payvalid = true) :
    (s.payloadFull ss hdr).1.dm.payvalid = true := by
  rcases payloadFull_cases s ss hdr with ⟨_, e⟩ | ⟨_, _, _, e⟩ <;> rw [e]
  · exact h
  · rfl

theorem parseSample_keeps_payvalid {s : State} (ss : Session) (n : Nat) (x : RealVal) (h : s.dm.payvalid = true) :
    (s.parseSample ss n x).1.dm.payvalid = true := by
  rcases parseSample_cases s ss n x with ⟨_, e⟩ | ⟨_, ⟨_, e⟩ | ⟨_, ⟨_, e⟩ | ⟨hdr, _, e⟩⟩⟩ <;> rw [e]
  · exact h
  · exact h
  · exact headerFull_keeps_payvalid _ h
  · exact payloadFull_keeps_payvalid _ hdr h

theorem dmStep_keeps_payvalid (s : State) (x : RealVal) (h : s.dm.payvalid = true) :
    (s.dmStep x).1.dm.payvalid = true := by
  cases hss : s.dm.session with
  | none => rcases dmStep_waiting hss x with ⟨_, e⟩ | ⟨_, _, e⟩ <;> rw [e] <;> exact h
  | some ss =>
    have hcounted : (s.setPushed (s.dm.pushed + 1)).dm.payvalid = true := h
    rw [dmStep_parsing hss]
    exact parseSample_keeps_payvalid ss _ x hcounted

/-- A push drops no payload. -/
theorem push_keeps_payvalid {s t : State} {chunk : List RealVal} {ready : Bool} (hs : s.dm.payvalid = true)
    (h : s.push chunk = .ok (t, ready)) : t.dm.payvalid = true :=
  push_keeps (P := fun u => u.dm.payvalid = true) dmStep_keeps_payvalid (fun _ _ hu => hu) hs h

/-! ### The writers (R20 to R45) -/

/-- The receive commands leave the synthesizer (R239). -/
theorem push_sy {s t : State} {chunk : List RealVal} {ready : Bool} (h : s.push chunk = .ok (t, ready)) :
    t.sy = s.sy :=
  push_keeps (P := fun u => u.sy = s.sy) (fun u x hu => (dmStep_frame u x).2.1.trans hu) (fun _ _ hu => hu) rfl h

section
variable {s u : State} {i : Instr}

theorem effect_writes_dm (h : Effect s i u) (hne : u.dm ≠ s.dm) :
    i = .pushf ∨ i = .pushi ∨ i = .reset ∨ i = .demo := by
  cases h with
  | keeps | enables => exact absurd rfl hne
  | loads h => exact absurd (congrArg State.dm (setPayload_frame h)) hne
  | pulls h => exact absurd (congrArg State.dm (getSamples_frame h)) hne
  | pushes hi => tauto
  | resets | demos => simp

theorem effect_writes_tr (h : Effect s i u) (hne : u.tr ≠ s.tr) :
    i = .pushf ∨ i = .pushi ∨ i = .reset ∨ i = .setcb ∨ i = .demo := by
  cases h with
  | keeps => exact absurd rfl hne
  | loads h => exact absurd (congrArg State.tr (setPayload_frame h)) hne
  | pulls h => exact absurd (congrArg State.tr (getSamples_frame h)) hne
  | pushes hi => tauto
  | resets | enables | demos => simp

theorem effect_writes_sy (h : Effect s i u) (hne : u.sy ≠ s.sy) : i = .setpayload ∨ i = .getsamples ∨ i = .demo := by
  cases h with
  | keeps | resets | enables => exact absurd rfl hne
  | pushes _ h => exact absurd (push_sy h) hne
  | loads | pulls | demos => simp

theorem effect_writes_evt (h : Effect s i u) (hne : u.evt ≠ s.evt) : i = .pushf ∨ i = .pushi ∨ i = .demo := by
  cases h with
  | keeps | resets | enables => exact absurd rfl hne
  | loads h => exact absurd (congrArg State.evt (setPayload_frame h)) hne
  | pulls h => exact absurd (congrArg State.evt (getSamples_frame h)) hne
  | pushes hi => tauto
  | demos => simp

theorem effect_drops_payload (h : Effect s i u) (hs : s.dm.payvalid = true) (hu : u.dm.payvalid = false) :
    i = .reset ∨ i = .demo := by
  have hdm : u.dm ≠ s.dm := fun hdm => by rw [hdm, hs] at hu; cases hu
  cases h with
  | pushes _ h => rw [push_keeps_payvalid hs h] at hu; cases hu
  | keeps | enables => exact absurd rfl hdm
  | loads h => exact absurd (congrArg State.dm (setPayload_frame h)) hdm
  | pulls h => exact absurd (congrArg State.dm (getSamples_frame h)) hdm
  | resets | demos => simp

end

/-- Settles O10: the effects that write each element, and the answer writes none. -/
theorem everyStateElementHasItsWriters : Obligations.EveryStateElementHasItsWriters := by
  intro i s t h
  obtain ⟨u, a, hu, rfl⟩ := exec_effect h
  simp only [State.answerWith_dm, State.answerWith_tr, State.answerWith_sy, State.answerWith_evt]
  exact ⟨effect_writes_dm hu, effect_writes_tr hu, effect_writes_sy hu, effect_writes_evt hu, effect_drops_payload hu⟩

end Sys2Proof.Machine
end

section
/-! The synthesizer's invariant (spec/10_state.md R42, R43, spec/48_synthesizer.md R75, R282, R283), and the invariants
right after reset (R46). -/

namespace Sys2Proof.Machine

/-! ### The synthesizer -/

/-- A frame on a legal level has an even number of symbols, and the header's eight among them (R77, R135). -/
theorem frameSyms_length {c : Cfg} {level b p : Nat} (hwf : c.wf = true) (hbp : c.eccAt level = some (b, p))
    (payload : List Byte) (crc : Bool) :
    (frameSyms payload level b p crc).length % 2 = 0 ∧
      Config.hdrSyms ≤ (frameSyms payload level b p crc).length := by
  obtain ⟨_, hpb, _, _, hpar⟩ := Cfg.eccAt_shape hwf hbp
  have hheader : (headerSyms payload.length level crc).length = 8 := by
    rw [headerSyms, fcEncode_length _ (by decide), hdrEnc_length]
    decide
  have heven := nsym_even payload.length b hpar crc
  rw [frameSyms, List.length_append, hheader, fcEncode_length payload hpb]
  exact ⟨by omega, Nat.le_add_right 8 _⟩

/-- The invariant looks at the configuration and the synthesizer only. -/
theorem State.SynthWf.congr {s t : State} (h : s.SynthWf) (hcfg : t.cfg = s.cfg) (hsy : t.sy = s.sy) : t.SynthWf := by
  obtain ⟨hcursor, htotal, hloaded, hunloaded⟩ := h
  refine ⟨?_, ?_, ?_, ?_⟩
  · rwa [hsy]
  · rwa [hsy]
  · rwa [hsy, hcfg]
  · rwa [hsy]

/-- `SETPAYLOAD` loads a whole frame or nothing (R282). -/
theorem setPayload_synthWf {s t : State} {payload : List Byte} {level total : Nat} {crc : Bool}
    (hwf : s.cfg.wf = true) (h : s.setPayload payload level crc = .ok (t, total)) : t.SynthWf := by
  rcases setPayload_cases s payload level crc with
    ⟨_, e⟩ | ⟨b, p, hbp, ⟨_, e⟩ | ⟨_, ⟨htotal, e⟩ | ⟨_, e⟩⟩⟩ <;> cases e.symm.trans h
  obtain ⟨heven, hheader⟩ := frameSyms_length hwf hbp payload crc
  refine ⟨Nat.two_pow_pos 64, htotal, fun _ => ⟨heven, hheader, rfl⟩, ?_⟩
  intro hunloaded
  cases hunloaded

/-- `GETSAMPLES` moves the cursor of a loaded frame within its range (R283). -/
theorem getSamples_synthWf {s t : State} {buf out : List RealVal} {power : RealVal} (hs : s.SynthWf)
    (h : s.getSamples buf power = .ok (t, out)) : t.SynthWf := by
  rcases getSamples_cases s buf power with ⟨_, e⟩ | ⟨_, _, e⟩ | ⟨hloaded, hcursor, e⟩ <;> cases e.symm.trans h
  refine ⟨hcursor, hs.totalInRange, hs.whenLoaded, ?_⟩
  intro hunloaded
  cases hloaded.symm.trans hunloaded

theorem dmStep_synthWf (s : State) (x : RealVal) (hs : s.SynthWf) : (s.dmStep x).1.SynthWf := by
  obtain ⟨hcfg, hsy, _⟩ := dmStep_frame s x
  exact hs.congr hcfg hsy

theorem skipRest_synthWf (s : State) (n : Nat) (hs : s.SynthWf) : (s.skipRest n).SynthWf :=
  hs.congr rfl rfl

/-- Every operation keeps the synthesizer well-formed. -/
theorem effect_synthWf {s u : State} {i : Instr} (hwf : s.cfg.wf = true) (hs : s.SynthWf) (h : Effect s i u) :
    u.SynthWf := by
  cases h with
  | keeps => exact hs
  | pushes _ h => exact push_keeps dmStep_synthWf skipRest_synthWf hs h
  | resets => exact hs.congr rfl rfl
  | enables => exact hs.congr rfl rfl
  | loads h => exact setPayload_synthWf hwf h
  | pulls h => exact getSamples_synthWf hs h
  | demos h =>
    obtain ⟨s1, s2, _, _, chunks, seen, hload, hpull, hpush⟩ := demo_ok h
    have hpulled : s2.SynthWf := getSamples_synthWf (setPayload_synthWf hwf hload) hpull
    have hreset : s2.softReset.SynthWf := hpulled.congr rfl rfl
    exact pushAll_keeps dmStep_synthWf skipRest_synthWf hreset hpush

/-- Settles O60: every effect keeps the synthesizer well-formed, and the answer does not touch it. -/
theorem stepKeepsTheSynthesizer : Obligations.StepKeepsTheSynthesizer := by
  intro s t hwf hs h
  exact step_keeps (fun u a hu => hu.congr rfl rfl) (fun i u hu => effect_synthWf hwf hs hu) h

/-! ### After reset (R46) -/

/-- A fresh record scans: nothing has been fed, and no window has completed (R197). -/
theorem TrState.fresh_scanning (c : Cfg) (base : Nat) (cben : Bool) : (TrState.fresh base cben).Scanning c where
  found := rfl
  lane00 := (Nat.zero_mod _).symm
  lane01 := (Nat.zero_mod _).symm
  lane10 := by rw [Nat.zero_sub, Nat.zero_mod]
  lane11 := by rw [Nat.zero_sub, Nat.zero_mod]
  windows := by rw [Nat.zero_div]
  hist0 := rfl
  hist1 := rfl

theorem ofCfg_timing {c : Cfg} (hwf : c.wf = true) : (State.ofCfg c).Timing where
  cfgWf := hwf
  inRange := Nat.two_pow_pos 64
  waiting _ := ⟨TrState.fresh_scanning c 0 false, rfl⟩
  parsing ss h := by cases h
  start ss h := by cases h
  trigger := (TrState.fresh_scanning c 0 false).inRange (Nat.two_pow_pos 64) (Nat.two_pow_pos 64)
  events t0 h := by cases h

theorem ofCfg_bounds {c : Cfg} (hwf : c.wf = true) : (State.ofCfg c).Bounds :=
  (State.Bounded.of_waiting hwf rfl (Nat.zero_le _) fun p h => by cases h).bounds

theorem ofCfg_synthWf (c : Cfg) : (State.ofCfg c).SynthWf where
  inRange := Nat.two_pow_pos 64
  totalInRange := Nat.two_pow_pos 64
  whenLoaded h := by cases h
  unloaded _ := rfl

/-- Settles O57: every element stands at its reset value, and the configuration behind `State.reset` is well-formed. -/
theorem resetMeetsTheInvariants : Obligations.ResetMeetsTheInvariants := by
  have hmeets : ∀ c : Cfg, c.wf = true → (State.ofCfg c).Timing ∧ (State.ofCfg c).Bounds ∧ (State.ofCfg c).SynthWf :=
    fun c hwf => ⟨ofCfg_timing hwf, ofCfg_bounds hwf, ofCfg_synthWf c⟩
  exact ⟨hmeets Config.cfg Config.cfg_wf, hmeets⟩

end Sys2Proof.Machine
end

section
/-! A step runs what its command word decodes to (spec/30_encoding.md R64, R88, R90): the decoder on one byte, the word
`step` fetches, and the step itself, each said once. -/

namespace Sys2Proof.Machine

/-! ### The command word -/

/-- The opcode column of R90, read back row by row. -/
@[simp] theorem decodeOp_opcode (i : Instr) : decodeOp (opcode i) = some i := by
  cases i <;> rfl

/-- A command is one byte long (R92), so on one byte the decoder is the opcode table. -/
theorem decode_singleton_ok_iff (op : Byte) (i : Instr) : decode [op] = .ok (i, []) ↔ decodeOp op = some i := by
  cases h : decodeOp op <;> simp [decode, h]

theorem tableBytes_eight (w : Nat) : tableBytes 8 w = [BitVec.ofNat 8 w] := by
  simp [tableBytes]

/-! ### The fetch -/

theorem State.fetch_cons {s : State} {c : Command} {rest : List Command} (h : s.port.pending = c :: rest) :
    s.fetch = some c.op := by
  simp [State.fetch, h]

/-- The placed word is the one fetched, whether or not a command was issued before. -/
theorem State.fetch_withFetchWord (s : State) (w : Nat) :
    (s.withFetchWord 8 w).fetch = some (BitVec.ofNat 8 w) := by
  cases h : s.port.pending <;> simp [State.withFetchWord, State.fetch, h, tableBytes_eight]

/-! ### The step -/

/-- The operand record may depend on the whole state; which operation runs depends on the fetched word alone. -/
theorem step_of_fetch {s : State} {op : Byte} {i : Instr} (hfetch : s.fetch = some op)
    (hop : decodeOp op = some i) : step s = exec i s := by
  simp [step, hfetch, decode, hop]

theorem step_idle {s : State} (h : s.port.pending = []) : step s = .next s := by
  simp [step, State.fetch, h]

/-- Settles O3: with a command issued the step is the operation of its word, with none it is idle (R323), and an
opcode placed where the step fetches runs its own operation. -/
theorem stepRunsTheDecodedOperation : Obligations.StepRunsTheDecodedOperation := by
  refine ⟨fun s c rest i hp hd => ?issued, fun s hp => step_idle hp, fun s i => ?placed⟩
  case issued => exact step_of_fetch (State.fetch_cons hp) ((decode_singleton_ok_iff c.op i).1 hd)
  case placed =>
    have hfetch : (s.withFetchWord 8 (opcode i).toNat).fetch = some (opcode i) := by
      rw [State.fetch_withFetchWord, BitVec.ofNat_toNat, BitVec.setWidth_eq]
    exact step_of_fetch hfetch (decodeOp_opcode i)

end Sys2Proof.Machine
end

section
/-! The opcode table both ways (spec/30_encoding.md R90 to R92), and how every operation ends (R88, R89, R24). -/

namespace Sys2Proof.Machine

/-! ### The opcode table -/

/-- An opcode stands for one operation only, row by row of R90. -/
theorem eq_opcode_of_decodeOp {op : Byte} {i : Instr} (h : decodeOp op = some i) : op = opcode i := by
  unfold decodeOp at h
  split at h <;> cases h
  all_goals exact BitVec.eq_of_toNat_eq ‹_›

theorem decodeOp_eq_none {op : Byte} (h : ∀ i : Instr, op ≠ opcode i) : decodeOp op = none :=
  Option.eq_none_iff_forall_ne_some.2 fun i hi => h i (eq_opcode_of_decodeOp hi)

/-- The table lies between the two ranges that R91 names. -/
theorem opcode_range (i : Instr) : 0x10 ≤ (opcode i).toNat ∧ (opcode i).toNat < 0x80 := by
  cases i <;> decide

@[simp] theorem decode_encode_append (i : Instr) (rest : List Byte) : decode (encode i ++ rest) = .ok (i, rest) := by
  simp [encode, decode]

theorem eq_encode_append_of_decode {bs rest : List Byte} {i : Instr} (h : decode bs = .ok (i, rest)) :
    bs = encode i ++ rest := by
  cases bs with
  | nil => cases h
  | cons op tail =>
    cases hop : decodeOp op with
    | none => simp [decode, hop] at h
    | some j =>
      simp only [decode, hop, Except.ok.injEq, Prod.mk.injEq] at h
      obtain ⟨rfl, rfl⟩ := h
      rw [eq_opcode_of_decodeOp hop, encode, List.singleton_append]

theorem decodeTableWord_opcode (i : Instr) : decodeTableWord 8 (opcode i).toNat = some i := by
  rw [decodeTableWord, tableBytes_eight, BitVec.ofNat_toNat, BitVec.setWidth_eq,
    (decode_singleton_ok_iff (opcode i) i).2 (decodeOp_opcode i)]

/-- Settles O1: the opcode column read forwards and backwards. -/
theorem decodeAndEncodeAgree : Obligations.DecodeAndEncodeAgree :=
  ⟨decode_encode_append, fun _ _ _ h => eq_encode_append_of_decode h, decodeTableWord_opcode⟩

/-- Settles O2: each word is the opcode of its row. -/
theorem writtenOutWordsDecode : Obligations.WrittenOutWordsDecode :=
  ⟨decodeOp_opcode .crc16, decodeOp_opcode .rsdec, decodeOp_opcode .fcencb, decodeOp_opcode .gzproc,
    decodeOp_opcode .tone, decodeOp_opcode .trgsetcb, decodeOp_opcode .argmax, decodeOp_opcode .getpayload,
    decodeOp_opcode .getsamples, decodeOp_opcode .demo⟩

/-- A step on an opcode outside the table only answers (R91). -/
theorem step_of_illegal {s : State} {op : Byte} (hfetch : s.fetch = some op) (hop : decodeOp op = none) :
    step s = .next (s.raise (plainFail .illegal)) := by
  simp [step, hfetch, decode, hop]

/-- Settles O4: the decoder rejects what is no opcode, and the refusal writes nothing but the port. -/
theorem illegalOpcodeIsRefused : Obligations.IllegalOpcodeIsRefused := by
  refine ⟨fun s c rest hp hc => ?refused, fun op i hrange hop => ?ranges⟩
  case refused =>
    refine ⟨_, step_of_illegal (State.fetch_cons hp) (decodeOp_eq_none hc), ?_, rfl, rfl, rfl, rfl, rfl⟩
    rw [State.raise_port, hp]
    rfl
  case ranges =>
    have hlisted := opcode_range i
    rw [← hop] at hlisted
    omega

/-! ### How an operation ends -/

/-- Every format `H` operation is a host command (R89). -/
theorem exec_eq_hostOp (i : Instr) (s : State) (hi : i.format = .H) : ∃ body, exec i s = hostOp s body := by
  cases i <;> simp only [Instr.format, reduceCtorEq] at hi <;> simp only [exec] <;> exact ⟨_, rfl⟩

theorem unitOp_status (s : State) (body : Operands → Res Reply) :
    ∃ t a, unitOp s body = .next t ∧ t.port.answer = some a ∧ a.st.toNat ≤ 8 := by
  rcases unitOp_cases s body with ⟨r, _, e⟩ | ⟨f, _, e⟩
  · exact ⟨_, _, e, rfl, Nat.zero_le 8⟩
  · exact ⟨_, _, e, rfl, f.cond.code_range.2⟩

theorem hostOp_status (s : State) (body : Operands → Res (State × Reply)) :
    ∃ t a, hostOp s body = .next t ∧ t.port.answer = some a ∧ a.st.toNat ≤ 8 := by
  rcases hostOp_cases s body with ⟨u, r, _, e⟩ | ⟨f, _, e⟩
  · exact ⟨_, _, e, rfl, Nat.zero_le 8⟩
  · exact ⟨_, _, e, rfl, f.cond.code_range.2⟩

/-- An operation always has a next state, and a status of R311 stands on the port there. -/
theorem exec_status (i : Instr) (s : State) :
    ∃ t a, exec i s = .next t ∧ t.port.answer = some a ∧ a.st.toNat ≤ 8 := by
  cases hf : i.format with
  | U =>
    obtain ⟨body, hb⟩ := exec_eq_unitOp i s hf
    rw [hb]
    exact unitOp_status s body
  | H =>
    obtain ⟨body, hb⟩ := exec_eq_hostOp i s hf
    rw [hb]
    exact hostOp_status s body

/-- What the operations never write: the configuration, and the commands still to come (R24, log 4). -/
structure State.Frame (s u : State) : Prop where
  cfg : u.cfg = s.cfg
  port : u.port = s.port

theorem frame_dmStep {s : State} (u : State) (x : RealVal) (h : s.Frame u) : s.Frame (u.dmStep x).1 := by
  obtain ⟨hcfg, _, hport⟩ := dmStep_frame u x
  exact ⟨hcfg.trans h.cfg, hport.trans h.port⟩

theorem frame_skipRest {s : State} (u : State) (n : Nat) (h : s.Frame u) : s.Frame (u.skipRest n) :=
  ⟨h.cfg, h.port⟩

theorem effect_frame {s u : State} {i : Instr} (h : Effect s i u) : s.Frame u := by
  cases h with
  | keeps | resets | enables => exact ⟨rfl, rfl⟩
  | pushes _ h => exact push_keeps frame_dmStep frame_skipRest ⟨rfl, rfl⟩ h
  | loads h => rw [setPayload_frame h]; exact ⟨rfl, rfl⟩
  | pulls h => rw [getSamples_frame h]; exact ⟨rfl, rfl⟩
  | demos h =>
    obtain ⟨y, chunks, seen, h⟩ := demo_receives h
    have hreset : s.Frame { s.softReset with sy := y } := ⟨rfl, rfl⟩
    exact pushAll_keeps frame_dmStep frame_skipRest hreset h

/-- Settles O5: an operation is an effect, which writes neither the configuration nor the port, and then its answer. -/
theorem everyOperationAnswers : Obligations.EveryOperationAnswers := by
  intro i s
  obtain ⟨t, a, hexec, hanswer, hst⟩ := exec_status i s
  obtain ⟨u, a', hu, rfl⟩ := exec_effect hexec
  obtain rfl : a' = a := Option.some.inj hanswer
  have hframe := effect_frame hu
  refine ⟨_, a', hexec, ?_, hst, hframe.cfg⟩
  rw [State.answerWith_port, hframe.port]

/-! ### Unit operations (R89) -/

/-- A unit operation reads of the state its operands and the configuration only: in two states of one configuration it
has one body. -/
theorem exec_eq_unitOp_of_cfg {i : Instr} {s s' : State} (hi : i.format = .U) (hcfg : s'.cfg = s.cfg) :
    ∃ body, exec i s = unitOp s body ∧ exec i s' = unitOp s' body := by
  obtain ⟨cfg', dm, tr, sy, evt, port⟩ := s'
  obtain rfl : cfg' = s.cfg := hcfg
  cases i <;> simp only [Instr.format, reduceCtorEq] at hi <;> simp only [exec] <;> exact ⟨_, rfl, rfl⟩

/-- The answer of a unit operation is what its body gives on the operands. -/
theorem unitOp_answer (body : Operands → Res Reply) (o : Operands) :
    ∃ a, ∀ s : State, s.operands = o → unitOp s body = .next (s.answerWith a) := by
  cases h : body o with
  | ok r => exact ⟨_, fun s hs => by rw [unitOp_ok (hs ▸ h), State.ret_eq_answerWith]⟩
  | error f => exact ⟨_, fun s hs => by rw [unitOp_error (hs ▸ h), State.raise_eq_answerWith]⟩

theorem answer_of_next_answerWith {s : State} {a b : Answer}
    (h : (.next (s.answerWith a) : Host.Outcome State Fault Refusal) = .next (s.answerWith b)) : a = b := by
  injection h with h
  exact Option.some.inj (congrArg (fun t : State => t.port.answer) h)

theorem exec_unit_answer {i : Instr} {s s' : State} (hi : i.format = .U) (hcfg : s'.cfg = s.cfg)
    (hoperands : s'.operands = s.operands) :
    ∃ a, exec i s = .next (s.answerWith a) ∧ exec i s' = .next (s'.answerWith a) := by
  obtain ⟨body, hb, hb'⟩ := exec_eq_unitOp_of_cfg hi hcfg
  obtain ⟨a, ha⟩ := unitOp_answer body s.operands
  exact ⟨a, hb.trans (ha s rfl), hb'.trans (ha s' hoperands)⟩

/-- Settles O7: two states with one configuration run one body, which answers from the operands. -/
theorem unitOperationsArePure : Obligations.UnitOperationsArePure := by
  intro i s hi
  obtain ⟨a, ha, _⟩ := exec_unit_answer (s := s) hi rfl rfl
  refine ⟨a, ha, fun s' hcfg hoperands => ?_⟩
  obtain ⟨b, hb, hb'⟩ := exec_unit_answer hi hcfg hoperands
  rwa [answer_of_next_answerWith (ha.symm.trans hb)]

end Sys2Proof.Machine
end

section
/-! The arithmetic of GF(16) and polynomials evaluated at the powers of `alpha` (spec/40_gf16_reed_solomon.md R101 to
R105). A point `v` is always written `alphaPow m`, so that its powers are `alphaPow (m * k)`. -/

namespace Sys2Proof.Machine

/-! ### The field -/

/-! `simp` writes the elements 0 and 1 as literals; the units of `gmul` in that spelling. -/

@[simp] theorem gmul_zero_lit (a : Sym) : gmul a 0#4 = 0#4 := gmul_zero a
@[simp] theorem zero_lit_gmul (a : Sym) : gmul 0#4 a = 0#4 := zero_gmul a
@[simp] theorem gmul_one_lit (a : Sym) : gmul a 1#4 = a := gmul_one a
@[simp] theorem one_lit_gmul (a : Sym) : gmul 1#4 a = a := one_gmul a

/-- Exponents are taken modulo 15 (R114). -/
theorem alphaPow_mod (e : Nat) : alphaPow (e % 15) = alphaPow e := by
  rw [alphaPow, alphaPow, Nat.mod_mod]

@[simp] theorem alphaPow_zero : alphaPow 0 = 1 := rfl

/-- The powers of `alpha` are the units (R102). -/
theorem eq_zero_or_alphaPow (a : Sym) : a = 0 ∨ ∃ e : Fin 15, a = alphaPow e := by
  revert a
  decide

theorem alphaPow_ne_zero (e : Nat) : alphaPow e ≠ 0 := by
  have hunits : ∀ e : Fin 15, alphaPow e ≠ 0 := by decide
  rw [← alphaPow_mod]
  exact hunits ⟨e % 15, Nat.mod_lt e (by decide)⟩

/-- `alpha` has order 15. -/
theorem alphaPow_eq_one_iff (e : Nat) : alphaPow e = 1 ↔ e % 15 = 0 := by
  have horder : ∀ e : Fin 15, alphaPow e = 1 ↔ (e : Nat) = 0 := by decide
  rw [← alphaPow_mod]
  exact horder ⟨e % 15, Nat.mod_lt e (by decide)⟩

/-- Exponents add in a product (R102). -/
@[simp] theorem gmul_alphaPow (i j : Nat) : gmul (alphaPow i) (alphaPow j) = alphaPow (i + j) := by
  have htable : ∀ i j : Fin 15, gmul (alphaPow i) (alphaPow j) = alphaPow (i + j : Nat) := by decide
  have h := htable ⟨i % 15, Nat.mod_lt i (by decide)⟩ ⟨j % 15, Nat.mod_lt j (by decide)⟩
  rwa [alphaPow_mod, alphaPow_mod, ← alphaPow_mod (i % 15 + j % 15), ← Nat.add_mod, alphaPow_mod] at h

theorem gmul_comm (a b : Sym) : gmul a b = gmul b a := by
  rcases eq_zero_or_alphaPow a with rfl | ⟨i, rfl⟩
  · rw [zero_gmul, gmul_zero]
  · rcases eq_zero_or_alphaPow b with rfl | ⟨j, rfl⟩
    · rw [zero_gmul, gmul_zero]
    · rw [gmul_alphaPow, gmul_alphaPow, Nat.add_comm]

theorem gmul_assoc (a b c : Sym) : gmul (gmul a b) c = gmul a (gmul b c) := by
  rcases eq_zero_or_alphaPow a with rfl | ⟨i, rfl⟩
  · simp only [zero_gmul]
  · rcases eq_zero_or_alphaPow b with rfl | ⟨j, rfl⟩
    · simp only [zero_gmul, gmul_zero]
    · rcases eq_zero_or_alphaPow c with rfl | ⟨k, rfl⟩
      · simp only [gmul_zero]
      · simp only [gmul_alphaPow, Nat.add_assoc]

/-- A partial product is additive in the multiplier (R102). -/
theorem gfPartial_xor (a b c : Sym) (i : Nat) :
    gfPartial a (b ^^^ c) i = gfPartial a b i ^^^ gfPartial a c i := by
  cases hb : b.getLsbD i <;> cases hc : c.getLsbD i <;> simp [gfPartial, hb, hc]

/-- The reduction of one bit is additive (R102). -/
theorem gfReduceBit_xor (r t : BitVec 7) (i : Nat) :
    gfReduceBit (r ^^^ t) i = gfReduceBit r i ^^^ gfReduceBit t i := by
  have hswap : ∀ x y z : BitVec 7, x ^^^ y ^^^ z = x ^^^ z ^^^ y := fun x y z => by ac_rfl
  have hcancel : ∀ x y z : BitVec 7, x ^^^ y = (x ^^^ z) ^^^ (y ^^^ z) := fun x y z => by
    rw [BitVec.xor_assoc, BitVec.xor_comm z, BitVec.xor_assoc y, BitVec.xor_self, BitVec.xor_zero]
  simp only [gfReduceBit, BitVec.getLsbD_xor]
  cases r.getLsbD i <;> cases t.getLsbD i
  case false.false => rfl
  case false.true => exact BitVec.xor_assoc r t _
  case true.false => exact hswap r t _
  case true.true => exact hcancel r t _

/-- Multiplication distributes over addition. -/
theorem gmul_xor (a b c : Sym) : gmul a (b ^^^ c) = gmul a b ^^^ gmul a c := by
  have hsum : ∀ p q r t p' q' r' t' : BitVec 7,
      (p ^^^ p') ^^^ (q ^^^ q') ^^^ (r ^^^ r') ^^^ (t ^^^ t') =
        (p ^^^ q ^^^ r ^^^ t) ^^^ (p' ^^^ q' ^^^ r' ^^^ t') := by
    intros
    ac_rfl
  simp only [gmul, gfPartial_xor, hsum, gfReduceBit_xor, BitVec.setWidth_xor]

theorem xor_gmul (a b c : Sym) : gmul (a ^^^ b) c = gmul a c ^^^ gmul b c := by
  rw [gmul_comm, gmul_xor, gmul_comm c a, gmul_comm c b]

theorem gmul_ne_zero {a b : Sym} (ha : a ≠ 0) (hb : b ≠ 0) : gmul a b ≠ 0 := by
  obtain ⟨i, rfl⟩ := (eq_zero_or_alphaPow a).resolve_left ha
  obtain ⟨j, rfl⟩ := (eq_zero_or_alphaPow b).resolve_left hb
  rw [gmul_alphaPow]
  exact alphaPow_ne_zero _

/-- The table of inverses (R103). -/
theorem ginv_alphaPow (e : Fin 15) : ginv (alphaPow e) = some (alphaPow (15 - e)) := by
  revert e
  decide

/-- Division undoes a product (R103). -/
theorem gdiv_gmul_cancel {a : Sym} (ha : a ≠ 0) (b : Sym) : gdiv (gmul a b) a = some b := by
  obtain ⟨e, rfl⟩ := (eq_zero_or_alphaPow a).resolve_left ha
  have hinv : gmul (alphaPow e) (alphaPow (15 - e)) = 1 := by
    rw [gmul_alphaPow, alphaPow_eq_one_iff]
    omega
  rw [gdiv, ginv_alphaPow, Option.map_some, gmul_comm _ b, gmul_assoc, hinv, gmul_one]

/-! ### Polynomials at `alpha^m` (R104) -/

theorem polyEval_append (a b : List Sym) (m : Nat) :
    polyEval (a ++ b) (alphaPow m) =
      gmul (polyEval a (alphaPow m)) (alphaPow (m * b.length)) ^^^ polyEval b (alphaPow m) := by
  induction b using List.reverseRecOn with
  | nil => simp
  | append_singleton b x ih =>
    have hpow : alphaPow (m * (b ++ [x]).length) = gmul (alphaPow (m * b.length)) (alphaPow m) := by
      simp [Nat.mul_succ]
    rw [← List.append_assoc, polyEval_append_singleton, polyEval_append_singleton, ih, hpow, xor_gmul, gmul_assoc,
      BitVec.xor_assoc]

theorem polyEval_cons (x : Sym) (l : List Sym) (m : Nat) :
    polyEval (x :: l) (alphaPow m) = gmul x (alphaPow (m * l.length)) ^^^ polyEval l (alphaPow m) := by
  have hx : polyEval [x] (alphaPow m) = x := by simp [polyEval]
  rw [← List.singleton_append, polyEval_append, hx]

theorem polyEval_replicate_zero (p m : Nat) : polyEval (List.replicate p 0) (alphaPow m) = 0 := by
  induction p with
  | zero => rfl
  | succ p ih =>
    rw [List.replicate_succ, polyEval_cons, ih, zero_gmul]
    rfl

theorem polyEval_map_gmul (k : Sym) (l : List Sym) (m : Nat) :
    polyEval (l.map (gmul k)) (alphaPow m) = gmul k (polyEval l (alphaPow m)) := by
  induction l with
  | nil => simp
  | cons x l ih => rw [List.map_cons, polyEval_cons, polyEval_cons, ih, List.length_map, gmul_xor, gmul_assoc]

theorem polyEval_zipWith_xor {a b : List Sym} (h : a.length = b.length) (m : Nat) :
    polyEval (List.zipWith (· ^^^ ·) a b) (alphaPow m) = polyEval a (alphaPow m) ^^^ polyEval b (alphaPow m) := by
  induction a generalizing b with
  | nil =>
    obtain rfl := List.eq_nil_of_length_eq_zero h.symm
    exact BitVec.xor_self.symm
  | cons x a ih =>
    cases b with
    | nil => cases h
    | cons y b =>
      have hlen : a.length = b.length := Nat.succ.inj h
      rw [List.zipWith_cons_cons, polyEval_cons, polyEval_cons, polyEval_cons, ih hlen, List.length_zipWith, hlen,
        Nat.min_self, xor_gmul]
      ac_rfl

/-- A polynomial added into the front of another one is multiplied by the power it is moved up (R108). -/
theorem polyEval_xorFront {xs ys : List Sym} (h : ys.length ≤ xs.length) (m : Nat) :
    polyEval (xorFront xs ys) (alphaPow m) =
      polyEval xs (alphaPow m) ^^^ gmul (polyEval ys (alphaPow m)) (alphaPow (m * (xs.length - ys.length))) := by
  induction xs generalizing ys with
  | nil =>
    obtain rfl := List.eq_nil_of_length_eq_zero (Nat.le_zero.1 h)
    simp [xorFront]
  | cons x xs ih =>
    cases ys with
    | nil => simp [xorFront]
    | cons y ys =>
      have hle : ys.length ≤ xs.length := Nat.le_of_succ_le_succ h
      have hpow : gmul (alphaPow (m * ys.length)) (alphaPow (m * (xs.length - ys.length))) =
          alphaPow (m * xs.length) := by
        rw [gmul_alphaPow, ← Nat.mul_add, Nat.add_sub_cancel' hle]
      rw [xorFront, polyEval_cons, polyEval_cons, polyEval_cons, ih hle, xorFront_length, List.length_cons,
        List.length_cons, Nat.add_sub_add_right, xor_gmul, xor_gmul, gmul_assoc, hpow]
      ac_rfl

/-- An error of value `e` at place `i` adds `e * X_i^m` (R107, R111). -/
theorem polyEval_set_xor {w : List Sym} {i : Nat} (hi : i < w.length) (e : Sym) (m : Nat) :
    polyEval (w.set i (w.getD i 0 ^^^ e)) (alphaPow m) =
      polyEval w (alphaPow m) ^^^ gmul e (alphaPow (m * (w.length - 1 - i))) := by
  induction w generalizing i with
  | nil => cases hi
  | cons x w ih =>
    cases i with
    | zero =>
      simp only [List.getD_cons_zero, List.set_cons_zero, List.length_cons, Nat.add_sub_cancel, Nat.sub_zero]
      rw [polyEval_cons, polyEval_cons, xor_gmul]
      ac_rfl
    | succ i =>
      have hi' : i < w.length := Nat.lt_of_succ_lt_succ hi
      have hplace : (x :: w).length - 1 - (i + 1) = w.length - 1 - i := by rw [List.length_cons]; omega
      rw [List.getD_cons_succ, List.set_cons_succ, polyEval_cons, polyEval_cons, ih hi', List.length_set, hplace,
        BitVec.xor_assoc]

/-! ### The generator polynomial (R105) -/

theorem polyEval_polyMulRoot (c : List Sym) (r : Sym) (m : Nat) :
    polyEval (polyMulRoot c r) (alphaPow m) = gmul (polyEval c (alphaPow m)) (alphaPow m ^^^ r) := by
  rw [polyMulRoot, polyEval_zipWith_xor (by simp), polyEval_append_singleton, polyEval_cons, polyEval_map_gmul,
    gmul_xor, gmul_comm r]
  simp

/-- `alpha^1 .. alpha^P` are roots of `g_P` (R105). -/
theorem polyEval_genPoly {p j : Nat} (hj : j < p) : polyEval (genPoly p) (alphaPow (j + 1)) = 0 := by
  induction p with
  | zero => cases hj
  | succ p ih =>
    rw [genPoly, polyEval_polyMulRoot]
    rcases Nat.lt_succ_iff_lt_or_eq.1 hj with hlt | rfl
    · rw [ih hlt, zero_gmul]
    · rw [BitVec.xor_self]
      exact gmul_zero _

/-- The generator polynomial is monic (R105). -/
theorem genPoly_monic (p : Nat) : genPoly p = 1 :: (genPoly p).tail := by
  induction p with
  | zero => rfl
  | succ p ih =>
    rw [genPoly, ih]
    rfl

end Sys2Proof.Machine
end

section
/-! The code words that `RSENC` gives, and one wrong symbol at `P = 2` in the decoder of R111
(spec/40_gf16_reed_solomon.md R106 to R108, R110, R111). -/

namespace Sys2Proof.Machine

/-! ### Code words (R106, R107, R108) -/

theorem isCodeword_iff {word : List Sym} {p : Nat} :
    isCodeword word p = true ↔ ∀ j < p, polyEval word (alphaPow (j + 1)) = 0 := by
  simp [isCodeword, syndromes]

/-- A step of the division takes away a multiple of the divisor, so at a root of the divisor nothing changes (R108). -/
theorem polyEval_divisionStep {t rest : List Sym} {m : Nat} (hroot : polyEval (1 :: t) (alphaPow m) = 0)
    (h : t.length ≤ rest.length) (c : Sym) :
    polyEval (xorFront rest (t.map (gmul c))) (alphaPow m) = polyEval (c :: rest) (alphaPow m) := by
  have ht : polyEval t (alphaPow m) = alphaPow (m * t.length) := by
    rw [polyEval_cons, one_gmul] at hroot
    exact (BitVec.xor_eq_zero_iff.1 hroot).symm
  have hpow : gmul (alphaPow (m * t.length)) (alphaPow (m * (rest.length - t.length))) =
      alphaPow (m * rest.length) := by
    rw [gmul_alphaPow, ← Nat.mul_add, Nat.add_sub_cancel' h]
  rw [polyEval_xorFront (by rwa [List.length_map]), polyEval_map_gmul, List.length_map, ht, gmul_assoc, hpow,
    polyEval_cons, BitVec.xor_comm]

/-- The remainder has the value of the dividend at every root of the divisor (R108). -/
theorem polyEval_rsDivide {t rem : List Sym} {m d : Nat} (hroot : polyEval (1 :: t) (alphaPow m) = 0)
    (h : d + t.length ≤ rem.length) :
    polyEval (rsDivide (1 :: t) d rem) (alphaPow m) = polyEval rem (alphaPow m) := by
  induction d generalizing rem with
  | zero => cases rem <;> rfl
  | succ d ih =>
    cases rem with
    | nil => rfl
    | cons c rest =>
      have hrest : d + t.length ≤ rest.length := by rw [List.length_cons] at h; omega
      rw [rsDivide, List.tail_cons, ih (by rwa [xorFront_length]), polyEval_divisionStep hroot (by omega)]

/-- What `RSENC` gives is a code word (R106, R108). -/
theorem isCodeword_rsEnc (data : List Sym) (p : Nat) : isCodeword (rsEnc data p) p = true := by
  refine isCodeword_iff.2 fun j hj => ?_
  have htail : (genPoly p).tail.length = p := by rw [List.length_tail, genPoly_length, Nat.add_sub_cancel]
  have hparity : polyEval (rsParity data p) (alphaPow (j + 1)) =
      polyEval (data ++ List.replicate p 0) (alphaPow (j + 1)) := by
    rw [rsParity, genPoly_monic]
    refine polyEval_rsDivide ?_ ?_
    · rw [← genPoly_monic, polyEval_genPoly hj]
    · rw [htail, List.length_append, List.length_replicate]
  have hlen : (rsParity data p).length = p := by
    have h := rsEnc_length data p
    rw [rsEnc, List.length_append] at h
    omega
  have hshift : polyEval (data ++ List.replicate p 0) (alphaPow (j + 1)) =
      gmul (polyEval data (alphaPow (j + 1))) (alphaPow ((j + 1) * p)) := by
    rw [polyEval_append, polyEval_replicate_zero, List.length_replicate]
    exact BitVec.xor_zero
  rw [rsEnc, polyEval_append, hparity, hshift, hlen]
  exact BitVec.xor_self

/-- The decoder of R111 where every one of its tests passes. -/
theorem rsDec_of_tests {word cw : List Sym} {p : Nat} {st : BmState}
    (hsyn : (syndromes word p).all (· == 0) = false) (hbm : berlekampMassey (syndromes word p) = some st)
    (hl : st.l ≤ p / 2) (hdeg : lowDegree st.lam = st.l) (hpos : (chien st.lam word.length).length = st.l)
    (hfix : (chien st.lam word.length).foldlM
      (forneyAt ((lowMul (syndromes word p) st.lam).take p) (lowDeriv st.lam) word.length) word = some cw)
    (hc : isCodeword cw p = true) : rsDec word p = some (cw, st.l) := by
  have hradius : ¬(p / 2 < st.l ∨ lowDegree st.lam ≠ st.l) := by simp [hl, hdeg]
  simp only [rsDec, hsyn, hbm, hpos, hfix, hc, if_neg hradius, Bool.false_eq_true, if_false, if_true, ne_eq,
    not_true_eq_false]

/-! ### One wrong symbol at `P = 2` (R110, R111) -/

section
variable {sy : List Sym} {st : BmState} {k : Nat} {q : Sym}

/-! The three ways of one step of the loop of R111. -/

theorem bmStep_agrees (hd : bmDiscrepancy sy st k = 0) : bmStep sy st k = some { st with m := st.m + 1 } := by
  rw [bmStep, if_pos hd]

theorem bmStep_grows (hd : bmDiscrepancy sy st k ≠ 0) (hq : gdiv (bmDiscrepancy sy st k) st.b = some q)
    (hl : 2 * st.l ≤ k) : bmStep sy st k = some
      { lam := lowAdd st.lam (lowScaleShift q st.m st.bp), bp := st.lam, l := k + 1 - st.l, m := 1,
        b := bmDiscrepancy sy st k } := by
  rw [bmStep, if_neg hd, hq]
  exact if_pos hl

theorem bmStep_corrects (hd : bmDiscrepancy sy st k ≠ 0) (hq : gdiv (bmDiscrepancy sy st k) st.b = some q)
    (hl : ¬2 * st.l ≤ k) :
    bmStep sy st k = some { st with lam := lowAdd st.lam (lowScaleShift q st.m st.bp), m := st.m + 1 } := by
  rw [bmStep, if_neg hd, hq]
  exact if_neg hl

end

/-- The loop of R111 after the first of two syndromes, for a first syndrome `s` other than 0. -/
def bmAfterFirst (s : Sym) : BmState := { lam := [1, s], bp := [1], l := 1, m := 1, b := s }

theorem bmStep_first {s : Sym} (hs : s ≠ 0) (s2 : Sym) : bmStep [s, s2] bmInit 0 = some (bmAfterFirst s) := by
  have hd : bmDiscrepancy [s, s2] bmInit 0 = s := rfl
  have hq : gdiv s 1 = some s := by
    have h := gdiv_gmul_cancel (a := 1) (by decide) s
    rwa [one_gmul] at h
  rw [bmStep_grows (q := s) (hd ▸ hs) (by rw [hd]; exact hq) (by decide), hd]
  simp [bmInit, bmAfterFirst, lowAdd, lowScaleShift]

/-- Two syndromes `s` and `s * X` with `s ≠ 0` are those of one error at the place with locator `X`: the loop finds the
error locator polynomial `1 + X * x`. -/
theorem berlekampMassey_one_error {s : Sym} (hs : s ≠ 0) (X : Sym) :
    ∃ st, berlekampMassey [s, gmul s X] = some st ∧ st.lam = [1, X] ∧ st.l = 1 := by
  have hrun : berlekampMassey [s, gmul s X] = bmStep [s, gmul s X] (bmAfterFirst s) 1 := by
    simp [berlekampMassey, List.range_succ, bmStep_first hs]
  have hd : bmDiscrepancy [s, gmul s X] (bmAfterFirst s) 1 = gmul s (X ^^^ s) := by
    simp [bmDiscrepancy, bmAfterFirst, gmul_xor]
  rw [hrun]
  by_cases hX : X ^^^ s = 0
  · obtain rfl : X = s := BitVec.xor_eq_zero_iff.1 hX
    exact ⟨_, bmStep_agrees (by rw [hd, hX, gmul_zero]), rfl, rfl⟩
  · have hne : gmul s (X ^^^ s) ≠ 0 := gmul_ne_zero hs hX
    have hq : gdiv (gmul s (X ^^^ s)) (bmAfterFirst s).b = some (X ^^^ s) := gdiv_gmul_cancel hs _
    have hlam : lowAdd (bmAfterFirst s).lam (lowScaleShift (X ^^^ s) 1 [1]) = [1, X] := by
      have hsum : s ^^^ (X ^^^ s) = X := by
        rw [BitVec.xor_comm X, ← BitVec.xor_assoc, BitVec.xor_self, BitVec.zero_xor]
      simp [bmAfterFirst, lowAdd, lowScaleShift, hsum]
    exact ⟨_, bmStep_corrects (hd ▸ hne) (by rw [hd]; exact hq)
      (Nat.lt_irrefl 1 ∘ Nat.lt_of_succ_le), hlam, rfl⟩

theorem locator_eq (n i : Nat) : locator n i = alphaPow (n - 1 - i) := rfl

theorem locator_ne_zero (n i : Nat) : locator n i ≠ 0 := alphaPow_ne_zero _

/-- The search finds the one place with locator `X` (R111). -/
theorem chien_one_error {n i : Nat} (hn : n ≤ 15) (hi : i < n) : chien [1, locator n i] n = [i] := by
  have hroot : ∀ j ∈ List.range n, (lowEval [1, locator n i] (locatorInv n j) == 0) = (j == i) := by
    intro j hj
    have hjn : j < n := List.mem_range.1 hj
    have hval : lowEval [1, locator n i] (locatorInv n j) =
        1 ^^^ alphaPow (15 - (n - 1 - j) % 15 + (n - 1 - i)) := by
      simp [lowEval, locator, locatorInv]
    have hzero : lowEval [1, locator n i] (locatorInv n j) = 0 ↔
        alphaPow (15 - (n - 1 - j) % 15 + (n - 1 - i)) = 1 := by
      rw [hval]
      exact BitVec.xor_eq_zero_iff.trans eq_comm
    rw [Bool.eq_iff_iff, beq_iff_eq, beq_iff_eq, hzero, alphaPow_eq_one_iff]
    omega
  rw [chien, List.filter_congr hroot, List.filter_beq, List.count_range, if_pos hi]
  rfl

/-- The correction of the one wrong symbol, of value `e` at the place with locator `X` (R111). -/
theorem forneyAt_one_error {n i : Nat} {e : Sym} (he : e ≠ 0) (cw : List Sym) :
    forneyAt [gmul (locator n i) e, 0] [locator n i] n cw i = some (cw.set i (cw.getD i 0 ^^^ e)) := by
  have hom : lowEval [gmul (locator n i) e, 0] (locatorInv n i) = gmul (locator n i) e := by simp [lowEval]
  have hdl : lowEval [locator n i] (locatorInv n i) = locator n i := by simp [lowEval]
  rw [forneyAt, hom, hdl, gdiv_gmul_cancel (locator_ne_zero n i)]
  exact if_neg he

/-- The syndromes of a code word with one error of value `e` at place `i` (R107, R111). -/
theorem syndromes_one_error {cw : List Sym} {i : Nat} (hc : isCodeword cw 2 = true) (hi : i < cw.length) (e : Sym) :
    syndromes (cw.set i (cw.getD i 0 ^^^ e)) 2 =
      [gmul (locator cw.length i) e, gmul (gmul (locator cw.length i) e) (locator cw.length i)] := by
  have hsyn : ∀ j < 2, polyEval (cw.set i (cw.getD i 0 ^^^ e)) (alphaPow (j + 1)) =
      gmul e (alphaPow ((j + 1) * (cw.length - 1 - i))) := fun j hj => by
    rw [polyEval_set_xor hi, isCodeword_iff.1 hc j hj]
    exact BitVec.zero_xor
  have hfirst := hsyn 0 (by decide)
  have hsecond := hsyn 1 (by decide)
  have htwo : alphaPow ((1 + 1) * (cw.length - 1 - i)) = gmul (locator cw.length i) (locator cw.length i) := by
    rw [locator_eq, gmul_alphaPow, Nat.add_mul, Nat.one_mul]
  rw [Nat.zero_add, Nat.one_mul, ← locator_eq, gmul_comm] at hfirst
  rw [htwo, ← gmul_assoc, gmul_comm e] at hsecond
  have hrange : List.range 2 = [0, 1] := rfl
  rw [syndromes, hrange, List.map_cons, List.map_cons, List.map_nil, hfirst, hsecond]

/-- The error evaluator of one error (R111). -/
theorem lowMul_one_error (s X : Sym) : (lowMul [s, gmul s X] [1, X]).take 2 = [s, 0] := by
  simp [lowMul, lowAdd]

theorem lowDegree_one_error {X : Sym} (hX : X ≠ 0) : lowDegree [1, X] = 1 := by
  have hX' : X ≠ 0#4 := hX
  simp [lowDegree, hX']

theorem set_xor_set_xor {w : List Sym} {i : Nat} (hi : i < w.length) (e : Sym) :
    (w.set i (w.getD i 0 ^^^ e)).set i ((w.set i (w.getD i 0 ^^^ e)).getD i 0 ^^^ e) = w := by
  rw [List.set_set, List.getD_eq_getElem _ _ (by rwa [List.length_set]), List.getElem_set_self,
    List.getD_eq_getElem _ _ hi, BitVec.xor_assoc, BitVec.xor_self, BitVec.xor_zero, List.set_getElem_self]

/-- One wrong symbol of a code word is put right and counted (R110 at `P = 2`). -/
theorem rsDec_one_error {cw : List Sym} {i : Nat} {e : Sym} (hc : isCodeword cw 2 = true) (hlen : cw.length ≤ 15)
    (hi : i < cw.length) (he : e ≠ 0) : rsDec (cw.set i (cw.getD i 0 ^^^ e)) 2 = some (cw, 1) := by
  have hX : locator cw.length i ≠ 0 := locator_ne_zero cw.length i
  have hs : gmul (locator cw.length i) e ≠ 0 := gmul_ne_zero hX he
  have hsyn := syndromes_one_error hc hi e
  obtain ⟨st, hbm, hlam, hl⟩ := berlekampMassey_one_error hs (locator cw.length i)
  have hpos := chien_one_error hlen hi
  have hfix := forneyAt_one_error (n := cw.length) (i := i) he (cw.set i (cw.getD i 0 ^^^ e))
  rw [set_xor_set_xor hi] at hfix
  rw [← hl]
  refine rsDec_of_tests ?syndromes (hsyn ▸ hbm) ?radius ?degree ?places ?values hc
  case syndromes => rw [hsyn, List.all_cons, beq_eq_false_iff_ne.2 hs, Bool.false_and]
  case radius => rw [hl]
  case degree => rw [hlam, hl, lowDegree_one_error hX]
  case places => rw [hlam, List.length_set, hpos, hl, List.length_singleton]
  case values =>
    rw [hsyn, hlam, List.length_set, hpos, lowMul_one_error, List.foldlM_cons, lowDeriv, List.tail_cons]
    exact congrArg (· >>= pure) hfix

end Sys2Proof.Machine
end

section
/-! Streams of one block (spec/42_frame_codec.md R131, R142, R143, R146), and the header as one (R80, R134, R135). -/

namespace Sys2Proof.Machine

/-! ### Bytes and symbols (R130) -/

/-- Two nibbles of a byte make the byte (R130). -/
theorem s2b_b2s (bs : List Byte) : s2b (b2s bs) = bs := by
  induction bs with
  | nil => rfl
  | cons b bs ih =>
    have hcons : b2s (b :: bs) = b.extractLsb' 4 4 :: b.extractLsb' 0 4 :: b2s bs := rfl
    have hbyte : b.extractLsb' 4 4 ++ b.extractLsb' 0 4 = b :=
      (BitVec.extractLsb'_append_extractLsb'_eq_extractLsb' rfl).trans BitVec.extractLsb'_eq_self
    rw [hcons, s2b, ih, hbyte]

/-! ### One block (R131, R142, R143) -/

section
variable {α : Type} {l : List α} {n b : Nat}

theorem ceilDiv_of_le (hn : 0 < n) (h : n ≤ b) : ceilDiv n b = 1 := by
  refine Nat.le_antisymm ((ceilDiv_le_iff (by omega)).2 (by omega)) ?_
  by_contra hzero
  have hle : ceilDiv n b ≤ 0 := by omega
  have hnil := (ceilDiv_le_iff (by omega)).1 hle
  omega

theorem blocksOf_of_le {l : List Sym} (hl : 0 < l.length) (h : l.length ≤ b) : blocksOf b l = [l] := by
  simp [blocksOf, ceilDiv_of_le hl h, List.take_of_length_le h]

theorem flatMap_range_below (n k : Nat) :
    ((List.range (n + k)).flatMap fun j => if j < n then [j] else []) = List.range n := by
  induction k with
  | zero =>
    have hall : ∀ j ∈ List.range n, (if j < n then [j] else []) = [j] := fun j hj => if_pos (List.mem_range.1 hj)
    rw [Nat.add_zero, List.flatMap_congr hall, List.flatMap_singleton']
  | succ k ih =>
    have hlast : ¬n + k < n := by omega
    rw [← Nat.add_assoc, List.range_succ, List.flatMap_append, ih, List.flatMap_singleton, if_neg hlast,
      List.append_nil]

/-- A stream of one block is read in its own order (R142). -/
theorem ilvOrder_of_le (hb : 0 < b) (h : n ≤ b) : ilvOrder n b = List.range n := by
  have hcol : ∀ j ∈ List.range b,
      ((List.range (ceilDiv (n - j) b)).map fun i => i * b + j) = if j < n then [j] else [] := by
    intro j _
    split
    · rw [ceilDiv_of_le (by omega) (by omega)]
      simp
    · have hnone : ceilDiv (n - j) b = 0 := Nat.le_zero.1 ((ceilDiv_le_iff hb).2 (by omega))
      rw [hnone]
      rfl
  rw [ilvOrder, List.flatMap_congr hcol, ← Nat.add_sub_cancel' h, flatMap_range_below]

theorem ilv_of_le (hb : 0 < b) (h : l.length ≤ b) : ilv l b = l := by
  rw [ilv, ilvOrder_of_le hb h, filterMap_range_getElem?]

/-- Symbols written where they already stand change nothing. -/
theorem foldl_set_eq_self {cts : List (Nat × α)} (h : ∀ ct ∈ cts, l[ct.1]? = some ct.2) :
    cts.foldl (fun out ct => out.set ct.1 ct.2) l = l := by
  induction cts with
  | nil => rfl
  | cons ct cts ih =>
    obtain ⟨hlt, hget⟩ := List.getElem?_eq_some_iff.1 (h ct List.mem_cons_self)
    rw [List.foldl_cons, ← hget, List.set_getElem_self]
    exact ih fun ct' hmem => h ct' (List.mem_cons_of_mem ct hmem)

theorem dilv_of_le (hb : 0 < b) (h : l.length ≤ b) : dilv l b = l := by
  rw [dilv, ilvOrder_of_le hb h]
  refine foldl_set_eq_self fun ct hmem => ?_
  obtain ⟨k, hk⟩ := List.mem_iff_getElem?.1 hmem
  obtain ⟨hindex, hsym⟩ := List.getElem?_zip_eq_some.1 hk
  obtain ⟨_, hct⟩ := List.getElem?_eq_some_iff.1 hindex
  rwa [← hct, List.getElem_range]

end

/-- A payload that fills one block at most is coded as it is, without interleave (R145). -/
theorem fcEncode_one_block {payload : List Byte} {b p : Nat} {crc : Bool}
    (hdata : 0 < (b2s (withCrc payload crc)).length) (h : (b2s (withCrc payload crc)).length ≤ b - p) :
    fcEncode payload b p crc = rsEnc (b2s (withCrc payload crc)) p := by
  rw [fcEncode, blocksOf_of_le hdata h, List.flatMap_singleton]
  exact ilv_of_le (by omega) (by rw [rsEnc_length]; omega)

/-- A stream of one block without CRC decodes as its block does (R146). -/
theorem fcDec_one_block {syms cw : List Sym} {b p n : Nat} (hok : fcDecOk syms.length b p false = true)
    (hsyms : 0 < syms.length) (h : syms.length ≤ b) (hcw : rsDec syms p = some (cw, n)) :
    fcDec syms b p false = .done (s2b (cw.take (syms.length - p))) n := by
  have hblocks : decodeBlocks p (blocksOf b (dilv syms b)) 0 [] = .inr (n, cw.take (syms.length - p)) := by
    rw [dilv_of_le (by omega) h, blocksOf_of_le hsyms h, decodeBlocks_cons_some hcw, decodeBlocks, Nat.zero_add,
      List.nil_append]
  simp [fcDec, hok, hblocks]

/-! ### The header (R80, R134, R135) -/

/-- The transmitted header is one code word of the three header bytes (R80, R135). -/
theorem headerSyms_eq (len level : Nat) (crc : Bool) : headerSyms len level crc =
    rsEnc (b2s (hdrEnc (BitVec.ofNat 8 len) (BitVec.ofNat 2 level) crc)) 2 := by
  have hlen : (b2s (withCrc (hdrEnc (BitVec.ofNat 8 len) (BitVec.ofNat 2 level) crc) false)).length = 6 := by
    rw [b2s_length, withCrc_length, hdrEnc_length]
    rfl
  exact fcEncode_one_block (by omega) hlen.le

theorem headerSyms_length (len level : Nat) (crc : Bool) : (headerSyms len level crc).length = 8 := by
  rw [headerSyms_eq, rsEnc_length, b2s_length, hdrEnc_length]

/-- Eight symbols that decode to the header's code word decode to its three bytes (R134, R146). -/
theorem fcDec_header {hs : List Sym} {len level n : Nat} {crc : Bool} (hlen : hs.length = 8)
    (h : rsDec hs 2 = some (headerSyms len level crc, n)) :
    fcDec hs 8 2 false = .done (hdrEnc (BitVec.ofNat 8 len) (BitVec.ofNat 2 level) crc) n := by
  have hbytes : s2b ((headerSyms len level crc).take (hs.length - 2)) =
      hdrEnc (BitVec.ofNat 8 len) (BitVec.ofNat 2 level) crc := by
    rw [headerSyms_eq, rsEnc, List.take_left' (by rw [b2s_length, hdrEnc_length, hlen]), s2b_b2s]
  rw [fcDec_one_block (by rw [hlen]; decide) (by omega) hlen.le h, hbytes]

/-- The second header byte holds level and flag (R78). -/
theorem headerByte_fields (level : BitVec 2) (crc : Bool) :
    ((BitVec.ofBool crc).setWidth 8 <<< 3 ||| level.setWidth 8 : Byte).extractLsb' 0 2 = level ∧
      ((BitVec.ofBool crc).setWidth 8 <<< 3 ||| level.setWidth 8 : Byte).getLsbD 3 = crc := by
  revert level crc
  decide

/-- `HDRDEC` reads back what `HDRENC` wrote, for a level of the table (R133, R134). -/
theorem hdrDec_hdrEnc {c : Cfg} {len : Byte} {level : BitVec 2} {crc : Bool} (h : level.toNat < c.nlev) :
    hdrDec c (hdrEnc len level crc) = .ok { len := len, level := level, crc := crc } := by
  obtain ⟨hlevel, hcrc⟩ := headerByte_fields level crc
  simp only [hdrDec, hdrEnc, ne_eq, not_true_eq_false, if_false, hlevel, hcrc]
  exact if_neg (Nat.not_le.2 h)

/-- Sequences that differ in one place only differ there by an error that is not 0. -/
theorem eq_set_xor_of_differOnlyAt {a b : List Sym} {i : Nat} (h : DifferOnlyAt a b i) :
    i < b.length ∧ ∃ e, e ≠ 0 ∧ a = b.set i (b.getD i 0 ^^^ e) := by
  obtain ⟨hlen, hdiff, hsame⟩ := h
  have hi : i < b.length := by
    by_contra hout
    rw [List.getElem?_eq_none (by omega), List.getElem?_eq_none (by omega)] at hdiff
    exact hdiff rfl
  have hia : i < a.length := hlen ▸ hi
  refine ⟨hi, b.getD i 0 ^^^ a.getD i 0, ?_, ?_⟩
  · intro hzero
    have heq : b.getD i 0 = a.getD i 0 := BitVec.xor_eq_zero_iff.1 hzero
    rw [List.getD_eq_getElem _ _ hi, List.getD_eq_getElem _ _ hia] at heq
    rw [List.getElem?_eq_getElem hi, List.getElem?_eq_getElem hia, heq] at hdiff
    exact hdiff rfl
  · refine List.ext_getElem? fun j => ?_
    rw [← BitVec.xor_assoc, BitVec.xor_self, BitVec.zero_xor, List.getElem?_set]
    split
    · next hij => rw [← hij, List.getD_eq_getElem _ _ hia, List.getElem?_eq_getElem hia]
    · next hij => exact hsame j (Ne.symm hij)

/-- Settles O25: the transmitted header is a code word, which the decoder gives back as it is, and from any word one
wrong symbol away. -/
theorem headerSurvivesOneWrongSymbol : Obligations.HeaderSurvivesOneWrongSymbol := by
  intro c len level crc hwf _ hlevel
  have hlen := headerSyms_length len level crc
  have hc : isCodeword (headerSyms len level crc) 2 = true := headerSyms_eq len level crc ▸ isCodeword_rsEnc _ 2
  refine ⟨?intact, ?fields, fun hs i hdiff => ?wrong⟩
  case intact => exact fcDec_header hlen (rsDec_of_isCodeword hc)
  case fields =>
    obtain ⟨_, hfour, _⟩ := Cfg.nlev_range hwf
    refine hdrDec_hdrEnc ?_
    rwa [BitVec.toNat_ofNat, Nat.mod_eq_of_lt (by omega)]
  case wrong =>
    obtain ⟨hi, e, he, rfl⟩ := eq_set_xor_of_differOnlyAt hdiff
    exact fcDec_header (by rw [List.length_set, hlen]) (rsDec_one_error hc (by omega) hi he)

end Sys2Proof.Machine
end

section
/-! The key equation `lam * S = om` modulo a power of `x`, over any field, and the pair of solutions the loop of R111
carries: the present one, and an earlier one that fails at the present power. -/

namespace Sys2Proof.Machine

section
open Polynomial
variable {K : Type} [Field K] {f g S lam om be ga : K[X]} {b q : K} {a k l l' : ℕ}

theorem natDegree_le_of_mem_degreeLT (hf : f ∈ degreeLT K (a + 1)) : f.natDegree ≤ a :=
  natDegree_le_of_degree_le (Order.le_of_lt_succ (by exact_mod_cast mem_degreeLT.1 hf))

theorem mul_mem_degreeLT (hf : f ∈ degreeLT K (a + 1)) (hg : g ∈ degreeLT K k) : f * g ∈ degreeLT K (a + k) := by
  rcases eq_or_ne g 0 with rfl | hg0
  · rw [mul_zero]
    exact Submodule.zero_mem _
  · rw [mem_degreeLT] at hf hg ⊢
    rw [degree_eq_natDegree hg0, Nat.cast_lt] at hg
    have hfle : f.natDegree ≤ a := natDegree_le_of_degree_le (Order.le_of_lt_succ (by exact_mod_cast hf))
    refine lt_of_le_of_lt (degree_le_of_natDegree_le natDegree_mul_le) ?_
    exact_mod_cast Nat.add_lt_add_of_le_of_lt hfle hg

theorem X_mul_mem_degreeLT (hf : f ∈ degreeLT K k) : X * f ∈ degreeLT K (k + 1) := by
  rw [Nat.add_comm]
  exact mul_mem_degreeLT (mem_degreeLT.2 (by rw [degree_X]; exact Nat.one_lt_ofNat)) hf

theorem coeff_of_mem_degreeLT (hf : f ∈ degreeLT K k) {i : ℕ} (hi : k ≤ i) : f.coeff i = 0 :=
  coeff_eq_zero_of_degree_lt (lt_of_lt_of_le (mem_degreeLT.1 hf) (by exact_mod_cast hi))

/-- After `k` syndromes: `(lam, om)` solves the key equation modulo `x^k` with length `l`, and `(be, ga)` of length `l'`
misses it by `b` at the power `k` alone. -/
structure KeyPairs (S lam om be ga : K[X]) (b : K) (k l l' : ℕ) : Prop where
  lengths : l + l' = k + 1
  before : 0 < l'
  lamDegree : lam ∈ degreeLT K (l + 1)
  omDegree : om ∈ degreeLT K l
  beDegree : be ∈ degreeLT K (l' + 1)
  gaDegree : ga ∈ degreeLT K l'
  lamUnit : lam.coeff 0 = 1
  beShifted : X ∣ be
  missNonzero : b ≠ 0
  solves : X ^ k ∣ lam * S - om
  misses : X ^ (k + 1) ∣ be * S - ga - C b * X ^ k

/-- The start of the loop: `1 * S = 0` modulo `x^0`, and `x * S = -1` misses by 1. -/
theorem keyPairs_init (S : K[X]) : KeyPairs S 1 0 X (-1) 1 0 0 1 where
  lengths := rfl
  before := Nat.one_pos
  lamDegree := mem_degreeLT.2 (by rw [degree_one]; exact Nat.cast_lt.2 Nat.one_pos)
  omDegree := Submodule.zero_mem _
  beDegree := mem_degreeLT.2 (by rw [degree_X]; exact Nat.one_lt_ofNat)
  gaDegree := mem_degreeLT.2 (by rw [degree_neg, degree_one]; exact Nat.cast_lt.2 Nat.one_pos)
  lamUnit := coeff_one_zero
  beShifted := dvd_rfl
  missNonzero := one_ne_zero
  solves := one_dvd _
  misses := ⟨S, by rw [C_1]; ring⟩

namespace KeyPairs

/-- The present solution misses the next power by the discrepancy alone. -/
theorem solves_next (h : KeyPairs S lam om be ga b k l l') :
    X ^ (k + 1) ∣ lam * S - om - C ((lam * S).coeff k) * X ^ k := by
  have hlk : l ≤ k := by have := h.lengths; have := h.before; omega
  refine X_pow_dvd_iff.2 fun i hi => ?_
  rw [coeff_sub, coeff_C_mul_X_pow]
  rcases Nat.lt_succ_iff_lt_or_eq.1 hi with hlt | rfl
  · rw [X_pow_dvd_iff.1 h.solves i hlt, if_neg hlt.ne, sub_zero]
  · rw [if_pos rfl, coeff_sub, coeff_of_mem_degreeLT h.omDegree hlk, sub_zero, sub_self]

/-- A pair that misses one power misses the next one when it is moved up. -/
theorem misses_shift {c : K} (h : X ^ (k + 1) ∣ f * S - g - C c * X ^ k) :
    X ^ (k + 1 + 1) ∣ X * f * S - X * g - C c * X ^ (k + 1) := by
  have hfactor : X * f * S - X * g - C c * X ^ (k + 1) = X * (f * S - g - C c * X ^ k) := by ring
  rw [hfactor, pow_succ']
  exact mul_dvd_mul_left X h

/-- No discrepancy: the solution stays, the earlier one moves up. -/
theorem agree (h : KeyPairs S lam om be ga b k l l') (hd : (lam * S).coeff k = 0) :
    KeyPairs S lam om (X * be) (X * ga) b (k + 1) l (l' + 1) where
  lengths := congrArg (· + 1) h.lengths
  before := Nat.succ_pos l'
  lamDegree := h.lamDegree
  omDegree := h.omDegree
  beDegree := X_mul_mem_degreeLT h.beDegree
  gaDegree := X_mul_mem_degreeLT h.gaDegree
  lamUnit := h.lamUnit
  beShifted := dvd_mul_right X be
  missNonzero := h.missNonzero
  solves := by simpa [hd] using h.solves_next
  misses := misses_shift h.misses

section
variable (h : KeyPairs S lam om be ga b k l l')
include h

/-- The multiple of the earlier pair that takes the discrepancy away. -/
theorem solves_corrected (hq : (lam * S).coeff k + q * b = 0) :
    X ^ (k + 1) ∣ (lam + C q * be) * S - (om + C q * ga) := by
  have hsum : (lam + C q * be) * S - (om + C q * ga) =
      (lam * S - om - C ((lam * S).coeff k) * X ^ k) + C q * (be * S - ga - C b * X ^ k) +
        C ((lam * S).coeff k + q * b) * X ^ k := by
    rw [C_add, C_mul]
    ring
  rw [hsum, hq, C_0, zero_mul, add_zero]
  exact dvd_add h.solves_next (h.misses.mul_left _)

theorem corrected_unit : (lam + C q * be).coeff 0 = 1 := by
  rw [coeff_add, coeff_C_mul, X_dvd_iff.1 h.beShifted, mul_zero, add_zero, h.lamUnit]

/-- A discrepancy that the present length can take. -/
theorem correct (hq : (lam * S).coeff k + q * b = 0) (hl : l' ≤ l) :
    KeyPairs S (lam + C q * be) (om + C q * ga) (X * be) (X * ga) b (k + 1) l (l' + 1) where
  lengths := congrArg (· + 1) h.lengths
  before := Nat.succ_pos l'
  lamDegree := add_mem h.lamDegree
    (C_mul' q be ▸ Submodule.smul_mem _ q (degreeLT_mono (Nat.succ_le_succ hl) h.beDegree))
  omDegree := add_mem h.omDegree (C_mul' q ga ▸ Submodule.smul_mem _ q (degreeLT_mono hl h.gaDegree))
  beDegree := X_mul_mem_degreeLT h.beDegree
  gaDegree := X_mul_mem_degreeLT h.gaDegree
  lamUnit := h.corrected_unit
  beShifted := dvd_mul_right X be
  missNonzero := h.missNonzero
  solves := h.solves_corrected hq
  misses := misses_shift h.misses

/-- A discrepancy that needs the longer length: the present solution becomes the earlier one. -/
theorem grow (hq : (lam * S).coeff k + q * b = 0) (hd : (lam * S).coeff k ≠ 0) (hl : l ≤ l') :
    KeyPairs S (lam + C q * be) (om + C q * ga) (X * lam) (X * om) ((lam * S).coeff k) (k + 1) l' (l + 1) where
  lengths := by have := h.lengths; omega
  before := Nat.succ_pos l
  lamDegree := add_mem (degreeLT_mono (Nat.succ_le_succ hl) h.lamDegree)
    (C_mul' q be ▸ Submodule.smul_mem _ q h.beDegree)
  omDegree := add_mem (degreeLT_mono hl h.omDegree) (C_mul' q ga ▸ Submodule.smul_mem _ q h.gaDegree)
  beDegree := X_mul_mem_degreeLT h.lamDegree
  gaDegree := X_mul_mem_degreeLT h.omDegree
  lamUnit := h.corrected_unit
  beShifted := dvd_mul_right X lam
  missNonzero := hd
  solves := h.solves_corrected hq
  misses := misses_shift h.solves_next

end

section
variable {Lam Om : K[X]} {n : ℕ} (h : KeyPairs S lam om be ga b k l l') (hLam : Lam ∈ degreeLT K (n + 1))
  (hOm : Om ∈ degreeLT K n) (hsol : X ^ k ∣ Lam * S - Om)
include h hLam hOm hsol

/-- No solution is shorter: a shorter one would be parallel to the earlier pair, which misses the power `k`. -/
theorem length_le (hunit : Lam.coeff 0 = 1) : l ≤ n := by
  by_contra hlt
  have hshort : n + l' ≤ k := by have := h.lengths; omega
  have hcross : X ^ (k + 1) ∣ be * Om - Lam * ga - C b * X ^ k * Lam := by
    have hsplit : be * Om - Lam * ga - C b * X ^ k * Lam =
        Lam * (be * S - ga - C b * X ^ k) - be * (Lam * S - Om) := by ring
    rw [hsplit, pow_succ']
    exact dvd_sub (pow_succ' (X : K[X]) k ▸ h.misses.mul_left Lam) (mul_dvd_mul h.beShifted hsol)
  have hcoeff := X_pow_dvd_iff.1 hcross k (Nat.lt_succ_self k)
  rw [mul_assoc, coeff_sub, coeff_sub, coeff_C_mul, coeff_X_pow_mul', if_pos le_rfl, Nat.sub_self, hunit,
    coeff_of_mem_degreeLT (mul_mem_degreeLT h.beDegree hOm) (by omega),
    coeff_of_mem_degreeLT (mul_mem_degreeLT hLam h.gaDegree) hshort] at hcoeff
  exact h.missNonzero (by simpa using hcoeff)

/-- Two solutions that are short together are parallel. -/
theorem mul_eq_mul (hshort : l + n ≤ k) : lam * Om = Lam * om := by
  have hcross : X ^ k ∣ lam * Om - Lam * om := by
    have hsplit : lam * Om - Lam * om = Lam * (lam * S - om) - lam * (Lam * S - Om) := by ring
    rw [hsplit]
    exact dvd_sub (h.solves.mul_left Lam) (hsol.mul_left lam)
  refine sub_eq_zero.1 (ext fun i => ?_)
  rw [coeff_zero]
  rcases Nat.lt_or_ge i k with hi | hi
  · exact X_pow_dvd_iff.1 hcross i hi
  · rw [coeff_sub, coeff_of_mem_degreeLT (mul_mem_degreeLT h.lamDegree hOm) (by omega),
      coeff_of_mem_degreeLT (mul_mem_degreeLT hLam h.omDegree) (by omega), sub_zero]

end
end KeyPairs
end
end Sys2Proof.Machine
end

section
/-! Errors of values `e i` at locators `x i`, over any field: the error locator and the error evaluator polynomial of
R111, the key equation they solve, and what they determine. -/

namespace Sys2Proof.Machine

section
open Polynomial
variable {K : Type} [Field K] {E : Finset ℕ} {x e : ℕ → K}

/-- The polynomial with the inverse locators as roots and constant term 1. -/
noncomputable def errorLocator (E : Finset ℕ) (x : ℕ → K) : K[X] := ∏ i ∈ E, (1 - C (x i) * X)

noncomputable def errorEvaluator (E : Finset ℕ) (x e : ℕ → K) : K[X] :=
  ∑ i ∈ E, C (e i * x i) * errorLocator (E.erase i) x

/-- The syndromes `S_1 .. S_p` of the errors as a polynomial, lowest power first (R107, R111). -/
noncomputable def errorSyndromes (E : Finset ℕ) (x e : ℕ → K) (p : ℕ) : K[X] :=
  ∑ i ∈ E, C (e i * x i) * ∑ j ∈ Finset.range p, (C (x i) * X) ^ j

theorem errorLocator_eq_mul_erase {i : ℕ} (hi : i ∈ E) :
    errorLocator E x = (1 - C (x i) * X) * errorLocator (E.erase i) x :=
  (Finset.mul_prod_erase E _ hi).symm

theorem eval_errorLocator (v : K) : (errorLocator E x).eval v = ∏ i ∈ E, (1 - x i * v) := by
  simp [errorLocator, eval_prod]

theorem coeff_zero_errorLocator : (errorLocator E x).coeff 0 = 1 := by
  simp [coeff_zero_eq_eval_zero, eval_errorLocator]

theorem errorLocator_mem_degreeLT : errorLocator E x ∈ degreeLT K (E.card + 1) := by
  induction E using Finset.induction_on with
  | empty => exact mem_degreeLT.2 (by rw [errorLocator, Finset.prod_empty, degree_one]; exact Nat.cast_lt.2 Nat.one_pos)
  | insert i E hi ih =>
    have hfactor : (1 - C (x i) * X : K[X]) ∈ degreeLT K (1 + 1) := by
      rw [mem_degreeLT]
      exact lt_of_le_of_lt (b := ((1 : ℕ) : WithBot ℕ)) (by compute_degree!) (Nat.cast_lt.2 Nat.one_lt_two)
    have h := mul_mem_degreeLT hfactor ih
    rwa [errorLocator, Finset.prod_insert hi, Finset.card_insert_of_notMem hi, Nat.add_comm E.card]

theorem errorEvaluator_mem_degreeLT : errorEvaluator E x e ∈ degreeLT K E.card := by
  refine sum_mem fun i hi => ?_
  have h : errorLocator (E.erase i) x ∈ degreeLT K ((E.erase i).card + 1) := errorLocator_mem_degreeLT
  rw [Finset.card_erase_add_one hi] at h
  exact C_mul' (e i * x i) (errorLocator (E.erase i) x) ▸ Submodule.smul_mem _ _ h

theorem coeff_errorSyndromes (p j : ℕ) :
    (errorSyndromes E x e p).coeff j = if j < p then ∑ i ∈ E, e i * x i ^ (j + 1) else 0 := by
  have hgeom : ∀ i, (∑ t ∈ Finset.range p, (C (x i) * X) ^ t : K[X]).coeff j = if j < p then x i ^ j else 0 := by
    intro i
    simp only [finsetSum_coeff, mul_pow, ← C_pow, coeff_C_mul_X_pow, Finset.sum_ite_eq, Finset.mem_range]
  rw [errorSyndromes, finsetSum_coeff]
  split
  · next hj => exact Finset.sum_congr rfl fun i _ => by rw [coeff_C_mul, hgeom, if_pos hj, mul_assoc, ← pow_succ']
  · next hj => exact Finset.sum_eq_zero fun i _ => by rw [coeff_C_mul, hgeom, if_neg hj, mul_zero]

/-- The key equation (R111). -/
theorem keyEquation (E : Finset ℕ) (x e : ℕ → K) (p : ℕ) :
    X ^ p ∣ errorLocator E x * errorSyndromes E x e p - errorEvaluator E x e := by
  rw [errorSyndromes, errorEvaluator, Finset.mul_sum, ← Finset.sum_sub_distrib]
  refine Finset.dvd_sum fun i hi => ⟨-(C (e i * x i) * C (x i) ^ p * errorLocator (E.erase i) x), ?_⟩
  have hgeom := mul_neg_geom_sum (C (x i) * X : K[X]) p
  rw [mul_pow] at hgeom
  rw [errorLocator_eq_mul_erase hi]
  linear_combination (C (e i * x i) * errorLocator (E.erase i) x) * hgeom

section
variable (hx : ∀ i, x i ≠ 0) (hinj : Set.InjOn x E) (he : ∀ i ∈ E, e i ≠ 0)

include hinj in
/-- No other locator's factor vanishes at an inverse locator. -/
theorem eval_errorLocator_erase_ne_zero {i : ℕ} (hi : i ∈ E) : (errorLocator (E.erase i) x).eval (x i)⁻¹ ≠ 0 := by
  rw [eval_errorLocator, Finset.prod_ne_zero_iff]
  intro k hk hzero
  obtain ⟨hki, hkE⟩ := Finset.mem_erase.1 hk
  exact hki (hinj hkE hi (eq_of_mul_inv_eq_one (sub_eq_zero.1 hzero).symm))

include hx

theorem eval_errorLocator_inv_eq_zero_iff {i : ℕ} :
    (errorLocator E x).eval (x i)⁻¹ = 0 ↔ ∃ k ∈ E, x k = x i := by
  rw [eval_errorLocator, Finset.prod_eq_zero_iff]
  refine exists_congr fun k => and_congr_right fun _ => ?_
  rw [sub_eq_zero, eq_comm, mul_inv_eq_one₀ (hx i)]

/-- Forney's formula: at an inverse locator the evaluator is the error value times the derivative, but for the sign. -/
theorem eval_errorEvaluator {i : ℕ} (hi : i ∈ E) : (errorEvaluator E x e).eval (x i)⁻¹ =
    -(e i * (derivative (errorLocator E x)).eval (x i)⁻¹) := by
  have hroot : 1 - x i * (x i)⁻¹ = 0 := by rw [mul_inv_cancel₀ (hx i), sub_self]
  have hothers : ∀ k ∈ E, k ≠ i → (C (e k * x k) * errorLocator (E.erase k) x).eval (x i)⁻¹ = 0 := fun k _ hki => by
    rw [errorLocator_eq_mul_erase (Finset.mem_erase.2 ⟨hki.symm, hi⟩)]
    simp [hroot]
  rw [errorEvaluator, eval_finsetSum, Finset.sum_eq_single_of_mem i hi hothers, errorLocator_eq_mul_erase hi]
  simp [hroot]
  ring

include hinj

/-- The derivative has no root at an inverse locator: the divisor of Forney's formula is not 0. -/
theorem eval_derivative_errorLocator_ne_zero {i : ℕ} (hi : i ∈ E) :
    (derivative (errorLocator E x)).eval (x i)⁻¹ ≠ 0 := by
  have hroot : 1 - x i * (x i)⁻¹ = 0 := by rw [mul_inv_cancel₀ (hx i), sub_self]
  have hderiv : (derivative (errorLocator E x)).eval (x i)⁻¹ =
      -(x i * (errorLocator (E.erase i) x).eval (x i)⁻¹) := by
    rw [errorLocator_eq_mul_erase hi]
    simp [hroot]
  rw [hderiv]
  exact neg_ne_zero.2 (mul_ne_zero (hx i) (eval_errorLocator_erase_ne_zero hinj hi))

include he

theorem eval_errorEvaluator_ne_zero {i : ℕ} (hi : i ∈ E) : (errorEvaluator E x e).eval (x i)⁻¹ ≠ 0 := by
  rw [eval_errorEvaluator hx hi]
  exact neg_ne_zero.2 (mul_ne_zero (he i hi) (eval_derivative_errorLocator_ne_zero hx hinj hi))

/-- A solution parallel to that of the errors, of no greater degree and with the same constant term, is that of the
errors: the two locator polynomials agree at 0 and at every inverse locator. -/
theorem eq_errorLocator {lam om : K[X]} (hdeg : lam ∈ degreeLT K (E.card + 1)) (hunit : lam.coeff 0 = 1)
    (hparallel : lam * errorEvaluator E x e = errorLocator E x * om) : lam = errorLocator E x := by
  classical
  have hroots : ∀ i ∈ E, (lam - errorLocator E x).eval (x i)⁻¹ = 0 := fun i hi => by
    have hzero := (eval_errorLocator_inv_eq_zero_iff hx).2 ⟨i, hi, rfl⟩
    have hprod := congrArg (eval (x i)⁻¹) hparallel
    rw [eval_mul, eval_mul, hzero, zero_mul] at hprod
    rw [eval_sub, hzero, sub_zero]
    exact (mul_eq_zero.1 hprod).resolve_right (eval_errorEvaluator_ne_zero hx hinj he hi)
  have hzero : (lam - errorLocator E x).eval 0 = 0 := by
    rw [eval_sub, ← coeff_zero_eq_eval_zero, ← coeff_zero_eq_eval_zero, hunit, coeff_zero_errorLocator, sub_self]
  have hcard : (insert 0 (E.image fun i => (x i)⁻¹)).card = E.card + 1 := by
    rw [Finset.card_insert_of_notMem, Finset.card_image_of_injOn]
    · exact fun i hi j hj hij => hinj hi hj (inv_injective hij)
    · simp [hx]
  refine sub_eq_zero.1 (eq_zero_of_natDegree_lt_card_of_eval_eq_zero' _ (insert 0 (E.image fun i => (x i)⁻¹)) ?_ ?_)
  · intro v hv
    rcases Finset.mem_insert.1 hv with rfl | hv
    · exact hzero
    · obtain ⟨i, hi, rfl⟩ := Finset.mem_image.1 hv
      exact hroots i hi
  · rw [hcard]
    exact Nat.lt_succ_of_le (natDegree_le_of_mem_degreeLT (sub_mem hdeg errorLocator_mem_degreeLT))

/-- At most `p` errors with syndromes that are all 0 are none: the code has distance `p + 1` (R106). -/
theorem eq_empty_of_errorSyndromes_eq_zero {p : ℕ} (hcard : E.card ≤ p) (hzero : errorSyndromes E x e p = 0) :
    E = ∅ := by
  have hevaluator : errorEvaluator E x e = 0 := by
    have hdvd := keyEquation E x e p
    rw [hzero, mul_zero, zero_sub, dvd_neg] at hdvd
    refine eq_zero_of_dvd_of_degree_lt hdvd ?_
    rw [degree_X_pow]
    exact mem_degreeLT.1 (degreeLT_mono hcard errorEvaluator_mem_degreeLT)
  refine Finset.eq_empty_of_forall_notMem fun i hi => eval_errorEvaluator_ne_zero hx hinj he hi ?_
  rw [hevaluator, eval_zero]

end

theorem natDegree_errorLocator (hx : ∀ i, x i ≠ 0) : (errorLocator E x).natDegree = E.card := by
  have hlinear : ∀ i ∈ E, (1 - C (x i) * X : K[X]).natDegree = 1 := fun i _ => by
    rw [← neg_sub, natDegree_neg]
    exact natDegree_linear (a := x i) (b := -1) (hx i) ▸ by rw [C_neg, C_1, sub_eq_add_neg]
  rw [errorLocator, natDegree_prod, Finset.sum_congr rfl hlinear, Finset.sum_const, smul_eq_mul, mul_one]
  exact fun i hi hzero => by
    have := hlinear i hi
    rw [hzero, natDegree_zero] at this
    cases this

/-- The loop's solution for `p` syndromes of at most `p / 2` errors is that of the errors. -/
theorem KeyPairs.eq_errors {lam om be ga : K[X]} {b : K} {p l l' : ℕ} (hx : ∀ i, x i ≠ 0) (hinj : Set.InjOn x E)
    (he : ∀ i ∈ E, e i ≠ 0) (h : KeyPairs (errorSyndromes E x e p) lam om be ga b p l l') (hcard : E.card ≤ p / 2) :
    lam = errorLocator E x ∧ om = errorEvaluator E x e ∧ l = E.card := by
  have hkey := keyEquation E x e p
  have hle : l ≤ E.card :=
    h.length_le errorLocator_mem_degreeLT errorEvaluator_mem_degreeLT hkey coeff_zero_errorLocator
  have hparallel := h.mul_eq_mul errorLocator_mem_degreeLT errorEvaluator_mem_degreeLT hkey (by omega)
  have hlam : lam = errorLocator E x :=
    eq_errorLocator hx hinj he (degreeLT_mono (Nat.succ_le_succ hle) h.lamDegree) h.lamUnit hparallel
  have hne : errorLocator E x ≠ 0 := fun hzero => by
    have hunit := coeff_zero_errorLocator (E := E) (x := x)
    rw [hzero, coeff_zero] at hunit
    exact zero_ne_one hunit
  refine ⟨hlam, ?_, le_antisymm hle ?_⟩
  · rw [hlam] at hparallel
    exact (mul_left_cancel₀ hne hparallel).symm
  · rw [← natDegree_errorLocator hx, ← hlam]
    exact natDegree_le_of_mem_degreeLT h.lamDegree

end
end Sys2Proof.Machine
end

section
/-! The symbols in a field: GF(16) as a field, and the polynomials of R111 as polynomials over it. -/

namespace Sys2Proof.Machine

theorem gmul_ginv (a : Sym) (ha : a ≠ 0) : gmul a ((ginv a).getD 0) = 1 := by
  revert a
  decide

/-- Settles O13: the elements other than 0 are the powers of `alpha`. -/
theorem fieldArithmetic : Obligations.FieldArithmetic := by
  refine ⟨gmul_alphaPow, fun a ha => ?_, gmul_comm, fun a b c => ⟨gmul_assoc a b c, gmul_xor a b c⟩⟩
  obtain ⟨e, rfl⟩ := (eq_zero_or_alphaPow a).resolve_left ha
  refine ⟨e, e.isLt, rfl, ginv_alphaPow e, ?_⟩
  rw [gmul_alphaPow, alphaPow_eq_one_iff]
  omega

/-- GF(16): the symbols with the sum of R101, the product of R102 and the inverse of R103. -/
abbrev gfField : Field Sym :=
  @Field.ofMinimalAxioms Sym ⟨(· ^^^ ·)⟩ ⟨gmul⟩ ⟨id⟩ ⟨fun a => (ginv a).getD 0⟩ ⟨0⟩ ⟨1⟩
    BitVec.xor_assoc (fun _ => BitVec.zero_xor) (fun _ => BitVec.xor_self) gmul_assoc gmul_comm one_gmul gmul_ginv rfl
    gmul_xor ⟨0, 1, by decide⟩

/-- A map of the symbols into a field that keeps sum, product and unit. The fields are seen through such a map, so that
the word operations of `BitVec` and the field operations stay apart. -/
structure SymEmbedding {K : Type} [Field K] (φ : Sym → K) : Prop where
  map_xor : ∀ a b, φ (a ^^^ b) = φ a + φ b
  map_gmul : ∀ a b, φ (gmul a b) = φ a * φ b
  map_one : φ 1 = 1

theorem exists_symEmbedding : ∃ (K : Type) (_ : Field K) (φ : Sym → K), SymEmbedding φ :=
  ⟨Sym, gfField, id, @SymEmbedding.mk Sym gfField id (fun _ _ => rfl) (fun _ _ => rfl) rfl⟩

section
open Polynomial
variable {K : Type} [Field K] {φ : Sym → K}

namespace SymEmbedding
variable (hφ : SymEmbedding φ)
include hφ

theorem map_zero : φ 0 = 0 := by
  have h : φ 0 = φ 0 + φ 0 := hφ.map_xor 0 0
  rwa [left_eq_add] at h

theorem map_eq_zero_iff (a : Sym) : φ a = 0 ↔ a = 0 := by
  refine ⟨fun ha => ?_, fun ha => ha ▸ hφ.map_zero⟩
  rcases eq_zero_or_alphaPow a with rfl | ⟨e, rfl⟩
  · rfl
  · have hunit : gmul (alphaPow e) (alphaPow (15 - e)) = 1 := by
      rw [gmul_alphaPow, alphaPow_eq_one_iff]
      omega
    have h := hφ.map_gmul (alphaPow e) (alphaPow (15 - e))
    rw [hunit, hφ.map_one, ha, zero_mul] at h
    exact absurd h one_ne_zero

/-- Every element is its own negative (R101). -/
theorem map_add_self (a : Sym) : φ a + φ a = 0 := by
  rw [← hφ.map_xor, BitVec.xor_self]
  exact hφ.map_zero

theorem eq_neg (a : Sym) : φ a = -φ a := eq_neg_of_add_eq_zero_left (hφ.map_add_self a)

theorem injective : Function.Injective φ := by
  intro a b hab
  have h := hφ.map_xor a b
  rw [hab, hφ.map_add_self, hφ.map_eq_zero_iff] at h
  exact BitVec.xor_eq_zero_iff.1 h

theorem natCast_eq (n : ℕ) : (n : K) = if n % 2 = 0 then 0 else 1 := by
  have htwo : (2 : K) = 0 := by
    rw [← one_add_one_eq_two, ← hφ.map_one, hφ.map_add_self]
  conv_lhs => rw [← Nat.div_add_mod n 2]
  rw [Nat.cast_add, Nat.cast_mul, Nat.cast_ofNat, htwo, zero_mul, zero_add]
  rcases Nat.mod_two_eq_zero_or_one n with h | h <;> simp [h]

end SymEmbedding

/-! ### The polynomials of R111 -/

theorem getD_lowDeriv (l : List Sym) (i : ℕ) : (lowDeriv l).getD i 0 = if i % 2 = 0 then l.getD (i + 1) 0 else 0 := by
  rw [lowDeriv, List.getD_eq_getElem?_getD, List.getElem?_mapIdx, List.getElem?_tail, List.getD_eq_getElem?_getD]
  cases l[i + 1]? <;> simp


/-- The polynomial with the coefficients `c`, lowest power first. -/
noncomputable def lowPoly (φ : Sym → K) : List Sym → K[X]
  | [] => 0
  | c :: cs => C (φ c) + X * lowPoly φ cs

section
variable (hφ : SymEmbedding φ)
include hφ

theorem coeff_lowPoly (c : List Sym) (i : ℕ) : (lowPoly φ c).coeff i = φ (c.getD i 0) := by
  induction c generalizing i with
  | nil => rw [lowPoly, coeff_zero, List.getD_nil, hφ.map_zero]
  | cons x c ih =>
    cases i with
    | zero => simp [lowPoly]
    | succ i => rw [lowPoly, coeff_add, coeff_C_succ, coeff_X_mul, ih, zero_add, List.getD_cons_succ]

theorem lowPoly_lowAdd (c d : List Sym) : lowPoly φ (lowAdd c d) = lowPoly φ c + lowPoly φ d := by
  induction c generalizing d with
  | nil => rw [lowAdd, lowPoly, zero_add]
  | cons x c ih =>
    cases d with
    | nil => simp [lowAdd, lowPoly]
    | cons y d =>
      rw [lowAdd, lowPoly, lowPoly, lowPoly, ih, hφ.map_xor, C_add]
      ring

theorem lowPoly_map_gmul (k : Sym) (c : List Sym) : lowPoly φ (c.map (gmul k)) = C (φ k) * lowPoly φ c := by
  induction c with
  | nil => simp [lowPoly]
  | cons x c ih =>
    rw [List.map_cons, lowPoly, lowPoly, ih, hφ.map_gmul, C_mul]
    ring

theorem lowPoly_lowScaleShift (k : Sym) (m : ℕ) (c : List Sym) :
    lowPoly φ (lowScaleShift k m c) = C (φ k) * (X ^ m * lowPoly φ c) := by
  rw [lowScaleShift]
  induction m with
  | zero => simp [lowPoly_map_gmul hφ]
  | succ m ih =>
    rw [List.replicate_succ, List.cons_append, lowPoly, ih, hφ.map_zero, C_0]
    ring

theorem lowPoly_lowMul (c d : List Sym) : lowPoly φ (lowMul c d) = lowPoly φ c * lowPoly φ d := by
  induction c with
  | nil => simp [lowMul, lowPoly]
  | cons x c ih =>
    rw [lowMul, lowPoly_lowAdd hφ, lowPoly_map_gmul hφ, lowPoly, lowPoly, ih, hφ.map_zero, C_0]
    ring

theorem eval_lowPoly (c : List Sym) (v : Sym) : (lowPoly φ c).eval (φ v) = φ (lowEval c v) := by
  induction c with
  | nil => rw [lowPoly, eval_zero, lowEval, hφ.map_zero]
  | cons x c ih => rw [lowPoly, eval_add, eval_C, eval_mul, eval_X, ih, lowEval, hφ.map_xor, hφ.map_gmul]

/-- The formal derivative of R111 is the derivative: even multiples are 0. -/
theorem lowPoly_lowDeriv (c : List Sym) : lowPoly φ (lowDeriv c) = derivative (lowPoly φ c) := by
  ext i
  rw [coeff_lowPoly hφ, coeff_derivative, coeff_lowPoly hφ, getD_lowDeriv, ← Nat.cast_succ, hφ.natCast_eq]
  rcases Nat.mod_two_eq_zero_or_one i with h | h
  · rw [if_pos h, if_neg (by omega), mul_one]
  · rw [if_neg (by omega), if_pos (by omega), mul_zero, hφ.map_zero]

theorem lowDegree_eq_natDegree (l : List Sym) : lowDegree l = (lowPoly φ l).natDegree := by
  refine le_antisymm (Cfg.foldl_max_le id _ 0 _ (Nat.zero_le _) fun d hd => ?_) ?_
  · obtain ⟨i, hi, rfl⟩ := List.mem_mapIdx.1 hd
    rw [id]
    split
    · exact Nat.zero_le _
    · next hne =>
      refine le_natDegree_of_ne_zero ?_
      rwa [coeff_lowPoly hφ, List.getD_eq_getElem _ _ hi, Ne, hφ.map_eq_zero_iff]
  · rcases eq_or_ne (lowPoly φ l) 0 with hzero | hne
    · rw [hzero, natDegree_zero]
      exact Nat.zero_le _
    · have hlead : l.getD (lowPoly φ l).natDegree 0 ≠ 0 := by
        rw [Ne, ← hφ.map_eq_zero_iff, ← coeff_lowPoly hφ]
        exact leadingCoeff_ne_zero.2 hne
      have hlt : (lowPoly φ l).natDegree < l.length := by
        by_contra hge
        exact hlead (List.getD_eq_default _ _ (Nat.not_lt.1 hge))
      rw [List.getD_eq_getElem _ _ hlt] at hlead
      exact (Cfg.le_foldl_max id _ 0).2 _ (List.mem_mapIdx.2 ⟨_, hlt, if_neg hlead⟩)

theorem lowPoly_take_mem_degreeLT (c : List Sym) (p : ℕ) : lowPoly φ (c.take p) ∈ degreeLT K p := by
  refine mem_degreeLT.2 ((degree_lt_iff_coeff_zero _ _).2 fun i hi => ?_)
  rw [coeff_lowPoly hφ, List.getD_eq_default _ _ ((List.length_take_le p c).trans hi), hφ.map_zero]

/-- What `take` leaves out is a multiple of the power. -/
theorem pow_dvd_sub_take (c : List Sym) (p : ℕ) : X ^ p ∣ lowPoly φ c - lowPoly φ (c.take p) := by
  refine X_pow_dvd_iff.2 fun i hi => ?_
  rw [coeff_sub, coeff_lowPoly hφ, coeff_lowPoly hφ, List.getD_eq_getElem?_getD, List.getD_eq_getElem?_getD,
    List.getElem?_take_of_lt hi, sub_self]

end
end
end Sys2Proof.Machine
end

section
/-! The loop of R111 (Berlekamp and Massey) carries the two solutions of the key equation. -/

namespace Sys2Proof.Machine

section
open Polynomial
variable {K : Type} [Field K] {φ : Sym → K} {sy : List Sym} {st : BmState} {k : ℕ}

/-- The state after `k` steps holds a solution for `k` syndromes, and the earlier one moved up `m` places. -/
def BmState.Solves (φ : Sym → K) (sy : List Sym) (k : ℕ) (st : BmState) : Prop :=
  ∃ om ga l', KeyPairs (lowPoly φ sy) (lowPoly φ st.lam) om (X ^ st.m * lowPoly φ st.bp) ga (φ st.b) k st.l l'

/-- A quotient by a divisor other than 0 exists (R103). -/
theorem exists_gdiv {b : Sym} (hb : b ≠ 0) (d : Sym) : ∃ q, gdiv d b = some q ∧ gmul b q = d := by
  have hd : gmul b (gmul ((ginv b).getD 0) d) = d := by rw [← gmul_assoc, gmul_ginv b hb, one_gmul]
  refine ⟨gmul ((ginv b).getD 0) d, ?_, hd⟩
  conv_lhs => rw [← hd]
  exact gdiv_gmul_cancel hb _

section
variable (hφ : SymEmbedding φ)
include hφ

theorem map_foldl_xor (g : ℕ → Sym) (a : Sym) (n : ℕ) :
    φ (((List.range n).map g).foldl (· ^^^ ·) a) = φ a + ∑ i ∈ Finset.range n, φ (g i) := by
  induction n with
  | zero => simp
  | succ n ih =>
    rw [List.range_succ, List.map_append, List.foldl_append, List.map_singleton, List.foldl_cons, List.foldl_nil,
      hφ.map_xor, ih, Finset.sum_range_succ, add_assoc]

/-- The discrepancy is the coefficient that the key equation wants to be 0 (R111). -/
theorem map_bmDiscrepancy (hdeg : lowPoly φ st.lam ∈ degreeLT K (st.l + 1)) (hunit : (lowPoly φ st.lam).coeff 0 = 1)
    (hlk : st.l ≤ k) : φ (bmDiscrepancy sy st k) = (lowPoly φ st.lam * lowPoly φ sy).coeff k := by
  have hbeyond : ∀ i ∈ Finset.range k, i ∉ Finset.range st.l →
      (lowPoly φ st.lam).coeff (i + 1) * (lowPoly φ sy).coeff (k - (i + 1)) = 0 := fun i _ hi => by
    rw [coeff_of_mem_degreeLT hdeg (by simpa using hi), zero_mul]
  rw [bmDiscrepancy, map_foldl_xor hφ, coeff_mul,
    Finset.Nat.sum_antidiagonal_eq_sum_range_succ fun i j => (lowPoly φ st.lam).coeff i * (lowPoly φ sy).coeff j,
    Finset.sum_range_succ', hunit, one_mul, Nat.sub_zero, coeff_lowPoly hφ, add_comm]
  congr 1
  rw [← Finset.sum_subset (Finset.range_subset_range.2 hlk) hbeyond]
  exact Finset.sum_congr rfl fun i _ => by rw [hφ.map_gmul, coeff_lowPoly hφ, coeff_lowPoly hφ]

theorem bmInit_solves : bmInit.Solves φ sy 0 := by
  have hone : lowPoly φ [1] = 1 := by rw [lowPoly, lowPoly, hφ.map_one, C_1, mul_zero, add_zero]
  have hpairs : KeyPairs (lowPoly φ sy) (lowPoly φ [1]) 0 (X ^ 1 * lowPoly φ [1]) (-1) (φ 1) 0 0 1 := by
    rw [hone, hφ.map_one, pow_one, mul_one]
    exact keyPairs_init (lowPoly φ sy)
  exact ⟨0, -1, 1, hpairs⟩

/-- No divisor of the loop is 0, and a step keeps the two solutions. -/
theorem bmStep_solves (h : st.Solves φ sy k) : ∃ st', bmStep sy st k = some st' ∧ st'.Solves φ sy (k + 1) := by
  obtain ⟨om, ga, l', hpairs⟩ := h
  have hlengths := hpairs.lengths
  have hbefore := hpairs.before
  have hd := map_bmDiscrepancy hφ (sy := sy) hpairs.lamDegree hpairs.lamUnit (by omega : st.l ≤ k)
  have hup : X * (X ^ st.m * lowPoly φ st.bp) = X ^ (st.m + 1) * lowPoly φ st.bp := by rw [pow_succ', mul_assoc]
  by_cases hzero : bmDiscrepancy sy st k = 0
  · have hagree := hpairs.agree (by rw [← hd, hzero, hφ.map_zero])
    rw [hup] at hagree
    exact ⟨_, bmStep_agrees hzero, om, _, _, hagree⟩
  · have hb : st.b ≠ 0 := fun hb => hpairs.missNonzero (by rw [hb, hφ.map_zero])
    obtain ⟨q, hdiv, hmul⟩ := exists_gdiv hb (bmDiscrepancy sy st k)
    have hq : (lowPoly φ st.lam * lowPoly φ sy).coeff k + φ q * φ st.b = 0 := by
      rw [← hd, ← hφ.map_gmul, gmul_comm q, hmul, hφ.map_add_self]
    have hlam : lowPoly φ st.lam + C (φ q) * (X ^ st.m * lowPoly φ st.bp) =
        lowPoly φ (lowAdd st.lam (lowScaleShift q st.m st.bp)) := by
      rw [lowPoly_lowAdd hφ, lowPoly_lowScaleShift hφ]
    by_cases hl : 2 * st.l ≤ k
    · have hgrow := hpairs.grow hq (by rwa [← hd, Ne, hφ.map_eq_zero_iff]) (by omega)
      rw [hlam, ← hd, ← pow_one X, show l' = k + 1 - st.l by omega] at hgrow
      exact ⟨_, bmStep_grows hzero hdiv hl, _, _, _, hgrow⟩
    · have hcorrect := hpairs.correct hq (by omega)
      rw [hlam, hup] at hcorrect
      exact ⟨_, bmStep_corrects hzero hdiv hl, _, _, _, hcorrect⟩

theorem berlekampMassey_solves (sy : List Sym) :
    ∃ st, berlekampMassey sy = some st ∧ st.Solves φ sy sy.length := by
  suffices hsteps : ∀ k, ∃ st, (List.range k).foldlM (bmStep sy) bmInit = some st ∧ st.Solves φ sy k from
    hsteps sy.length
  intro k
  induction k with
  | zero => exact ⟨bmInit, rfl, bmInit_solves hφ⟩
  | succ k ih =>
    obtain ⟨st, hrun, hst⟩ := ih
    obtain ⟨st', hstep, hst'⟩ := bmStep_solves hφ hst
    refine ⟨st', ?_, hst'⟩
    rw [List.range_succ, List.foldlM_append, hrun]
    simp [hstep]

end
end
end Sys2Proof.Machine
end

section
/-! The places where a word differs from a code word, as errors in the sense of R107 and R111, and the distance of the
code (R106). -/

namespace Sys2Proof.Machine

/-- The places where two words differ. -/
def errorPlaces (c w : List Sym) : Finset ℕ := {i ∈ Finset.range w.length | c.getD i 0 ≠ w.getD i 0}

theorem mem_errorPlaces {c w : List Sym} {i : ℕ} :
    i ∈ errorPlaces c w ↔ i < w.length ∧ c.getD i 0 ≠ w.getD i 0 := by
  rw [errorPlaces, Finset.mem_filter, Finset.mem_range]

theorem lt_length_of_mem_errorPlaces {c w : List Sym} {i : ℕ} (hi : i ∈ errorPlaces c w) : i < w.length :=
  (mem_errorPlaces.1 hi).1

theorem hamming_eq_card {c w : List Sym} (h : c.length = w.length) : hamming c w = (errorPlaces c w).card := by
  suffices hsum : hamming c w = ∑ i ∈ Finset.range w.length, if c.getD i 0 = w.getD i 0 then 0 else 1 by
    rw [hsum, errorPlaces, Finset.card_filter]
    exact Finset.sum_congr rfl fun i _ => (ite_not ..).symm
  induction c generalizing w with
  | nil =>
    obtain rfl := List.eq_nil_of_length_eq_zero h.symm
    rfl
  | cons x c ih =>
    cases w with
    | nil => cases h
    | cons y w =>
      rw [hamming, List.zipWith_cons_cons, List.sum_cons, ← hamming, ih (Nat.succ.inj h), List.length_cons,
        Finset.sum_range_succ', Nat.add_comm]
      rfl

/-- Words that differ nowhere are equal. -/
theorem eq_of_errorPlaces_eq_empty {c w : List Sym} (h : c.length = w.length) (hempty : errorPlaces c w = ∅) :
    c = w := by
  refine List.ext_getElem h fun i hc hw => ?_
  by_contra hne
  refine Finset.notMem_empty i (hempty ▸ mem_errorPlaces.2 ⟨hw, ?_⟩)
  rwa [List.getD_eq_getElem _ _ hc, List.getD_eq_getElem _ _ hw]

/-- The powers below 15 are different (R102). -/
theorem alphaPow_inj {i j : ℕ} (hi : i < 15) (hj : j < 15) (h : alphaPow i = alphaPow j) : i = j := by
  have htable : ∀ i j : Fin 15, alphaPow i = alphaPow j → i = j := by decide
  exact congrArg Fin.val (htable ⟨i, hi⟩ ⟨j, hj⟩ h)

/-- The places of a word have different locators, since it has at most 15 (R106, R111). -/
theorem locator_injOn {n : ℕ} (hn : n ≤ 15) : Set.InjOn (locator n) (Finset.range n) := by
  intro i hi j hj hij
  have hi' : i < n := Finset.mem_range.1 hi
  have hj' : j < n := Finset.mem_range.1 hj
  have := alphaPow_inj (by omega) (by omega) hij
  omega

theorem syndromes_length (w : List Sym) (p : ℕ) : (syndromes w p).length = p := by
  rw [syndromes, List.length_map, List.length_range]

section
open Polynomial
variable {K : Type} [Field K] {φ : Sym → K}

/-- The locator of a place in the field. -/
def errorPoint (φ : Sym → K) (n i : ℕ) : K := φ (locator n i)

/-- The error at a place: what turns the word into the code word there. -/
def errorValue (φ : Sym → K) (c w : List Sym) (i : ℕ) : K := φ (c.getD i 0 ^^^ w.getD i 0)

variable (hφ : SymEmbedding φ)
include hφ

theorem map_alphaPow_mul (e m : ℕ) : φ (alphaPow (m * e)) = φ (alphaPow e) ^ m := by
  induction m with
  | zero => rw [Nat.zero_mul, alphaPow_zero, hφ.map_one, pow_zero]
  | succ m ih => rw [Nat.succ_mul, ← gmul_alphaPow, hφ.map_gmul, ih, pow_succ]

theorem errorPoint_ne_zero (n i : ℕ) : errorPoint φ n i ≠ 0 :=
  mt (hφ.map_eq_zero_iff _).1 (locator_ne_zero n i)

theorem map_locatorInv (n i : ℕ) : φ (locatorInv n i) = (errorPoint φ n i)⁻¹ := by
  have hunit : gmul (locatorInv n i) (locator n i) = 1 := by
    rw [locatorInv, locator, gmul_alphaPow, alphaPow_eq_one_iff]
    omega
  refine eq_inv_of_mul_eq_one_left ?_
  rw [errorPoint, ← hφ.map_gmul, hunit, hφ.map_one]

theorem errorPoint_injOn {n : ℕ} (hn : n ≤ 15) : Set.InjOn (errorPoint φ n) (Finset.range n) :=
  fun _ hi _ hj hij => locator_injOn hn hi hj (hφ.injective hij)

theorem errorPoint_injOn_errorPlaces {c w : List Sym} (hn : w.length ≤ 15) :
    Set.InjOn (errorPoint φ w.length) (errorPlaces c w) :=
  (errorPoint_injOn hφ hn).mono (Finset.coe_subset.2 (Finset.filter_subset _ _))

theorem errorValue_eq_zero_iff (c w : List Sym) (i : ℕ) : errorValue φ c w i = 0 ↔ c.getD i 0 = w.getD i 0 := by
  rw [errorValue, hφ.map_eq_zero_iff]
  exact BitVec.xor_eq_zero_iff

theorem errorValue_ne_zero {c w : List Sym} {i : ℕ} (hi : i ∈ errorPlaces c w) : errorValue φ c w i ≠ 0 :=
  mt (errorValue_eq_zero_iff hφ c w i).1 (mem_errorPlaces.1 hi).2

/-- A word at a power of `alpha`, place by place (R104). -/
theorem map_polyEval (w : List Sym) (m : ℕ) : φ (polyEval w (alphaPow m)) =
    ∑ i ∈ Finset.range w.length, φ (w.getD i 0) * errorPoint φ w.length i ^ m := by
  induction w with
  | nil => exact hφ.map_zero
  | cons x w ih =>
    have hplace : ∀ i, errorPoint φ (x :: w).length (i + 1) = errorPoint φ w.length i := fun i => by
      rw [errorPoint, errorPoint, locator, locator, List.length_cons, Nat.sub_sub, Nat.sub_sub, Nat.add_comm 1 (i + 1),
        Nat.add_sub_add_right, Nat.add_comm i]
    have hfirst : errorPoint φ (x :: w).length 0 = φ (alphaPow w.length) := rfl
    rw [polyEval_cons, hφ.map_xor, hφ.map_gmul, ih, map_alphaPow_mul hφ, List.length_cons, Finset.sum_range_succ',
      add_comm, ← List.length_cons (a := x), hfirst]
    simp only [hplace, List.getD_cons_succ, List.getD_cons_zero]

/-- The syndromes of a word are those of its errors against any code word (R107, R111). -/
theorem map_polyEval_of_isCodeword {c w : List Sym} {p j : ℕ} (hlen : c.length = w.length)
    (hc : isCodeword c p = true) (hj : j < p) : φ (polyEval w (alphaPow (j + 1))) =
      ∑ i ∈ errorPlaces c w, errorValue φ c w i * errorPoint φ w.length i ^ (j + 1) := by
  have hzero : φ (polyEval c (alphaPow (j + 1))) = 0 := by rw [isCodeword_iff.1 hc j hj, hφ.map_zero]
  have hagree : ∀ i ∈ Finset.range w.length, i ∉ errorPlaces c w →
      errorValue φ c w i * errorPoint φ w.length i ^ (j + 1) = 0 := fun i hi hni => by
    have heq : c.getD i 0 = w.getD i 0 := by
      by_contra hne
      exact hni (mem_errorPlaces.2 ⟨Finset.mem_range.1 hi, hne⟩)
    rw [(errorValue_eq_zero_iff hφ c w i).2 heq, zero_mul]
  calc φ (polyEval w (alphaPow (j + 1)))
      = φ (polyEval c (alphaPow (j + 1))) + φ (polyEval w (alphaPow (j + 1))) := by rw [hzero, zero_add]
    _ = ∑ i ∈ Finset.range w.length, errorValue φ c w i * errorPoint φ w.length i ^ (j + 1) := by
      rw [map_polyEval hφ, map_polyEval hφ, hlen, ← Finset.sum_add_distrib]
      exact Finset.sum_congr rfl fun i _ => by rw [errorValue, hφ.map_xor, add_mul]
    _ = _ := (Finset.sum_subset (Finset.filter_subset _ _) hagree).symm

/-- The syndrome polynomial of the decoder is that of the errors (R111). -/
theorem lowPoly_syndromes {c w : List Sym} {p : ℕ} (hlen : c.length = w.length) (hc : isCodeword c p = true) :
    lowPoly φ (syndromes w p) =
      errorSyndromes (errorPlaces c w) (errorPoint φ w.length) (errorValue φ c w) p := by
  ext j
  rw [coeff_lowPoly hφ, coeff_errorSyndromes]
  split
  · next hj =>
    rw [List.getD_eq_getElem _ _ (by rwa [syndromes_length]), ← map_polyEval_of_isCodeword hφ hlen hc hj]
    simp only [syndromes, List.getElem_map, List.getElem_range]
  · next hj => rw [List.getD_eq_default _ _ (by rw [syndromes_length]; exact Nat.not_lt.1 hj), hφ.map_zero]

/-- The syndrome polynomial of a code word is 0 (R107). -/
theorem lowPoly_syndromes_eq_zero {w : List Sym} {p : ℕ} (hw : isCodeword w p = true) :
    lowPoly φ (syndromes w p) = 0 := by
  have hnone : errorPlaces w w = ∅ := Finset.filter_false_of_mem fun i _ => not_not.2 rfl
  rw [lowPoly_syndromes hφ rfl hw, hnone, errorSyndromes, Finset.sum_empty]

end

/-- Code words of one length at most 15 that differ in at most `p` places are equal (R106). -/
theorem eq_of_isCodeword {c w : List Sym} {p : ℕ} (hlen : c.length = w.length) (hn : w.length ≤ 15)
    (hc : isCodeword c p = true) (hw : isCodeword w p = true) (hcard : (errorPlaces c w).card ≤ p) : c = w := by
  obtain ⟨K, _, φ, hφ⟩ := exists_symEmbedding
  refine eq_of_errorPlaces_eq_empty hlen (eq_empty_of_errorSyndromes_eq_zero (errorPoint_ne_zero hφ w.length)
    (errorPoint_injOn_errorPlaces hφ hn) (fun i hi => errorValue_ne_zero hφ hi) hcard ?_)
  rw [← lowPoly_syndromes hφ hlen hc, lowPoly_syndromes_eq_zero hφ hw]

end Sys2Proof.Machine
end

section
/-! The decoder of R111 meets the relation of R110: what it returns differs from the word in the places it corrected, and
every code word within the correction radius is found. -/

namespace Sys2Proof.Machine

/-! ### What the corrections do (R111) -/

theorem getD_set_eq {l : List Sym} {i j : ℕ} (hi : i < l.length) (a : Sym) :
    (l.set i a).getD j 0 = if i = j then a else l.getD j 0 := by
  rw [List.getD_eq_getElem?_getD, List.getElem?_set, List.getD_eq_getElem?_getD]
  split
  · rfl
  · rfl

/-- A correction changes its own place, and no other one. -/
theorem forneyAt_eq_some {om dlam w w' : List Sym} {n i : ℕ} (h : forneyAt om dlam n w i = some w') :
    ∃ e, e ≠ 0 ∧ w' = w.set i (w.getD i 0 ^^^ e) := by
  unfold forneyAt at h
  split at h
  · cases h
  · next e _ =>
    split at h
    · cases h
    · next he => exact ⟨e, he, (Option.some.inj h).symm⟩

/-- After the corrections at `pos`, each of them once, the word differs there and nowhere else. -/
theorem foldlM_forneyAt_eq_some {om dlam w cw : List Sym} {n : ℕ} {pos : List ℕ} (hpos : pos.Nodup)
    (hlt : ∀ i ∈ pos, i < w.length) (h : pos.foldlM (forneyAt om dlam n) w = some cw) :
    cw.length = w.length ∧ ∀ j, cw.getD j 0 ≠ w.getD j 0 ↔ j ∈ pos := by
  induction pos generalizing w with
  | nil =>
    obtain rfl := Option.some.inj h
    simp
  | cons i pos ih =>
    obtain ⟨hi, hpos⟩ := List.nodup_cons.1 hpos
    have hiw := hlt i List.mem_cons_self
    obtain ⟨w', hfirst, hrest⟩ := Option.bind_eq_some_iff.1 h
    obtain ⟨e, he, rfl⟩ := forneyAt_eq_some hfirst
    have hlt' : ∀ j ∈ pos, j < (w.set i (w.getD i 0 ^^^ e)).length := fun j hj => by
      rw [List.length_set]
      exact hlt j (List.mem_cons_of_mem i hj)
    obtain ⟨hlen, hdiff⟩ := ih hpos hlt' hrest
    refine ⟨hlen.trans List.length_set, fun j => ?_⟩
    have hj := hdiff j
    rw [getD_set_eq hiw] at hj
    rw [List.mem_cons]
    rcases eq_or_ne i j with rfl | hij
    · rw [if_pos rfl] at hj
      have hkept : cw.getD i 0 = w.getD i 0 ^^^ e := not_not.1 (mt hj.1 hi)
      refine iff_of_true ?_ (.inl rfl)
      rw [hkept]
      exact fun hsame => he (by simpa using hsame)
    · rw [if_neg hij] at hj
      rw [hj]
      exact ⟨.inr, fun h => h.resolve_left hij.symm⟩

/-- A correction by the right error value puts the code word's symbol in its place. -/
theorem forneyAt_of_gdiv {om dlam c w : List Sym} {n i : ℕ} (hne : c.getD i 0 ≠ w.getD i 0)
    (h : gdiv (lowEval om (locatorInv n i)) (lowEval dlam (locatorInv n i)) = some (c.getD i 0 ^^^ w.getD i 0)) :
    forneyAt om dlam n w i = some (w.set i (c.getD i 0)) := by
  have hsum : w.getD i 0 ^^^ (c.getD i 0 ^^^ w.getD i 0) = c.getD i 0 := by
    rw [BitVec.xor_comm (c.getD i 0), ← BitVec.xor_assoc, BitVec.xor_self, BitVec.zero_xor]
  rw [forneyAt, h]
  simp only [hsum]
  exact if_neg fun hzero => hne (BitVec.xor_eq_zero_iff.1 hzero)

/-- Corrections by the right error values at every place where word and code word differ give the code word. -/
theorem foldlM_forneyAt_of_gdiv {om dlam c w : List Sym} {n : ℕ} {pos : List ℕ} (hlen : c.length = w.length)
    (hpos : pos.Nodup) (hplaces : ∀ i, i ∈ pos ↔ i ∈ errorPlaces c w)
    (h : ∀ i ∈ pos,
      gdiv (lowEval om (locatorInv n i)) (lowEval dlam (locatorInv n i)) = some (c.getD i 0 ^^^ w.getD i 0)) :
    pos.foldlM (forneyAt om dlam n) w = some c := by
  induction pos generalizing w with
  | nil =>
    have hempty : errorPlaces c w = ∅ := Finset.eq_empty_of_forall_notMem fun i hi => by simpa using (hplaces i).2 hi
    rw [eq_of_errorPlaces_eq_empty hlen hempty]
    rfl
  | cons i pos ih =>
    obtain ⟨hi, hpos⟩ := List.nodup_cons.1 hpos
    obtain ⟨hiw, hne⟩ := mem_errorPlaces.1 ((hplaces i).1 List.mem_cons_self)
    have hget : ∀ j, (w.set i (c.getD i 0)).getD j 0 = if i = j then c.getD i 0 else w.getD j 0 :=
      fun j => getD_set_eq hiw _
    rw [List.foldlM_cons, forneyAt_of_gdiv hne (h i List.mem_cons_self)]
    refine ih (hlen.trans List.length_set.symm) hpos (fun j => ?_) fun j hj => ?_
    · rw [mem_errorPlaces, List.length_set, hget]
      rcases eq_or_ne i j with rfl | hij
      · simp [hi]
      · rw [if_neg hij, ← mem_errorPlaces, ← hplaces, List.mem_cons]
        exact ⟨.inr, fun h => h.resolve_left hij.symm⟩
    · rw [hget, if_neg (fun hij : i = j => hi (hij ▸ hj))]
      exact h j (List.mem_cons_of_mem i hj)

/-! ### What the decoder returns (R110, R111) -/

theorem chien_nodup (lam : List Sym) (n : ℕ) : (chien lam n).Nodup := List.nodup_range.filter _

theorem mem_chien {lam : List Sym} {n i : ℕ} : i ∈ chien lam n ↔ i < n ∧ lowEval lam (locatorInv n i) = 0 := by
  rw [chien, List.mem_filter, List.mem_range, beq_iff_eq]

/-- What the decoder returns is the word itself, or the word with as many corrections as are counted. -/
theorem rsDec_eq_some {word cw : List Sym} {p n : ℕ} (h : rsDec word p = some (cw, n)) :
    (cw = word ∧ n = 0) ∨ ∃ lam om dlam, (chien lam word.length).length = n ∧
      (chien lam word.length).foldlM (forneyAt om dlam word.length) word = some cw := by
  unfold rsDec at h
  simp only at h
  split at h
  · obtain ⟨rfl, rfl⟩ := Prod.mk.inj (Option.some.inj h)
    exact .inl ⟨rfl, rfl⟩
  · split at h
    · cases h
    · split at h
      · cases h
      · split at h
        · cases h
        · next hlen =>
          split at h
          · cases h
          · next cw' hfix =>
            split at h
            · obtain ⟨rfl, rfl⟩ := Prod.mk.inj (Option.some.inj h)
              exact .inr ⟨_, _, _, not_not.1 hlen, hfix⟩
            · cases h

theorem hamming_self (w : List Sym) : hamming w w = 0 := by
  rw [hamming_eq_card rfl, Finset.card_eq_zero]
  exact Finset.filter_false_of_mem fun i _ => not_not.2 rfl

/-- The decoder keeps the length and counts the symbols it changes (R110, R113). -/
theorem rsDec_hamming {word cw : List Sym} {p n : ℕ} (h : rsDec word p = some (cw, n)) :
    cw.length = word.length ∧ hamming cw word = n := by
  rcases rsDec_eq_some h with ⟨rfl, rfl⟩ | ⟨lam, om, dlam, hcount, hfix⟩
  · exact ⟨rfl, hamming_self cw⟩
  · have hlt : ∀ i ∈ chien lam word.length, i < word.length := fun i hi => (mem_chien.1 hi).1
    obtain ⟨hlen, hdiff⟩ := foldlM_forneyAt_eq_some (chien_nodup lam _) hlt hfix
    have hplaces : errorPlaces cw word = (chien lam word.length).toFinset := by
      ext i
      rw [mem_errorPlaces, List.mem_toFinset, hdiff]
      exact and_iff_right_of_imp (hlt i)
    exact ⟨hlen, by rw [hamming_eq_card hlen, hplaces, List.toFinset_card_of_nodup (chien_nodup lam _), hcount]⟩

/-- Settles O18: the corrections are at different places, and the final check and the bound on the count stand in the
decoder. -/
theorem rsdecIsSound : Obligations.RsdecIsSound := by
  intro word cw p n _ _ _ h
  obtain ⟨hlen, hdist⟩ := rsDec_hamming h
  exact ⟨hlen, rsDec_isCodeword h, hdist, rsDec_count h⟩

/-! ### Every code word within the radius is found (R110) -/

section
open Polynomial
variable {K : Type} [Field K] {φ : Sym → K} {c w lam : List Sym} {p : ℕ} (hφ : SymEmbedding φ)
  (hlam : lowPoly φ lam = errorLocator (errorPlaces c w) (errorPoint φ w.length))
include hφ hlam

/-- The search finds the places of the errors (R111). -/
theorem mem_chien_iff (hn : w.length ≤ 15) (i : ℕ) : i ∈ chien lam w.length ↔ i ∈ errorPlaces c w := by
  rw [mem_chien, ← hφ.map_eq_zero_iff, ← eval_lowPoly hφ, hlam, map_locatorInv hφ,
    eval_errorLocator_inv_eq_zero_iff (errorPoint_ne_zero hφ _)]
  constructor
  · rintro ⟨hi, k, hk, hki⟩
    have hkw := lt_length_of_mem_errorPlaces hk
    rwa [← errorPoint_injOn hφ hn (Finset.mem_coe.2 (Finset.mem_range.2 hkw))
      (Finset.mem_coe.2 (Finset.mem_range.2 hi)) hki]
  · exact fun hi => ⟨lt_length_of_mem_errorPlaces hi, i, hi, rfl⟩

theorem length_chien (hn : w.length ≤ 15) : (chien lam w.length).length = (errorPlaces c w).card := by
  rw [← List.toFinset_card_of_nodup (chien_nodup lam _)]
  congr 1
  ext i
  rw [List.mem_toFinset, mem_chien_iff hφ hlam hn]

/-- The evaluator of the decoder is that of the errors. -/
theorem lowPoly_evaluator (hlen : c.length = w.length) (hc : isCodeword c p = true)
    (hcard : (errorPlaces c w).card ≤ p) : lowPoly φ ((lowMul (syndromes w p) lam).take p) =
      errorEvaluator (errorPlaces c w) (errorPoint φ w.length) (errorValue φ c w) := by
  have hkey := keyEquation (errorPlaces c w) (errorPoint φ w.length) (errorValue φ c w) p
  have htake := pow_dvd_sub_take hφ (lowMul (syndromes w p) lam) p
  rw [lowPoly_lowMul hφ, lowPoly_syndromes hφ hlen hc, hlam, mul_comm] at htake
  have hdvd := dvd_sub hkey htake
  rw [sub_sub_sub_cancel_left] at hdvd
  refine sub_eq_zero.1 (eq_zero_of_dvd_of_degree_lt hdvd ?_)
  rw [degree_X_pow]
  exact mem_degreeLT.1 (sub_mem (lowPoly_take_mem_degreeLT hφ _ p)
    (degreeLT_mono hcard errorEvaluator_mem_degreeLT))

/-- Forney's quotient is the error (R111). -/
theorem gdiv_evaluator {om : List Sym} (hn : w.length ≤ 15)
    (hom : lowPoly φ om = errorEvaluator (errorPlaces c w) (errorPoint φ w.length) (errorValue φ c w)) {i : ℕ}
    (hi : i ∈ errorPlaces c w) :
    gdiv (lowEval om (locatorInv w.length i)) (lowEval (lowDeriv lam) (locatorInv w.length i)) =
      some (c.getD i 0 ^^^ w.getD i 0) := by
  have hx := errorPoint_ne_zero hφ w.length
  have hden : φ (lowEval (lowDeriv lam) (locatorInv w.length i)) =
      (derivative (errorLocator (errorPlaces c w) (errorPoint φ w.length))).eval (errorPoint φ w.length i)⁻¹ := by
    rw [← eval_lowPoly hφ, lowPoly_lowDeriv hφ, hlam, map_locatorInv hφ]
  have hnum : φ (lowEval om (locatorInv w.length i)) =
      φ (gmul (lowEval (lowDeriv lam) (locatorInv w.length i)) (c.getD i 0 ^^^ w.getD i 0)) := by
    rw [← eval_lowPoly hφ, hom, map_locatorInv hφ, eval_errorEvaluator hx hi, ← hden, errorValue, ← hφ.map_gmul,
      ← hφ.eq_neg, gmul_comm]
  have hden0 : lowEval (lowDeriv lam) (locatorInv w.length i) ≠ 0 := by
    rw [Ne, ← hφ.map_eq_zero_iff, hden]
    exact eval_derivative_errorLocator_ne_zero hx (errorPoint_injOn_errorPlaces hφ hn) hi
  rw [hφ.injective hnum]
  exact gdiv_gmul_cancel hden0 _

end

/-- A code word within the correction radius is what the decoder returns (R110). -/
theorem rsDec_of_hamming_le {c w : List Sym} {p : ℕ} (hn : w.length ≤ 15) (hlen : c.length = w.length)
    (hc : isCodeword c p = true) (hdist : hamming c w ≤ p / 2) : rsDec w p = some (c, hamming c w) := by
  rw [hamming_eq_card hlen] at hdist
  have hcard : (errorPlaces c w).card ≤ p := by omega
  by_cases hw : isCodeword w p = true
  · obtain rfl := eq_of_isCodeword hlen hn hc hw hcard
    rw [rsDec_of_isCodeword hw, hamming_self]
  · obtain ⟨K, _, φ, hφ⟩ := exists_symEmbedding
    have hx := errorPoint_ne_zero hφ w.length
    have hinj := errorPoint_injOn_errorPlaces (c := c) hφ hn
    obtain ⟨st, hbm, om, ga, l', hpairs⟩ := berlekampMassey_solves hφ (syndromes w p)
    rw [syndromes_length, lowPoly_syndromes hφ hlen hc] at hpairs
    obtain ⟨hlam, -, hl⟩ := hpairs.eq_errors hx hinj (fun i hi => errorValue_ne_zero hφ hi) hdist
    rw [hamming_eq_card hlen, ← hl]
    refine rsDec_of_tests (Bool.eq_false_iff.2 hw) hbm (hl ▸ hdist) ?degree ?places ?values hc
    case degree => rw [lowDegree_eq_natDegree hφ, hlam, natDegree_errorLocator hx, hl]
    case places => rw [length_chien hφ hlam hn, hl]
    case values =>
      exact foldlM_forneyAt_of_gdiv hlen (chien_nodup _ _) (mem_chien_iff hφ hlam hn) fun i hi =>
        gdiv_evaluator hφ hlam hn (lowPoly_evaluator hφ hlam hlen hc hcard) ((mem_chien_iff hφ hlam hn i).1 hi)

/-- Settles O19: the loop's solution is that of the errors against the near code word; and by soundness nothing is
returned that is not near. -/
theorem rsdecMeetsTheRelation : Obligations.RsdecMeetsTheRelation := by
  intro word p _ _ hn
  refine ⟨fun c hlen hc hdist => rsDec_of_hamming_le hn hlen hc hdist, fun hfar => ?_⟩
  refine Option.eq_none_iff_forall_not_mem.2 fun ⟨cw, n⟩ hsome => ?_
  obtain ⟨hlen, hdist⟩ := rsDec_hamming hsome
  have hnear := rsDec_count hsome
  have := hfar cw hlen (rsDec_isCodeword hsome)
  omega

/-- Settles O20, by the run of the decoder on one error at `P = 2`. -/
theorem twoParitySymbolsCorrectOneError : Obligations.TwoParitySymbolsCorrectOneError :=
  fun _ _ _ _ hlen hc hi he => rsDec_one_error hc hlen hi he

end Sys2Proof.Machine
end

section
/-! `RSENC` gives the one code word of its data and is linear, and the two operations at the command port
(spec/40_gf16_reed_solomon.md R106, R108, R110; spec/20_memory.md R51). -/

namespace Sys2Proof.Machine

/-! ### The code word of the data (R106, R108) -/

theorem take_rsEnc (data : List Sym) (p : ℕ) : (rsEnc data p).take data.length = data := List.take_left

theorem rsParity_length (data : List Sym) (p : ℕ) : (rsParity data p).length = p := by
  have h := rsEnc_length data p
  rwa [rsEnc, List.length_append, Nat.add_left_cancel_iff] at h

/-- Words of one length with the same front differ behind it only. -/
theorem card_errorPlaces_le_of_take_eq {c w : List Sym} {d p : ℕ} (hw : w.length = d + p)
    (h : c.take d = w.take d) : (errorPlaces c w).card ≤ p := by
  have hbehind : errorPlaces c w ⊆ Finset.Ico d (d + p) := fun i hi => by
    obtain ⟨hlt, hne⟩ := mem_errorPlaces.1 hi
    refine Finset.mem_Ico.2 ⟨Nat.not_lt.1 fun hfront => hne ?_, hw ▸ hlt⟩
    rw [List.getD_eq_getElem?_getD, List.getD_eq_getElem?_getD, ← List.getElem?_take_of_lt hfront, h,
      List.getElem?_take_of_lt hfront]
  simpa using Finset.card_le_card hbehind

/-- A code word is determined by its data (R106, R108). -/
theorem eq_rsEnc_of_isCodeword {data w : List Sym} {p : ℕ} (hn : data.length + p ≤ 15)
    (hlen : w.length = data.length + p) (htake : w.take data.length = data) (hw : isCodeword w p = true) :
    w = rsEnc data p :=
  have henc := rsEnc_length data p
  eq_of_isCodeword (hlen.trans henc.symm) (henc.trans_le hn) hw (isCodeword_rsEnc data p)
    (card_errorPlaces_le_of_take_eq henc (htake.trans (take_rsEnc data p).symm))

/-- Settles O15: the division leaves a code word, and two code words with the same data are too near to differ. -/
theorem rsencGivesTheOneCodeword : Obligations.RsencGivesTheOneCodeword :=
  fun data p _ hn => ⟨isCodeword_rsEnc data p, fun _ hlen htake hw => eq_rsEnc_of_isCodeword hn hlen htake hw⟩

/-- The code is linear (R106). -/
theorem isCodeword_zipWith_xor {v w : List Sym} {p : ℕ} (hlen : v.length = w.length) (hv : isCodeword v p = true)
    (hw : isCodeword w p = true) : isCodeword (List.zipWith (· ^^^ ·) v w) p = true := by
  refine isCodeword_iff.2 fun j hj => ?_
  rw [polyEval_zipWith_xor hlen, isCodeword_iff.1 hv j hj, isCodeword_iff.1 hw j hj]
  rfl

/-- Settles O16: the sum of the two code words is the code word of the sum of the data. -/
theorem rsencIsLinear : Obligations.RsencIsLinear := by
  intro a b p hlen _ hn
  have ha := rsEnc_length a p
  have hb := rsEnc_length b p
  have hsum : (List.zipWith (· ^^^ ·) a b).length = a.length := by rw [List.length_zipWith, ← hlen, Nat.min_self]
  refine (eq_rsEnc_of_isCodeword (by rwa [hsum]) ?length ?data ?codeword).symm
  case length => rw [List.length_zipWith, ha, hb, hsum, ← hlen, Nat.min_self]
  case data => rw [hsum, List.take_zipWith, take_rsEnc, hlen, take_rsEnc]
  case codeword =>
    exact isCodeword_zipWith_xor (by rw [ha, hb, hlen]) (isCodeword_rsEnc a p) (isCodeword_rsEnc b p)

/-! ### The operations (R108, R110) -/

section
variable {s : State}

/-- An element that is no symbol (R51). -/
theorem syms_operands_out {x : List Slot} {vs : List Int} (h : s.operands = ⟨x, [.ints vs]⟩)
    (hv : ∃ v ∈ vs, v < 0 ∨ 15 < v) : s.operands.syms 0 = .error badOperand :=
  Operands.syms_out (vs := vs) (by rw [h]; rfl) hv

section
variable {syms : List Sym} {p : ℕ} (h : s.operands = ⟨[.int p], [symsBuf syms]⟩)
include h

theorem syms_operands : s.operands.syms 0 = .ok syms := Operands.syms_ok (by rw [h]; rfl)

theorem int_operands_cases : s.operands.int 0 = .ok p ∨ (15 < p ∧ s.operands.int 0 = .error badOperand) := by
  have hslot : s.operands.x[0]? = some (.int p) := by rw [h]; rfl
  rcases Nat.lt_or_ge p idxLimit with hp | hp
  · exact .inl (Operands.int_ok hslot hp)
  · exact .inr ⟨lt_of_lt_of_le (by decide) hp, Operands.int_out hslot hp⟩

/-- A legal shape has an index as its `P` (R22). -/
theorem int_operands_of_le (hp : p ≤ 15) : s.operands.int 0 = .ok p :=
  (int_operands_cases h).resolve_right fun hout => Nat.not_lt.2 hp hout.1

theorem execRsenc_of_shape (hp : 1 ≤ p) (hn : syms.length + p ≤ 15) :
    execRsenc s = .next (s.ret ⟨[], [symsBuf (rsEnc syms p)]⟩) := by
  refine unitOp_ok ?_
  simp [syms_operands h, int_operands_of_le h (by omega), hp, hn]

theorem execRsenc_of_not_shape (hshape : ¬(1 ≤ p ∧ syms.length + p ≤ 15)) :
    execRsenc s = .next (s.raise badOperand) := by
  refine unitOp_error ?_
  have htest : (decide (1 ≤ p) && decide (syms.length + p ≤ 15)) = false := by simpa using hshape
  rcases int_operands_cases h with hint | ⟨_, hint⟩
  · simp only [syms_operands h, hint, res_bind_ok, htest, require_false, res_bind_error]
  · simp only [syms_operands h, hint, res_bind_ok, res_bind_error]

/-- A word of a legal shape is answered as the decoder says (R110). -/
theorem execRsdec_of_shape (hp : 1 ≤ p) (hpn : p < syms.length) (hn : syms.length ≤ 15) :
    (∀ cw n, rsDec syms p = some (cw, n) → execRsdec s = .next (s.ret ⟨[.int n], [symsBuf cw]⟩)) ∧
      (rsDec syms p = none → execRsdec s = .next (s.raise ⟨.uncorrectable, []⟩)) := by
  have hint := int_operands_of_le h (by omega)
  constructor
  · intro cw n hdec
    refine unitOp_ok ?_
    simp [syms_operands h, hint, hp, hpn, hn, hdec]
  · intro hdec
    refine unitOp_error ?_
    simp [syms_operands h, hint, hp, hpn, hn, hdec]

theorem execRsdec_of_not_shape (hshape : ¬(1 ≤ p ∧ p < syms.length ∧ syms.length ≤ 15)) :
    execRsdec s = .next (s.raise badOperand) := by
  refine unitOp_error ?_
  have htest : (decide (1 ≤ p) && decide (p < syms.length) && decide (syms.length ≤ 15)) = false := by
    simpa [and_assoc] using hshape
  rcases int_operands_cases h with hint | ⟨_, hint⟩
  · simp only [syms_operands h, hint, res_bind_ok, htest, require_false, res_bind_error]
  · simp only [syms_operands h, hint, res_bind_ok, res_bind_error]

end
end

/-- Settles O14, by the two outcomes of `RSENC` and the length of the parity. -/
theorem rsencCompletes : Obligations.RsencCompletes := by
  refine ⟨fun s x vs h hv => ?symbols, fun s data p h => ⟨fun ⟨hp, hn⟩ => ?legal, fun hshape => ?illegal⟩⟩
  case symbols =>
    rw [exec_rsenc]
    exact unitOp_error (by rw [syms_operands_out h hv]; rfl)
  case legal => exact ⟨execRsenc_of_shape h hp hn, rsParity_length data p⟩
  case illegal => exact execRsenc_of_not_shape h hshape

/-- Settles O17, by the outcomes of `RSDEC` on a legal and on a bad shape. -/
theorem rsdecCompletes : Obligations.RsdecCompletes := by
  refine ⟨fun s x vs h hv => ?symbols, fun s word p h => ⟨?codeword, ?found, ?givesUp, ?illegal⟩⟩
  case symbols =>
    rw [exec_rsdec]
    exact unitOp_error (by rw [syms_operands_out h hv]; rfl)
  case codeword =>
    intro hp hpn hn hc
    exact (execRsdec_of_shape h hp hpn hn).1 word 0 (rsDec_of_isCodeword hc)
  case found => exact fun hp hpn hn => (execRsdec_of_shape h hp hpn hn).1
  case givesUp => exact fun hp hpn hn => (execRsdec_of_shape h hp hpn hn).2
  case illegal => exact execRsdec_of_not_shape h

end Sys2Proof.Machine
end

section
/-! The two checksums (spec/41_crc_checksum.md R120, R122, R125, R127): the register step, its linearity, the residues,
and the two operations at the command port. -/

namespace Sys2Proof.Machine

/-! ### The register (R120) -/

section
variable {w : ℕ} (poly : BitVec w)

theorem crcByte_eq (c : BitVec w) (b : Byte) : crcByte poly c b = crcBits poly 8 (c ^^^ b.setWidth w) := rfl

theorem crcBits_succ (k : ℕ) (c : BitVec w) : crcBits poly (k + 1) c = crcBits poly k (crcBit poly c) := rfl

theorem crcBits_eq_iterate (k : ℕ) (c : BitVec w) : crcBits poly k c = (crcBit poly)^[k] c := by
  induction k generalizing c with
  | zero => rfl
  | succ k ih => exact ih _

/-- The eight bit steps of R120 as the loop that the rule writes. -/
theorem crcBits_eq_foldl_range (k : ℕ) (c : BitVec w) :
    crcBits poly k c = (List.range k).foldl (fun c _ => crcBit poly c) c := by
  rw [crcBits_eq_iterate, List.foldl_const, List.length_range]

theorem crcBit_of_bit_zero {c : BitVec w} (hc : c.getLsbD 0 = false) : crcBit poly c = c >>> 1 :=
  if_neg (ne_true_of_eq_false hc)

theorem crcBit_of_bit_one {c : BitVec w} (hc : c.getLsbD 0 = true) : crcBit poly c = c >>> 1 ^^^ poly :=
  if_pos hc

theorem crcBit_zero : crcBit poly 0 = 0 :=
  (crcBit_of_bit_zero poly BitVec.getLsbD_zero).trans BitVec.zero_ushiftRight

/-- The bit shifted out is linear in the register, so the polynomial cancels where both registers shift a 1 out. -/
theorem crcBit_xor (c d : BitVec w) : crcBit poly (c ^^^ d) = crcBit poly c ^^^ crcBit poly d := by
  have hbit := BitVec.getLsbD_xor (x := c) (y := d) (i := 0)
  have hshift := BitVec.ushiftRight_xor_distrib c d 1
  cases hc : c.getLsbD 0 <;> cases hd : d.getLsbD 0 <;> rw [hc, hd] at hbit
  case false.false =>
    rw [crcBit_of_bit_zero poly hbit, crcBit_of_bit_zero poly hc, crcBit_of_bit_zero poly hd, hshift]
  case false.true =>
    rw [crcBit_of_bit_one poly hbit, crcBit_of_bit_zero poly hc, crcBit_of_bit_one poly hd, hshift, BitVec.xor_assoc]
  case true.false =>
    rw [crcBit_of_bit_one poly hbit, crcBit_of_bit_one poly hc, crcBit_of_bit_zero poly hd, hshift]
    ac_rfl
  case true.true =>
    rw [crcBit_of_bit_zero poly hbit, crcBit_of_bit_one poly hc, crcBit_of_bit_one poly hd, hshift,
      BitVec.xor_comm (d >>> 1), BitVec.xor_assoc, ← BitVec.xor_assoc poly, BitVec.xor_self, BitVec.zero_xor]

theorem crcBits_zero (k : ℕ) : crcBits poly k 0 = 0 := by
  rw [crcBits_eq_iterate, Function.iterate_fixed (crcBit_zero poly)]

theorem crcBits_xor (k : ℕ) (c d : BitVec w) : crcBits poly k (c ^^^ d) = crcBits poly k c ^^^ crcBits poly k d := by
  simp only [crcBits_eq_iterate]
  exact Function.Semiconj₂.iterate (crcBit_xor poly) k c d

/-- As long as zeros are shifted out, the polynomial stays out of the register. -/
theorem crcBits_of_low_zero {k : ℕ} {c : BitVec w} (hlow : ∀ i < k, c.getLsbD i = false) :
    crcBits poly k c = c >>> k := by
  induction k generalizing c with
  | zero => exact (BitVec.ushiftRight_zero c).symm
  | succ k ih =>
    have hbit := crcBit_of_bit_zero poly (hlow 0 k.succ_pos)
    have hnext : ∀ i < k, (c >>> 1).getLsbD i = false := fun i hi => by
      rw [BitVec.getLsbD_ushiftRight]
      exact hlow (1 + i) (by omega)
    rw [crcBits_succ, hbit, ih hnext, ← BitVec.shiftRight_add, Nat.add_comm]

theorem crcByte_xor (c d : BitVec w) (x y : Byte) :
    crcByte poly (c ^^^ d) (x ^^^ y) = crcByte poly c x ^^^ crcByte poly d y := by
  rw [crcByte_eq, crcByte_eq, crcByte_eq, ← crcBits_xor, BitVec.setWidth_xor]
  congr 1
  ac_rfl

/-- R127 from any two registers: the checksum of the sum is the sum of the checksums. -/
theorem foldl_crcByte_zipWith_xor {a b : List Byte} (hlen : a.length = b.length) (c d : BitVec w) :
    (List.zipWith (· ^^^ ·) a b).foldl (crcByte poly) (c ^^^ d) =
      a.foldl (crcByte poly) c ^^^ b.foldl (crcByte poly) d := by
  induction a generalizing b c d with
  | nil =>
    obtain rfl := List.length_eq_zero_iff.1 hlen.symm
    rfl
  | cons x a ih =>
    cases b with
    | nil => cases hlen
    | cons y b =>
      rw [List.zipWith_cons_cons, List.foldl_cons, crcByte_xor]
      exact ih (Nat.succ.inj hlen) _ _

end

/-! ### The two checksums (R121, R124) -/

theorem crc16_concat (bs : List Byte) (b : Byte) : crc16 (bs ++ [b]) = crcByte Config.crc16Poly (crc16 bs) b :=
  List.foldl_concat ..

theorem chk8_concat (bs : List Byte) (b : Byte) : chk8 (bs ++ [b]) = crcByte Config.chk8Poly (chk8 bs) b :=
  List.foldl_concat ..

theorem crc16_zipWith_xor {a b : List Byte} (hlen : a.length = b.length) :
    crc16 (List.zipWith (· ^^^ ·) a b) = crc16 a ^^^ crc16 b :=
  foldl_crcByte_zipWith_xor Config.crc16Poly hlen 0 0

theorem chk8_zipWith_xor {a b : List Byte} (hlen : a.length = b.length) :
    chk8 (List.zipWith (· ^^^ ·) a b) = chk8 a ^^^ chk8 b :=
  foldl_crcByte_zipWith_xor Config.chk8Poly hlen 0 0

/-- A byte register that takes its own value in is cleared (R125). -/
theorem crcByte_self (poly c : Byte) : crcByte poly c c = 0 := by
  rw [crcByte_eq, BitVec.setWidth_eq, BitVec.xor_self]
  exact crcBits_zero poly 8

/-- A 16-bit register that takes its own low byte in moves its high byte down. -/
theorem crcByte_low_byte (poly c : U16) : crcByte poly c (c.extractLsb' 0 8) = c >>> 8 := by
  have hlow : ∀ i < 8, (c ^^^ (c.extractLsb' 0 8).setWidth 16).getLsbD i = false := fun i hi => by
    simp [hi, show i < 16 by omega]
  have hhigh : (c ^^^ (c.extractLsb' 0 8).setWidth 16) >>> 8 = c >>> 8 := by
    ext i hi
    simp
  rw [crcByte_eq, crcBits_of_low_zero poly hlow, hhigh]

/-- The high byte, now in the low half, clears the register (spec/95_test_vectors.md section 2.2). -/
theorem crcByte_high_byte (poly c : U16) : crcByte poly (c >>> 8) (c.extractLsb' 8 8) = 0 := by
  have hhigh : (c.extractLsb' 8 8).setWidth 16 = c >>> 8 := by
    ext i hi
    have hwidth : c.getLsbD (8 + i) = true → i < 8 := fun hbit => by
      have := BitVec.lt_of_getLsbD hbit
      omega
    simpa using hwidth
  rw [crcByte_eq, hhigh, BitVec.xor_self]
  exact crcBits_zero poly 8

/-- Settles O12: every register step is linear, and the register that takes its own value in is cleared. -/
theorem checksumLaws : Obligations.ChecksumLaws := by
  refine ⟨fun a b hlen => ⟨crc16_zipWith_xor hlen, chk8_zipWith_xor hlen⟩, fun bs => ?residue8, fun bs => ?residue16⟩
  case residue8 => rw [chk8_concat, crcByte_self]
  case residue16 =>
    rw [List.append_cons, crc16_concat, crc16_concat, crcByte_low_byte, crcByte_high_byte]

/-! ### The operations (R122, R125) -/

section
variable {s : State}

theorem bytes_operands {bs : List Byte} (h : s.operands = ⟨[], [bytesBuf bs]⟩) : s.operands.bytes 0 = .ok bs :=
  Operands.bytes_ok (by rw [h]; rfl)

theorem bytes_operands_out {x : List Slot} {vs : List Int} (h : s.operands = ⟨x, [.ints vs]⟩)
    (hv : ∃ v ∈ vs, v < 0 ∨ 255 < v) : s.operands.bytes 0 = .error badOperand :=
  Operands.bytes_out (vs := vs) (by rw [h]; rfl) hv

theorem execCrc16_of_bytes {bs : List Byte} (hbytes : s.operands.bytes 0 = .ok bs) :
    execCrc16 s = .next (s.ret ⟨[.int (crc16 bs).toNat], []⟩) :=
  unitOp_ok (by rw [hbytes]; rfl)

theorem execChk8_of_bytes {bs : List Byte} (hbytes : s.operands.bytes 0 = .ok bs) :
    execChk8 s = .next (s.ret ⟨[.int (chk8 bs).toNat], []⟩) :=
  unitOp_ok (by rw [hbytes]; rfl)

theorem execCrc16_of_error {f : Fail} (hbytes : s.operands.bytes 0 = .error f) :
    execCrc16 s = .next (s.raise f) :=
  unitOp_error (by rw [hbytes]; rfl)

theorem execChk8_of_error {f : Fail} (hbytes : s.operands.bytes 0 = .error f) :
    execChk8 s = .next (s.raise f) :=
  unitOp_error (by rw [hbytes]; rfl)

end

/-- Settles O11: the answers follow the reading of the buffer, and the step of a byte is the loop of R120. -/
theorem checksumOperationsComplete : Obligations.ChecksumOperationsComplete := by
  refine ⟨fun s bs h => ?completes, fun s x vs h hv => ?refuses, rfl, rfl, fun bs b => ⟨?step16, ?step8⟩⟩
  case completes =>
    have hbytes := bytes_operands h
    exact ⟨execCrc16_of_bytes hbytes, execChk8_of_bytes hbytes⟩
  case refuses =>
    have hbytes := bytes_operands_out h hv
    exact ⟨execCrc16_of_error hbytes, execChk8_of_error hbytes⟩
  case step16 => exact (crc16_concat bs b).trans (crcBits_eq_foldl_range _ 8 _)
  case step8 =>
    rw [chk8_concat, crcByte_eq, BitVec.setWidth_eq]
    exact crcBits_eq_foldl_range _ 8 _

end Sys2Proof.Machine
end

section
/-! The interleaver at every length and block size (spec/42_frame_codec.md R142, R143, R147): it reads column by column,
writes back in the same order, and keeps the symbols of one block apart. -/

namespace Sys2Proof.Machine

/-! ### Reading and writing back in one order (R142, R143) -/

section
variable {α : Type} {b : ℕ}

theorem length_ilvOrder (hb : 0 < b) (n : ℕ) : (ilvOrder n b).length = n := by
  rw [(ilvOrder_perm hb).length_eq, List.length_range]

theorem getElem?_filterMap_getElem? {l : List α} {order : List ℕ} (h : ∀ c ∈ order, c < l.length) (k : ℕ) :
    (order.filterMap fun c => l[c]?)[k]? = order[k]?.bind fun c => l[c]? := by
  induction order generalizing k with
  | nil => rfl
  | cons c order ih =>
    have hc := List.getElem?_eq_getElem (h c List.mem_cons_self)
    rw [List.filterMap_cons_some hc]
    cases k with
    | zero => simp [hc]
    | succ k => simpa using ih (fun c' hc' => h c' (List.mem_cons_of_mem c hc')) k

/-- The symbol at each place of the interleaved stream (R142). -/
theorem getElem?_ilv (hb : 0 < b) (l : List α) (k : ℕ) :
    (ilv l b)[k]? = (ilvOrder l.length b)[k]?.bind fun c => l[c]? :=
  getElem?_filterMap_getElem? (fun _ hc => (mem_ilvOrder hb).1 hc) k

theorem getElem?_foldl_set_of_notMem {cts : List (ℕ × α)} {c : ℕ} (h : c ∉ cts.map Prod.fst) (out : List α) :
    (cts.foldl (fun out ct => out.set ct.1 ct.2) out)[c]? = out[c]? := by
  induction cts generalizing out with
  | nil => rfl
  | cons ct cts ih =>
    rw [List.map_cons, List.mem_cons, not_or] at h
    rw [List.foldl_cons, ih h.2, List.getElem?_set_ne (Ne.symm h.1)]

/-- Of writes at different places each one stands. -/
theorem getElem?_foldl_set {cts : List (ℕ × α)} (hnodup : (cts.map Prod.fst).Nodup) {out : List α} {c : ℕ}
    {x : α} (hmem : (c, x) ∈ cts) (hc : c < out.length) :
    (cts.foldl (fun out ct => out.set ct.1 ct.2) out)[c]? = some x := by
  induction cts generalizing out with
  | nil => cases hmem
  | cons ct cts ih =>
    rw [List.map_cons, List.nodup_cons] at hnodup
    rw [List.foldl_cons]
    rcases List.mem_cons.1 hmem with rfl | hrest
    · rw [getElem?_foldl_set_of_notMem hnodup.1, List.getElem?_set_self hc]
    · exact ih hnodup.2 hrest (by rwa [List.length_set])

/-- `DILV` writes each symbol where `ILV` reads it (R143). -/
theorem getElem?_dilv (hb : 0 < b) {l : List α} {k c : ℕ} (h : (ilvOrder l.length b)[k]? = some c) :
    (dilv l b)[c]? = l[k]? := by
  have hlen := length_ilvOrder hb l.length
  have hk : k < l.length := hlen ▸ (List.getElem?_eq_some_iff.1 h).1
  have hc : c < l.length := (mem_ilvOrder hb).1 (List.mem_of_getElem? h)
  have hget := List.getElem?_eq_getElem hk
  rw [hget]
  refine getElem?_foldl_set ?_ (List.mem_of_getElem? (List.getElem?_zip_eq_some.2 ⟨h, hget⟩)) hc
  rw [List.map_fst_zip hlen.le]
  exact nodup_ilvOrder hb

theorem dilv_ilv (hb : 0 < b) (l : List α) : dilv (ilv l b) b = l := by
  have hlen := ilv_length l hb
  refine List.ext_getElem? fun c => ?_
  rcases Nat.lt_or_ge c l.length with hc | hc
  · obtain ⟨k, hk⟩ := List.mem_iff_getElem?.1 ((mem_ilvOrder hb).2 hc)
    rw [getElem?_dilv hb (hlen.symm ▸ hk), getElem?_ilv hb, hk, Option.bind_some]
  · rw [List.getElem?_eq_none (by rwa [dilv_length, hlen]), List.getElem?_eq_none hc]

theorem ilv_dilv (hb : 0 < b) (l : List α) : ilv (dilv l b) b = l := by
  have hlen := dilv_length l b
  refine List.ext_getElem? fun k => ?_
  rw [getElem?_ilv hb, hlen]
  rcases Nat.lt_or_ge k l.length with hk | hk
  · have hget := List.getElem?_eq_getElem (lt_of_lt_of_eq hk (length_ilvOrder hb l.length).symm)
    rw [hget, Option.bind_some, getElem?_dilv hb hget]
  · rw [List.getElem?_eq_none (by rwa [length_ilvOrder hb]), List.getElem?_eq_none hk, Option.bind_none]

end

/-- Settles O21: each reads where the other writes. -/
theorem interleaverIsInvertible : Obligations.InterleaverIsInvertible :=
  fun syms _ hb => ⟨dilv_ilv hb syms, ilv_dilv hb syms⟩

/-! ### The place of each symbol (R142, R147) -/

section
variable {n b : ℕ}

/-- The indices that `ILV` reads for column `j` (R142). -/
def ilvColumn (n b j : ℕ) : List ℕ := (List.range (ceilDiv (n - j) b)).map fun i => i * b + j

theorem ilvOrder_eq_columns (n b : ℕ) : ilvOrder n b = (List.range b).flatMap (ilvColumn n b) := rfl

/-- A column holds every full row once, and one of the first columns the short last row. -/
theorem ceilDiv_column (hb : 0 < b) {j : ℕ} (hj : j < b) :
    ceilDiv (n - j) b = n / b + if j < n % b then 1 else 0 := by
  have hdm := Nat.div_add_mod n b
  have hmod := Nat.mod_lt n hb
  refine eq_of_forall_ge_iff fun c => ?_
  rw [ceilDiv_le_iff hb]
  rcases Nat.lt_or_ge c (n / b) with hc | hc
  · have hrow := Nat.mul_le_mul_left b (Nat.succ_le_of_lt hc)
    rw [Nat.mul_succ] at hrow
    omega
  · obtain ⟨d, rfl⟩ := Nat.exists_eq_add_of_le hc
    rw [Nat.mul_add]
    rcases d with _ | d
    · split <;> omega
    · rw [Nat.mul_succ]
      split <;> omega

/-- Where column `j` starts in the interleaved stream (R142). -/
theorem length_columns_before (hb : 0 < b) {j : ℕ} (hj : j ≤ b) :
    ((List.range j).flatMap (ilvColumn n b)).length = j * (n / b) + min j (n % b) := by
  induction j with
  | zero => simp
  | succ j ih =>
    rw [List.range_succ, List.flatMap_append, List.length_append, ih (by omega), List.flatMap_singleton, ilvColumn,
      List.length_map, List.length_range, ceilDiv_column hb hj, Nat.succ_mul]
    split <;> omega

/-- The closed form of the order in which `ILV` reads (R142). -/
theorem getElem?_ilvOrder {i j : ℕ} (hj : j < b) (hij : i * b + j < n) :
    (ilvOrder n b)[j * (n / b) + min j (n % b) + i]? = some (i * b + j) := by
  have hb : 0 < b := by omega
  have hi : i < ceilDiv (n - j) b := by
    rw [← Nat.not_le, ceilDiv_le_iff hb, Nat.mul_comm]
    omega
  have hsplit : List.range b = List.range j ++ j :: (List.range (b - (j + 1))).map (j + 1 + ·) := by
    rw [List.append_cons, ← List.range_succ, ← List.range_add, Nat.add_sub_cancel' (Nat.succ_le_of_lt hj)]
  have hcolumn : (ilvColumn n b j)[i]? = some (i * b + j) := by simp [ilvColumn, hi]
  have hstart := length_columns_before (n := n) hb hj.le
  rw [ilvOrder_eq_columns, hsplit, List.flatMap_append, List.getElem?_append_right (by omega), hstart,
    Nat.add_sub_cancel_left, List.flatMap_cons]
  exact (List.getElem?_append_left (List.getElem?_eq_some_iff.1 hcolumn).1).trans hcolumn

/-- Two symbols of one block are as far apart as there are full blocks (R147). -/
theorem ilvOrder_apart (hb : 0 < b) {k1 k2 c1 c2 : ℕ} (h1 : (ilvOrder n b)[k1]? = some c1)
    (h2 : (ilvOrder n b)[k2]? = some c2) (hlt : k1 < k2) (hblock : c1 / b = c2 / b) : k1 + n / b ≤ k2 := by
  have hplace : ∀ {k c : ℕ}, (ilvOrder n b)[k]? = some c →
      k = c % b * (n / b) + min (c % b) (n % b) + c / b := by
    intro k c h
    have hc : c / b * b + c % b < n := by
      rw [Nat.div_add_mod']
      exact (mem_ilvOrder hb).1 (List.mem_of_getElem? h)
    have hform := getElem?_ilvOrder (Nat.mod_lt c hb) hc
    rw [Nat.div_add_mod'] at hform
    exact (List.getElem?_inj (List.getElem?_eq_some_iff.1 h).1 (nodup_ilvOrder hb)).1 (h.trans hform.symm)
  have hk1 := hplace h1
  have hk2 := hplace h2
  rw [← hblock] at hk2
  rcases Nat.lt_or_ge (c1 % b) (c2 % b) with hcol | hcol
  · have hmul := Nat.mul_le_mul_right (n / b) (Nat.succ_le_of_lt hcol)
    rw [Nat.succ_mul] at hmul
    omega
  · have hmul := Nat.mul_le_mul_right (n / b) hcol
    omega

end

/-- Settles O22: the order's closed form, and its consequence for two places of one block. -/
theorem interleaverPositions : Obligations.InterleaverPositions := by
  refine ⟨fun syms b i j hb hj hij => ?closedForm, fun syms b hb => ⟨ilv_length syms hb, ilv_of_le hb⟩,
    fun n b k1 k2 c1 c2 hb h1 h2 hlt hnear hblock => ?apart⟩
  case closedForm => rw [getElem?_ilv hb, getElem?_ilvOrder hj hij, Option.bind_some]
  case apart => exact Nat.not_lt.2 (ilvOrder_apart hb h1 h2 hlt hblock) hnear

end Sys2Proof.Machine
end

section
/-! Streams of every number of blocks (spec/42_frame_codec.md R131, R132, R145, R146, R149, R150): the blocks of an
encoding are its code words, the block loop goes through the blocks that decode, and the wrong symbols of a stream are
those of its blocks. -/

namespace Sys2Proof.Machine

/-! ### Blocks (R131) -/

section
variable {k : ℕ} (hk : 0 < k)
include hk

theorem blocksOf_nil : blocksOf k [] = [] := by
  rw [blocksOf, List.length_nil, Nat.le_zero.1 ((ceilDiv_le_iff hk).2 (Nat.zero_le _))]
  rfl

theorem blocksOf_append {blk : List Sym} (h : blk.length = k) (rest : List Sym) :
    blocksOf k (blk ++ rest) = blk :: blocksOf k rest := by
  have hcount : ceilDiv (blk ++ rest).length k = ceilDiv rest.length k + 1 := by
    rw [List.length_append, h, ceilDiv, ceilDiv, ← Nat.add_div_right _ hk]
    congr 1
    omega
  have hdrop : ∀ i, (blk ++ rest).drop ((i + 1) * k) = rest.drop (i * k) := fun i => by
    rw [Nat.succ_mul, Nat.add_comm, ← List.drop_drop, ← h, List.drop_left]
  rw [blocksOf, hcount, List.range_succ_eq_map, List.map_cons, List.map_map, Nat.zero_mul, List.drop_zero,
    List.take_left' h]
  exact congrArg _ (List.map_congr_left fun i _ => congrArg _ (hdrop i))

/-- A sequence is empty, or one block that may be short, or a full block and a sequence (R131). -/
theorem block_induction {P : List Sym → Prop} (nil : P []) (one : ∀ l, 0 < l.length → l.length ≤ k → P l)
    (block : ∀ blk rest, blk.length = k → P rest → P (blk ++ rest)) (l : List Sym) : P l := by
  induction hn : l.length using Nat.strong_induction_on generalizing l with
  | _ n ih =>
    rcases Nat.eq_zero_or_pos l.length with hzero | hpos
    · rwa [List.length_eq_zero_iff.1 hzero]
    · rcases Nat.lt_or_ge k l.length with hlong | hshort
      · rw [← List.take_append_drop k l]
        exact block _ _ (by rw [List.length_take]; omega) (ih _ (by rw [List.length_drop]; omega) _ rfl)
      · exact one l hpos hshort

end

theorem map_length_blocksOf (k : ℕ) {a c : List Sym} (h : a.length = c.length) :
    (blocksOf k a).map List.length = (blocksOf k c).map List.length := by
  simp only [blocksOf, List.map_map, h]
  exact List.map_congr_left fun i _ => by simp [h]

theorem length_le_of_mem_blocksOf {k : ℕ} {l blk : List Sym} (h : blk ∈ blocksOf k l) : blk.length ≤ k := by
  obtain ⟨i, _, rfl⟩ := List.mem_map.1 h
  exact List.length_take_le _ _

/-- The blocks of an encoding are the code words of the data blocks (R132, R145). -/
theorem blocksOf_flatMap_rsEnc {b p : ℕ} (hp : p < b) (data : List Sym) :
    blocksOf b ((blocksOf (b - p) data).flatMap fun blk => rsEnc blk p) =
      (blocksOf (b - p) data).map fun blk => rsEnc blk p := by
  have hb : 0 < b := by omega
  have hk : 0 < b - p := by omega
  induction data using block_induction hk with
  | nil => simp [blocksOf_nil, hk, hb]
  | one l hpos hshort =>
    have hlen := rsEnc_length l p
    rw [blocksOf_of_le hpos hshort, List.flatMap_singleton, blocksOf_of_le (by omega) (by omega)]
    rfl
  | block blk rest hblk ih =>
    rw [blocksOf_append hk hblk, List.flatMap_cons, List.map_cons,
      blocksOf_append hb (by rw [rsEnc_length]; omega), ih]

theorem fcEncode_withCrc (payload : List Byte) (b p : ℕ) (crc : Bool) :
    fcEncode payload b p crc = fcEncode (withCrc payload crc) b p false := rfl

theorem blocksOf_dilv_fcEncode {b p : ℕ} (hp : p < b) (bytes : List Byte) :
    blocksOf b (dilv (fcEncode bytes b p false) b) =
      (blocksOf (b - p) (b2s bytes)).map fun blk => rsEnc blk p := by
  rw [fcEncode, dilv_ilv (by omega)]
  exact blocksOf_flatMap_rsEnc hp _

/-! ### The distance of two streams (R147, R150) -/

theorem hamming_comm (a c : List Sym) : hamming a c = hamming c a := by
  rw [hamming, hamming, List.zipWith_comm]
  simp only [eq_comm]

theorem hamming_append {a c : List Sym} (h : a.length = c.length) (a' c' : List Sym) :
    hamming (a ++ a') (c ++ c') = hamming a c + hamming a' c' := by
  rw [hamming, List.zipWith_append h, List.sum_append]
  rfl

theorem hamming_le_length (a c : List Sym) : hamming a c ≤ a.length := by
  induction a generalizing c with
  | nil => exact Nat.le_refl 0
  | cons x a ih =>
    cases c with
    | nil => exact Nat.zero_le _
    | cons y c =>
      have hrest := ih c
      rw [hamming] at hrest ⊢
      rw [List.zipWith_cons_cons, List.sum_cons, List.length_cons]
      split <;> omega

theorem hamming_flatten {xs ys : List (List Sym)} (h : xs.map List.length = ys.map List.length) :
    hamming xs.flatten ys.flatten = (List.zipWith hamming xs ys).sum := by
  induction xs generalizing ys with
  | nil => rfl
  | cons x xs ih =>
    cases ys with
    | nil => cases h
    | cons y ys =>
      obtain ⟨hxy, hrest⟩ := List.cons.inj h
      rw [List.flatten_cons, List.flatten_cons, hamming_append hxy, ih hrest]
      rfl

theorem zipWith_ilv {α β γ : Type} (f : α → β → γ) {a : List α} {c : List β} (h : a.length = c.length) {b : ℕ}
    (hb : 0 < b) : List.zipWith f (ilv a b) (ilv c b) = ilv (List.zipWith f a c) b := by
  refine List.ext_getElem? fun k => ?_
  rw [List.getElem?_zipWith, getElem?_ilv hb, getElem?_ilv hb, getElem?_ilv hb, List.length_zipWith, ← h,
    Nat.min_self]
  cases (ilvOrder a.length b)[k]? with
  | none => rfl
  | some i => exact List.getElem?_zipWith.symm

/-- The interleave keeps the distance of two streams. -/
theorem hamming_ilv {a c : List Sym} (h : a.length = c.length) {b : ℕ} (hb : 0 < b) :
    hamming (ilv a b) (ilv c b) = hamming a c := by
  rw [hamming, zipWith_ilv _ h hb]
  exact (ilv_perm _ hb).sum_eq

/-- The wrong symbols of a stream are those of its blocks (R150). -/
theorem sum_hamming_blocksOf_dilv {a c : List Sym} (h : a.length = c.length) {b : ℕ} (hb : 0 < b) :
    (List.zipWith hamming (blocksOf b (dilv a b)) (blocksOf b (dilv c b))).sum = hamming a c := by
  have hlen : (dilv a b).length = (dilv c b).length := by rw [dilv_length, dilv_length, h]
  rw [← hamming_flatten (map_length_blocksOf b hlen), blocksOf_flatten hb, blocksOf_flatten hb, ← hamming_ilv hlen hb,
    ilv_dilv hb, ilv_dilv hb]

/-- Each block of the stream `a` is at a distance of at most `r` from the block of the stream `c` (R150). -/
def BlocksNear (b r : ℕ) (a c : List Sym) : Prop :=
  ∀ (i : ℕ) (got sent : List Sym), (blocksOf b (dilv a b))[i]? = some got → (blocksOf b (dilv c b))[i]? = some sent →
    hamming got sent ≤ r

theorem BlocksNear.refl (b r : ℕ) (a : List Sym) : BlocksNear b r a a := by
  intro i got sent hgot hsent
  obtain rfl := Option.some.inj (hgot.symm.trans hsent)
  rw [hamming_self]
  exact Nat.zero_le r

/-! ### The block loop (R146) -/

section
variable {p : ℕ} {good : List (List Sym)} {res : List (List Sym × ℕ)}
  (h : good.map (fun w => rsDec w p) = res.map some)
include h

/-- The loop goes through the blocks that decode, with the count over them and their data symbols. -/
theorem decodeBlocks_append (rest : List (List Sym)) (ncorr : ℕ) (d : List Sym) :
    decodeBlocks p (good ++ rest) ncorr d = decodeBlocks p rest (ncorr + (res.map Prod.snd).sum)
      (d ++ res.flatMap fun r => r.1.take (r.1.length - p)) := by
  induction good generalizing res ncorr d with
  | nil =>
    obtain rfl : res = [] := by simpa using h.symm
    simp
  | cons w good ih =>
    cases res with
    | nil => cases h
    | cons r res =>
      obtain ⟨hw, hgood⟩ := List.cons.inj h
      obtain ⟨hlen, -⟩ := rsDec_hamming hw
      rw [List.cons_append, decodeBlocks_cons_some hw, ih hgood, List.map_cons, List.sum_cons, List.flatMap_cons, hlen,
        Nat.add_assoc, List.append_assoc]

theorem decodeBlocks_decoded :
    decodeBlocks p good 0 [] = .inr ((res.map Prod.snd).sum, res.flatMap fun r => r.1.take (r.1.length - p)) := by
  have hloop := decodeBlocks_append h [] 0 []
  rwa [List.append_nil, Nat.zero_add, List.nil_append] at hloop

theorem decodeBlocks_bad {bad : List Sym} (hbad : rsDec bad p = none) (rest : List (List Sym)) :
    decodeBlocks p (good ++ bad :: rest) 0 [] = .inl (res.map Prod.snd).sum := by
  rw [decodeBlocks_append h, decodeBlocks_cons_none hbad, Nat.zero_add]

/-- As many data symbols as the blocks have beside their parity (R132). -/
theorem length_decoded : (res.flatMap fun r => r.1.take (r.1.length - p)).length =
    (good.map fun w => w.length - p).sum := by
  induction good generalizing res with
  | nil =>
    obtain rfl : res = [] := by simpa using h.symm
    rfl
  | cons w good ih =>
    cases res with
    | nil => cases h
    | cons r res =>
      obtain ⟨hw, hgood⟩ := List.cons.inj h
      obtain ⟨hlen, -⟩ := rsDec_hamming hw
      rw [List.flatMap_cons, List.length_append, ih hgood, List.map_cons, List.sum_cons, List.length_take, hlen]
      omega

end

/-- The code words `sents` with their distances from the blocks `gots`. -/
def nearResults (gots sents : List (List Sym)) : List (List Sym × ℕ) :=
  (gots.zip sents).map fun q => (q.2, hamming q.1 q.2)

theorem map_fst_nearResults {gots sents : List (List Sym)} (h : gots.length = sents.length) :
    (nearResults gots sents).map Prod.fst = sents := by
  rw [nearResults, List.map_map]
  exact List.map_snd_zip h.ge

theorem map_snd_nearResults (gots sents : List (List Sym)) :
    (nearResults gots sents).map Prod.snd = List.zipWith hamming gots sents := by
  rw [nearResults, List.map_map, List.zip_eq_zipWith, List.map_zipWith]
  rfl

/-- Blocks within the correction radius of code words decode to them (R110). -/
theorem map_rsDec_near {gots sents : List (List Sym)} {p : ℕ}
    (hlens : gots.map List.length = sents.map List.length) (hgot : ∀ w ∈ gots, w.length ≤ 15)
    (hcode : ∀ w ∈ sents, isCodeword w p = true)
    (hnear : ∀ (i : ℕ) (got sent : List Sym), gots[i]? = some got → sents[i]? = some sent → hamming got sent ≤ p / 2) :
    gots.map (fun w => rsDec w p) = (nearResults gots sents).map some := by
  have hcount : gots.length = sents.length := by simpa using congrArg List.length hlens
  refine List.ext_getElem (by simp [nearResults, hcount]) fun i hi _ => ?_
  rw [List.length_map] at hi
  have hi' : i < sents.length := hcount ▸ hi
  have hword : sents[i].length = gots[i].length := by
    have hlen := congrArg (·[i]?) hlens
    simpa [hi, hi'] using hlen.symm
  have hdist := hnear i _ _ (List.getElem?_eq_getElem hi) (List.getElem?_eq_getElem hi')
  rw [hamming_comm] at hdist
  have hdec := rsDec_of_hamming_le (hgot _ (List.getElem_mem hi)) hword (hcode _ (List.getElem_mem hi')) hdist
  simpa [nearResults, hamming_comm] using hdec

/-- The data symbols of the code words are the data (R108, R145). -/
theorem flatMap_take_rsEnc {b p : ℕ} (hp : p < b) (data : List Sym) :
    ((blocksOf (b - p) data).map fun blk => rsEnc blk p).flatMap (fun w => w.take (w.length - p)) = data := by
  have htake : ∀ blk : List Sym, (rsEnc blk p).take ((rsEnc blk p).length - p) = blk := fun blk => by
    rw [rsEnc_length, Nat.add_sub_cancel, take_rsEnc]
  rw [List.flatMap_map, List.flatMap_congr fun blk _ => htake blk, List.flatMap_id', blocksOf_flatten (by omega)]

/-- Blocks within the radius of the code words of an encoding decode to its bytes, with the wrong symbols counted
(R150). -/
theorem decodeBlocks_near {bytes : List Byte} {syms : List Sym} {b p : ℕ} (hp : p < b) (hb : b ≤ 15)
    (hlen : syms.length = (fcEncode bytes b p false).length)
    (hnear : BlocksNear b (p / 2) syms (fcEncode bytes b p false)) :
    decodeBlocks p (blocksOf b (dilv syms b)) 0 [] = .inr (hamming syms (fcEncode bytes b p false), b2s bytes) := by
  have hdist := sum_hamming_blocksOf_dilv hlen (show 0 < b by omega)
  have hlens := map_length_blocksOf b
    (show (dilv syms b).length = (dilv (fcEncode bytes b p false) b).length by rw [dilv_length, dilv_length, hlen])
  have hgot : ∀ w ∈ blocksOf b (dilv syms b), w.length ≤ 15 := fun w hw => (length_le_of_mem_blocksOf hw).trans hb
  have hcode : ∀ w ∈ blocksOf b (dilv (fcEncode bytes b p false) b), isCodeword w p = true := by
    rw [blocksOf_dilv_fcEncode hp]
    intro w hw
    obtain ⟨blk, -, rfl⟩ := List.mem_map.1 hw
    exact isCodeword_rsEnc blk p
  have hcount : (blocksOf b (dilv syms b)).length = (blocksOf b (dilv (fcEncode bytes b p false) b)).length := by
    simpa using congrArg List.length hlens
  have hdata := flatMap_take_rsEnc hp (b2s bytes)
  rw [← blocksOf_dilv_fcEncode hp, ← map_fst_nearResults hcount, List.flatMap_map] at hdata
  rw [decodeBlocks_decoded (map_rsDec_near hlens hgot hcode hnear), map_snd_nearResults, hdist, hdata]

/-! ### The operand tests and the CRC (R123, R132, R146) -/

theorem fcShapeOk_iff {b p : ℕ} : fcShapeOk b p = true ↔ 1 ≤ p ∧ p < b ∧ b ≤ 15 ∧ (b - p) % 2 = 0 := by
  simp [fcShapeOk, and_assoc]

theorem fcDecOk_iff {n b p : ℕ} {crc : Bool} : fcDecOk n b p crc = true ↔ StreamShape n b p crc := by
  simp only [fcDecOk, Bool.and_eq_true, fcShapeOk_iff, Bool.or_eq_true, beq_iff_eq, decide_eq_true_eq,
    Bool.not_eq_true', and_assoc]
  simp only [StreamShape, ceilDiv, Nat.pos_iff_ne_zero, or_iff_not_imp_left, Bool.not_eq_false, and_assoc, ne_eq]

/-- A stream of `NSYM` symbols has a shape that `FCDEC` accepts (R132, R140). -/
theorem streamShape_nsym {len b p : ℕ} {crc : Bool} (hp : 1 ≤ p) (hpb : p < b) (hb : b ≤ 15) (heven : (b - p) % 2 = 0)
    (hcrc : crc = true → 2 ≤ len) : StreamShape (nsym len b p false) b p crc := by
  have hblocks : (nsym len b p false + b - 1) / b = ceilDiv (2 * len) (b - p) := ceilDiv_nsym len hpb false
  have hn : nsym len b p false = 2 * len + p * ceilDiv (2 * len) (b - p) := rfl
  refine ⟨⟨hp, hpb, hb, heven⟩, fun hpos => ?last, fun hc => ?room⟩
  case last =>
    obtain ⟨k, rfl⟩ := Nat.exists_eq_add_of_le hpb.le
    rw [hblocks, hn]
    rw [Nat.add_sub_cancel_left] at heven ⊢
    have hk : 0 < k := by omega
    rcases hm : ceilDiv (2 * len) k with _ | m
    · have hnil := (ceilDiv_le_iff hk).1 hm.le
      rw [hn, Nat.add_sub_cancel_left, hm] at hpos
      omega
    · have hfull : ¬2 * len ≤ k * m := by
        rw [← ceilDiv_le_iff hk]
        omega
      have hpar : k * m % 2 = 0 := by rw [Nat.mul_mod, heven, Nat.zero_mul, Nat.zero_mod]
      rw [Nat.add_sub_cancel, Nat.mul_succ, Nat.mul_add, Nat.mul_comm m p, Nat.mul_comm m k]
      omega
  case room =>
    rw [hblocks, hn, Nat.mul_comm p, Nat.add_sub_cancel]
    have hlen := hcrc hc
    omega

theorem crcBytes_eq_iff {c : U16} {hi lo : Byte} : crcBytes c = [hi, lo] ↔ hi ++ lo = c := by
  simp only [crcBytes, List.cons.injEq, and_true]
  constructor
  · rintro ⟨rfl, rfl⟩
    exact (BitVec.extractLsb'_append_extractLsb'_eq_extractLsb' rfl).trans BitVec.extractLsb'_eq_self
  · rintro rfl
    exact ⟨BitVec.extractLsb'_append_eq_left, BitVec.extractLsb'_append_eq_right⟩

theorem crcStrip_append (body : List Byte) (hi lo : Byte) :
    crcStrip (body ++ [hi, lo]) = if hi ++ lo = crc16 body then some body else none := by
  simp [crcStrip, crcBytes_eq_iff]

theorem withCrc_true_eq (payload : List Byte) :
    ∃ hi lo, withCrc payload true = payload ++ [hi, lo] ∧ hi ++ lo = crc16 payload :=
  ⟨_, _, rfl, crcBytes_eq_iff.1 rfl⟩

/-! ### The outcomes of `FCDEC` (R146) -/

section
variable {syms d : List Sym} {b p n : ℕ} {crc : Bool} (hshape : StreamShape syms.length b p crc)
include hshape

theorem fcDec_of_bad (h : decodeBlocks p (blocksOf b (dilv syms b)) 0 [] = .inl n) :
    fcDec syms b p crc = .uncorrectable n := by
  simp [fcDec, fcDecOk_iff.2 hshape, h]

theorem fcDec_of_decoded (h : decodeBlocks p (blocksOf b (dilv syms b)) 0 [] = .inr (n, d)) :
    (crc = false → fcDec syms b p crc = .done (s2b d) n) ∧
    (crc = true → ∀ body hi lo, s2b d = body ++ [hi, lo] →
      (hi ++ lo = crc16 body → fcDec syms b p crc = .done body n) ∧
      (hi ++ lo ≠ crc16 body → fcDec syms b p crc = .crcMismatch n)) := by
  have hok := fcDecOk_iff.2 hshape
  refine ⟨?noCrc, ?crc⟩
  case noCrc =>
    rintro rfl
    simp [fcDec, hok, h]
  case crc =>
    rintro rfl body hi lo hbytes
    constructor <;> intro hsum <;> simp [fcDec, hok, h, hbytes, crcStrip_append, hsum]

end

theorem fcDec_of_badShape {syms : List Sym} {b p : ℕ} {crc : Bool} (hshape : ¬StreamShape syms.length b p crc) :
    fcDec syms b p crc = .badShape := by
  rw [← fcDecOk_iff] at hshape
  simp [fcDec, hshape]

end Sys2Proof.Machine
end

section
/-! `FCDEC` at the command port (spec/42_frame_codec.md R132, R146; spec/30_encoding.md R88; spec/20_memory.md R51), and
what it makes of an encoding (R149 to R151). -/

namespace Sys2Proof.Machine

/-! ### Reading operands (R88) -/

section
variable {o : Operands} {β : Type} {i : ℕ}

/-- An operation that refuses a value refuses its slot, whether or not the value is an index. -/
theorem int_bind_badOperand {v : ℕ} {f : ℕ → Res β} (h : o.x[i]? = some (.int v)) (hf : f v = .error badOperand) :
    o.int i >>= f = .error badOperand := by
  rcases Nat.lt_or_ge v idxLimit with hv | hv
  · rw [Operands.int_ok h hv, res_bind_ok, hf]
  · rw [Operands.int_out h hv, res_bind_error]

/-- A number of a small range is an index. -/
theorem int_of_le {v n : ℕ} (h : o.x[i]? = some (.int v)) (hv : v ≤ n) (hn : n < idxLimit := by decide) :
    o.int i = .ok v :=
  Operands.int_ok h (lt_of_le_of_lt hv hn)

theorem bit_bind_badOperand {v : ℕ} {f : Bool → Res β} (h : o.x[i]? = some (.int v)) (hv : 1 < v) :
    o.bit i >>= f = .error badOperand := by
  rw [Operands.bit_out h hv, res_bind_error]

end

/-! ### `FCDEC` (R146) -/

section
variable {s : State} {syms : List Sym} {b p : ℕ} {crc : Bool}
  (h : s.operands = ⟨[.int b, .int p, bitSlot crc], [symsBuf syms]⟩)
include h

/-- With operands that can be read `FCDEC` answers what the decoder says. -/
theorem execFcdec_of_read (hp : p ≤ 15) (hb : b ≤ 15) :
    (∀ body n, fcDec syms b p crc = .done body n → execFcdec s = .next (s.ret ⟨[ncorrSlot n], [bytesBuf body]⟩)) ∧
    (∀ n, fcDec syms b p crc = .uncorrectable n → execFcdec s = .next (s.raise ⟨.uncorrectable, [ncorrSlot n]⟩)) ∧
    ∀ n, fcDec syms b p crc = .crcMismatch n → execFcdec s = .next (s.raise ⟨.crc, [ncorrSlot n]⟩) := by
  have hsyms : s.operands.syms 0 = .ok syms := Operands.syms_ok (by rw [h]; rfl)
  have hint0 : s.operands.int 0 = .ok b := int_of_le (by rw [h]; rfl) hb
  have hint1 : s.operands.int 1 = .ok p := int_of_le (by rw [h]; rfl) hp
  have hbit : s.operands.bit 2 = .ok crc := Operands.bit_ok (by rw [h]; rfl)
  refine ⟨fun body n hdec => unitOp_ok ?_, fun n hdec => unitOp_error ?_, fun n hdec => unitOp_error ?_⟩ <;>
    simp [hsyms, hint0, hint1, hbit, hdec]

theorem execFcdec_of_badShape (hdec : fcDec syms b p crc = .badShape) : execFcdec s = .next (s.raise badOperand) := by
  refine unitOp_error ?_
  have hsyms : s.operands.syms 0 = .ok syms := Operands.syms_ok (by rw [h]; rfl)
  have hbit : s.operands.bit 2 = .ok crc := Operands.bit_ok (by rw [h]; rfl)
  rw [hsyms, res_bind_ok]
  refine int_bind_badOperand (v := b) (by rw [h]; rfl) (int_bind_badOperand (v := p) (by rw [h]; rfl) ?_)
  rw [hbit, res_bind_ok, hdec, res_throw]

end

/-- Two bytes at least end in two bytes. -/
theorem exists_eq_append_pair {α : Type} {l : List α} (h : 2 ≤ l.length) : ∃ body hi lo, l = body ++ [hi, lo] := by
  have htwo : (l.drop (l.length - 2)).length = 2 := by
    rw [List.length_drop]
    omega
  obtain ⟨hi, lo, hlast⟩ := List.length_eq_two.1 htwo
  exact ⟨l.take (l.length - 2), hi, lo, by rw [← hlast, List.take_append_drop]⟩

/-- A stream with a CRC has room for its two bytes (R132). -/
theorem two_le_length_decoded {syms : List Sym} {b p : ℕ} {res : List (List Sym × ℕ)}
    (hshape : StreamShape syms.length b p true)
    (h : (blocksOf b (dilv syms b)).map (fun w => rsDec w p) = res.map some) :
    2 ≤ (s2b (res.flatMap fun r => r.1.take (r.1.length - p))).length := by
  have hok := fcDecOk_iff.2 hshape
  obtain ⟨-, -, hroom⟩ := hshape
  have hfour : 4 ≤ syms.length - ceilDiv syms.length b * p := hroom rfl
  rw [← dilv_length syms b] at hok hfour
  rw [s2b_length, length_decoded h, sum_data_of_fcDecOk hok]
  omega

/-- Settles O29: the block loop's outcome, followed through the decoder to the answer. -/
theorem fcdecStopsAtTheFirstBadBlock : Obligations.FcdecStopsAtTheFirstBadBlock := by
  refine ⟨fun s syms b p crc h => ⟨fun hshape => ?shape, fun hshape => ?badShape⟩,
    fun s syms b p flag hflag h => ?flag, fun s x vs h hv => ?symbols⟩
  case shape =>
    obtain ⟨-, hpb, hb, -⟩ := hshape.1
    obtain ⟨hdone, huncorrectable, hmismatch⟩ := execFcdec_of_read h (by omega) hb
    refine ⟨fun good bad rest res hblocks hgood hbad => ⟨ncorrWord _, ncorrWord_of_lt, ?stops⟩,
      fun res bytes hres hbytes => ⟨ncorrWord _, ncorrWord_of_lt, fun hcrc => ?noCrc, fun hcrc => ?crc⟩⟩
    case stops =>
      have hloop := decodeBlocks_bad hgood hbad rest
      rw [← hblocks] at hloop
      exact huncorrectable _ (fcDec_of_bad hshape hloop)
    case noCrc =>
      obtain ⟨hdec, -⟩ := fcDec_of_decoded hshape (decodeBlocks_decoded hres)
      exact hbytes ▸ hdone _ _ (hdec hcrc)
    case crc =>
      obtain ⟨body, hi, lo, hsplit⟩ := exists_eq_append_pair (two_le_length_decoded (hcrc ▸ hshape) hres)
      obtain ⟨-, hdec⟩ := fcDec_of_decoded hshape (decodeBlocks_decoded hres)
      obtain ⟨hmatch, hwrong⟩ := hdec hcrc body hi lo hsplit
      exact ⟨body, hi, lo, hbytes.trans hsplit, fun hsum => hdone _ _ (hmatch hsum),
        fun hsum => hmismatch _ (hwrong hsum)⟩
  case badShape => exact execFcdec_of_badShape h (fcDec_of_badShape hshape)
  case flag =>
    rw [exec_fcdec]
    refine unitOp_error ?_
    rw [Operands.syms_ok (ss := syms) (by rw [h]; rfl), res_bind_ok]
    exact int_bind_badOperand (v := b) (by rw [h]; rfl) (int_bind_badOperand (v := p) (by rw [h]; rfl)
      (bit_bind_badOperand (by rw [h]; rfl) hflag))
  case symbols =>
    rw [exec_fcdec]
    exact unitOp_error (by rw [syms_operands_out h hv, res_bind_error])

/-! ### Decoding an encoding (R149, R150, R151) -/

theorem decodeBlocks_fcEncode (bytes : List Byte) {b p : ℕ} (hp : p < b) (hb : b ≤ 15) :
    decodeBlocks p (blocksOf b (dilv (fcEncode bytes b p false) b)) 0 [] = .inr (0, b2s bytes) := by
  have hnear := decodeBlocks_near hp hb rfl (BlocksNear.refl b (p / 2) (fcEncode bytes b p false))
  rwa [hamming_self] at hnear

theorem streamShape_fcEncode {bytes : List Byte} {b p : ℕ} {crc : Bool} (hp : 1 ≤ p) (hpb : p < b) (hb : b ≤ 15)
    (heven : (b - p) % 2 = 0) (hcrc : crc = true → 2 ≤ bytes.length) :
    StreamShape (fcEncode bytes b p false).length b p crc := by
  rw [fcEncode_length _ hpb]
  exact streamShape_nsym hp hpb hb heven hcrc

/-- Settles O28: the blocks are code words, so the loop gives the bytes back, whose CRC does not match. -/
theorem wrongCrcIsCaught : Obligations.WrongCrcIsCaught := by
  intro s body hi lo b p hp hpb hb heven hwrong h
  have hshape := streamShape_fcEncode (bytes := body ++ [hi, lo]) hp hpb hb heven fun _ : true = true => by simp
  obtain ⟨-, hdec⟩ := fcDec_of_decoded hshape (decodeBlocks_fcEncode _ hpb hb)
  obtain ⟨-, hmismatch⟩ := hdec rfl body hi lo (s2b_b2s _)
  obtain ⟨-, -, hanswer⟩ := execFcdec_of_read h (by omega) hb
  simpa using hanswer 0 (hmismatch hwrong)

/-- A stream near the encoding of a payload decodes to the payload (R150). -/
theorem fcDec_near {payload : List Byte} {b p : ℕ} {crc : Bool} {syms : List Sym} (hp : 1 ≤ p) (hpb : p < b)
    (hb : b ≤ 15) (heven : (b - p) % 2 = 0) (hlen : syms.length = (fcEncode payload b p crc).length)
    (hnear : BlocksNear b (p / 2) syms (fcEncode payload b p crc)) :
    fcDec syms b p crc = .done payload (hamming syms (fcEncode payload b p crc)) := by
  rw [fcEncode_withCrc] at hlen hnear ⊢
  have hshape : StreamShape syms.length b p crc := by
    rw [hlen]
    refine streamShape_fcEncode hp hpb hb heven fun hcrc => ?_
    rw [withCrc_length, hcrc, Bool.toNat_true]
    omega
  obtain ⟨hplain, hcrc⟩ := fcDec_of_decoded hshape (decodeBlocks_near hpb hb hlen hnear)
  rw [s2b_b2s] at hplain hcrc
  cases crc with
  | false => exact hplain rfl
  | true =>
    obtain ⟨hi, lo, hbytes, hsum⟩ := withCrc_true_eq payload
    exact (hcrc rfl payload hi lo hbytes).1 hsum

/-- A payload of at most 255 bytes has a stream whose every symbol a `U32` can count (R140). -/
theorem fcEncode_length_lt {payload : List Byte} {b p : ℕ} (crc : Bool) (hpb : p < b) (hb : b ≤ 15)
    (hlen : payload.length ≤ 255) : (fcEncode payload b p crc).length < 2 ^ 32 := by
  have hblocks : ceilDiv (2 * (payload.length + 2 * crc.toNat)) (b - p) ≤ 2 * (payload.length + 2 * crc.toNat) :=
    (ceilDiv_le_iff (by omega)).2 (Nat.le_mul_of_pos_left _ (by omega))
  have hcrc := crc.toNat_le
  have hparity := Nat.mul_le_mul (show p ≤ 15 by omega) hblocks
  rw [fcEncode_length _ hpb, nsym]
  omega

/-- Settles O27: every block decodes to its code word, with its wrong symbols counted; without a wrong symbol the count
is 0. -/
theorem codecRoundTrip : Obligations.CodecRoundTrip := by
  intro s payload b p crc hp hpb hb heven hlen
  have hsmall := fcEncode_length_lt crc hpb hb hlen
  have hnearest : ∀ syms, s.operands = ⟨[.int b, .int p, bitSlot crc], [symsBuf syms]⟩ →
      syms.length = (fcEncode payload b p crc).length → BlocksNear b (p / 2) syms (fcEncode payload b p crc) →
      exec .fcdec s = .next (s.ret ⟨[.int (hamming syms (fcEncode payload b p crc))], [bytesBuf payload]⟩) := by
    intro syms h hsyms hnear
    obtain ⟨hanswer, -⟩ := execFcdec_of_read h (by omega) hb
    have hcount := hamming_le_length syms (fcEncode payload b p crc)
    have hdone := hanswer _ _ (fcDec_near hp hpb hb heven hsyms hnear)
    rwa [ncorrSlot_of_lt (by omega)] at hdone
  refine ⟨fun h => ?_, hnearest⟩
  have hsame := hnearest _ h rfl (BlocksNear.refl b (p / 2) _)
  rwa [hamming_self] at hsame

end Sys2Proof.Machine
end

section
/-! The interleave, header and encode operations at the command port (spec/42_frame_codec.md R133, R134, R142 to R145;
spec/20_memory.md R51; spec/60_exceptions.md R318). -/

namespace Sys2Proof.Machine

/-! ### `ILV` and `DILV` (R142, R143) -/

section
variable {s : State} {syms : List Sym} {b : ℕ} (h : s.operands = ⟨[.int b], [symsBuf syms]⟩)
include h

theorem ilvBlock_of_range (hb : 1 ≤ b ∧ b ≤ 65535) : ilvBlock s.operands = .ok b := by
  have hint : s.operands.int 0 = .ok b := int_of_le (by rw [h]; rfl) hb.2
  simp [ilvBlock, hint, hb]

theorem ilvBlock_of_not_range (hb : ¬(1 ≤ b ∧ b ≤ 65535)) : ilvBlock s.operands = .error badOperand := by
  have htest : (decide (1 ≤ b) && decide (b ≤ 65535)) = false := by simpa using hb
  refine int_bind_badOperand (v := b) (by rw [h]; rfl) ?_
  rw [htest, require_false, res_bind_error]

end

/-- Settles O23, by the two readings of the block size. -/
theorem interleaveOperationsComplete : Obligations.InterleaveOperationsComplete := by
  refine ⟨fun s x vs h hv => ?symbols, fun s syms b h => ⟨fun hb => ?legal, fun hb => ?illegal⟩⟩
  case symbols =>
    have hsyms := syms_operands_out h hv
    rw [exec_ilv, exec_dilv]
    exact ⟨unitOp_error (by rw [hsyms, res_bind_error]), unitOp_error (by rw [hsyms, res_bind_error])⟩
  case legal =>
    have hsyms := syms_operands h
    have hblock := ilvBlock_of_range h hb
    rw [exec_ilv, exec_dilv]
    exact ⟨unitOp_ok (by rw [hsyms, res_bind_ok, hblock]; rfl), unitOp_ok (by rw [hsyms, res_bind_ok, hblock]; rfl)⟩
  case illegal =>
    have hsyms := syms_operands h
    have hblock := ilvBlock_of_not_range h hb
    rw [exec_ilv, exec_dilv]
    exact ⟨unitOp_error (by rw [hsyms, res_bind_ok, hblock, res_bind_error]),
      unitOp_error (by rw [hsyms, res_bind_ok, hblock, res_bind_error])⟩

/-! ### The header (R133, R134) -/

/-- The second header byte as a number (R78). -/
theorem headerByte_eq {level : ℕ} (hlevel : level < 4) (crc : Bool) :
    ((BitVec.ofBool crc).setWidth 8 <<< 3 ||| (BitVec.ofNat 2 level).setWidth 8 : Byte) =
      BitVec.ofNat 8 (8 * crc.toNat + level) := by
  revert level crc
  decide

/-- The three header bytes as numbers (R133). -/
theorem bytesBuf_hdrEnc {len level : ℕ} {crc : Bool} (hlen : len ≤ 255) (hlevel : level < 4) :
    bytesBuf (hdrEnc (BitVec.ofNat 8 len) (BitVec.ofNat 2 level) crc) =
      .ints [(len : Int), ((8 * crc.toNat + level : ℕ) : Int),
        ((chk8 [BitVec.ofNat 8 len, BitVec.ofNat 8 (8 * crc.toNat + level)]).toNat : Int)] := by
  have hcrc := crc.toNat_le
  have hfirst : (BitVec.ofNat 8 len).toNat = len := Nat.mod_eq_of_lt (by omega)
  have hsecond : (BitVec.ofNat 8 (8 * crc.toNat + level)).toNat = 8 * crc.toNat + level :=
    Nat.mod_eq_of_lt (by omega)
  rw [bytesBuf, hdrEnc, headerByte_eq hlevel]
  simp only [List.map_cons, List.map_nil, hfirst, hsecond]

theorem headerLevel_toNat (b1 : Byte) : (b1.extractLsb' 0 2).toNat = b1.toNat % 4 := by
  rw [BitVec.extractLsb'_toNat, Nat.shiftRight_zero]

theorem headerFlag_toNat (b1 : Byte) : (b1.getLsbD 3).toNat = b1.toNat / 8 % 2 := by
  rw [BitVec.getLsbD, Nat.toNat_testBit]

section
variable {c : Cfg}

theorem hdrDec_of_tests {b0 b1 b2 : Byte} (h : chk8 [b0, b1] = b2 ∧ b1.toNat % 4 < c.nlev) :
    hdrDec c [b0, b1, b2] = .ok { len := b0, level := b1.extractLsb' 0 2, crc := b1.getLsbD 3 } := by
  obtain ⟨hsum, hlevel⟩ := h
  rw [← headerLevel_toNat] at hlevel
  simp only [hdrDec, hsum, ne_eq, not_true_eq_false, if_false, Nat.not_le.2 hlevel]

theorem hdrDec_of_not_tests {b0 b1 b2 : Byte} (h : ¬(chk8 [b0, b1] = b2 ∧ b1.toNat % 4 < c.nlev)) :
    hdrDec c [b0, b1, b2] = .error (plainFail .hdrchk) := by
  rw [← headerLevel_toNat] at h
  by_cases hsum : chk8 [b0, b1] = b2
  · have hlevel : c.nlev ≤ (b1.extractLsb' 0 2).toNat := Nat.not_lt.1 fun hlt => h ⟨hsum, hlt⟩
    simp only [hdrDec, hsum, ne_eq, not_true_eq_false, if_false, hlevel, if_true]
  · simp only [hdrDec, ne_eq, hsum, not_false_eq_true, if_true]

theorem hdrDec_of_length {hdr : List Byte} (h : hdr.length ≠ 3) : hdrDec c hdr = .error badOperand := by
  unfold hdrDec
  split
  · exact absurd rfl h
  · rfl

end

section
variable {s : State}

theorem execHdrdec_of_error {bs : List Byte} {f : Fail} (h : s.operands = ⟨[], [bytesBuf bs]⟩)
    (hdec : hdrDec s.cfg bs = .error f) : execHdrdec s = .next (s.raise f) :=
  unitOp_error (by rw [bytes_operands h, res_bind_ok, hdec, res_bind_error])

section
variable {len level : ℕ} {crc : Bool} (h : s.operands = ⟨[.int len, .int level, bitSlot crc], []⟩)
include h

theorem execHdrenc_of_range (hnlev : s.cfg.nlev ≤ 4) (hrange : len ≤ 255 ∧ level < s.cfg.nlev) :
    execHdrenc s =
      .next (s.ret ⟨[], [bytesBuf (hdrEnc (BitVec.ofNat 8 len) (BitVec.ofNat 2 level) crc)]⟩) := by
  obtain ⟨hlen, hlevel⟩ := hrange
  have hint0 : s.operands.int 0 = .ok len := int_of_le (by rw [h]; rfl) hlen
  have hint1 : s.operands.int 1 = .ok level := int_of_le (n := 4) (by rw [h]; rfl) (by omega)
  have hbit : s.operands.bit 2 = .ok crc := Operands.bit_ok (by rw [h]; rfl)
  refine unitOp_ok ?_
  simp [hint0, hint1, hbit, hlen, hlevel]

theorem execHdrenc_of_not_range (hrange : ¬(len ≤ 255 ∧ level < s.cfg.nlev)) :
    execHdrenc s = .next (s.raise badOperand) := by
  have hbit : s.operands.bit 2 = .ok crc := Operands.bit_ok (by rw [h]; rfl)
  have htest : (decide (len ≤ 255) && decide (level < s.cfg.nlev)) = false := by simpa using hrange
  refine unitOp_error (int_bind_badOperand (v := len) (by rw [h]; rfl)
    (int_bind_badOperand (v := level) (by rw [h]; rfl) ?_))
  rw [hbit, res_bind_ok, htest, require_false, res_bind_error]

end
end

/-- Settles O24: the layout of the bytes as numbers, and the decoder's tests in their order. -/
theorem headerOperationsComplete : Obligations.HeaderOperationsComplete := by
  refine ⟨fun s len level crc hwf h => ⟨fun hrange => ?encodes, fun hrange => execHdrenc_of_not_range h hrange⟩,
    fun s len level flag h hflag => ?flag,
    fun s b0 b1 b2 h => ⟨fun htests => ?decodes, fun htests => execHdrdec_of_error h (hdrDec_of_not_tests htests)⟩,
    fun s bs h hlen => execHdrdec_of_error h (hdrDec_of_length hlen), fun s x vs h hv => ?bytes⟩
  case encodes =>
    obtain ⟨_, hnlev, _⟩ := Cfg.nlev_range hwf
    rw [exec_hdrenc, execHdrenc_of_range h hnlev hrange, bytesBuf_hdrEnc hrange.1 (by omega)]
  case flag =>
    rw [exec_hdrenc]
    exact unitOp_error (int_bind_badOperand (v := len) (by rw [h]; rfl)
      (int_bind_badOperand (v := level) (by rw [h]; rfl) (bit_bind_badOperand (by rw [h]; rfl) hflag)))
  case decodes =>
    rw [exec_hdrdec, ← headerLevel_toNat, ← headerFlag_toNat]
    exact unitOp_ok (by rw [bytes_operands h, res_bind_ok, hdrDec_of_tests htests]; rfl)
  case bytes =>
    rw [exec_hdrdec]
    exact unitOp_error (by rw [bytes_operands_out h hv, res_bind_error])

/-! ### `FCENC` and `FCENCB` (R144, R145) -/

section
variable {payload : List Byte} {b p : ℕ} {crc : Bool}

theorem fcEncB_of_shape (hshape : fcShapeOk b p = true) (hlen : payload.length ≤ 255) :
    fcEncB payload b p crc = .ok (fcEncode payload b p crc) := by
  rw [fcEncB, if_neg (not_not.2 hshape), if_neg (Nat.not_lt.2 hlen)]

theorem fcEncB_of_long (hshape : fcShapeOk b p = true) (hlen : 255 < payload.length) :
    fcEncB payload b p crc = .error (plainFail .length) := by
  rw [fcEncB, if_neg (not_not.2 hshape)]
  exact if_pos hlen

theorem fcEncB_of_not_shape (hshape : ¬fcShapeOk b p = true) :
    fcEncB payload b p crc = .error badOperand :=
  if_pos hshape

theorem fcEnc_of_eccAt {c : Cfg} {level : ℕ} (h : c.eccAt level = some (b, p)) :
    fcEnc c payload level crc = fcEncB payload b p crc := by
  rw [fcEnc, h]

theorem fcEnc_of_nlev_le {c : Cfg} {level : ℕ} (h : c.nlev ≤ level) :
    fcEnc c payload level crc = .error badOperand := by
  rw [fcEnc, Cfg.eccAt_none_iff.2 h]

section
variable {s : State} (h : s.operands = ⟨[.int b, .int p, bitSlot crc], [bytesBuf payload]⟩)
include h

/-- With operands that can be read `FCENCB` answers what the encoder says. -/
theorem execFcencb_of_read (hp : p ≤ 15) (hb : b ≤ 15) :
    (∀ syms, fcEncB payload b p crc = .ok syms → execFcencb s = .next (s.ret ⟨[], [symsBuf syms]⟩)) ∧
    ∀ f, fcEncB payload b p crc = .error f → execFcencb s = .next (s.raise f) := by
  have hbytes : s.operands.bytes 0 = .ok payload := Operands.bytes_ok (by rw [h]; rfl)
  have hint0 : s.operands.int 0 = .ok b := int_of_le (by rw [h]; rfl) hb
  have hint1 : s.operands.int 1 = .ok p := int_of_le (by rw [h]; rfl) hp
  have hbit : s.operands.bit 2 = .ok crc := Operands.bit_ok (by rw [h]; rfl)
  refine ⟨fun syms henc => unitOp_ok ?_, fun f henc => unitOp_error ?_⟩ <;>
    simp [hbytes, hint0, hint1, hbit, henc]

theorem execFcencb_of_not_shape (hshape : ¬fcShapeOk b p = true) :
    execFcencb s = .next (s.raise badOperand) := by
  have hbit : s.operands.bit 2 = .ok crc := Operands.bit_ok (by rw [h]; rfl)
  refine unitOp_error ?_
  rw [Operands.bytes_ok (bs := payload) (by rw [h]; rfl), res_bind_ok]
  refine int_bind_badOperand (v := b) (by rw [h]; rfl) (int_bind_badOperand (v := p) (by rw [h]; rfl) ?_)
  rw [hbit, res_bind_ok, fcEncB_of_not_shape hshape, res_bind_error]

end

section
variable {s : State} {level : ℕ} (h : s.operands = ⟨[.int level, bitSlot crc], [bytesBuf payload]⟩)
include h

/-- With a level that can be read `FCENC` answers what the encoder says. -/
theorem execFcenc_of_read (hlevel : level ≤ 4) :
    (∀ syms, fcEnc s.cfg payload level crc = .ok syms → execFcenc s = .next (s.ret ⟨[], [symsBuf syms]⟩)) ∧
    ∀ f, fcEnc s.cfg payload level crc = .error f → execFcenc s = .next (s.raise f) := by
  have hbytes : s.operands.bytes 0 = .ok payload := Operands.bytes_ok (by rw [h]; rfl)
  have hint : s.operands.int 0 = .ok level := int_of_le (by rw [h]; rfl) hlevel
  have hbit : s.operands.bit 1 = .ok crc := Operands.bit_ok (by rw [h]; rfl)
  refine ⟨fun syms henc => unitOp_ok ?_, fun f henc => unitOp_error ?_⟩ <;> simp [hbytes, hint, hbit, henc]

theorem execFcenc_of_nlev_le (hlevel : s.cfg.nlev ≤ level) : execFcenc s = .next (s.raise badOperand) := by
  have hbit : s.operands.bit 1 = .ok crc := Operands.bit_ok (by rw [h]; rfl)
  refine unitOp_error ?_
  rw [Operands.bytes_ok (bs := payload) (by rw [h]; rfl), res_bind_ok]
  refine int_bind_badOperand (v := level) (by rw [h]; rfl) ?_
  rw [hbit, res_bind_ok, fcEnc_of_nlev_le hlevel, res_bind_error]

end

theorem eccAt_level_shape {c : Cfg} (hwf : c.wf = true) {level : ℕ} (h : c.eccAt level = some (b, p)) :
    level ≤ 4 ∧ fcShapeOk b p = true := by
  obtain ⟨_, hnlev, _⟩ := Cfg.nlev_range hwf
  obtain ⟨hp, hpb, hb, heven, _⟩ := Cfg.eccAt_shape hwf h
  have hlevel := Cfg.eccAt_some_iff.1 ⟨_, h⟩
  exact ⟨by omega, fcShapeOk_iff.2 ⟨hp, hpb, hb, heven⟩⟩

end

/-- Settles O26: the encoder's outcomes in the order of its tests, and the length of the stream. -/
theorem encodeOperationsComplete : Obligations.EncodeOperationsComplete := by
  simp only [Obligations.EncodeOperationsComplete, ← fcShapeOk_iff]
  refine ⟨fun s x vs h hv => ?bytes,
    fun s payload b p crc h => ⟨fun hshape hlen => ?completes, fun hshape hlen => ?long,
      fun hshape => execFcencb_of_not_shape h hshape⟩,
    fun s payload level crc hwf h => ⟨fun b p hecc hlen => ?level, fun hlevel hlen => ?levelLong,
      fun hlevel => execFcenc_of_nlev_le h hlevel⟩,
    fun s payload b p level flag hflag => ⟨fun h => ?flag, fun h => ?levelFlag⟩⟩
  case bytes =>
    have hbytes := bytes_operands_out h hv
    rw [exec_fcenc, exec_fcencb]
    exact ⟨unitOp_error (by rw [hbytes, res_bind_error]), unitOp_error (by rw [hbytes, res_bind_error])⟩
  case completes =>
    obtain ⟨_, hpb, hb, _⟩ := fcShapeOk_iff.1 hshape
    obtain ⟨hanswer, -⟩ := execFcencb_of_read h (by omega) hb
    exact ⟨hanswer _ (fcEncB_of_shape hshape hlen), fcEncode_length payload hpb crc⟩
  case long =>
    obtain ⟨_, hpb, hb, _⟩ := fcShapeOk_iff.1 hshape
    obtain ⟨-, hrefusal⟩ := execFcencb_of_read h (by omega) hb
    exact hrefusal _ (fcEncB_of_long hshape hlen)
  case level =>
    obtain ⟨hlevel, hshape⟩ := eccAt_level_shape hwf hecc
    obtain ⟨hanswer, -⟩ := execFcenc_of_read h hlevel
    exact hanswer _ ((fcEnc_of_eccAt hecc).trans (fcEncB_of_shape hshape hlen))
  case levelLong =>
    obtain ⟨⟨b, p⟩, hecc⟩ := Cfg.eccAt_some_iff.2 hlevel
    obtain ⟨hlevel, hshape⟩ := eccAt_level_shape hwf hecc
    obtain ⟨-, hrefusal⟩ := execFcenc_of_read h hlevel
    exact hrefusal _ ((fcEnc_of_eccAt hecc).trans (fcEncB_of_long hshape hlen))
  case flag =>
    rw [exec_fcencb]
    refine unitOp_error ?_
    rw [Operands.bytes_ok (bs := payload) (by rw [h]; rfl), res_bind_ok]
    exact int_bind_badOperand (v := b) (by rw [h]; rfl) (int_bind_badOperand (v := p) (by rw [h]; rfl)
      (bit_bind_badOperand (by rw [h]; rfl) hflag))
  case levelFlag =>
    rw [exec_fcenc]
    refine unitOp_error ?_
    rw [Operands.bytes_ok (bs := payload) (by rw [h]; rfl), res_bind_ok]
    exact int_bind_badOperand (v := level) (by rw [h]; rfl) (bit_bind_badOperand (by rw [h]; rfl) hflag)

end Sys2Proof.Machine
end

section
/-! The streaming Goertzel analyzer on the numbers (spec/43_goertzel_analyzer.md R162, R166, R171, R172): a fold over
the samples, whose magnitude grows by at most the size of each sample. -/

namespace Sys2Proof.Machine

/-! ### Ranges of samples (R164, R171) -/

section
variable {α : Type} {lo mid hi : ℕ}

/-- A range of a buffer is its lower part followed by its upper part. -/
theorem take_drop_split (hlo : lo ≤ mid) (hhi : mid ≤ hi) (l : List α) :
    (l.drop lo).take (hi - lo) = (l.drop lo).take (mid - lo) ++ (l.drop mid).take (hi - mid) := by
  have hlen : hi - lo = (mid - lo) + (hi - mid) := by omega
  have hstart : lo + (mid - lo) = mid := by omega
  rw [hlen, List.take_add, List.drop_drop, hstart]

theorem length_take_drop {l : List α} (hhi : hi ≤ l.length) : ((l.drop lo).take (hi - lo)).length = hi - lo := by
  rw [List.length_take, List.length_drop]
  omega

end

section
variable (c : Cfg) (f : RealVal) (n : ℕ) (hw : Bool) (g : GzState)

theorem gzFold_append (xs ys : List RealVal) :
    gzFold c f n hw g (xs ++ ys) = gzFold c f n hw (gzFold c f n hw g xs) ys :=
  List.foldl_append

/-- Every sample is counted. -/
theorem gzFold_n (xs : List RealVal) : (gzFold c f n hw g xs).n = g.n + xs.length := by
  induction xs generalizing g with
  | nil => rfl
  | cons x xs ih =>
    rw [gzFold_cons, ih, gzStep_n, List.length_cons]
    omega

/-! ### The magnitude bounds both terms (R166, R172) -/

/-- The angle `omega` of R161. -/
noncomputable def gzOmega : ℝ := 2 * Real.pi * (f.toReal / c.fs.toReal)

theorem gzOmega_eq : gzOmega c f = 2 * Real.pi * (f.toReal / c.fs.toReal) := rfl

variable {c f} in
/-- Below half the rate the angle lies strictly between 0 and `pi`. -/
theorem sin_gzOmega_pos (hf : 0 < f.toReal) (hhalf : f.toReal < c.fs.toReal / 2) : 0 < Real.sin (gzOmega c f) := by
  have hfs : 0 < c.fs.toReal := by linarith
  have hratio : f.toReal / c.fs.toReal < 1 / 2 := by
    rw [div_lt_iff₀ hfs]
    linarith
  refine Real.sin_pos_of_pos_of_lt_pi (mul_pos Real.two_pi_pos (div_pos hf hfs)) ?_
  calc gzOmega c f < 2 * Real.pi * (1 / 2) := mul_lt_mul_of_pos_left hratio Real.two_pi_pos
    _ = Real.pi := by ring

/-- The magnitude as a sum of two squares, one of them of the first term. -/
theorem toReal_gzM2_eq_s1 : (gzM2 c f g).toReal =
    (Real.cos (gzOmega c f) * g.s1.toReal - g.s2.toReal) ^ 2 + (Real.sin (gzOmega c f) * g.s1.toReal) ^ 2 := by
  rw [toReal_gzM2, ← gzOmega_eq]
  linear_combination -(g.s1.toReal ^ 2) * Real.cos_sq_add_sin_sq (gzOmega c f)

/-- The magnitude as a sum of two squares, one of them of the second term. -/
theorem toReal_gzM2_eq_s2 : (gzM2 c f g).toReal =
    (g.s1.toReal - Real.cos (gzOmega c f) * g.s2.toReal) ^ 2 + (Real.sin (gzOmega c f) * g.s2.toReal) ^ 2 := by
  rw [toReal_gzM2, ← gzOmega_eq]
  linear_combination -(g.s2.toReal ^ 2) * Real.cos_sq_add_sin_sq (gzOmega c f)

variable {c f g} in
/-- A magnitude of at most `r` leaves both terms at most `r / sin(omega)`. -/
theorem abs_terms_le_of_gzM2_le (hsin : 0 < Real.sin (gzOmega c f)) {r : ℝ} (hr : 0 ≤ r)
    (hm : (gzM2 c f g).toReal ≤ r ^ 2) :
    |g.s1.toReal| ≤ r / Real.sin (gzOmega c f) ∧ |g.s2.toReal| ≤ r / Real.sin (gzOmega c f) := by
  have hscale : ∀ a : ℝ, (Real.sin (gzOmega c f) * a) ^ 2 ≤ r ^ 2 → |a| ≤ r / Real.sin (gzOmega c f) := by
    intro a ha
    have habs := abs_le_of_sq_le_sq ha hr
    rwa [abs_mul, abs_of_pos hsin, mul_comm, ← le_div_iff₀ hsin] at habs
  constructor
  · rw [toReal_gzM2_eq_s1] at hm
    exact hscale _ (le_of_add_le_of_nonneg_right hm (sq_nonneg _))
  · rw [toReal_gzM2_eq_s2] at hm
    exact hscale _ (le_of_add_le_of_nonneg_right hm (sq_nonneg _))

/-! ### The magnitude grows by at most 1 a sample (R172) -/

/-- What a sample enters the recurrence as (R162): weighted by the window, if there is one. -/
noncomputable def gzWeighted (x : RealVal) : ℝ := x.toReal * (if hw then (hannW g.n n).toReal else 1)

variable {x : RealVal}

theorem gzWeighted_eq (x : RealVal) :
    gzWeighted n hw g x = x.toReal * (if hw then (hannW g.n n).toReal else 1) := rfl

theorem abs_gzWeighted_le (hx : |x.toReal| ≤ 1) : |gzWeighted n hw g x| ≤ 1 := by
  have hweight : |if hw then (hannW g.n n).toReal else 1| ≤ 1 := by
    obtain ⟨hpos, hone⟩ := hannW_range g.n n
    split
    · exact abs_le.2 ⟨by linarith, hone⟩
    · exact abs_one.le
  rw [gzWeighted_eq, abs_mul]
  exact mul_le_one₀ hx (abs_nonneg _) hweight

/-- A step turns the terms by `omega`, which keeps the magnitude, and adds the sample to one of the two parts. -/
theorem toReal_gzM2_gzStep (x : RealVal) : (gzM2 c f (gzStep c f n hw g x)).toReal =
    (gzWeighted n hw g x + (Real.cos (gzOmega c f) * g.s1.toReal - g.s2.toReal)) ^ 2 +
      (Real.sin (gzOmega c f) * g.s1.toReal) ^ 2 := by
  rw [toReal_gzM2_eq_s2, gzStep_s2, gzStep_s1, ← gzOmega_eq, ← gzWeighted_eq]
  ring

variable {g} in
/-- The part a sample adds to is itself at most the root of the magnitude. -/
theorem gzM2_gzStep_le {r : ℝ} (hr : 0 ≤ r) (hm : (gzM2 c f g).toReal ≤ r ^ 2) (hx : |x.toReal| ≤ 1) :
    (gzM2 c f (gzStep c f n hw g x)).toReal ≤ (r + 1) ^ 2 := by
  have hsample := abs_gzWeighted_le n hw g hx
  rw [toReal_gzM2_eq_s1] at hm
  rw [toReal_gzM2_gzStep]
  generalize gzWeighted n hw g x = w at hsample ⊢
  generalize Real.cos (gzOmega c f) * g.s1.toReal - g.s2.toReal = u at hm ⊢
  have hu : |u| ≤ r := abs_le_of_sq_le_sq (le_of_add_le_of_nonneg_left hm (sq_nonneg _)) hr
  have hsq : w ^ 2 ≤ 1 := (sq_le_one_iff_abs_le_one w).2 hsample
  have hcross : w * u ≤ 1 * r := (le_abs_self _).trans (abs_mul w u ▸ mul_le_mul hsample hu (abs_nonneg u) zero_le_one)
  linarith [add_sq w u, add_sq r 1]

variable {g} in
theorem gzM2_gzFold_le {xs : List RealVal} {r : ℝ} (hr : 0 ≤ r) (hm : (gzM2 c f g).toReal ≤ r ^ 2)
    (hxs : ∀ x ∈ xs, |x.toReal| ≤ 1) : (gzM2 c f (gzFold c f n hw g xs)).toReal ≤ (r + xs.length) ^ 2 := by
  induction xs generalizing g r with
  | nil => simpa using hm
  | cons x xs ih =>
    obtain ⟨hx, hrest⟩ := List.forall_mem_cons.1 hxs
    have hstep := gzM2_gzStep_le c f n hw hr hm hx
    rw [gzFold_cons, List.length_cons, Nat.cast_add_one, add_comm (xs.length : ℝ), ← add_assoc]
    exact ih (add_nonneg hr zero_le_one) hstep hrest

variable {g} in
theorem toReal_gzM2_rest (hg : g.Rest) : (gzM2 c f g).toReal = 0 := by
  obtain ⟨h1, h2⟩ := hg
  rw [toReal_gzM2, h1, h2]
  ring

end

/-- Settles O31: the record is a fold over the samples, and its magnitude, which bounds both terms, grows by at most 1 a
sample. -/
theorem analyzerSplittingIsInvisible : Obligations.AnalyzerSplittingIsInvisible := by
  refine ⟨fun c f n hw g buf lo mid hi hlo hhi _ => ?ranges, gzFold_append,
    fun c f n hw xs _ hf hhalf _ hxs => ?bound⟩
  case ranges => rw [take_drop_split hlo hhi, gzFold_append]
  case bound =>
    have hstart : (gzM2 c f GzState.zero).toReal ≤ 0 ^ 2 := by
      rw [toReal_gzM2_rest c f GzState.zero_rest, zero_pow two_ne_zero]
    have hm := gzM2_gzFold_le c f n hw le_rfl hstart hxs
    rw [zero_add] at hm
    exact abs_terms_le_of_gzM2_le (sin_gzOmega_pos hf hhalf) (Nat.cast_nonneg _) hm

end Sys2Proof.Machine
end

section
/-! The analyzer's operations at the command port (spec/43_goertzel_analyzer.md R163, R164, R166, R168, R169), and the
order of levels (R170). -/

namespace Sys2Proof.Machine

/-! ### The constants (R161, R163) -/

section
variable {c : Cfg} {o : Operands} {f : RealVal} {n : ℕ} {rest : List Slot}

/-- Once the frequency is read, the window length and the flag are read, and then all is tested (R163). -/
theorem gzConsts_of_real (h : o.real 0 = .ok f) : gzConsts c o = (do
    let n ← o.int 1
    let hw ← o.bit 2
    require (freqOk c f && decide (1 ≤ n)) .operand
    return (f, n, hw)) := by
  change (o.real 0 >>= _) = _
  rw [h, res_bind_ok]

section
variable {hw : Bool} (h : o.x = .real f :: .int n :: bitSlot hw :: rest)
include h

theorem gzConsts_of_legal (hlegal : 0 < f.toReal ∧ f.toReal < c.fs.toReal / 2 ∧ 1 ≤ n ∧ n < idxLimit) :
    gzConsts c o = .ok (f, n, hw) := by
  obtain ⟨hpos, hhalf, hone, hidx⟩ := hlegal
  have hreal : o.real 0 = .ok f := Operands.real_ok (by rw [h]; rfl)
  have hint : o.int 1 = .ok n := Operands.int_ok (by rw [h]; rfl) hidx
  have hbit : o.bit 2 = .ok hw := Operands.bit_ok (by rw [h]; rfl)
  have htest : (freqOk c f && decide (1 ≤ n)) = true :=
    Bool.and_eq_true_iff.2 ⟨(freqOk_iff c f).2 ⟨hpos, hhalf⟩, decide_eq_true hone⟩
  rw [gzConsts_of_real hreal, hint, res_bind_ok, hbit, res_bind_ok, htest, require_true, res_bind_ok, res_pure]

theorem gzConsts_of_illegal (hillegal : ¬(0 < f.toReal ∧ f.toReal < c.fs.toReal / 2 ∧ 1 ≤ n ∧ n < idxLimit)) :
    gzConsts c o = .error badOperand := by
  have hslot : o.x[1]? = some (Slot.int n) := by rw [h]; rfl
  rw [gzConsts_of_real (Operands.real_ok (r := f) (by rw [h]; rfl))]
  rcases Nat.lt_or_ge n idxLimit with hidx | hidx
  · have htest : (freqOk c f && decide (1 ≤ n)) = false := by
      rw [Bool.eq_false_iff, ne_eq, Bool.and_eq_true, freqOk_iff, decide_eq_true_eq]
      exact fun ⟨⟨hpos, hhalf⟩, hone⟩ => hillegal ⟨hpos, hhalf, hone, hidx⟩
    rw [Operands.int_ok hslot hidx, res_bind_ok, Operands.bit_ok (b := hw) (by rw [h]; rfl), res_bind_ok, htest,
      require_false, res_bind_error]
  · rw [Operands.int_out hslot hidx, res_bind_error]

end

theorem gzConsts_of_not_bit {flag : ℕ} (h : o.x = .real f :: .int n :: .int flag :: rest) (hflag : 1 < flag) :
    gzConsts c o = .error badOperand := by
  rw [gzConsts_of_real (Operands.real_ok (r := f) (by rw [h]; rfl))]
  refine int_bind_badOperand (v := n) (by rw [h]; rfl) ?_
  exact bit_bind_badOperand (by rw [h]; rfl) hflag

end

/-! ### `GZINIT` and `GZRESET` (R163, R168) -/

section
variable {s : State}

theorem execGzinit_of_consts {k : RealVal × ℕ × Bool} (h : gzConsts s.cfg s.operands = .ok k) :
    execGzinit s = .next (s.ret ⟨[.gz GzState.zero], []⟩) :=
  unitOp_ok (by rw [h]; rfl)

theorem execGzinit_of_error {e : Fail} (h : gzConsts s.cfg s.operands = .error e) :
    execGzinit s = .next (s.raise e) :=
  unitOp_error (by rw [h, res_bind_error])

theorem execGzreset_of_read {g : GzState} (h : s.operands = ⟨[.gz g], []⟩) (hg : g.n < idxLimit) :
    execGzreset s = .next (s.ret ⟨[.gz GzState.zero], []⟩) :=
  unitOp_ok (by rw [Operands.gz_ok (g := g) (by rw [h]; rfl) hg]; rfl)

/-! ### `GZPROC` (R164) -/

section
variable {f : RealVal} {n : ℕ} {hw : Bool} {g : GzState} {lo hi : ℕ} {buf : List RealVal}
  (h : s.operands = ⟨[.real f, .int n, bitSlot hw, .gz g, .int lo, .int hi], [.reals buf]⟩)
  (hlegal : 0 < f.toReal ∧ f.toReal < s.cfg.fs.toReal / 2 ∧ 1 ≤ n ∧ n < idxLimit) (hg : g.n < idxLimit)
include h hlegal hg

/-- Everything but the range is read first. -/
theorem execGzproc_reads : gzConsts s.cfg s.operands = .ok (f, n, hw) ∧ s.operands.gz 3 = .ok g ∧
    s.operands.reals 0 = .ok buf :=
  ⟨gzConsts_of_legal (congrArg Operands.x h) hlegal, Operands.gz_ok (by rw [h]; rfl) hg,
    Operands.reals_ok (by rw [h]; rfl)⟩

/-- On a range of the buffer `GZPROC` completes or overruns, by the room left in the window. -/
theorem execGzproc_of_range (hhi : hi < idxLimit) (hrange : lo ≤ hi ∧ hi ≤ buf.length) :
    (g.n + (hi - lo) ≤ n →
      execGzproc s = .next (s.ret ⟨[.gz (gzFold s.cfg f n hw g ((buf.drop lo).take (hi - lo)))], []⟩)) ∧
    (n < g.n + (hi - lo) → execGzproc s = .next (s.raise ⟨.overrun, []⟩)) := by
  obtain ⟨hconsts, hgz, hreals⟩ := execGzproc_reads h hlegal hg
  have hint4 : s.operands.int 4 = .ok lo := int_of_le (by rw [h]; rfl) hrange.1 hhi
  have hint5 : s.operands.int 5 = .ok hi := Operands.int_ok (by rw [h]; rfl) hhi
  refine ⟨fun hroom => unitOp_ok ?_, fun hfull => unitOp_error ?_⟩
  · simp [hconsts, hgz, hreals, hint4, hint5, hrange, hroom]
  · simp [hconsts, hgz, hreals, hint4, hint5, hrange, Nat.not_le.2 hfull]

theorem execGzproc_of_not_range (hrange : ¬(lo ≤ hi ∧ hi ≤ buf.length)) :
    execGzproc s = .next (s.raise badOperand) := by
  obtain ⟨hconsts, hgz, hreals⟩ := execGzproc_reads h hlegal hg
  have htest : (decide (lo ≤ hi) && decide (hi ≤ buf.length)) = false := by simpa using hrange
  refine unitOp_error ?_
  simp only [hconsts, hgz, hreals, res_bind_ok]
  refine int_bind_badOperand (v := lo) (by rw [h]; rfl) (int_bind_badOperand (v := hi) (by rw [h]; rfl) ?_)
  rw [htest, require_false, res_bind_error]

end
end

/-- Settles O30: the constants are read once for both operations that take them; `GZPROC` folds the recurrence over its
range, or refuses by the range and then by the room. -/
theorem analyzerOperationsComplete : Obligations.AnalyzerOperationsComplete := by
  refine ⟨fun s f n hw h => ⟨fun hlegal => ?init, fun hillegal => ?initIllegal⟩, fun s f n flag h hflag => ?initFlag,
    fun s g h hg => execGzreset_of_read h hg,
    fun s f n hw g lo hi buf h hpos hhalf hone hn hg hhi => ⟨fun hrange hroom => ⟨?proc, ?count⟩,
      fun hrange => ?overrun, fun hrange => ?range⟩,
    fun c f n hw g x => ⟨_, gzFold_nil c f n hw g, rfl, gzStep_s1 c f n hw g x⟩⟩
  case init => exact execGzinit_of_consts (gzConsts_of_legal (congrArg Operands.x h) hlegal)
  case initIllegal => exact execGzinit_of_error (gzConsts_of_illegal (congrArg Operands.x h) hillegal)
  case initFlag => exact execGzinit_of_error (gzConsts_of_not_bit (congrArg Operands.x h) hflag)
  case proc => exact (execGzproc_of_range h ⟨hpos, hhalf, hone, hn⟩ hg hhi hrange).1 hroom
  case count => rw [gzFold_n, length_take_drop hrange.2]
  case overrun => exact (execGzproc_of_range h ⟨hpos, hhalf, hone, hn⟩ hg hhi hrange).2
  case range => exact execGzproc_of_not_range h ⟨hpos, hhalf, hone, hn⟩ hg hrange

/-! ### `GZRMS` (R166) -/

section
variable {s : State} {f : RealVal} {n : ℕ} {hw : Bool} {g : GzState}
  (h : s.operands = ⟨[.real f, .int n, bitSlot hw, .gz g], []⟩)
  (hlegal : 0 < f.toReal ∧ f.toReal < s.cfg.fs.toReal / 2 ∧ 1 ≤ n ∧ n < idxLimit) (hg : g.n < idxLimit)
include h hlegal hg

/-- `GZRMS` completes or is not ready, by whether the window is full. -/
theorem execGzrms_of_read :
    (g.n = n → execGzrms s = .next (s.ret ⟨[.real (gzRms s.cfg f n g)], []⟩)) ∧
    (g.n ≠ n → execGzrms s = .next (s.raise ⟨.notready, []⟩)) := by
  have hconsts : gzConsts s.cfg s.operands = .ok (f, n, hw) :=
    gzConsts_of_legal (congrArg Operands.x h) hlegal
  have hgz : s.operands.gz 3 = .ok g := Operands.gz_ok (by rw [h]; rfl) hg
  refine ⟨fun hfull => unitOp_ok ?_, fun hpart => unitOp_error ?_⟩
  · simp [hconsts, hgz, hfull]
  · simp [hconsts, hgz, beq_eq_false_iff_ne.2 hpart]

end

/-- Settles O32: the answer is the root of the magnitude, which is a sum of two squares. -/
theorem gzrmsGivesTheMagnitude : Obligations.GzrmsGivesTheMagnitude := by
  intro s f n hw g m2 h hpos hhalf hone hn hg hm2
  rw [← toReal_gzM2] at hm2
  have hm2_nonneg : 0 ≤ m2 := hm2 ▸ gzM2_nonneg s.cfg f g
  have hrms : (gzRms s.cfg f n g).toReal = Real.sqrt (2 * m2) / n := by rw [toReal_gzRms, hm2]
  obtain ⟨hanswer, hnotready⟩ := execGzrms_of_read h ⟨hpos, hhalf, hone, hn⟩ hg
  refine ⟨fun hfull => ⟨_, hanswer hfull, hrms, ?_, hm2_nonneg, ?_⟩, hnotready⟩
  · rw [hrms]
    positivity
  · rw [hrms, div_pow, Real.sq_sqrt (by positivity)]

/-! ### `LOGPOW` (R169) -/

section
variable {s : State} {rms : RealVal} (h : s.operands = ⟨[.real rms], []⟩)
include h

theorem execLogpow_of_nonneg (hrms : 0 ≤ rms.toReal) : execLogpow s = .next (s.ret ⟨[.level (logPow rms)], []⟩) := by
  have hreal : s.operands.real 0 = .ok rms := Operands.real_ok (by rw [h]; rfl)
  exact unitOp_ok (by simp [hreal, (RealVal.le_iff (.rat 0) rms).2 (by simpa using hrms)])

theorem execLogpow_of_neg (hrms : rms.toReal < 0) : execLogpow s = .next (s.raise badOperand) := by
  have hreal : s.operands.real 0 = .ok rms := Operands.real_ok (by rw [h]; rfl)
  have htest : RealVal.le (.rat 0) rms = false := by
    rw [Bool.eq_false_iff, ne_eq, RealVal.le_iff, RealVal.toReal_rat, Rat.cast_zero]
    exact hrms.not_ge
  exact unitOp_error (by rw [hreal, res_bind_ok, htest, require_false, res_bind_error])

end

/-- Settles O33, by the sign of the operand. -/
theorem logpowCompletes : Obligations.LogpowCompletes := by
  refine fun s rms h => ⟨fun hzero => ?zero, fun hpos => ?pos, execLogpow_of_neg h⟩
  case zero => rw [exec_logpow, execLogpow_of_nonneg h hzero.ge, logPow_zero hzero]
  case pos =>
    obtain ⟨l, hlevel, hvalue⟩ := logPow_of_ne hpos.ne'
    exact ⟨l, by rw [exec_logpow, execLogpow_of_nonneg h hpos.le, hlevel], hvalue⟩

/-! ### The order of levels (R170) -/

/-- The real number of decibels a level stands for, with `-inf` below all of them. -/
noncomputable def levelValue : Level → WithBot ℝ
  | .negInf => ⊥
  | .fin r => (r.toReal : ℝ)

/-- The order of levels is that of their values. -/
theorem level_lt_iff (a b : Level) : Level.lt a b = true ↔ levelValue a < levelValue b := by
  cases a with
  | negInf =>
    cases b with
    | negInf => simp [levelValue]
    | fin b => simp [levelValue, WithBot.bot_lt_coe]
  | fin a =>
    cases b with
    | negInf => simp [levelValue]
    | fin b => rw [Level.lt_fin, levelValue, levelValue, WithBot.coe_lt_coe]

theorem level_lt_eq_false_iff (a b : Level) : Level.lt a b = false ↔ levelValue b ≤ levelValue a := by
  rw [Bool.eq_false_iff, ne_eq, level_lt_iff, not_lt]

/-- Settles O34: the order of levels is the linear order of their values. -/
theorem levelComparisonIsExact : Obligations.LevelComparisonIsExact := by
  refine ⟨Level.lt_fin, fun a => ⟨Level.negInf_lt_fin a, Level.fin_lt_negInf a⟩, Level.negInf_lt_negInf,
    fun a b c => ⟨?transitive, ?total⟩, Level.addDb_negInf,
    fun a r => ⟨a.plus r, Level.addDb_fin a r, RealVal.toReal_plus a r⟩⟩
  case transitive =>
    simp only [level_lt_iff]
    exact lt_trans
  case total =>
    simp only [level_lt_eq_false_iff]
    exact fun hba hcb => hcb.trans hba

end Sys2Proof.Machine
end

section
/-! A trigger record through a chunk (spec/44_trigger_detector.md R185, R189, R190): chunking, the frame of a push, and
the latch. -/

namespace Sys2Proof.Machine

variable (c : Cfg)

/-! ### Chunks (R185, R189) -/

/-- A chunk in two parts is pushed part by part. -/
theorem trPush_append (t : TrState) (xs ys : List RealVal) :
    trPush c t (xs ++ ys) =
      ((trPush c (trPush c t xs).1 ys).1, (trPush c t xs).2 ++ (trPush c (trPush c t xs).1 ys).2) := by
  induction xs generalizing t with
  | nil => rfl
  | cons x xs ih => rw [List.cons_append, trPush_cons, trPush_cons, ih, List.append_assoc]

/-- A push counts its samples, in the same numbering, with the enable kept (R37, R41). -/
theorem trPush_frame (t : TrState) (xs : List RealVal) :
    (trPush c t xs).1.n = t.n + xs.length ∧ (trPush c t xs).1.base = t.base ∧ (trPush c t xs).1.cben = t.cben := by
  induction xs generalizing t with
  | nil => exact ⟨rfl, rfl, rfl⟩
  | cons x xs ih =>
    obtain ⟨hbase, hn, hcben⟩ := trStep_frame c t x
    obtain ⟨ihn, ihbase, ihcben⟩ := ih (trStep c t x).1
    rw [trPush_cons, List.length_cons]
    exact ⟨by rw [ihn, hn]; omega, ihbase.trans hbase, ihcben.trans hcben⟩

/-! ### The latch (R190) -/

/-- A latched record counts and reports nothing. -/
theorem trStep_of_found {t : TrState} {t0 : ℕ} (h : t.found = some t0) (x : RealVal) :
    trStep c t x = ({ t with n := t.n + 1 }, none) := by
  rw [trStep, h]

theorem trPush_of_found {t : TrState} {t0 : ℕ} (h : t.found = some t0) (xs : List RealVal) :
    trPush c t xs = ({ t with n := t.n + xs.length }, []) := by
  induction xs generalizing t with
  | nil => rfl
  | cons x xs ih =>
    have hnext : ({ t with n := t.n + 1 } : TrState).found = some t0 := h
    rw [trPush_cons, trStep_of_found c h, ih hnext, List.length_cons, Nat.add_right_comm, Nat.add_assoc]
    rfl

/-- A record that scans is fed and looked at, and what the look decides is latched (R188). -/
theorem trStep_of_scans {t : TrState} (h : t.found = none) (x : RealVal) :
    trStep c t x = ({ (trComplete c (trFeed c t x)).1 with found := (trComplete c (trFeed c t x)).2 },
      (trComplete c (trFeed c t x)).2) := by
  obtain ⟨_, _, hfound, _⟩ := trComplete_frame c (trFeed c t x)
  rcases trStep_cases c t x with ⟨hlatched, _⟩ | ⟨_, hnone, e⟩ | ⟨t0, _, hsome, e⟩
  · rw [h] at hlatched; cases hlatched
  · rw [e, hnone, ← hfound.trans h]
  · rw [e, hsome]

/-- A push reports one detection at most (R190, R196). -/
theorem trPush_events_length_le (t : TrState) (xs : List RealVal) : (trPush c t xs).2.length ≤ 1 := by
  induction xs generalizing t with
  | nil => exact Nat.zero_le 1
  | cons x xs ih =>
    rw [trPush_cons, List.length_append]
    cases hr : (trStep c t x).2 with
    | none => simpa [trEvents] using ih (trStep c t x).1
    | some t0 =>
      rw [trPush_of_found c (trStep_found c t x t0 hr).2, List.length_nil, Nat.add_zero, trEvents]
      split
      · exact le_rfl
      · exact Nat.zero_le 1

/-! ### The two looks (R188) -/

/-- The look at lane 0 after a sample. -/
def lookLane0 (t : TrState) : TrState × Option ℕ :=
  if t.lane0.q0.n = c.trgA then completeWindow c { t with lane0 := Lane.zero } t.lane0 else (t, none)

/-- The look at lane 1 after the one at lane 0. -/
def lookLane1 (r : TrState × Option ℕ) : TrState × Option ℕ :=
  if r.1.lane1.q0.n = c.trgA then completeWindow c { r.1 with lane1 := Lane.zero } r.1.lane1 else r

theorem trComplete_eq_looks (t : TrState) : trComplete c t = lookLane1 c (lookLane0 c t) := rfl

/-! ### The enable decides on events only (R185, R196) -/

/-- The record with its enable written. -/
def TrState.setCben (t : TrState) (b : Bool) : TrState := { t with cben := b }

@[simp] theorem TrState.setCben_found (t : TrState) (b : Bool) : (t.setCben b).found = t.found := rfl

theorem trReset_eq_setCben (t t' : TrState) (base : ℕ) : trReset t' base = (trReset t base).setCben t'.cben := rfl

theorem lookLane0_setCben (t : TrState) (b : Bool) :
    lookLane0 c (t.setCben b) = ((lookLane0 c t).1.setCben b, (lookLane0 c t).2) := by
  unfold lookLane0
  by_cases hfull : t.lane0.q0.n = c.trgA
  · rw [if_pos hfull, if_pos (show (t.setCben b).lane0.q0.n = c.trgA from hfull)]; rfl
  · rw [if_neg hfull, if_neg (show (t.setCben b).lane0.q0.n ≠ c.trgA from hfull)]

theorem lookLane1_setCben (r : TrState × Option ℕ) (b : Bool) :
    lookLane1 c (r.1.setCben b, r.2) = ((lookLane1 c r).1.setCben b, (lookLane1 c r).2) := by
  unfold lookLane1
  by_cases hfull : r.1.lane1.q0.n = c.trgA
  · rw [if_pos hfull, if_pos (show (r.1.setCben b).lane1.q0.n = c.trgA from hfull)]; rfl
  · rw [if_neg hfull, if_neg (show (r.1.setCben b).lane1.q0.n ≠ c.trgA from hfull)]

theorem trStep_setCben (t : TrState) (b : Bool) (x : RealVal) :
    trStep c (t.setCben b) x = ((trStep c t x).1.setCben b, (trStep c t x).2) := by
  cases h : t.found with
  | some t0 =>
    rw [trStep_of_found c h, trStep_of_found c ((t.setCben_found b).trans h)]
    rfl
  | none =>
    have hfeed : trFeed c (t.setCben b) x = (trFeed c t x).setCben b := rfl
    rw [trStep_of_scans c h, trStep_of_scans c ((t.setCben_found b).trans h), hfeed, trComplete_eq_looks,
      lookLane0_setCben, lookLane1_setCben]
    rfl

theorem trPush_setCben (t : TrState) (b : Bool) (xs : List RealVal) :
    (trPush c (t.setCben b) xs).1 = (trPush c t xs).1.setCben b := by
  induction xs generalizing t with
  | nil => rfl
  | cons x xs ih => rw [trPush_cons, trStep_setCben, ih, trPush_cons]

/-- Settles O39: a push is a fold over its chunk; two records reset to one base differ in the enable, which the report
does not read; and a latched record counts. -/
theorem triggerChunkingAndLatch : Obligations.TriggerChunkingAndLatch := by
  refine ⟨fun c t xs ys => ?chunking, fun c t t' base xs => ?report, fun c t xs t0 h => trPush_of_found c h xs⟩
  case chunking =>
    rw [trPush_append]
    exact ⟨rfl, rfl⟩
  case report => rw [trReset_eq_setCben t t', trPush_setCben, TrState.setCben_found]

end Sys2Proof.Machine
end

section
/-! The trigger on silence (spec/44_trigger_detector.md R201): the record of a lane at rest stays at rest, every level
is `-inf`, and the decision of R193 needs one level above another. -/

namespace Sys2Proof.Machine

/-- A lane whose analyzers are at rest. -/
def Lane.Rest (l : Lane) : Prop := l.q0.Rest ∧ l.q1.Rest

theorem Lane.zero_rest : Lane.zero.Rest := ⟨GzState.zero_rest, GzState.zero_rest⟩

theorem laneStep_rest (c : Cfg) {l : Lane} {x : RealVal} (hl : l.Rest) (hx : x.toReal = 0) : (laneStep c l x).Rest :=
  ⟨gzStep_rest c _ _ _ hl.1 hx, gzStep_rest c _ _ _ hl.2 hx⟩

/-- A history of silence. -/
def OnlyNegInf (hist : List Level) : Prop := ∀ l ∈ hist, l = .negInf

/-- A lane at rest adds `-inf` to a history of silence. -/
theorem OnlyNegInf.pushLevel (c : Cfg) {hist : List Level} {f : RealVal} {g : GzState} (h : OnlyNegInf hist)
    (hg : g.Rest) : OnlyNegInf (pushLevel hist (gzLevel c f c.trgA g)) := by
  intro l hl
  rcases mem_pushLevel hl with rfl | hold
  · exact gzLevel_rest c f c.trgA hg
  · exact h l hold

theorem mem_of_levelAt {hist : List Level} {w v : ℕ} {l : Level} (h : levelAt hist w v = some l) : l ∈ hist := by
  unfold levelAt at h
  split at h
  · exact List.mem_of_getElem? h
  · cases h

/-- Where every level of gate 1 is `-inf` no peak stands above its neighbour, and nothing is detected (R193). -/
theorem decideTrigger_of_negInf (c : Cfg) {t : TrState} (h : OnlyNegInf t.hist1) (w : ℕ) :
    decideTrigger c t w = none := by
  refine Option.eq_none_iff_forall_ne_some.2 fun t0 hsome => ?_
  obtain ⟨_, la, lb, _, _, hla, hlb, _, _, hrise, _⟩ := decideTrigger_some hsome
  rw [h la (mem_of_levelAt hla), h lb (mem_of_levelAt hlb)] at hrise
  cases hrise

/-- What a record that has heard nothing but silence looks like (R201). -/
def TrState.Silent (t : TrState) : Prop :=
  t.found = none ∧ (t.lane0.Rest ∧ t.lane1.Rest) ∧ OnlyNegInf t.hist0 ∧ OnlyNegInf t.hist1

theorem trReset_silent (t : TrState) (base : ℕ) : (trReset t base).Silent :=
  ⟨rfl, ⟨Lane.zero_rest, Lane.zero_rest⟩, List.forall_mem_nil _, List.forall_mem_nil _⟩

section
variable (c : Cfg) {t : TrState} {x : RealVal}

theorem TrState.Silent.feed (ht : t.Silent) (hx : x.toReal = 0) : (trFeed c t x).Silent := by
  obtain ⟨hfound, ⟨hlane0, hlane1⟩, hhist⟩ := ht
  refine ⟨hfound, ⟨laneStep_rest c hlane0 hx, ?_⟩, hhist⟩
  unfold trFeed
  split
  · exact laneStep_rest c hlane1 hx
  · exact hlane1

/-- A window of a lane at rest decides nothing. -/
theorem TrState.Silent.completeWindow {l : Lane} (ht : t.Silent) (hl : l.Rest) :
    (completeWindow c t l).1.Silent ∧ (completeWindow c t l).2 = none := by
  obtain ⟨hfound, hlanes, hhist0, hhist1⟩ := ht
  exact ⟨⟨hfound, hlanes, hhist0.pushLevel c hl.1, hhist1.pushLevel c hl.2⟩,
    decideTrigger_of_negInf c (hhist1.pushLevel c hl.2) t.m⟩

theorem TrState.Silent.lookLane0 (ht : t.Silent) : (lookLane0 c t).1.Silent ∧ (lookLane0 c t).2 = none := by
  obtain ⟨hfound, ⟨hlane0, hlane1⟩, hhist⟩ := ht
  have hclear : ({ t with lane0 := Lane.zero } : TrState).Silent := ⟨hfound, ⟨Lane.zero_rest, hlane1⟩, hhist⟩
  unfold Machine.lookLane0
  split
  · exact hclear.completeWindow c hlane0
  · exact ⟨⟨hfound, ⟨hlane0, hlane1⟩, hhist⟩, rfl⟩

theorem TrState.Silent.lookLane1 {r : TrState × Option ℕ} (hr : r.1.Silent) (hnone : r.2 = none) :
    (lookLane1 c r).1.Silent ∧ (lookLane1 c r).2 = none := by
  obtain ⟨hfound, ⟨hlane0, hlane1⟩, hhist⟩ := hr
  have hclear : ({ r.1 with lane1 := Lane.zero } : TrState).Silent := ⟨hfound, ⟨hlane0, Lane.zero_rest⟩, hhist⟩
  unfold Machine.lookLane1
  split
  · exact hclear.completeWindow c hlane1
  · exact ⟨⟨hfound, ⟨hlane0, hlane1⟩, hhist⟩, hnone⟩

theorem TrState.Silent.step (ht : t.Silent) (hx : x.toReal = 0) :
    (trStep c t x).1.Silent ∧ (trStep c t x).2 = none := by
  obtain ⟨hlook, hnone⟩ := (ht.feed c hx).lookLane0 c
  obtain ⟨⟨_, hsilent⟩, hnone⟩ := hlook.lookLane1 c hnone
  rw [trStep_of_scans c ht.1, trComplete_eq_looks, hnone]
  exact ⟨⟨rfl, hsilent⟩, rfl⟩

theorem TrState.Silent.push {xs : List RealVal} (ht : t.Silent) (hxs : ∀ x ∈ xs, x.toReal = 0) :
    (trPush c t xs).1.Silent ∧ (trPush c t xs).2 = [] := by
  induction xs generalizing t with
  | nil => exact ⟨ht, rfl⟩
  | cons x xs ih =>
    obtain ⟨hstep, hnone⟩ := ht.step c (hxs x List.mem_cons_self)
    obtain ⟨hrest, hevents⟩ := ih hstep fun y hy => hxs y (List.mem_cons_of_mem x hy)
    rw [trPush_cons, hnone, hevents]
    exact ⟨hrest, rfl⟩

end

/-- Settles O40: a reset record is silent, silence keeps it so, and a silent record has detected nothing. -/
theorem triggerNeverFiresOnSilence : Obligations.TriggerNeverFiresOnSilence := by
  intro c t base xs _ hxs
  obtain ⟨⟨hfound, _, hhist0, hhist1⟩, hevents⟩ := (trReset_silent t base).push c hxs
  refine ⟨hfound, hevents, hhist0, hhist1, fun a ha b hb => ?_⟩
  rw [hhist1 a ha, hhist1 b hb, Level.negInf_lt_negInf]

end Sys2Proof.Machine
end

section
/-! A scanning record (spec/10_state.md R37 to R39, spec/44_trigger_detector.md R188): which sample completes a window,
in which lane, and what the record is then. -/

namespace Sys2Proof.Machine

/-! ### The places in the two lanes -/

/-- Sample number `n` completes a window: the count has come to a multiple of the hop, from the second on (R188). -/
def EndsWindow (c : Cfg) (n : ℕ) : Prop := c.trgH ∣ n + 1 ∧ 2 * c.trgH ≤ n + 1

/-- A place modulo `b` moves on by one, and the last one is left for the first. -/
theorem mod_add_one {b : ℕ} (hb : 0 < b) (n : ℕ) :
    (b ∣ n + 1 → n % b + 1 = b ∧ (n + 1) % b = 0) ∧ (¬b ∣ n + 1 → n % b + 1 ≠ b ∧ (n + 1) % b = n % b + 1) := by
  have hlt := Nat.mod_lt n hb
  have hadd : (n + 1) % b = (n % b + 1) % b := (Nat.mod_add_mod n b 1).symm
  rcases Nat.lt_or_ge (n % b + 1) b with hroom | hfull
  · rw [Nat.dvd_iff_mod_eq_zero, hadd, Nat.mod_eq_of_lt hroom]
    omega
  · have hlast : n % b + 1 = b := by omega
    rw [Nat.dvd_iff_mod_eq_zero, hadd, hlast, Nat.mod_self]
    omega

section
variable {h n : ℕ}

/-- The windows counted so far, as the number of the hop that sample `n` is in. -/
theorem hops_of_dvd {k : ℕ} (hh : 0 < h) (hk : n + 1 = h * k) : n / h = k - 1 := by
  obtain ⟨j, rfl⟩ : ∃ j, k = j + 1 := Nat.exists_eq_succ_of_ne_zero (by rintro rfl; omega)
  rw [Nat.mul_succ] at hk
  rw [Nat.div_eq_iff hh, Nat.add_sub_cancel, Nat.mul_comm]
  omega

/-- Lane 0 ends the windows of even number. -/
theorem two_hops_dvd_iff (hh : 0 < h) :
    2 * h ∣ n + 1 ↔ (h ∣ n + 1 ∧ 2 * h ≤ n + 1) ∧ (n / h - 1) % 2 = 0 := by
  constructor
  · intro hd
    obtain ⟨k, hk⟩ := hd
    have hk' : n + 1 = h * (2 * k) := by rw [hk]; ring
    have hpos : 0 < k := Nat.pos_of_ne_zero (by rintro rfl; omega)
    rw [hops_of_dvd hh hk']
    exact ⟨⟨⟨_, hk'⟩, Nat.le_of_dvd n.succ_pos ⟨k, hk⟩⟩, by omega⟩
  · rintro ⟨⟨⟨k, hk⟩, hle⟩, hpar⟩
    have htwo : 2 ≤ k := Nat.le_of_mul_le_mul_left (by rwa [← hk, Nat.mul_comm]) hh
    rw [hops_of_dvd hh hk] at hpar
    rw [hk, Nat.mul_comm 2 h]
    exact Nat.mul_dvd_mul_left h (by omega)

/-- Lane 1, one hop behind, ends those of odd number. -/
theorem two_hops_dvd_sub_iff (hh : 0 < h) :
    h ≤ n ∧ 2 * h ∣ n - h + 1 ↔ (h ∣ n + 1 ∧ 2 * h ≤ n + 1) ∧ (n / h - 1) % 2 = 1 := by
  constructor
  · rintro ⟨hle, k, hk⟩
    have hk' : n + 1 = h * (2 * k + 1) := by
      rw [show n + 1 = n - h + 1 + h by omega, hk]; ring
    have hpos : 0 < k := Nat.pos_of_ne_zero (by rintro rfl; omega)
    have hmul := Nat.le_of_dvd (Nat.succ_pos _) (Dvd.intro k hk.symm)
    rw [hops_of_dvd hh hk']
    exact ⟨⟨⟨_, hk'⟩, by omega⟩, by omega⟩
  · rintro ⟨⟨⟨k, hk⟩, hle⟩, hpar⟩
    rw [hops_of_dvd hh hk] at hpar
    obtain ⟨j, rfl⟩ : ∃ j, k = 2 * j + 1 := ⟨k / 2, by omega⟩
    have hj : n + 1 = 2 * h * j + h := by rw [hk]; ring
    exact ⟨by omega, j, by omega⟩

end

/-! ### The lanes -/

/-- Both analyzers of a lane hold place `k` modulo the window length. -/
def Lane.InStep (c : Cfg) (k : ℕ) (l : Lane) : Prop := l.q0.n = k % c.trgA ∧ l.q1.n = k % c.trgA

theorem Lane.InStep.full_iff {c : Cfg} {k : ℕ} {l : Lane} (hl : l.InStep c k) (ha : 0 < c.trgA) (x : RealVal) :
    (laneStep c l x).q0.n = c.trgA ↔ c.trgA ∣ k + 1 := by
  obtain ⟨hfull, hpart⟩ := mod_add_one ha k
  rw [laneStep_q0_n, hl.1]
  exact ⟨fun h => by_contra fun hd => (hpart hd).1 h, fun hd => (hfull hd).1⟩

/-- A lane with room is one place on. -/
theorem Lane.InStep.step {c : Cfg} {k : ℕ} {l : Lane} (hl : l.InStep c k) (ha : 0 < c.trgA) (hk : ¬c.trgA ∣ k + 1)
    (x : RealVal) : (laneStep c l x).InStep c (k + 1) := by
  obtain ⟨_, hplace⟩ := (mod_add_one ha k).2 hk
  exact ⟨by rw [laneStep_q0_n, hl.1, hplace], by rw [laneStep_q1_n, hl.2, hplace]⟩

/-- A lane that starts afresh is at the start of a window. -/
theorem Lane.zero_inStep {c : Cfg} {k : ℕ} (hk : c.trgA ∣ k) : Lane.zero.InStep c k :=
  ⟨(Nat.mod_eq_zero_of_dvd hk).symm, (Nat.mod_eq_zero_of_dvd hk).symm⟩

/-! ### The lane a window ends in -/

/-- The lane of the window that the next completion counts: lane 0 for an even number, lane 1 for an odd one (R38). -/
def TrState.dueLane (t : TrState) : Lane := if t.m % 2 = 0 then t.lane0 else t.lane1

/-- The record with that lane started afresh. -/
def TrState.clearDue (t : TrState) : TrState :=
  if t.m % 2 = 0 then { t with lane0 := Lane.zero } else { t with lane1 := Lane.zero }

section
variable {t : TrState}

theorem TrState.dueLane_of_even (h : t.m % 2 = 0) : t.dueLane = t.lane0 := if_pos h
theorem TrState.dueLane_of_odd (h : t.m % 2 = 1) : t.dueLane = t.lane1 := if_neg (by omega)
theorem TrState.clearDue_of_even (h : t.m % 2 = 0) : t.clearDue = { t with lane0 := Lane.zero } := if_pos h
theorem TrState.clearDue_of_odd (h : t.m % 2 = 1) : t.clearDue = { t with lane1 := Lane.zero } := if_neg (by omega)

/-- Only the lanes are cleared. -/
theorem TrState.clearDue_frame (t : TrState) :
    t.clearDue.base = t.base ∧ t.clearDue.n = t.n ∧ t.clearDue.m = t.m ∧ t.clearDue.hist0 = t.hist0 ∧
      t.clearDue.hist1 = t.hist1 ∧ t.clearDue.found = t.found := by
  unfold TrState.clearDue
  split <;> exact ⟨rfl, rfl, rfl, rfl, rfl, rfl⟩

end

section
variable {c : Cfg} {t : TrState}

theorem trgH_pos (hwf : c.wf = true) : 0 < c.trgH := (Cfg.two_le_trgH hwf).trans_lt' Nat.zero_lt_two

theorem trgA_pos (hwf : c.wf = true) : 0 < c.trgA := Nat.mul_pos Nat.zero_lt_two (trgH_pos hwf)

theorem EndsWindow.trgH_le {n : ℕ} (hwf : c.wf = true) (h : EndsWindow c n) : c.trgH ≤ n := by
  have := trgH_pos hwf
  have := h.2
  omega

theorem TrState.Scanning.inStep0 (h : t.Scanning c) : t.lane0.InStep c t.n := ⟨h.lane00, h.lane01⟩

theorem TrState.Scanning.inStep1 (h : t.Scanning c) : t.lane1.InStep c (t.n - c.trgH) := ⟨h.lane10, h.lane11⟩

/-- Lane 1 is fed from the second hop on (R188). -/
theorem trFeed_lane1_of_le (x : RealVal) (hn : c.trgH ≤ t.n) : (trFeed c t x).lane1 = laneStep c t.lane1 x :=
  if_pos hn

theorem trFeed_lane1_of_lt (x : RealVal) (hn : t.n < c.trgH) : (trFeed c t x).lane1 = t.lane1 :=
  if_neg (Nat.not_le.2 hn)

section
variable (hwf : c.wf = true) (h : t.Scanning c) (x : RealVal)
include hwf h

theorem TrState.Scanning.fed0_full_iff :
    (trFeed c t x).lane0.q0.n = c.trgA ↔ EndsWindow c t.n ∧ t.m % 2 = 0 := by
  rw [trFeed_lane0, h.inStep0.full_iff (trgA_pos hwf), h.windows]
  exact two_hops_dvd_iff (trgH_pos hwf)

theorem TrState.Scanning.fed1_full_iff :
    (trFeed c t x).lane1.q0.n = c.trgA ↔ EndsWindow c t.n ∧ t.m % 2 = 1 := by
  have hends : c.trgH ≤ t.n ∧ c.trgA ∣ t.n - c.trgH + 1 ↔ EndsWindow c t.n ∧ t.m % 2 = 1 := by
    rw [h.windows]
    exact two_hops_dvd_sub_iff (trgH_pos hwf)
  rw [← hends]
  rcases Nat.lt_or_ge t.n c.trgH with hn | hn
  · have hstart : t.n - c.trgH = 0 := by omega
    rw [trFeed_lane1_of_lt x hn, h.lane10, hstart, Nat.zero_mod]
    exact ⟨fun h0 => absurd h0 (trgA_pos hwf).ne, fun hd => absurd hd.1 (Nat.not_le.2 hn)⟩
  · rw [trFeed_lane1_of_le x hn, h.inStep1.full_iff (trgA_pos hwf)]
    exact ⟨fun hd => ⟨hn, hd⟩, fun hd => hd.2⟩

/-- A lane that is not full is in step after the sample. -/
theorem TrState.Scanning.fed0_inStep (hpart : ¬(EndsWindow c t.n ∧ t.m % 2 = 0)) :
    (trFeed c t x).lane0.InStep c (t.n + 1) := by
  rw [← h.fed0_full_iff hwf x, trFeed_lane0, h.inStep0.full_iff (trgA_pos hwf)] at hpart
  exact h.inStep0.step (trgA_pos hwf) hpart x

theorem TrState.Scanning.fed1_inStep (hpart : ¬(EndsWindow c t.n ∧ t.m % 2 = 1)) :
    (trFeed c t x).lane1.InStep c (t.n + 1 - c.trgH) := by
  rw [← h.fed1_full_iff hwf x] at hpart
  rcases Nat.lt_or_ge t.n c.trgH with hn | hn
  · have hwaits : t.n + 1 - c.trgH = t.n - c.trgH := by omega
    rw [trFeed_lane1_of_lt x hn, hwaits]
    exact h.inStep1
  · rw [trFeed_lane1_of_le x hn, h.inStep1.full_iff (trgA_pos hwf)] at hpart
    rw [trFeed_lane1_of_le x hn, Nat.sub_add_comm hn]
    exact h.inStep1.step (trgA_pos hwf) hpart x

/-- Where no window ends the sample is counted and no more. -/
theorem TrState.Scanning.trComplete_of_not_ends (hends : ¬EndsWindow c t.n) :
    trComplete c (trFeed c t x) = (trFeed c t x, none) := by
  have h0 := h.fed0_full_iff hwf x
  have h1 := h.fed1_full_iff hwf x
  rcases trComplete_cases c (trFeed c t x) fun hf => absurd (h0.1 hf).1 hends with ⟨_, _, e⟩ | ⟨hf, _⟩ | ⟨hf, _⟩
  · exact e
  · exact absurd (h0.1 hf).1 hends
  · exact absurd (h1.1 hf).1 hends

/-- Where a window ends it is the one of the lane that is due. -/
theorem TrState.Scanning.trComplete_of_ends (hends : EndsWindow c t.n) :
    trComplete c (trFeed c t x) = completeWindow c (trFeed c t x).clearDue (laneStep c t.dueLane x) := by
  have h0 := h.fed0_full_iff hwf x
  have h1 := h.fed1_full_iff hwf x
  have hone : (trFeed c t x).lane0.q0.n = c.trgA → (trFeed c t x).lane1.q0.n ≠ c.trgA := fun hf0 hf1 => by
    have heven := (h0.1 hf0).2
    have hodd := (h1.1 hf1).2
    omega
  rcases trComplete_cases c (trFeed c t x) hone with ⟨hn0, hn1, _⟩ | ⟨hf, e⟩ | ⟨hf, e⟩
  · rcases Nat.mod_two_eq_zero_or_one t.m with hpar | hpar
    · exact absurd (h0.2 ⟨hends, hpar⟩) hn0
    · exact absurd (h1.2 ⟨hends, hpar⟩) hn1
  · have heven := (h0.1 hf).2
    rw [e, TrState.clearDue_of_even (t := trFeed c t x) heven, TrState.dueLane_of_even heven, trFeed_lane0]
  · have hodd := (h1.1 hf).2
    rw [e, TrState.clearDue_of_odd (t := trFeed c t x) hodd, TrState.dueLane_of_odd hodd,
      trFeed_lane1_of_le x (hends.trgH_le hwf)]

/-- The lane of the window that ended starts its next one, the other one is in the middle of its own. -/
theorem TrState.Scanning.clearDue_inStep (hends : EndsWindow c t.n) :
    (trFeed c t x).clearDue.lane0.InStep c (t.n + 1) ∧
      (trFeed c t x).clearDue.lane1.InStep c (t.n + 1 - c.trgH) := by
  rcases Nat.mod_two_eq_zero_or_one t.m with hpar | hpar
  · have hfull := (h.fed0_full_iff hwf x).2 ⟨hends, hpar⟩
    rw [trFeed_lane0, h.inStep0.full_iff (trgA_pos hwf)] at hfull
    rw [TrState.clearDue_of_even (t := trFeed c t x) hpar]
    exact ⟨Lane.zero_inStep hfull, h.fed1_inStep hwf x (by omega)⟩
  · have hn := hends.trgH_le hwf
    have hfull := (h.fed1_full_iff hwf x).2 ⟨hends, hpar⟩
    rw [trFeed_lane1_of_le x hn, h.inStep1.full_iff (trgA_pos hwf), ← Nat.sub_add_comm hn] at hfull
    rw [TrState.clearDue_of_odd (t := trFeed c t x) hpar]
    exact ⟨h.fed0_inStep hwf x (by omega), Lane.zero_inStep hfull⟩

end

/-- One window is counted where one ends (R39). -/
theorem windows_succ (hwf : c.wf = true) (n : ℕ) :
    (EndsWindow c n → (n + 1) / c.trgH - 1 = n / c.trgH - 1 + 1) ∧
      (¬EndsWindow c n → (n + 1) / c.trgH - 1 = n / c.trgH - 1) := by
  have hh := trgH_pos hwf
  rw [Nat.succ_div]
  constructor
  · intro hends
    have hpos := Nat.div_pos (hends.trgH_le hwf) hh
    rw [if_pos hends.1]
    omega
  · intro hends
    split
    · rename_i hd
      have hfirst : n / c.trgH = 0 := by
        obtain ⟨k, hk⟩ := hd
        have hlt : c.trgH * k < c.trgH * 2 := by
          by_contra hge
          exact hends ⟨⟨k, hk⟩, by omega⟩
        have hk2 := Nat.lt_of_mul_lt_mul_left hlt
        rw [hops_of_dvd hh hk]
        omega
      omega
    · rfl

/-- What the look at the lanes leaves of a scanning record scans (R37 to R39). -/
theorem TrState.Scanning.trComplete (hwf : c.wf = true) (h : t.Scanning c) (x : RealVal) :
    (trComplete c (trFeed c t x)).1.Scanning c := by
  obtain ⟨hcounts, hkeeps⟩ := windows_succ hwf t.n
  by_cases hends : EndsWindow c t.n
  · obtain ⟨_, hn, hm, hhist0, hhist1, hfound⟩ := (trFeed c t x).clearDue_frame
    obtain ⟨⟨h00, h01⟩, h10, h11⟩ := h.clearDue_inStep hwf x hends
    have hlen : ∀ {hist : List Level} (l : Level), hist.length = min t.m Config.trgK →
        (pushLevel hist l).length = min (t.m + 1) Config.trgK := by
      intro hist l hhist
      rw [pushLevel_length _ _ (by omega), hhist]
      omega
    rw [h.trComplete_of_ends hwf x hends]
    refine ⟨hfound.trans h.found, ?_, ?_, ?_, ?_, ?_, ?_, ?_⟩
    · rwa [completeWindow_n, hn]
    · rwa [completeWindow_n, hn]
    · rwa [completeWindow_n, hn]
    · rwa [completeWindow_n, hn]
    · rw [completeWindow_m, completeWindow_n, hn, hm, trFeed_m, trFeed_n, h.windows, hcounts hends]
    · rw [completeWindow_m, hm]
      exact hlen _ (by rw [hhist0]; exact h.hist0)
    · rw [completeWindow_m, hm]
      exact hlen _ (by rw [hhist1]; exact h.hist1)
  · obtain ⟨h00, h01⟩ := h.fed0_inStep hwf x fun hf => hends hf.1
    obtain ⟨h10, h11⟩ := h.fed1_inStep hwf x fun hf => hends hf.1
    rw [h.trComplete_of_not_ends hwf x hends]
    exact ⟨h.found, h00, h01, h10, h11, h.windows.trans (hkeeps hends).symm, h.hist0, h.hist1⟩

end

end Sys2Proof.Machine
end

section
/-! The decision of R193 as the relation over the levels, with the noise floor of R192 and the index of R194 and R195
(spec/44_trigger_detector.md), and one sample into a scanning record. -/

namespace Sys2Proof.Machine

/-! ### The noise floor (R192) -/

theorem insertLevel_perm (l : Level) (ls : List Level) : (insertLevel l ls).Perm (l :: ls) := by
  induction ls with
  | nil => rfl
  | cons x xs ih =>
    unfold insertLevel
    split
    · rfl
    · exact (ih.cons x).trans (.swap l x xs)

theorem sortLevels_perm (ls : List Level) : (sortLevels ls).Perm ls := by
  induction ls with
  | nil => rfl
  | cons x xs ih => exact (insertLevel_perm x _).trans (ih.cons x)

/-- Levels in increasing order. -/
def Increasing (ls : List Level) : Prop := ls.Pairwise fun a b => Level.lt b a = false

theorem Increasing.insertLevel {l : Level} {ls : List Level} (h : Increasing ls) : Increasing (insertLevel l ls) := by
  induction ls with
  | nil => exact List.pairwise_singleton _ l
  | cons x xs ih =>
    obtain ⟨hx, hxs⟩ := List.pairwise_cons.1 h
    unfold Machine.insertLevel
    split
    · rename_i hlt
      refine List.pairwise_cons.2 ⟨fun b hb => ?_, h⟩
      rw [level_lt_iff] at hlt
      rw [level_lt_eq_false_iff]
      rcases List.mem_cons.1 hb with rfl | hb
      · exact hlt.le
      · exact hlt.le.trans ((level_lt_eq_false_iff b x).1 (hx b hb))
    · rename_i hge
      refine List.pairwise_cons.2 ⟨fun b hb => ?_, ih hxs⟩
      rcases mem_insertLevel.1 hb with rfl | hb
      · exact Bool.eq_false_iff.2 hge
      · exact hx b hb

theorem sortLevels_increasing (ls : List Level) : Increasing (sortLevels ls) := by
  induction ls with
  | nil => exact List.Pairwise.nil
  | cons x xs ih => exact ih.insertLevel

theorem level_lt_irrefl (l : Level) : Level.lt l l = false := (level_lt_eq_false_iff l l).2 le_rfl

/-- In increasing order, the levels before a place count those below the level there, and fall short of those not above
it. -/
theorem Increasing.countP_at {l : Level} {before after : List Level} (h : Increasing (before ++ l :: after)) :
    (before ++ l :: after).countP (fun x => Level.lt x l) ≤ before.length ∧
      before.length < (before ++ l :: after).countP (fun x => !Level.lt l x) := by
  obtain ⟨_, htail, hcross⟩ := List.pairwise_append.1 h
  obtain ⟨hafter, _⟩ := List.pairwise_cons.1 htail
  have hbelow : (l :: after).countP (fun x => Level.lt x l) = 0 := by
    refine List.countP_eq_zero.2 fun a ha => Bool.eq_false_iff.1 ?_
    rcases List.mem_cons.1 ha with rfl | ha
    · exact level_lt_irrefl a
    · exact hafter a ha
  have hnotAbove : before.countP (fun x => !Level.lt l x) = before.length :=
    List.countP_eq_length.2 fun a ha => by rw [hcross a ha l List.mem_cons_self, Bool.not_false]
  rw [List.countP_append, List.countP_append, hbelow, hnotAbove,
    List.countP_cons_of_pos (by rw [level_lt_irrefl, Bool.not_false])]
  exact ⟨List.countP_le_length, by omega⟩

/-- The noise floor is the lower median (R192). -/
theorem lowerMedian_spec {ls : List Level} (h : ls ≠ []) : LowerMedian (lowerMedian ls) ls := by
  have hlen : (ls.length - 1) / 2 < (sortLevels ls).length := by
    have := List.length_pos_of_ne_nil h
    rw [sortLevels_length]
    omega
  have hmedian : lowerMedian ls = (sortLevels ls)[(ls.length - 1) / 2] := by
    rw [lowerMedian, List.getD_eq_getElem?_getD, List.getElem?_eq_getElem hlen, Option.getD_some]
  have hcut : sortLevels ls = (sortLevels ls).take ((ls.length - 1) / 2) ++
      lowerMedian ls :: (sortLevels ls).drop ((ls.length - 1) / 2 + 1) := by
    rw [hmedian, ← List.drop_eq_getElem_cons hlen, List.take_append_drop]
  have hcount := (hcut ▸ sortLevels_increasing ls).countP_at
  rw [← hcut, List.length_take_of_le hlen.le, (sortLevels_perm ls).countP_eq, (sortLevels_perm ls).countP_eq] at hcount
  exact ⟨mem_sortLevels.1 (hmedian ▸ List.getElem_mem hlen), hcount⟩

/-- One lower median is not above another. -/
theorem LowerMedian.levelValue_le {a b : Level} {ls : List Level} (ha : LowerMedian a ls) (hb : LowerMedian b ls) :
    levelValue a ≤ levelValue b := by
  by_contra hlt
  obtain ⟨_, hbelow, _⟩ := ha
  obtain ⟨_, _, hreach⟩ := hb
  have hmono : ls.countP (fun x => !Level.lt b x) ≤ ls.countP (fun x => Level.lt x a) := by
    refine List.countP_mono_left fun x _ hx => ?_
    rw [Bool.not_eq_true', level_lt_eq_false_iff] at hx
    exact (level_lt_iff x a).2 (hx.trans_lt (not_le.1 hlt))
  omega

theorem levelValue_addDb_congr {a b : Level} (h : levelValue a = levelValue b) (r : RealVal) :
    levelValue (a.addDb r) = levelValue (b.addDb r) := by
  cases a with
  | negInf =>
    cases b with
    | negInf => rfl
    | fin v => cases h
  | fin u =>
    cases b with
    | negInf => cases h
    | fin v =>
      have hnum : u.toReal = v.toReal := WithBot.coe_injective h
      simp [levelValue, hnum]

/-- The test against the noise floor asks for the number of the lower median only (R193). -/
theorem lt_lowerMedian_addDb {b l : Level} {ls : List Level} (hb : LowerMedian b ls) (r : RealVal) :
    Level.lt ((lowerMedian ls).addDb r) l = Level.lt (b.addDb r) l := by
  have hne : ls ≠ [] := List.ne_nil_of_mem hb.1
  have hspec := lowerMedian_spec hne
  have hvalue : levelValue (lowerMedian ls) = levelValue b := (hspec.levelValue_le hb).antisymm (hb.levelValue_le hspec)
  rw [Bool.eq_iff_iff, level_lt_iff, level_lt_iff, levelValue_addDb_congr hvalue]

/-! ### The decision (R193 to R195) -/

/-- Window `v` is in the history when it is not further back than the history is long. -/
theorem levelAt_eq_levelOf {hist : List Level} {w v : ℕ} (h : w - v < hist.length) :
    levelAt hist w v = levelOf hist w v := if_pos h

/-- The tests of R193 passed, the index of R195 is declared. -/
theorem decideTrigger_of_tests {c : Cfg} {t : TrState} {w : ℕ} {la lb lc l0 : Level} (hw : 7 ≤ w)
    (hla : levelAt t.hist1 w (w - 2) = some la) (hlb : levelAt t.hist1 w (w - 1) = some lb)
    (hlc : levelAt t.hist1 w w = some lc) (hl0 : levelAt t.hist0 w (w - 7) = some l0)
    (hrise : Level.lt la lb = true) (hpeak : Level.lt lb lc = false)
    (hnoise1 : Level.lt ((lowerMedian t.hist1).addDb c.snr) lb = true)
    (hnoise0 : Level.lt ((lowerMedian t.hist0).addDb c.snr) l0 = true) :
    decideTrigger c t w = some (t.base + ((w - 1) * c.trgH + peakShift c la lb lc)) := by
  have hp1 : w - 1 - 1 = w - 2 := by omega
  have hp6 : w - 1 - 6 = w - 7 := by omega
  simp [decideTrigger, Nat.not_lt.2 hw, hp1, hp6, hla, hlb, hlc, hl0, hrise, hpeak, hnoise1, hnoise0]

/-- The index of R195, with its whole number of hops inside the floor. -/
theorem startIndex_eq_floor (c : Cfg) {w : ℕ} (hw : 1 ≤ w) (base : ℕ) (la lb lc : Level) :
    ((base + ((w - 1) * c.trgH + peakShift c la lb lc) : ℕ) : ℤ) =
      base + ⌊((w : ℝ) - 1) * c.trgH + deltaReal la lb lc * c.trgH + ((c.trgA : ℝ) + c.g) / 2 + 1 / 2⌋ := by
  have hhops : ((w : ℝ) - 1) * c.trgH + deltaReal la lb lc * c.trgH + ((c.trgA : ℝ) + c.g) / 2 + 1 / 2 =
      (((w - 1) * c.trgH : ℕ) : ℝ) + (deltaReal la lb lc * c.trgH + ((c.trgA : ℝ) + c.g) / 2 + 1 / 2) := by
    push_cast [hw]
    ring
  rw [hhops, Int.floor_natCast_add, ← peakShift_eq_floor]
  push_cast
  rfl

/-- `Decide` is the relation of R193 to R195 where the histories reach back to the start of the gate. -/
theorem decideTrigger_eq_some_iff {c : Cfg} {t : TrState} {w t0 : ℕ} (h0 : 7 ≤ w → 8 ≤ t.hist0.length)
    (h1 : 7 ≤ w → 8 ≤ t.hist1.length) : decideTrigger c t w = some t0 ↔ t.Decides c w t0 := by
  constructor
  · intro h
    obtain ⟨hw, la, lb, lc, l0, hla, hlb, hlc, hl0, hrise, hpeak, hnoise1, hnoise0, rfl⟩ := decideTrigger_some h
    have hlen0 := h0 hw
    have hlen1 := h1 hw
    rw [levelAt_eq_levelOf (by omega)] at hla hlb hlc hl0
    exact ⟨hw, la, lb, lc, l0, lowerMedian t.hist0, lowerMedian t.hist1, hla, hlb, hlc, hl0,
      lowerMedian_spec (List.ne_nil_of_length_pos (by omega)), lowerMedian_spec (List.ne_nil_of_length_pos (by omega)),
      ⟨hrise, hpeak⟩, hnoise1, hnoise0, startIndex_eq_floor c (by omega) t.base la lb lc⟩
  · rintro ⟨hw, la, lb, lc, l0, b0, b1, hla, hlb, hlc, hl0, hb0, hb1, ⟨hrise, hpeak⟩, hnoise1, hnoise0, ht0⟩
    have hlen0 := h0 hw
    have hlen1 := h1 hw
    rw [← levelAt_eq_levelOf (by omega)] at hla hlb hlc hl0
    rw [← lt_lowerMedian_addDb hb1] at hnoise1
    rw [← lt_lowerMedian_addDb hb0] at hnoise0
    rw [← startIndex_eq_floor c (by omega), Int.natCast_inj] at ht0
    rw [ht0, decideTrigger_of_tests hw hla hlb hlc hl0 hrise hpeak hnoise1 hnoise0]

/-- Where the declared start lies (R184, R346): after the last sample, at most a gate further, and not before the ninth
hop. -/
theorem decideTrigger_range {c : Cfg} {t : TrState} {n t0 : ℕ} (hwf : c.wf = true) (hends : EndsWindow c n)
    (h : decideTrigger c t (n / c.trgH - 1) = some t0) :
    t.base + n < t0 ∧ t0 ≤ t.base + (n + 1) + c.g ∧ 9 * c.trgH ≤ n + 1 := by
  obtain ⟨hw, la, lb, lc, _, _, _, _, _, _, _, _, _, rfl⟩ := decideTrigger_some h
  obtain ⟨⟨k, hk⟩, _⟩ := hends
  obtain ⟨hlow, hhigh⟩ := peakShift_range c la lb lc
  rw [Cfg.trgA_eq] at hlow hhigh
  rw [hops_of_dvd (trgH_pos hwf) hk] at hw ⊢
  obtain ⟨j, rfl⟩ : ∃ j, k = j + 9 := ⟨k - 9, by omega⟩
  have hgate := Cfg.six_trgH_le_g c
  have hhops : (j + 9 - 1 - 1 - 1) * c.trgH = c.trgH * j + 6 * c.trgH := by
    rw [show j + 9 - 1 - 1 - 1 = j + 6 by omega]; ring
  have hcount : n + 1 = c.trgH * j + 9 * c.trgH := by rw [hk]; ring
  omega

/-! ### One sample into a scanning record -/

/-- A history takes the new level and keeps the last 18 (R39). -/
theorem pushLevel_eq (hist : List Level) (l : Level) :
    pushLevel hist l = (if hist.length < Config.trgK then hist else hist.tail) ++ [l] := by
  unfold pushLevel
  simp only [List.length_append, List.length_singleton]
  rcases Nat.lt_or_ge hist.length Config.trgK with hroom | hfull
  · rw [if_pos hroom, if_neg (by omega)]
  · rw [if_neg (Nat.not_lt.2 hfull), if_pos (by omega), List.tail_append_of_ne_nil]
    exact List.ne_nil_of_length_pos (Nat.lt_of_lt_of_le (by decide) hfull)

theorem completeWindow_decision (c : Cfg) (t : TrState) (l : Lane) :
    (completeWindow c t l).2 = decideTrigger c (completeWindow c t l).1 t.m := rfl

theorem completeWindow_hist (c : Cfg) (t : TrState) (l : Lane) :
    (completeWindow c t l).1.hist0 = pushLevel t.hist0 (gzLevel c c.gate1 c.trgA l.q0) ∧
      (completeWindow c t l).1.hist1 = pushLevel t.hist1 (gzLevel c c.gate2 c.trgA l.q1) := ⟨rfl, rfl⟩

section
variable {c : Cfg} {t : TrState} (hwf : c.wf = true) (h : t.Scanning c) (x : RealVal)
include hwf h

/-- The look at the lanes decides where a window ends, on the record that has it, and nowhere else. -/
theorem TrState.Scanning.trComplete_decision :
    (EndsWindow c t.n →
      (Machine.trComplete c (trFeed c t x)).2 = decideTrigger c (Machine.trComplete c (trFeed c t x)).1 t.m) ∧
    (¬EndsWindow c t.n → (Machine.trComplete c (trFeed c t x)).2 = none) := by
  obtain ⟨_, _, hm, _⟩ := (trFeed c t x).clearDue_frame
  refine ⟨fun hends => ?_, fun hends => by rw [h.trComplete_of_not_ends hwf x hends]⟩
  rw [h.trComplete_of_ends hwf x hends, completeWindow_decision, hm, trFeed_m]

/-- The sample detects exactly when the tests of R193 hold of the window it ends. -/
theorem TrState.Scanning.trComplete_eq_some_iff (t0 : ℕ) :
    (Machine.trComplete c (trFeed c t x)).2 = some t0 ↔
      EndsWindow c t.n ∧ (Machine.trComplete c (trFeed c t x)).1.Decides c t.m t0 := by
  obtain ⟨hdecides, hnone⟩ := h.trComplete_decision hwf x
  by_cases hends : EndsWindow c t.n
  · obtain ⟨_, _, hm, _⟩ := (trFeed c t x).clearDue_frame
    have hnext := h.trComplete hwf x
    have hcount : (Machine.trComplete c (trFeed c t x)).1.m = t.m + 1 := by
      rw [h.trComplete_of_ends hwf x hends, completeWindow_m, hm, trFeed_m]
    have hlen0 : _ = min _ 18 := hnext.hist0
    have hlen1 : _ = min _ 18 := hnext.hist1
    rw [hdecides hends, decideTrigger_eq_some_iff (by omega) (by omega)]
    exact (and_iff_right hends).symm
  · rw [hnone hends]
    exact iff_of_false (Option.some_ne_none t0).symm fun hd => hends hd.1

/-- A detection lies ahead of the sample that makes it (R184), by a gate at most, and comes after nine hops (R346). -/
theorem TrState.Scanning.detection_range {t0 : ℕ} (hd : (Machine.trComplete c (trFeed c t x)).2 = some t0) :
    t.base + t.n < t0 ∧ t0 ≤ t.base + (t.n + 1) + c.g ∧ 9 * c.trgH ≤ t.n + 1 := by
  obtain ⟨hends, _⟩ := (h.trComplete_eq_some_iff hwf x t0).1 hd
  obtain ⟨hbase, _⟩ := trComplete_frame c (trFeed c t x)
  rw [(h.trComplete_decision hwf x).1 hends, h.windows] at hd
  have hrange := decideTrigger_range hwf hends hd
  rwa [hbase, trFeed_base] at hrange

/-- The levels of the window that ends enter the histories (R188). -/
theorem TrState.Scanning.hist_of_ends (hends : EndsWindow c t.n) :
    (Machine.trComplete c (trFeed c t x)).1.hist0 = (if t.hist0.length < 18 then t.hist0 else t.hist0.tail) ++
        [gzLevel c c.gate1 c.trgA (laneStep c t.dueLane x).q0] ∧
      (Machine.trComplete c (trFeed c t x)).1.hist1 = (if t.hist1.length < 18 then t.hist1 else t.hist1.tail) ++
        [gzLevel c c.gate2 c.trgA (laneStep c t.dueLane x).q1] := by
  obtain ⟨_, _, _, hhist0, hhist1, _⟩ := (trFeed c t x).clearDue_frame
  obtain ⟨hpush0, hpush1⟩ := completeWindow_hist c (trFeed c t x).clearDue (laneStep c t.dueLane x)
  rw [h.trComplete_of_ends hwf x hends, hpush0, hpush1, hhist0, hhist1, pushLevel_eq, pushLevel_eq]
  exact ⟨rfl, rfl⟩

/-- A sample without a detection keeps the relations of a scanning record (R37 to R39). -/
theorem TrState.Scanning.step (hnone : (trStep c t x).2 = none) : (trStep c t x).1.Scanning c := by
  rw [trStep_of_scans c h.found] at hnone ⊢
  exact { h.trComplete hwf x with found := hnone }

end

/-- Settles O41: a sample ends a window in the lane that is due or none; the window's decision is the relation of R193
to R195; and the record without a detection scans on. -/
theorem triggerIsCausal : Obligations.TriggerIsCausal := by
  intro c t u x r hwf
  refine ⟨TrState.fresh_scanning c, fun h hstep => ?_⟩
  have hscansOn := h.step hwf x
  obtain ⟨_, hn, _⟩ := trStep_frame c t x
  rw [hstep] at hscansOn hn
  rw [trStep_of_scans c h.found, Prod.mk.injEq] at hstep
  obtain ⟨rfl, rfl⟩ := hstep
  refine ⟨fun t0 => (h.trComplete_eq_some_iff hwf x t0).trans and_assoc, fun hends => ?histories,
    fun hends => ?unchanged, fun t0 hd => ?ahead, fun hnone => ⟨hscansOn hnone, hn⟩⟩
  case histories => exact ⟨t.dueLane, _, _, rfl, rfl, rfl, h.hist_of_ends hwf x hends⟩
  case unchanged =>
    rw [h.trComplete_of_not_ends hwf x hends]
    exact ⟨rfl, rfl⟩
  case ahead =>
    obtain ⟨hahead, _, hhops⟩ := h.detection_range hwf x hd
    exact ⟨hahead, hhops, hd⟩

end Sys2Proof.Machine
end

section
/-! The trigger's operations at the command port (spec/44_trigger_detector.md R189, R197 to R199; spec/30_encoding.md
R88). -/

namespace Sys2Proof.Machine

/-! ### A push of a scanning record stays in range (R14) -/

/-- With a gate's room above its samples a scanning record is in range after a push: a declared start is at most a gate
ahead. -/
theorem TrState.Scanning.trPush_inRange {c : Cfg} (hwf : c.wf = true) {t : TrState} (h : t.Scanning c)
    {xs : List RealVal} (hroom : t.base + t.n + xs.length + c.g < idxLimit) : (trPush c t xs).1.inRange = true := by
  induction xs generalizing t with
  | nil => exact h.inRange (by omega) (by omega)
  | cons x xs ih =>
    rw [List.length_cons] at hroom
    rw [trPush_cons]
    cases hd : (trStep c t x).2 with
    | none =>
      obtain ⟨hbase, hn, _⟩ := trStep_frame c t x
      exact ih (h.step hwf x hd) (by omega)
    | some t0 =>
      rw [trStep_of_scans c h.found] at hd ⊢
      obtain ⟨_, hahead, _⟩ := h.detection_range hwf x hd
      obtain ⟨hbase, hn, _⟩ := trComplete_frame c (trFeed c t x)
      rw [trFeed_base] at hbase
      rw [trFeed_n] at hn
      have hnext := (h.trComplete hwf x).inRange (by omega) (by omega)
      rw [TrState.inRange_iff] at hnext
      obtain ⟨hbaseIdx, _, hmIdx, _, hlanes⟩ := hnext
      rw [trPush_of_found c hd, TrState.inRange_iff]
      refine ⟨hbaseIdx, ?_, hmIdx, fun t1 ht1 => ?_, hlanes⟩
      · simp only [hn]
        omega
      · cases hd.symm.trans ht1
        omega

/-! ### `TRGPUSH` (R189) -/

theorem trReady_iff {c : Cfg} {t : TrState} : trReady c t = true ↔
    t.found.isSome = true ∨ t.lane0.q0.n < c.trgA ∧ (t.n < c.trgH ∨ t.lane1.q0.n < c.trgA) := by
  simp [trReady]

theorem TrState.Scanning.ready {c : Cfg} (hwf : c.wf = true) {t : TrState} (h : t.Scanning c) : trReady c t = true := by
  rw [trReady_iff, h.lane00, h.lane10]
  exact .inr ⟨Nat.mod_lt _ (trgA_pos hwf), .inr (Nat.mod_lt _ (trgA_pos hwf))⟩

section
variable {s : State} {t : TrState} {chunk : List RealVal}
  (h : s.operands = ⟨[.tr t], [.reals chunk]⟩) (ht : t.typed s.cfg = true)
include h ht

theorem trgpush_reads : s.operands.tr s.cfg 0 = .ok t ∧ s.operands.reals 0 = .ok chunk :=
  ⟨Operands.tr_ok (by rw [h]; rfl) ht, Operands.reals_ok (by rw [h]; rfl)⟩

/-- With its three tests passed `TRGPUSH` answers the record after the chunk, with its latch and its events. -/
theorem execTrgpush_of_tests (hbound : t.base + t.n + chunk.length < idxLimit)
    (hroom : chunk = [] ∨ trReady s.cfg t = true) (hrange : (trPush s.cfg t chunk).1.inRange = true) :
    execTrgpush s = .next (s.ret ⟨[.tr (trPush s.cfg t chunk).1, .optIdx (trPush s.cfg t chunk).1.found],
      [.events (trPush s.cfg t chunk).2]⟩) := by
  obtain ⟨htr, hreals⟩ := trgpush_reads h ht
  have hready : (chunk.isEmpty || trReady s.cfg t) = true := by simpa using hroom
  exact unitOp_ok (by simp [htr, hreals, hbound, hready, hrange])

/-- One test failed, and it refuses. -/
theorem execTrgpush_of_not (hbad : ¬(t.base + t.n + chunk.length < idxLimit ∧
    (chunk = [] ∨ trReady s.cfg t = true) ∧ (trPush s.cfg t chunk).1.inRange = true)) :
    execTrgpush s = .next (s.raise badOperand) := by
  obtain ⟨htr, hreals⟩ := trgpush_reads h ht
  refine unitOp_error ?_
  simp only [htr, hreals, res_bind_ok]
  by_cases hbound : t.base + t.n + chunk.length < idxLimit
  · rw [decide_eq_true hbound, require_true, res_bind_ok]
    by_cases hroom : chunk = [] ∨ trReady s.cfg t = true
    · have hready : (chunk.isEmpty || trReady s.cfg t) = true := by simpa using hroom
      have hrange : (trPush s.cfg t chunk).1.inRange = false :=
        Bool.eq_false_iff.2 fun hrange => hbad ⟨hbound, hroom, hrange⟩
      rw [hready, require_true, res_bind_ok, hrange, require_false, res_bind_error]
    · have hfull : (chunk.isEmpty || trReady s.cfg t) = false := by simpa using hroom
      rw [hfull, require_false, res_bind_error]
  · rw [decide_eq_false hbound, require_false, res_bind_error]

end

/-- Settles O38: the three tests of `TRGPUSH`, each failed by the refusal that names it; a scanning record passes the
last two. -/
theorem trgpushCompletes : Obligations.TrgpushCompletes := by
  intro s t chunk h ht
  obtain ⟨hn, hbase, hcben⟩ := trPush_frame s.cfg t chunk
  refine ⟨fun hbound hroom hrange => ?completes, fun hwf hscans hroom => ?scans,
    ⟨hn, hbase, hcben, trPush_events_length_le s.cfg t chunk⟩, fun hbound => ?bound, fun hfound hne hfull => ?full,
    fun hout => ?range⟩
  case completes =>
    refine execTrgpush_of_tests h ht hbound ?_ hrange
    rw [trReady_iff]
    tauto
  case scans =>
    exact ⟨_, _, execTrgpush_of_tests h ht (by omega) (.inr (hscans.ready hwf)) (hscans.trPush_inRange hwf hroom), rfl⟩
  case bound => exact execTrgpush_of_not h ht fun hok => absurd hok.1 (Nat.not_lt.2 hbound)
  case full =>
    refine execTrgpush_of_not h ht fun ⟨_, hroom, _⟩ => ?_
    rw [trReady_iff, hfound, Option.isSome_none] at hroom
    rcases hroom with hempty | hlatched | hlanes
    · exact hne hempty
    · cases hlatched
    · omega
  case range =>
    refine execTrgpush_of_not h ht fun ⟨_, _, hrange⟩ => ?_
    obtain ⟨_, _, hm, hstart, ⟨hlane0, _⟩, hlane1, _⟩ := (TrState.inRange_iff _).1 hrange
    rcases hout with ⟨t0, ht0, hidx⟩ | hidx | hidx | hidx
    · exact Nat.not_le.2 (hstart t0 ht0) hidx
    · exact Nat.not_le.2 hm hidx
    · exact Nat.not_le.2 hlane0 hidx
    · exact Nat.not_le.2 hlane1 hidx

/-! ### `TRGRESET`, `TRGMAXWIN` and `TRGSETCB` (R197 to R199) -/

/-- A number up to 1 is a flag (R84). -/
theorem int_slot_eq_bitSlot {v : ℕ} (hv : v ≤ 1) : Slot.int v = bitSlot (decide (v = 1)) := by
  obtain rfl | rfl : v = 0 ∨ v = 1 := by omega
  · rfl
  · rfl

section
variable {s : State} {t : TrState}

theorem execTrgreset_of_read {base : ℕ} (h : s.operands = ⟨[.tr t, .int base], []⟩) (ht : t.typed s.cfg = true)
    (hbase : base < idxLimit) : execTrgreset s = .next (s.ret ⟨[.tr (trReset t base)], []⟩) := by
  have htr : s.operands.tr s.cfg 0 = .ok t := Operands.tr_ok (by rw [h]; rfl) ht
  have hint : s.operands.int 1 = .ok base := Operands.int_ok (by rw [h]; rfl) hbase
  exact unitOp_ok (by rw [htr, res_bind_ok, hint]; rfl)

theorem execTrgsetcb_of_bit {enable : Bool} (h : s.operands = ⟨[.tr t, bitSlot enable], []⟩)
    (ht : t.typed s.cfg = true) : execTrgsetcb s = .next (s.ret ⟨[.tr { t with cben := enable }], []⟩) := by
  have htr : s.operands.tr s.cfg 0 = .ok t := Operands.tr_ok (by rw [h]; rfl) ht
  have hbit : s.operands.bit 1 = .ok enable := Operands.bit_ok (by rw [h]; rfl)
  exact unitOp_ok (by rw [htr, res_bind_ok, hbit]; rfl)

theorem execTrgsetcb_of_not_bit {enable : ℕ} (h : s.operands = ⟨[.tr t, .int enable], []⟩)
    (ht : t.typed s.cfg = true) (henable : 1 < enable) : execTrgsetcb s = .next (s.raise badOperand) := by
  have htr : s.operands.tr s.cfg 0 = .ok t := Operands.tr_ok (by rw [h]; rfl) ht
  exact unitOp_error (by rw [htr, res_bind_ok]; exact bit_bind_badOperand (by rw [h]; rfl) henable)

end

/-- Settles O42, by what each operation answers once its operands are read. -/
theorem triggerRecordOperationsComplete : Obligations.TriggerRecordOperationsComplete := by
  refine ⟨fun s t base h ht hbase => execTrgreset_of_read h ht hbase, fun s => rfl,
    fun s t enable h ht => ⟨fun hle => ?bit, execTrgsetcb_of_not_bit h ht⟩⟩
  case bit =>
    rw [int_slot_eq_bitSlot hle] at h
    exact execTrgsetcb_of_bit h ht

end Sys2Proof.Machine
end

section
/-! The symbol mapper (spec/45_symbol_mapper.md R211 to R213): the decision of a group as the lowest greatest of its
levels, and both operations at the command port (spec/30_encoding.md R88). -/

namespace Sys2Proof.Machine

/-! ### The decision of a group (R212) -/

/-- `k` is the lowest index among the greatest of `g 0, …, g (n - 1)`. -/
def LowestGreatest (g : ℕ → Level) (n k : ℕ) : Prop :=
  k < n ∧ (∀ i < n, Level.lt (g k) (g i) = false) ∧ (∀ i < k, Level.lt (g i) (g k) = true)

theorem lowestGreatest_one (g : ℕ → Level) : LowestGreatest g 1 0 := by
  refine ⟨Nat.one_pos, fun i hi => ?_, fun i hi => absurd hi (Nat.not_lt_zero i)⟩
  rw [Nat.lt_one_iff.1 hi, level_lt_irrefl]

/-- A further level that is greater than the greatest before it takes its place. -/
theorem LowestGreatest.succ_of_lt {g : ℕ → Level} {n k : ℕ} (h : LowestGreatest g n k)
    (hlt : Level.lt (g k) (g n) = true) : LowestGreatest g (n + 1) n := by
  obtain ⟨_, hgreatest, _⟩ := h
  have hbelow : ∀ i < n, levelValue (g i) < levelValue (g n) := fun i hi =>
    ((level_lt_eq_false_iff _ _).1 (hgreatest i hi)).trans_lt ((level_lt_iff _ _).1 hlt)
  refine ⟨n.lt_succ_self, fun i hi => ?_, fun i hi => (level_lt_iff _ _).2 (hbelow i hi)⟩
  rcases Nat.lt_succ_iff_lt_or_eq.1 hi with hi | rfl
  · exact (level_lt_eq_false_iff _ _).2 (hbelow i hi).le
  · exact level_lt_irrefl _

/-- A further level that is not greater leaves the choice, so a tie keeps the lower index (D19). -/
theorem LowestGreatest.succ_of_not_lt {g : ℕ → Level} {n k : ℕ} (h : LowestGreatest g n k)
    (hge : Level.lt (g k) (g n) = false) : LowestGreatest g (n + 1) k := by
  obtain ⟨hbound, hgreatest, hlowest⟩ := h
  refine ⟨Nat.lt_succ_of_lt hbound, fun i hi => ?_, hlowest⟩
  rcases Nat.lt_succ_iff_lt_or_eq.1 hi with hi | rfl
  · exact hgreatest i hi
  · exact hge

/-- A level strictly greater than every other one is the one chosen. -/
theorem LowestGreatest.eq_of_strict {g : ℕ → Level} {n k j : ℕ} (h : LowestGreatest g n k) (hj : j < n)
    (hstrict : ∀ i < n, i ≠ j → Level.lt (g i) (g j) = true) : k = j := by
  obtain ⟨hbound, hgreatest, _⟩ := h
  by_contra hne
  have hlt := hstrict k hbound hne
  rw [hgreatest j hj] at hlt
  cases hlt

/-- The scan of `ARGMAX` over `g 0, …, g n`. -/
def argmaxScan (g : ℕ → Level) (n : ℕ) : ℕ :=
  (List.range n).foldl (fun best i => if Level.lt (g best) (g (i + 1)) then i + 1 else best) 0

theorem argmaxScan_succ (g : ℕ → Level) (n : ℕ) :
    argmaxScan g (n + 1) = if Level.lt (g (argmaxScan g n)) (g (n + 1)) then n + 1 else argmaxScan g n := by
  rw [argmaxScan, List.range_succ, List.foldl_append]
  rfl

theorem argmaxScan_lowestGreatest (g : ℕ → Level) (n : ℕ) : LowestGreatest g (n + 1) (argmaxScan g n) := by
  induction n with
  | zero => exact lowestGreatest_one g
  | succ n ih =>
    rw [argmaxScan_succ]
    split
    · next hlt => exact ih.succ_of_lt hlt
    · next hge => exact ih.succ_of_not_lt (Bool.eq_false_iff.2 hge)

/-- The levels of the group starting at `base`. -/
def groupLevel (levels : List Level) (base i : ℕ) : Level := levels.getD (base + i) .negInf

theorem groupLevel_zero (levels : List Level) (i : ℕ) : groupLevel levels 0 i = levels.getD i .negInf := by
  rw [groupLevel, Nat.zero_add]

theorem argmaxGroup_eq_argmaxScan (levels : List Level) (base : ℕ) :
    argmaxGroup levels base = argmaxScan (groupLevel levels base) 15 := rfl

/-- The decision of a group depends on the levels of that group only. -/
theorem argmaxGroup_lowestGreatest (levels : List Level) (base : ℕ) :
    LowestGreatest (groupLevel levels base) 16 (argmaxGroup levels base) := by
  rw [argmaxGroup_eq_argmaxScan]
  exact argmaxScan_lowestGreatest _ 15

theorem toNat_ofNat_sym {v : ℕ} (hv : v < 16) : (BitVec.ofNat 4 v).toNat = v := by
  rw [BitVec.toNat_ofNat, Nat.mod_eq_of_lt hv]

theorem argmaxGroup_toNat (levels : List Level) (base : ℕ) :
    (BitVec.ofNat 4 (argmaxGroup levels base)).toNat = argmaxGroup levels base := by
  obtain ⟨hbound, _⟩ := argmaxGroup_lowestGreatest levels base
  exact toNat_ofNat_sym hbound

/-- R213 for one group: a strict greatest is the symbol decided. -/
theorem argmaxGroup_of_strict {levels : List Level} {base : ℕ} {sym : Sym}
    (hstrict : ∀ i < 16, i ≠ sym.toNat →
      Level.lt (groupLevel levels base i) (groupLevel levels base sym.toNat) = true) :
    BitVec.ofNat 4 (argmaxGroup levels base) = sym := by
  rw [(argmaxGroup_lowestGreatest levels base).eq_of_strict sym.isLt hstrict, BitVec.ofNat_toNat, BitVec.setWidth_eq]

/-! ### `ARGMAX` at the command port (R212) -/

section
variable {s : State} {levels : List Level} (h : s.operands = ⟨[], [.levels levels]⟩)
include h

theorem execArgmax_of_length (hlen : levels.length = 32) :
    execArgmax s = .next (s.ret ⟨[.int (argmaxGroup levels 0), .int (argmaxGroup levels 16)], []⟩) := by
  have hread : s.operands.levels 0 = .ok levels := Operands.levels_ok (by rw [h]; rfl)
  have htest : (levels.length == 32) = true := beq_iff_eq.2 hlen
  refine unitOp_ok ?_
  simp only [hread, res_bind_ok, htest, require_true, argmax, argmaxGroup_toNat]
  rfl

theorem execArgmax_of_length_ne (hlen : levels.length ≠ 32) : execArgmax s = .next (s.raise badOperand) := by
  have hread : s.operands.levels 0 = .ok levels := Operands.levels_ok (by rw [h]; rfl)
  have htest : (levels.length == 32) = false := beq_eq_false_iff_ne.2 hlen
  exact unitOp_error (by rw [hread, res_bind_ok, htest, require_false, res_bind_error])

end

/-- Settles O44, by the lowest greatest of each group. -/
theorem argmaxPicksTheLowestGreatest : Obligations.ArgmaxPicksTheLowestGreatest := by
  refine fun s levels h => ⟨fun hlen => ?_, execArgmax_of_length_ne h⟩
  obtain ⟨hboundA, hgreatestA, hlowestA⟩ := argmaxGroup_lowestGreatest levels 0
  obtain ⟨hboundB, hgreatestB, hlowestB⟩ := argmaxGroup_lowestGreatest levels 16
  simp only [groupLevel_zero] at hgreatestA hlowestA
  exact ⟨_, _, execArgmax_of_length h hlen, hboundA, hboundB, hgreatestA, hlowestA, hgreatestB, hlowestB⟩

/-! ### `SYM2FREQ` at the command port (R211) -/

/-- Two numbers of symbols have the frequency indices of R72. -/
theorem sym2freq_ofNat {sa sb : ℕ} (hsa : sa < 16) (hsb : sb < 16) :
    sym2freq (BitVec.ofNat 4 sa) (BitVec.ofNat 4 sb) = (sa, 16 + sb) :=
  Prod.ext (toNat_ofNat_sym hsa) (congrArg (16 + ·) (toNat_ofNat_sym hsb))

section
variable {s : State} {sa sb : ℕ} (h : s.operands = ⟨[.int sa, .int sb], []⟩)
include h

theorem execSym2freq_of_syms (hsyms : sa ≤ 15 ∧ sb ≤ 15) :
    execSym2freq s = .next (s.ret ⟨[.int sa, .int (16 + sb)], []⟩) := by
  obtain ⟨hsa, hsb⟩ := hsyms
  have hint0 : s.operands.int 0 = .ok sa := int_of_le (by rw [h]; rfl) hsa (by norm_num [idxLimit])
  have hint1 : s.operands.int 1 = .ok sb := int_of_le (by rw [h]; rfl) hsb (by norm_num [idxLimit])
  have hfreq := sym2freq_ofNat (Nat.lt_succ_of_le hsa) (Nat.lt_succ_of_le hsb)
  have htest : (decide (sa ≤ 15) && decide (sb ≤ 15)) = true := by simpa using And.intro hsa hsb
  refine unitOp_ok ?_
  rw [hint0, res_bind_ok, hint1, res_bind_ok, htest, require_true, res_bind_ok, hfreq]
  rfl

theorem execSym2freq_of_not_syms (hsyms : ¬(sa ≤ 15 ∧ sb ≤ 15)) : execSym2freq s = .next (s.raise badOperand) := by
  have htest : (decide (sa ≤ 15) && decide (sb ≤ 15)) = false := by simpa using hsyms
  refine unitOp_error (int_bind_badOperand (v := sa) (by rw [h]; rfl)
    (int_bind_badOperand (v := sb) (by rw [h]; rfl) ?_))
  rw [htest, require_false, res_bind_error]

end

/-- Settles O43, by the reading of the two symbols and by a strict greatest in each group. -/
theorem mapperInvertsItself : Obligations.MapperInvertsItself := by
  refine ⟨fun s sa sb h => ⟨execSym2freq_of_syms h, execSym2freq_of_not_syms h⟩,
    fun levels sa sb _ hstrictA hstrictB => ?inverse⟩
  case inverse =>
    have hsymA : BitVec.ofNat 4 (argmaxGroup levels 0) = sa := argmaxGroup_of_strict fun i hi hne => by
      rw [groupLevel_zero, groupLevel_zero]
      exact hstrictA i hi hne
    have hsymB : BitVec.ofNat 4 (argmaxGroup levels 16) = sb := argmaxGroup_of_strict hstrictB
    rw [argmax, hsymA, hsymB]

end Sys2Proof.Machine
end

section
/-! A push as a fold over its samples (spec/46_demodulator.md R222, R234): a chunk in two parts, the samples counted,
and what a push leaves, ready or not (R221, R226, R227, R235). -/

namespace Sys2Proof.Machine

/-! ### Chunks (R234) -/

section
variable {s : State} {xs : List RealVal}

/-- Where the first part of a chunk is ready the second part is counted and not examined (D27). -/
theorem pushSamples_append_of_ready (h : (s.pushSamples xs).2 = true) (ys : List RealVal) :
    s.pushSamples (xs ++ ys) = ((s.pushSamples xs).1.skipRest ys.length, true) := by
  induction xs generalizing s with
  | nil => cases h
  | cons x xs ih =>
    rw [List.cons_append]
    cases hr : (s.dmStep x).2 with
    | true => rw [pushSamples_ready hr, pushSamples_ready hr, skipRest_skipRest, List.length_append]
    | false =>
      rw [pushSamples_more hr] at h ⊢
      rw [pushSamples_more hr]
      exact ih h

/-- Where it is not, the second part is pushed after it. -/
theorem pushSamples_append_of_more (h : (s.pushSamples xs).2 = false) (ys : List RealVal) :
    s.pushSamples (xs ++ ys) = (s.pushSamples xs).1.pushSamples ys := by
  induction xs generalizing s with
  | nil => rfl
  | cons x xs ih =>
    rw [List.cons_append]
    cases hr : (s.dmStep x).2 with
    | true => rw [pushSamples_ready hr] at h; cases h
    | false =>
      rw [pushSamples_more hr] at h ⊢
      rw [pushSamples_more hr]
      exact ih h

end

theorem pushEach_cons (s : State) (c : List RealVal) (cs : List (List RealVal)) :
    s.pushEach (c :: cs) =
      (((s.pushSamples c).1.pushEach cs).1, (s.pushSamples c).2 || ((s.pushSamples c).1.pushEach cs).2) := rfl

/-- A cutting of which no chunk is ready is a push of the whole. -/
theorem pushSamples_flatten {s : State} {cs : List (List RealVal)} (h : (s.pushEach cs).2 = false) :
    s.pushSamples cs.flatten = ((s.pushEach cs).1, false) := by
  induction cs generalizing s with
  | nil => rfl
  | cons c cs ih =>
    rw [pushEach_cons, Bool.or_eq_false_iff] at h
    obtain ⟨hmore, hrest⟩ := h
    rw [List.flatten_cons, pushSamples_append_of_more hmore, ih hrest, pushEach_cons]

/-- Settles O47: the chunks before the ready one are a push of their samples, and the ones after it are skipped. -/
theorem chunkingIsInvisible : Obligations.ChunkingIsInvisible := by
  refine ⟨fun s cs => pushSamples_flatten, fun s before c after hmore hready => ?_⟩
  have hbefore := pushSamples_flatten hmore
  rw [List.flatten_append, List.flatten_cons, pushSamples_append_of_more (by rw [hbefore]), hbefore,
    pushSamples_append_of_ready hready]

/-! ### What a push leaves (R221, R226, R227, R235) -/

/-- A push counts its whole chunk, ready or not (R22, R27). -/
theorem pushSamples_pushed (s : State) (xs : List RealVal) :
    (s.pushSamples xs).1.dm.pushed = s.dm.pushed + xs.length := by
  induction xs generalizing s with
  | nil => rfl
  | cons x xs ih =>
    have hone := dmStep_pushed s x
    rw [List.length_cons]
    cases hr : (s.dmStep x).2 with
    | true =>
      rw [pushSamples_ready hr, State.skipRest_dm]
      simp only [hone]
      omega
    | false =>
      rw [pushSamples_more hr, ih, hone]
      omega

/-- The state a message leaves when it completes: no session, a payload, and the trigger armed at the next sample with
its enable as it was. -/
def State.Delivered (cben : Bool) (s : State) : Prop :=
  s.dm.session = none ∧ s.dm.payload.isSome = true ∧ s.tr = TrState.fresh s.dm.pushed cben

/-- Samples that are counted and not examined leave it so, at the index after them (D27). -/
theorem State.Delivered.skipRest {s : State} {cben : Bool} (h : s.Delivered cben) (n : ℕ) :
    (s.skipRest n).Delivered cben := by
  obtain ⟨hsession, hpayload, hrearmed⟩ := h
  refine ⟨hsession, hpayload, ?_⟩
  rw [State.skipRest_tr, hrearmed]
  rfl

/-- With no sample left to skip nothing moves: the trigger is armed at the next sample already. -/
theorem State.Delivered.skipRest_zero {s : State} {cben : Bool} (h : s.Delivered cben) : s.skipRest 0 = s := by
  obtain ⟨_, _, hrearmed⟩ := h
  have hbase : ({ s.tr with base := s.dm.pushed } : TrState) = s.tr := by rw [hrearmed]
  calc s.skipRest 0 = { s with tr := { s.tr with base := s.dm.pushed } } := rfl
    _ = s := by rw [hbase]

/-- What a sample or a push ends in: it is not ready and the payload is as before, or it has completed a message. -/
def State.EndsIn (s : State) (r : State × Bool) : Prop :=
  (r.2 = false → r.1.dm.payload = s.dm.payload) ∧ (r.2 = true → r.1.Delivered s.tr.cben)

theorem State.EndsIn.of_more {s u : State} (h : u.dm.payload = s.dm.payload) : s.EndsIn (u, false) :=
  ⟨fun _ => h, nofun⟩

theorem State.EndsIn.of_ready {s u : State} (h : u.Delivered s.tr.cben) : s.EndsIn (u, true) :=
  ⟨nofun, fun _ => h⟩

/-- A full header buffer abandons, opens the payload buffer, or delivers the empty payload (R226). -/
theorem headerFull_endsIn (s : State) (ss : Session) : s.EndsIn (s.headerFull ss) := by
  rcases headerFull_cases s ss with ⟨_, e⟩ | ⟨_, _, _, _, _, e⟩ | ⟨_, _, _, _, _, _, _, _, e⟩ <;> rw [e]
  · exact .of_more rfl
  · exact .of_ready ⟨rfl, rfl, rfl⟩
  · exact .of_more rfl

/-- A full payload buffer abandons or delivers (R227). -/
theorem payloadFull_endsIn (s : State) (ss : Session) (hdr : Hdr) : s.EndsIn (s.payloadFull ss hdr) := by
  rcases payloadFull_cases s ss hdr with ⟨_, e⟩ | ⟨_, _, _, e⟩ <;> rw [e]
  · exact .of_more rfl
  · exact .of_ready ⟨rfl, rfl, rfl⟩

/-- Only a full buffer completes a message (R223, R225). -/
theorem dmStep_endsIn (s : State) (x : RealVal) : s.EndsIn (s.dmStep x) := by
  cases hss : s.dm.session with
  | none => rcases dmStep_waiting hss x with ⟨_, e⟩ | ⟨_, _, e⟩ <;> rw [e] <;> exact .of_more rfl
  | some ss =>
    rw [dmStep_parsing hss]
    rcases parseSample_cases (s.setPushed (s.dm.pushed + 1)) ss s.dm.pushed x with
      ⟨_, e⟩ | ⟨_, ⟨_, e⟩ | ⟨_, ⟨_, e⟩ | ⟨hdr, _, e⟩⟩⟩ <;> rw [e]
    · exact .of_more rfl
    · exact .of_more rfl
    · exact headerFull_endsIn (s.setPushed (s.dm.pushed + 1)) _
    · exact payloadFull_endsIn (s.setPushed (s.dm.pushed + 1)) _ hdr

/-- A push of one sample is the sample. -/
theorem pushSamples_singleton (s : State) (x : RealVal) : s.pushSamples [x] = s.dmStep x := by
  cases hr : (s.dmStep x).2 with
  | true => rw [pushSamples_ready hr, List.length_nil, ((dmStep_endsIn s x).2 hr).skipRest_zero, ← hr]
  | false => rw [pushSamples_more hr, pushSamples_nil, ← hr]

/-- A push ends as the sample does that ends it (R222). -/
theorem pushSamples_endsIn (s : State) (xs : List RealVal) : s.EndsIn (s.pushSamples xs) := by
  induction xs generalizing s with
  | nil => exact .of_more rfl
  | cons x xs ih =>
    obtain ⟨hmore, hready⟩ := dmStep_endsIn s x
    cases hr : (s.dmStep x).2 with
    | true =>
      rw [pushSamples_ready hr]
      exact .of_ready ((hready hr).skipRest _)
    | false =>
      obtain ⟨ihmore, ihready⟩ := ih (s.dmStep x).1
      rw [(dmStep_notifies s x).enable] at ihready
      rw [pushSamples_more hr]
      exact ⟨fun h => (ihmore h).trans (hmore hr), ihready⟩

/-- A push only adds events, and keeps the enable (R45, R196). -/
theorem pushSamples_notifies (s : State) (xs : List RealVal) : s.Notifies (s.pushSamples xs).1 :=
  pushSamples_keeps notifies_dmStep notifies_skipRest xs s (.of_eq rfl rfl)

/-- A push writes neither the configuration nor the port (R24, log 4). -/
theorem pushSamples_frame (s : State) (xs : List RealVal) : s.Frame (s.pushSamples xs).1 :=
  pushSamples_keeps frame_dmStep frame_skipRest xs s ⟨rfl, rfl⟩

/-- A push leaves the synthesizer (R239). -/
theorem pushSamples_sy (s : State) (xs : List RealVal) : (s.pushSamples xs).1.sy = s.sy :=
  pushSamples_keeps (P := fun u => u.sy = s.sy) (fun u x hu => (dmStep_frame u x).2.1.trans hu) (fun _ _ hu => hu)
    xs s rfl

/-- Settles O46: a push is not ready and keeps the payload, or leaves the state of a completed message. -/
theorem pushFrame : Obligations.PushFrame := by
  intro s t xs ready h
  obtain ⟨hcfg, hport⟩ := pushSamples_frame s xs
  have hsy := pushSamples_sy s xs
  have henable := (pushSamples_notifies s xs).enable
  obtain ⟨hkeeps, hdelivers⟩ := pushSamples_endsIn s xs
  rw [h] at hcfg hport hsy henable hkeeps hdelivers
  refine ⟨hsy, hcfg, hport, henable, hkeeps, fun hready => ?_⟩
  obtain ⟨hsession, hpayload, htr⟩ := hdelivers hready
  exact ⟨hsession, hpayload, htr⟩

end Sys2Proof.Machine
end

section
/-! The receive commands at the command port (spec/46_demodulator.md R229 to R233; spec/30_encoding.md R88), and what a
detection and a full buffer do (R223, R224, R226, R227, R316). -/

namespace Sys2Proof.Machine

/-! ### `GETPAYLOAD` and `SETCB` (R229, R233) -/

theorem execGetpayload_of_some {s : State} {p : List Byte} (h : s.dm.payload = some p) :
    execGetpayload s = .next (s.ret ⟨[.int p.length], [bytesBuf p]⟩) :=
  hostOp_ok (by rw [h]; rfl)

theorem execGetpayload_of_none {s : State} (h : s.dm.payload = none) :
    execGetpayload s = .next (s.raise ⟨.notready, []⟩) :=
  hostOp_error (by rw [h]; rfl)

theorem execSetcb_of_bit {s : State} {enable : Bool} (h : s.operands = ⟨[bitSlot enable], []⟩) :
    execSetcb s = .next ((s.setTr { s.tr with cben := enable }).ret ⟨[], []⟩) := by
  have hbit : s.operands.bit 0 = .ok enable := Operands.bit_ok (by rw [h]; rfl)
  exact hostOp_ok (by rw [hbit]; rfl)

theorem execSetcb_of_not_bit {s : State} {enable : ℕ} (h : s.operands = ⟨[.int enable], []⟩) (henable : 1 < enable) :
    execSetcb s = .next (s.raise badOperand) :=
  hostOp_error (bit_bind_badOperand (by rw [h]; rfl) henable)

/-- Settles O51, by what each command answers once its operands are read. -/
theorem receiverCommandsComplete : Obligations.ReceiverCommandsComplete := by
  refine ⟨fun s p => execGetpayload_of_some, fun s => execGetpayload_of_none, fun s => rfl, fun s => rfl,
    fun s enable h => ⟨fun hle => ?bit, execSetcb_of_not_bit h⟩, fun s => rfl⟩
  case bit =>
    rw [int_slot_eq_bitSlot hle] at h
    exact execSetcb_of_bit h

/-! ### A full buffer (R226, R227, R316) -/

section
variable {s : State} {ss : Session}

/-- A header that cannot be corrected, or whose fields fail their check, abandons the message. -/
theorem headerFull_of_bad {n : ℕ} (h : fcDec ss.sym 8 2 false = .uncorrectable n ∨
    ∃ bytes f, fcDec ss.sym 8 2 false = .done bytes n ∧ hdrDec s.cfg bytes = .error f) :
    s.headerFull ss = (s.abandon n, false) := by
  unfold State.headerFull
  rcases h with h | ⟨bytes, f, h, hf⟩
  · rw [show fcDec ss.sym Config.hdrSyms Config.hdrPar false = _ from h]
  · rw [show fcDec ss.sym Config.hdrSyms Config.hdrPar false = _ from h]
    simp only [hf]

section
variable {bytes : List Byte} {n b p : ℕ} {h : Hdr} (hdec : fcDec ss.sym 8 2 false = .done bytes n)
  (hhdr : hdrDec s.cfg bytes = .ok h) (hshape : s.cfg.eccAt h.level.toNat = some (b, p))
include hdec hhdr hshape

/-- A header that decodes opens the payload buffer, or delivers the message that has no symbols. -/
theorem headerFull_of_done : s.headerFull ss =
    if nsym h.len.toNat b p h.crc = 0 then (((s.addFixed n).deliver []).toWaiting, true)
    else ((s.addFixed n).setSession (payloadSession s.cfg ss h (nsym h.len.toNat b p h.crc)), false) := by
  unfold State.headerFull
  rw [show fcDec ss.sym Config.hdrSyms Config.hdrPar false = _ from hdec]
  simp only [hhdr, hshape, Option.getD_some]

theorem headerFull_of_empty (hempty : nsym h.len.toNat b p h.crc = 0) :
    s.headerFull ss = (((s.addFixed n).deliver []).toWaiting, true) := by
  rw [headerFull_of_done hdec hhdr hshape, if_pos hempty]

theorem headerFull_of_symbols (hsyms : nsym h.len.toNat b p h.crc ≠ 0) : s.headerFull ss =
    ((s.addFixed n).setSession (payloadSession s.cfg ss h (nsym h.len.toNat b p h.crc)), false) := by
  rw [headerFull_of_done hdec hhdr hshape, if_neg hsyms]

end

section
variable {h : Hdr} {b p : ℕ} (hshape : s.cfg.eccAt h.level.toNat = some (b, p))
include hshape

/-- A payload that cannot be corrected, or whose CRC is wrong, abandons the message. -/
theorem payloadFull_of_bad {n : ℕ}
    (hdec : fcDec ss.sym b p h.crc = .uncorrectable n ∨ fcDec ss.sym b p h.crc = .crcMismatch n) :
    s.payloadFull ss h = (s.abandon n, false) := by
  unfold State.payloadFull
  rcases hdec with hdec | hdec <;> simp only [hshape, Option.getD_some, hdec]

/-- A payload that decodes is delivered. -/
theorem payloadFull_of_done {n : ℕ} {payload : List Byte} (hdec : fcDec ss.sym b p h.crc = .done payload n) :
    s.payloadFull ss h = (((s.addFixed n).deliver payload).toWaiting, true) := by
  unfold State.payloadFull
  simp only [hshape, Option.getD_some, hdec]

end

end

/-! ### A detection (R223, R224, R196) -/

/-- A detection opens a session, and is notified when that is enabled. -/
theorem dmStep_of_detection {s : State} {x : RealVal} {u : TrState} {t0 : ℕ} (hss : s.dm.session = none)
    (h : trStep s.cfg s.tr x = (u, some t0)) : s.dmStep x =
      ((((s.setPushed (s.dm.pushed + 1)).setTr u).emit (trEvents s.tr (some t0))).detect t0, false) := by
  rcases dmStep_waiting hss x with ⟨hnone, _⟩ | ⟨t1, hsome, e⟩
  · rw [h] at hnone; cases hnone
  · rw [h] at hsome e
    cases hsome
    exact e

/-- Settles O48: each case of R224, R226, R227 and R316 is the update it names. -/
theorem detectionAndAbandon : Obligations.DetectionAndAbandon := by
  refine ⟨fun s x u t0 hss h => ?detection, fun s ss n h => headerFull_of_bad h,
    fun s ss bytes n b p h hdec hhdr hshape => ⟨headerFull_of_empty hdec hhdr hshape,
      headerFull_of_symbols hdec hhdr hshape⟩,
    fun s ss h b p n hshape => ⟨payloadFull_of_bad hshape, fun payload hdec => payloadFull_of_done hshape hdec⟩⟩
  case detection =>
    rw [dmStep_of_detection hss h]
    cases hcb : s.tr.cben with
    | true => simp [State.detect, State.emit, State.setTr, State.setPushed, trEvents, hcb, freshSession]
    | false => simp [State.detect, State.emit, State.setTr, State.setPushed, trEvents, hcb, freshSession]

end Sys2Proof.Machine
end

section
/-! One equation for each case of a sample and of a push (spec/46_demodulator.md R222, R223, R225), and a change of the
state that a full buffer goes through (R226, R227). -/

namespace Sys2Proof.Machine

/-! ### The cases of a sample and of a push -/

section
variable {s : State} {ss : Session} {n : ℕ} {x : RealVal}

/-- A sample inside a word is given to the analyzers. -/
theorem parseSample_of_not_full (h : allFull s.cfg (feedAnalyzers s.cfg ss n x) = false) :
    s.parseSample ss n x = (s.setSession { ss with an := feedAnalyzers s.cfg ss n x }, false) := by
  rcases parseSample_cases s ss n x with ⟨_, e⟩ | ⟨hfull, _⟩
  · exact e
  · rw [h] at hfull; cases hfull

section
variable (h : allFull s.cfg (feedAnalyzers s.cfg ss n x) = true)
include h

/-- What follows a word: there is room in the buffer, or the buffer is full in one of the phases. -/
theorem parseSample_of_full :
    (ss.sym.length + 2 ≠ ss.need ∧
      s.parseSample ss n x = (s.setSession (wordDone s.cfg ss (feedAnalyzers s.cfg ss n x)), false)) ∨
    (ss.sym.length + 2 = ss.need ∧
      (ss.phase = .header ∧
        s.parseSample ss n x = s.headerFull (wordDone s.cfg ss (feedAnalyzers s.cfg ss n x)) ∨
      ∃ hdr, ss.phase = .payload hdr ∧
        s.parseSample ss n x = s.payloadFull (wordDone s.cfg ss (feedAnalyzers s.cfg ss n x)) hdr)) := by
  rcases parseSample_cases s ss n x with ⟨hpart, _⟩ | ⟨_, hword⟩
  · rw [h] at hpart; cases hpart
  · rwa [wordDone_sym_length] at hword

/-- A word that leaves room in the buffer is counted. -/
theorem parseSample_of_word (hroom : ss.sym.length + 2 ≠ ss.need) :
    s.parseSample ss n x = (s.setSession (wordDone s.cfg ss (feedAnalyzers s.cfg ss n x)), false) := by
  rcases parseSample_of_full h with ⟨_, e⟩ | ⟨hlast, _⟩
  · exact e
  · exact absurd hlast hroom

section
variable (hlast : ss.sym.length + 2 = ss.need)
include hlast

/-- A word that fills the header buffer hands it on. -/
theorem parseSample_of_header (hphase : ss.phase = .header) :
    s.parseSample ss n x = s.headerFull (wordDone s.cfg ss (feedAnalyzers s.cfg ss n x)) := by
  rcases parseSample_of_full h with ⟨hroom, _⟩ | ⟨_, ⟨_, e⟩ | ⟨_, hother, _⟩⟩
  · exact absurd hlast hroom
  · exact e
  · rw [hphase] at hother; cases hother

/-- A word that fills the payload buffer hands it on with its header. -/
theorem parseSample_of_payload {hdr : Hdr} (hphase : ss.phase = .payload hdr) :
    s.parseSample ss n x = s.payloadFull (wordDone s.cfg ss (feedAnalyzers s.cfg ss n x)) hdr := by
  rcases parseSample_of_full h with ⟨hroom, _⟩ | ⟨_, ⟨hother, _⟩ | ⟨_, hsame, e⟩⟩
  · exact absurd hlast hroom
  · rw [hphase] at hother; cases hother
  · rw [hphase] at hsame
    cases hsame
    exact e

end

end

/-- A sample that detects nothing is the trigger's (R223). -/
theorem dmStep_of_no_detection (hss : s.dm.session = none) (h : (trStep s.cfg s.tr x).2 = none) :
    s.dmStep x = ((s.setPushed (s.dm.pushed + 1)).setTr (trStep s.cfg s.tr x).1, false) := by
  rcases dmStep_waiting hss x with ⟨_, e⟩ | ⟨t0, hsome, _⟩
  · exact e
  · rw [h] at hsome; cases hsome

end

section
variable {s : State} {chunk : List RealVal}

theorem push_of_inRange (hbound : s.dm.pushed + chunk.length < idxLimit)
    (h : (s.pushSamples chunk).1.indicesInRange s.evt.length = true) : s.push chunk = .ok (s.pushSamples chunk) := by
  unfold State.push
  exact (if_neg (not_not.2 hbound)).trans (if_pos h)

/-- A push past the bound of the counter, or of an index it leaves, is refused (R22, log 11). -/
theorem push_of_out (h : idxLimit ≤ s.dm.pushed + chunk.length ∨
    (s.pushSamples chunk).1.indicesInRange s.evt.length = false) : s.push chunk = .error badOperand := by
  rcases push_cases s chunk with ⟨hbound, hrange, _⟩ | ⟨_, e⟩
  · rcases h with h | h
    · exact absurd hbound (Nat.not_lt.2 h)
    · rw [h] at hrange; cases hrange
  · exact e

end

/-! ### A change of the state that a full buffer goes through -/

/-- Whatever a full buffer does to the two states, the second result is the change `m` of the first. -/
def FullBufferMaps (m : State × Bool → State × Bool) (s s' : State) : Prop :=
  s'.cfg = s.cfg ∧
    (∀ n, (s'.abandon n, false) = m (s.abandon n, false)) ∧
    (∀ n p, (((s'.addFixed n).deliver p).toWaiting, true) = m (((s.addFixed n).deliver p).toWaiting, true)) ∧
    ∀ n ss, ((s'.addFixed n).setSession ss, false) = m ((s.addFixed n).setSession ss, false)

section
variable {m : State × Bool → State × Bool} {s s' : State} (h : FullBufferMaps m s s')
include h

theorem FullBufferMaps.headerFull (ss : Session) : s'.headerFull ss = m (s.headerFull ss) := by
  obtain ⟨hcfg, habandons, hdelivers, hopens⟩ := h
  unfold State.headerFull
  rw [hcfg]
  cases fcDec ss.sym Config.hdrSyms Config.hdrPar false with
  | badShape => exact habandons 0
  | uncorrectable n => exact habandons n
  | crcMismatch n => exact habandons n
  | done bytes n =>
    simp only
    cases hdrDec s.cfg bytes with
    | error e => exact habandons n
    | ok hdr =>
      simp only [hdelivers, hopens]
      exact (apply_ite m _ _ _).symm

theorem FullBufferMaps.payloadFull (ss : Session) (hdr : Hdr) : s'.payloadFull ss hdr = m (s.payloadFull ss hdr) := by
  obtain ⟨hcfg, habandons, hdelivers, _⟩ := h
  unfold State.payloadFull
  rw [hcfg]
  simp only
  cases fcDec ss.sym ((s.cfg.eccAt hdr.level.toNat).getD (0, 0)).1 ((s.cfg.eccAt hdr.level.toNat).getD (0, 0)).2
      hdr.crc with
  | badShape => exact habandons 0
  | uncorrectable n => exact habandons n
  | crcMismatch n => exact habandons n
  | done p n => exact hdelivers n p

end

end Sys2Proof.Machine
end

section
/-! The receive side and the transmit side are independent (spec/46_demodulator.md R239): a replacement of the other
side's state goes through every function of a side, and so through its operations. -/

namespace Sys2Proof.Machine

/-! ### A replacement through an operation -/

/-- A replacement of state elements other than the port. -/
def KeepsPort (f : State → State) : Prop :=
  (∀ s, (f s).operands = s.operands) ∧ ∀ s a, (f s).answerWith a = f (s.answerWith a)

/-- A host command whose body the replacement goes through ends in the replaced state, with the same answer. -/
theorem KeepsPort.hostOp {f : State → State} (hf : KeepsPort f) {s t : State}
    {body body' : Operands → Res (State × Reply)}
    (hbody : ∀ o, body' o = (body o).map (Prod.map f id)) (h : hostOp s body = .next t) :
    hostOp (f s) body' = .next (f t) := by
  obtain ⟨hoperands, hanswer⟩ := hf
  rcases hostOp_cases s body with ⟨u, r, hr, e⟩ | ⟨raised, hr, e⟩ <;> cases e.symm.trans h
  · have hr' : body' (f s).operands = .ok (f u, r) := by rw [hoperands, hbody, hr]; rfl
    rw [hostOp_ok hr', State.ret_eq_answerWith, hanswer]
    rfl
  · have hr' : body' (f s).operands = .error raised := by rw [hoperands, hbody, hr]; rfl
    rw [hostOp_error hr', State.raise_eq_answerWith, hanswer]
    rfl

/-- A change of the result goes through a sequence of two steps whose second one it goes through. -/
theorem map_bind_congr {α β : Type} {x : Res α} {f g : α → Res β} {m : β → β} (h : ∀ a, f a = (g a).map m) :
    x >>= f = (x >>= g).map m := by
  cases x with
  | error e => rfl
  | ok a => exact h a

/-- The same where the change begins in the first step. -/
theorem map_bind_map_congr {α β : Type} {x : Res α} {f g : α → Res β} {k : α → α} {m : β → β}
    (h : ∀ a, f (k a) = (g a).map m) : x.map k >>= f = (x >>= g).map m := by
  cases x with
  | error e => rfl
  | ok a => exact h a

/-! ### The receive side and the synthesizer -/

/-- The state with another synthesizer. -/
noncomputable def State.withSynth (y : Synth) (s : State) : State := { s with sy := y }

@[simp] theorem State.withSynth_cfg (y : Synth) (s : State) : (s.withSynth y).cfg = s.cfg := rfl

theorem State.withSynth_keepsPort (y : Synth) : KeepsPort (State.withSynth y) := ⟨fun _ => rfl, fun _ _ => rfl⟩

/-- A result of the sample machine with another synthesizer. -/
noncomputable def withSynthResult (y : Synth) (r : State × Bool) : State × Bool := (r.1.withSynth y, r.2)

section
variable (y : Synth) (s : State)

theorem fullBufferMaps_withSynth : FullBufferMaps (withSynthResult y) s (s.withSynth y) :=
  ⟨rfl, fun _ => rfl, fun _ _ => rfl, fun _ _ => rfl⟩

theorem parseSample_withSynth (ss : Session) (n : ℕ) (x : RealVal) :
    (s.withSynth y).parseSample ss n x = withSynthResult y (s.parseSample ss n x) := by
  have hfed : feedAnalyzers (s.withSynth y).cfg ss n x = feedAnalyzers s.cfg ss n x := rfl
  have hboundary : allFull (s.withSynth y).cfg (feedAnalyzers (s.withSynth y).cfg ss n x) =
      allFull s.cfg (feedAnalyzers s.cfg ss n x) := rfl
  have hfull := fullBufferMaps_withSynth y s
  rcases parseSample_cases s ss n x with ⟨hpart, e⟩ | ⟨hword, ⟨hroom, e⟩ | ⟨hlast, ⟨hp, e⟩ | ⟨hdr, hp, e⟩⟩⟩
  · rw [e, parseSample_of_not_full (hboundary.trans hpart), hfed]
    rfl
  · rw [wordDone_sym_length] at hroom
    rw [e, parseSample_of_word (hboundary.trans hword) hroom, hfed]
    rfl
  · rw [wordDone_sym_length] at hlast
    rw [e, parseSample_of_header (hboundary.trans hword) hlast hp, hfed, State.withSynth_cfg, hfull.headerFull]
  · rw [wordDone_sym_length] at hlast
    rw [e, parseSample_of_payload (hboundary.trans hword) hlast hp, hfed, State.withSynth_cfg, hfull.payloadFull]

theorem dmStep_withSynth (x : RealVal) : (s.withSynth y).dmStep x = withSynthResult y (s.dmStep x) := by
  cases hss : s.dm.session with
  | none =>
    have hss' : (s.withSynth y).dm.session = none := hss
    cases hr : trStep s.cfg s.tr x with
    | mk u r =>
      cases r with
      | none =>
        rw [dmStep_of_no_detection hss (by rw [hr]), dmStep_of_no_detection hss' (congrArg Prod.snd hr)]
        rfl
      | some t0 =>
        rw [dmStep_of_detection hss hr, dmStep_of_detection hss' hr]
        rfl
  | some ss =>
    have hss' : (s.withSynth y).dm.session = some ss := hss
    rw [dmStep_parsing hss, dmStep_parsing hss']
    exact parseSample_withSynth y (s.setPushed (s.dm.pushed + 1)) ss _ x

theorem pushSamples_withSynth (xs : List RealVal) :
    (s.withSynth y).pushSamples xs = withSynthResult y (s.pushSamples xs) := by
  induction xs generalizing s with
  | nil => rfl
  | cons x xs ih =>
    have hstep := dmStep_withSynth y s x
    have hflag : ((s.withSynth y).dmStep x).2 = (s.dmStep x).2 := by rw [hstep]; rfl
    cases hr : (s.dmStep x).2 with
    | true => rw [pushSamples_ready hr, pushSamples_ready (hflag.trans hr), hstep]; rfl
    | false => rw [pushSamples_more hr, pushSamples_more (hflag.trans hr), hstep]; exact ih _

theorem push_withSynth (chunk : List RealVal) :
    (s.withSynth y).push chunk = (s.push chunk).map (withSynthResult y) := by
  have hpush := pushSamples_withSynth y s chunk
  rcases push_cases s chunk with ⟨hbound, hrange, e⟩ | ⟨hout, e⟩ <;> rw [e]
  · rw [push_of_inRange (s := s.withSynth y) hbound (by rw [hpush]; exact hrange), hpush]
    rfl
  · exact push_of_out (by rw [hpush]; exact hout)

end

/-- A receive command writes the synthesizer in none of its effects (R239). -/
theorem decodeSide_sy {i : Instr} {s t : State} (hi : DecodeSide i) (h : exec i s = .next t) : t.sy = s.sy := by
  obtain ⟨u, a, hu, rfl⟩ := exec_effect h
  by_contra hne
  rcases effect_writes_sy hu hne with rfl | rfl | rfl <;> simp [DecodeSide] at hi

/-- A receive command runs the same with another synthesizer. -/
theorem exec_withSynth {i : Instr} {s t : State} (y : Synth) (hi : DecodeSide i) (h : exec i s = .next t) :
    exec i (s.withSynth y) = .next (t.withSynth y) := by
  have hport := State.withSynth_keepsPort y
  have hpush : ∀ chunk : List RealVal,
      ((s.withSynth y).push chunk >>= fun r => pure (r.1, (⟨[bitSlot r.2], []⟩ : Reply))) =
        (s.push chunk >>= fun r => pure (r.1, ⟨[bitSlot r.2], []⟩)).map (Prod.map (State.withSynth y) id) := by
    intro chunk
    rw [push_withSynth]
    exact map_bind_map_congr fun r => rfl
  obtain rfl | rfl | rfl | rfl | rfl | rfl | rfl := hi <;> simp only [exec] at h ⊢
  · exact hport.hostOp (fun o => map_bind_congr hpush) h
  · exact hport.hostOp (fun o => map_bind_congr fun chunk => hpush _) h
  · refine hport.hostOp (fun o => ?_) h
    cases hp : s.dm.payload with
    | none => rw [show (s.withSynth y).dm.payload = none from hp]; rfl
    | some p => rw [show (s.withSynth y).dm.payload = some p from hp]; rfl
  · exact hport.hostOp (fun o => rfl) h
  · exact hport.hostOp (fun o => rfl) h
  · exact hport.hostOp (fun o => rfl) h
  · exact hport.hostOp (fun o => map_bind_congr fun enable => rfl) h

/-! ### The transmit side and the receiver -/

/-- The state with another demodulator, trigger and event output. -/
noncomputable def State.withReceiver (d : Demod) (r : TrState) (e : List Event) (s : State) : State :=
  { s with dm := d, tr := r, evt := e }

section
variable (d : Demod) (r : TrState) (e : List Event)

theorem State.withReceiver_keepsPort : KeepsPort (State.withReceiver d r e) := ⟨fun _ => rfl, fun _ _ => rfl⟩

variable (s : State)

@[simp] theorem State.withReceiver_cfg : (s.withReceiver d r e).cfg = s.cfg := rfl

theorem setPayload_withReceiver (payload : List Byte) (level : ℕ) (crc : Bool) :
    (s.withReceiver d r e).setPayload payload level crc =
      (s.setPayload payload level crc).map (Prod.map (State.withReceiver d r e) id) := by
  unfold State.setPayload
  rw [State.withReceiver_cfg]
  cases s.cfg.eccAt level with
  | none => rfl
  | some bp =>
    simp only [apply_ite (Except.map _)]
    rfl

theorem getSamples_withReceiver (buf : List RealVal) (power : RealVal) :
    (s.withReceiver d r e).getSamples buf power =
      (s.getSamples buf power).map (Prod.map (State.withReceiver d r e) id) := by
  unfold State.getSamples
  rw [apply_ite (Except.map _), apply_ite (Except.map _)]
  rfl
end

/-- A transmit command runs the same with another receiver. -/
theorem exec_withReceiver {i : Instr} {s t : State} (d : Demod) (r : TrState) (e : List Event) (hi : EncodeSide i)
    (h : exec i s = .next t) : exec i (s.withReceiver d r e) = .next (t.withReceiver d r e) := by
  have hport := State.withReceiver_keepsPort d r e
  obtain rfl | rfl := hi <;> simp only [exec] at h ⊢
  · refine hport.hostOp (fun o => map_bind_congr fun payload => map_bind_congr fun level =>
      map_bind_congr fun crc => ?_) h
    rw [setPayload_withReceiver]
    exact map_bind_map_congr fun q => rfl
  · refine hport.hostOp (fun o => map_bind_congr fun buf => map_bind_congr fun power => ?_) h
    rw [getSamples_withReceiver]
    exact map_bind_map_congr fun q => rfl

/-- A transmit command writes the demodulator, the trigger and the events in none of its effects (R239). -/
theorem encodeSide_receiver {i : Instr} {s t : State} (hi : EncodeSide i) (h : exec i s = .next t) :
    t.dm = s.dm ∧ t.tr = s.tr ∧ t.evt = s.evt := by
  obtain ⟨u, a, hu, rfl⟩ := exec_effect h
  refine ⟨by_contra fun hne => ?_, by_contra fun hne => ?_, by_contra fun hne => ?_⟩
  · rcases effect_writes_dm hu hne with rfl | rfl | rfl | rfl <;> simp [EncodeSide] at hi
  · rcases effect_writes_tr hu hne with rfl | rfl | rfl | rfl | rfl <;> simp [EncodeSide] at hi
  · rcases effect_writes_evt hu hne with rfl | rfl | rfl <;> simp [EncodeSide] at hi

/-- Settles O8: no effect of a side writes the other, and its operations run the same with the other replaced. -/
theorem receiveAndTransmitAreIndependent : Obligations.ReceiveAndTransmitAreIndependent := by
  refine ⟨fun i s t y hi h => ⟨decodeSide_sy hi h, exec_withSynth y hi h⟩, fun i s t d r e hi h => ?_⟩
  obtain ⟨hdm, htr, hevt⟩ := encodeSide_receiver hi h
  exact ⟨hdm, htr, hevt, exec_withReceiver d r e hi h⟩

end Sys2Proof.Machine
end

section
/-! The session in time with the sample count (spec/10_state.md R32, R33, spec/46_demodulator.md R225): where every
analyzer stands, which sample ends a word, and what the session is after each sample. -/

namespace Sys2Proof.Machine

variable {c : Cfg} {ss : Session} {n : ℕ} {x : RealVal}

/-! ### The analyzers (R33, R225) -/

/-- Every analyzer has taken the samples of its window that are among the first `n`. -/
def AnalyzersAt (c : Cfg) (ss : Session) (n : ℕ) (an : Vector GzState 32) : Prop :=
  ∀ f : Fin 32, an[f].n = min (c.winLen f) (n - (burstStart c ss + c.winOff f))

/-- Before the burst no window has begun. -/
theorem analyzersAt_zero (h : n ≤ burstStart c ss) : AnalyzersAt c ss n (Vector.replicate 32 GzState.zero) := by
  intro f
  have hbefore : n - (burstStart c ss + c.winOff f) = 0 := by omega
  rw [hbefore, Nat.min_zero]
  simp

/-- A sample moves the analyzers on whose windows it lies in. -/
theorem AnalyzersAt.feed (h : AnalyzersAt c ss n ss.an) (x : RealVal) :
    AnalyzersAt c ss (n + 1) (feedAnalyzers c ss n x) := by
  intro f
  have hf := h f
  rw [feedAnalyzers_get]
  split
  · rw [gzStep_n]; omega
  · omega

/-- All windows are full from the word's end on. -/
theorem AnalyzersAt.allFull_iff {an : Vector GzState 32} (hwf : c.wf = true) (h : AnalyzersAt c ss n an) :
    allFull c an = true ↔ burstStart c ss + c.wordEnd ≤ n := by
  rw [Machine.allFull_iff]
  constructor
  · intro hfull
    have hends : ∀ f : Fin 32, burstStart c ss + (c.winOff f + c.winLen f) ≤ n := fun f => by
      have hf := h f
      have hpos := Cfg.winLen_pos hwf f
      rw [hfull f] at hf
      omega
    have hlast : c.wordEnd ≤ n - burstStart c ss := by
      refine Cfg.foldl_max_le _ _ 0 _ (Nat.zero_le _) fun f _ => ?_
      have hf := hends f
      omega
    have hbegun := hends 0
    omega
  · intro hend f
    have hf := h f
    have hwin := Cfg.window_le_wordEnd c f
    omega

/-- While not all windows are full one of them has room. -/
theorem AnalyzersAt.exists_room {an : Vector GzState 32} (h : AnalyzersAt c ss n an) (hpart : allFull c an = false) :
    ∃ f : Fin 32, an[f].n < c.winLen f := by
  by_contra hnone
  have hfull : allFull c an = true := by
    rw [Machine.allFull_iff]
    intro f
    have hf := h f
    have hge := not_exists.1 hnone f
    omega
  rw [hpart] at hfull
  cases hfull

/-- Analyzers that start afresh have room. -/
theorem exists_room_of_zero (hwf : c.wf = true) :
    ∃ f : Fin 32, (Vector.replicate 32 GzState.zero)[f].n < c.winLen f :=
  ⟨0, by simpa using Nat.lt_of_succ_le (Cfg.winLen_pos hwf 0)⟩

/-! ### The session after a sample (R32, R224 to R226) -/

theorem burstStart_wordDone (c : Cfg) (ss : Session) (an : Vector GzState 32) :
    burstStart c (wordDone c ss an) = burstStart c ss + (c.w + c.s) := by
  simp only [burstStart, wordDone_t0, wordDone_k]
  ring

/-- The session that a detection opens waits for its first burst. -/
theorem freshSession_timely (hwf : c.wf = true) {t0 : ℕ} (h : n ≤ t0) : (freshSession t0).Timely c n where
  words := rfl
  room := Nat.zero_lt_succ 7
  even := (by decide : 8 % 2 = 0)
  needRight := rfl
  analyzers := analyzersAt_zero (by simp only [burstStart, freshSession]; omega)
  notFull := exists_room_of_zero hwf

theorem Session.Timely.analyzersAt (h : ss.Timely c n) : AnalyzersAt c ss n ss.an := h.analyzers

/-- A session whose analyzers alone have moved, with room left in one of them. -/
theorem Session.Timely.withAn {m : ℕ} {an : Vector GzState 32} (h : ss.Timely c n) (han : AnalyzersAt c ss m an)
    (hroom : ∃ f : Fin 32, an[f].n < c.winLen f) : Session.Timely c m { ss with an := an } where
  words := h.words
  room := h.room
  even := h.even
  needRight := h.needRight
  analyzers := han
  notFull := hroom

/-- A sample inside a word. -/
theorem Session.Timely.fed (h : ss.Timely c n) (hpart : allFull c (feedAnalyzers c ss n x) = false) :
    Session.Timely c (n + 1) { ss with an := feedAnalyzers c ss n x } :=
  h.withAn (h.analyzersAt.feed x) ((h.analyzersAt.feed x).exists_room hpart)

section
variable (hwf : c.wf = true) (h : ss.Timely c n)
include hwf h

/-- While a session is timely its word has not ended. -/
theorem Session.Timely.lt_wordEnd : n < burstStart c ss + c.wordEnd := by
  obtain ⟨f, hf⟩ := h.notFull
  have hpart : ¬allFull c ss.an = true := fun hfull => hf.ne ((Machine.allFull_iff c ss.an).1 hfull f)
  rwa [h.analyzersAt.allFull_iff hwf, Nat.not_le] at hpart

/-- The sample that ends a word which leaves room in the buffer. -/
theorem Session.Timely.word (hroom : ss.sym.length + 2 ≠ ss.need) :
    Session.Timely c (n + 1) (wordDone c ss (feedAnalyzers c ss n x)) where
  words := by
    have hwords := h.words
    rw [wordDone_sym_length, wordDone_k]
    omega
  room := by
    have hwords := h.words
    have hless := h.room
    have heven := h.even
    rw [wordDone_sym_length, wordDone_need]
    omega
  even := h.even
  needRight := h.needRight
  analyzers := by
    refine analyzersAt_zero ?_
    have hend := h.lt_wordEnd hwf
    have hburst := Cfg.wordEnd_le c
    rw [burstStart_wordDone]
    omega
  notFull := exists_room_of_zero hwf

/-- The sample that ends the header, where the header opens the payload buffer. -/
theorem Session.Timely.payload {hdr : Hdr} {b p : ℕ} (hphase : ss.phase = .header)
    (hlast : ss.sym.length + 2 = ss.need) (hbp : c.eccAt hdr.level.toNat = some (b, p))
    (hneed : 0 < nsym hdr.len.toNat b p hdr.crc) :
    Session.Timely c (n + 1)
      (payloadSession c (wordDone c ss (feedAnalyzers c ss n x)) hdr (nsym hdr.len.toNat b p hdr.crc)) where
  words := rfl
  room := hneed
  even := by
    obtain ⟨_, _, _, _, hpar⟩ := Cfg.eccAt_shape hwf hbp
    exact nsym_even _ b hpar _
  needRight := ⟨(b, p), hbp, rfl⟩
  analyzers := by
    refine analyzersAt_zero ?_
    have hend := h.lt_wordEnd hwf
    have hburst := Cfg.wordEnd_le c
    have hwords := h.words
    have hright := h.needRight
    simp only [Session.NeedRight, hphase] at hright
    have hfour : ss.sym.length + 2 = 8 := hlast.trans hright
    have hk : ss.k = 3 := by omega
    simp only [burstStart, payloadSession, wordDone_t0, hk] at hend ⊢
    omega
  notFull := exists_room_of_zero hwf

end

end Sys2Proof.Machine
end

section
/-! Every step keeps the receive side in time (spec/10_state.md R27, R36 to R39, spec/46_demodulator.md R221 to R227):
the invariant of a sample, which says nothing about ranges, and the ranges that an operation tests at its end
(log 11). -/

namespace Sys2Proof.Machine

/-! ### The invariant of a sample -/

/-- A waiting trigger scans in step with the sample count, and a session is timely. -/
def State.InTime (s : State) : Prop :=
  s.cfg.wf = true ∧ (s.dm.session = none → s.tr.Scanning s.cfg ∧ s.tr.base + s.tr.n = s.dm.pushed) ∧
    ∀ ss, s.dm.session = some ss → ss.Timely s.cfg s.dm.pushed

theorem State.Timing.inTime {s : State} (h : s.Timing) : s.InTime := ⟨h.cfgWf, h.waiting, h.parsing⟩

/-- With a session only the session has to be timely. -/
theorem State.InTime.of_parsing {s : State} {ss : Session} (hwf : s.cfg.wf = true) (hss : s.dm.session = some ss)
    (h : ss.Timely s.cfg s.dm.pushed) : s.InTime := by
  refine ⟨hwf, fun hnone => ?_, fun ss' hss' => ?_⟩
  · rw [hss] at hnone; cases hnone
  · rw [hss] at hss'
    cases hss'
    exact h

theorem State.InTime.of_waiting {s : State} (hwf : s.cfg.wf = true) (hss : s.dm.session = none)
    (h : s.tr.Scanning s.cfg) (hn : s.tr.base + s.tr.n = s.dm.pushed) : s.InTime := by
  refine ⟨hwf, fun _ => ⟨h, hn⟩, fun ss hsome => ?_⟩
  rw [hss] at hsome; cases hsome

/-- A trigger armed at the next sample is in time (R221). -/
theorem State.InTime.of_fresh {s : State} {cben : Bool} (hwf : s.cfg.wf = true) (hss : s.dm.session = none)
    (htr : s.tr = TrState.fresh s.dm.pushed cben) : s.InTime := by
  refine .of_waiting hwf hss ?_ ?_
  · rw [htr]
    exact TrState.fresh_scanning _ _ _
  · rw [htr]
    rfl

/-- A full header buffer leaves the trigger armed, or the payload's session. -/
theorem headerFull_inTime {s : State} {ss : Session} (hwf : s.cfg.wf = true)
    (hpayload : ∀ hdr b p, s.cfg.eccAt hdr.level.toNat = some (b, p) → 0 < nsym hdr.len.toNat b p hdr.crc →
      Session.Timely s.cfg s.dm.pushed (payloadSession s.cfg ss hdr (nsym hdr.len.toNat b p hdr.crc))) :
    (s.headerFull ss).1.InTime := by
  rcases headerFull_cases s ss with ⟨n, e⟩ | ⟨_, n, _, _, _, e⟩ | ⟨_, n, hdr, need, _, hh, hpos, hneed, e⟩ <;> rw [e]
  · exact .of_fresh hwf rfl rfl
  · exact .of_fresh hwf rfl rfl
  · obtain ⟨⟨b, p⟩, hbp⟩ := hdrDec_level hh
    rw [hbp, Option.getD_some] at hneed
    subst hneed
    exact .of_parsing hwf rfl (hpayload hdr b p hbp hpos)

/-- A full payload buffer leaves the trigger armed. -/
theorem payloadFull_inTime {s : State} (ss : Session) (hdr : Hdr) (hwf : s.cfg.wf = true) :
    (s.payloadFull ss hdr).1.InTime := by
  rcases payloadFull_cases s ss hdr with ⟨_, e⟩ | ⟨_, _, _, e⟩ <;> rw [e] <;> exact .of_fresh hwf rfl rfl

theorem parseSample_inTime {s : State} {ss : Session} {n : ℕ} (x : RealVal) (hwf : s.cfg.wf = true)
    (hn : s.dm.pushed = n + 1) (h : ss.Timely s.cfg n) : (s.parseSample ss n x).1.InTime := by
  rcases parseSample_cases s ss n x with ⟨hpart, e⟩ | ⟨_, ⟨hroom, e⟩ | ⟨hlast, ⟨hp, e⟩ | ⟨hdr, _, e⟩⟩⟩ <;> rw [e]
  · refine .of_parsing hwf rfl ?_
    rw [State.setSession_dm, hn]
    exact h.fed hpart
  · rw [wordDone_sym_length] at hroom
    refine .of_parsing hwf rfl ?_
    rw [State.setSession_dm, hn]
    exact h.word hwf hroom
  · rw [wordDone_sym_length] at hlast
    refine headerFull_inTime hwf fun hdr b p hbp hneed => ?_
    rw [hn]
    exact h.payload hwf hp hlast hbp hneed
  · exact payloadFull_inTime _ hdr hwf

/-- One sample keeps the receive side in time, in either state (R223). -/
theorem dmStep_inTime (s : State) (x : RealVal) (h : s.InTime) : (s.dmStep x).1.InTime := by
  obtain ⟨hwf, hwaits, hparses⟩ := h
  cases hss : s.dm.session with
  | none =>
    obtain ⟨hscans, hcount⟩ := hwaits hss
    obtain ⟨hbase, hn, _⟩ := trStep_frame s.cfg s.tr x
    rcases dmStep_waiting hss x with ⟨hnone, e⟩ | ⟨t0, hsome, e⟩ <;> rw [e]
    · refine .of_waiting hwf hss (hscans.step hwf x hnone) ?_
      simp only [State.setTr_tr, State.setTr_dm, State.setPushed_dm, hbase, hn]
      omega
    · rw [trStep_of_scans _ hscans.found] at hsome
      obtain ⟨hahead, _, _⟩ := hscans.detection_range hwf x hsome
      refine .of_parsing hwf rfl (freshSession_timely hwf ?_)
      simp only [State.detect_dm, State.emit_dm, State.setTr_dm, State.setPushed_dm]
      omega
  | some ss =>
    rw [dmStep_parsing hss]
    exact parseSample_inTime (s := s.setPushed (s.dm.pushed + 1)) x hwf rfl (hparses ss hss)

/-- A push keeps the receive side in time: where it skips samples the trigger has been armed and moves with them
(R222). -/
theorem pushSamples_inTime (s : State) (xs : List RealVal) (h : s.InTime) : (s.pushSamples xs).1.InTime := by
  induction xs generalizing s with
  | nil => exact h
  | cons x xs ih =>
    have hstep := dmStep_inTime s x h
    cases hr : (s.dmStep x).2 with
    | true =>
      obtain ⟨hsession, _, htr⟩ := ((dmStep_endsIn s x).2 hr).skipRest xs.length
      rw [pushSamples_ready hr]
      exact .of_fresh hstep.1 hsession htr
    | false =>
      rw [pushSamples_more hr]
      exact ih _ hstep

/-! ### The ranges at the end of an operation (log 11) -/

/-- A push that is not refused keeps `Timing`: the ranges of what it writes are those it has tested. -/
theorem push_timing {s t : State} {chunk : List RealVal} {ready : Bool} (hs : s.Timing)
    (h : s.push chunk = .ok (t, ready)) : t.Timing := by
  rcases push_cases s chunk with ⟨hbound, hrange, e⟩ | ⟨_, e⟩
  · obtain rfl : (s.pushSamples chunk).1 = t := congrArg Prod.fst (Except.ok.inj (e.symm.trans h))
    obtain ⟨hwf, hwaits, hparses⟩ := pushSamples_inTime s chunk hs.inTime
    obtain ⟨hsession, htr, hnew⟩ := (indicesInRange_iff _ _).1 hrange
    obtain ⟨new, hgrown⟩ := (pushSamples_notifies s chunk).grows
    refine ⟨hwf, by rwa [pushSamples_pushed], hwaits, hparses, fun ss hss => ?_, htr, fun t0 ht0 => ?_⟩
    · exact ((Session.inRange_iff ss).1 (hsession ss hss)).1
    · rw [← hgrown, List.drop_left] at hnew
      rw [← hgrown, List.mem_append] at ht0
      exact ht0.elim (hs.events t0) (hnew t0)
  · cases e.symm.trans h

theorem pushAll_timing {chunks : List (List RealVal)} {s t : State} {seen ready : Bool} (hs : s.Timing)
    (h : s.pushAll chunks seen = .ok (t, ready)) : t.Timing := by
  induction chunks generalizing s seen with
  | nil => cases h; exact hs
  | cons c cs ih =>
    rcases pushAll_cons s c cs seen with ⟨f, _, e⟩ | ⟨u, r, hu, e⟩
    · cases e.symm.trans h
    · exact ih (push_timing hs hu) (e.symm.trans h)

/-- The invariant does not look at the synthesizer and the port. -/
theorem State.Timing.congr {s t : State} (h : s.Timing) (hcfg : t.cfg = s.cfg) (hdm : t.dm = s.dm) (htr : t.tr = s.tr)
    (hevt : t.evt = s.evt) : t.Timing := by
  obtain ⟨cfg, dm, tr, sy, evt, port⟩ := t
  obtain rfl : cfg = s.cfg := hcfg
  obtain rfl : dm = s.dm := hdm
  obtain rfl : tr = s.tr := htr
  obtain rfl : evt = s.evt := hevt
  exact ⟨h.cfgWf, h.inRange, h.waiting, h.parsing, h.start, h.trigger, h.events⟩

/-- `RESET` starts the count and the trigger at 0 (R231). -/
theorem softReset_timing {s : State} (h : s.Timing) : s.softReset.Timing := by
  obtain ⟨hwf, hwaits, hparses⟩ := State.InTime.of_fresh (s := s.softReset) h.cfgWf rfl rfl
  have hzero : 0 < idxLimit := Nat.two_pow_pos 64
  refine ⟨hwf, hzero, hwaits, hparses, fun ss hss => ?_, ?_, h.events⟩
  · cases hss
  · rw [State.softReset_tr, inRange_trReset]
    exact decide_eq_true hzero

/-- The enable is no part of what scans (R233). -/
theorem setCben_timing {s : State} (h : s.Timing) (cben : Bool) : (s.setTr { s.tr with cben := cben }).Timing := by
  refine ⟨h.cfgWf, h.inRange, fun hss => ?_, h.parsing, h.start, h.trigger, h.events⟩
  obtain ⟨⟨hfound, h00, h01, h10, h11, hm, hhist0, hhist1⟩, hn⟩ := h.waiting hss
  exact ⟨⟨hfound, h00, h01, h10, h11, hm, hhist0, hhist1⟩, hn⟩

/-- Every operation keeps the receive side in time. -/
theorem effect_timing {s u : State} {i : Instr} (hs : s.Timing) (h : Effect s i u) : u.Timing := by
  cases h with
  | keeps => exact hs
  | pushes _ h => exact push_timing hs h
  | resets => exact softReset_timing hs
  | enables enable => exact setCben_timing hs enable
  | loads h => rw [setPayload_frame h]; exact hs.congr rfl rfl rfl rfl
  | pulls h => rw [getSamples_frame h]; exact hs.congr rfl rfl rfl rfl
  | demos h =>
    obtain ⟨y, chunks, seen, h⟩ := demo_receives h
    have hreset : State.Timing { s.softReset with sy := y } := (softReset_timing hs).congr rfl rfl rfl rfl
    exact pushAll_timing hreset h

/-- Settles O58: every effect keeps `Timing`, and the answer does not touch it. -/
theorem stepKeepsTheTiming : Obligations.StepKeepsTheTiming := by
  intro s t hs h
  exact step_keeps (fun u a hu => hu.congr rfl rfl rfl rfl) (fun i u hu => effect_timing hs hu) h

end Sys2Proof.Machine
end

section
/-! The two pushes at the command port (spec/46_demodulator.md R222, R228; spec/30_encoding.md R88): which of them
complete, and that with a gate and four words of room below the bound no index is refused (R22, log 11). -/

namespace Sys2Proof.Machine

/-! ### The indices of a push with room (R14, R28, R40, R44, R45) -/

/-- What a header that decodes still adds to the tone-start reference (R226). -/
noncomputable def headerLead (c : Cfg) : Phase → ℕ
  | .header => 4 * (c.w + c.s)
  | .payload _ => 0

/-- The starts held and reported are indices, and that of a header session stays one past the header. -/
def State.Roomy (s : State) : Prop :=
  (∀ ss, s.dm.session = some ss → ss.t0 + headerLead s.cfg ss.phase < idxLimit) ∧ s.tr.inRange = true ∧
    ∀ t0, .trig t0 ∈ s.evt → t0 < idxLimit

/-- A session that keeps its start and its phase keeps the room. -/
theorem State.Roomy.setSession {s : State} {ss ss' : Session} (h : s.Roomy) (hss : s.dm.session = some ss)
    (ht0 : ss'.t0 = ss.t0) (hphase : ss'.phase = ss.phase) : (s.setSession ss').Roomy := by
  obtain ⟨hstart, htr, hevt⟩ := h
  refine ⟨?_, htr, hevt⟩
  rintro _ ⟨⟩
  rw [ht0, hphase]
  exact hstart ss hss

/-- A state that waits with its trigger armed at an index has room. -/
theorem State.Roomy.of_fresh {s : State} {base : ℕ} {cben : Bool} (hss : s.dm.session = none)
    (htr : s.tr = TrState.fresh base cben) (hbase : base < idxLimit) (hevt : ∀ t0, .trig t0 ∈ s.evt → t0 < idxLimit) :
    s.Roomy := by
  refine ⟨fun ss hsome => ?_, ?_, hevt⟩
  · rw [hss] at hsome; cases hsome
  · rw [htr]
    exact (TrState.fresh_scanning s.cfg base cben).inRange hbase (Nat.two_pow_pos 64)

section
variable {s : State} {ss : Session} (h : s.Roomy) (hpushed : s.dm.pushed < idxLimit)
include h hpushed

theorem State.Roomy.headerFull (ht0 : ss.t0 + 4 * (s.cfg.w + s.cfg.s) < idxLimit) : (s.headerFull ss).1.Roomy := by
  obtain ⟨_, htr, hevt⟩ := h
  rcases headerFull_cases s ss with ⟨n, e⟩ | ⟨_, n, _, _, _, e⟩ | ⟨_, n, _, _, _, _, _, _, e⟩ <;> rw [e]
  · exact .of_fresh rfl rfl hpushed hevt
  · exact .of_fresh rfl rfl hpushed hevt
  · refine ⟨?_, htr, hevt⟩
    rintro _ ⟨⟩
    exact ht0

theorem State.Roomy.payloadFull (hdr : Hdr) : (s.payloadFull ss hdr).1.Roomy := by
  obtain ⟨_, _, hevt⟩ := h
  rcases payloadFull_cases s ss hdr with ⟨_, e⟩ | ⟨_, _, _, e⟩ <;> rw [e] <;> exact .of_fresh rfl rfl hpushed hevt

theorem State.Roomy.parseSample (hss : s.dm.session = some ss) (n : ℕ) (x : RealVal) :
    (s.parseSample ss n x).1.Roomy := by
  rcases parseSample_cases s ss n x with ⟨_, e⟩ | ⟨_, ⟨_, e⟩ | ⟨_, ⟨hp, e⟩ | ⟨hdr, _, e⟩⟩⟩ <;> rw [e]
  · exact h.setSession hss rfl rfl
  · exact h.setSession hss rfl rfl
  · have hstart := h.1 ss hss
    rw [hp] at hstart
    exact h.headerFull hpushed hstart
  · exact h.payloadFull hpushed hdr

end

/-- The events of a sample are the start it detects. -/
theorem mem_trEvents {t : TrState} {t0 t1 : ℕ} (h : .trig t1 ∈ trEvents t (some t0)) : t1 = t0 := by
  unfold trEvents at h
  simp only at h
  split at h
  · simpa using h
  · cases h

/-- One sample with a gate and four words of room. -/
theorem dmStep_roomy {s : State} (x : RealVal) (htime : s.InTime) (h : s.Roomy)
    (hroom : s.dm.pushed + 1 + s.cfg.g + 4 * (s.cfg.w + s.cfg.s) < idxLimit) : (s.dmStep x).1.Roomy := by
  obtain ⟨hwf, hwaits, _⟩ := htime
  cases hss : s.dm.session with
  | none =>
    obtain ⟨_, _, hevt⟩ := h
    obtain ⟨hscans, hcount⟩ := hwaits hss
    have hpush := hscans.trPush_inRange hwf (xs := [x]) (by rw [List.length_singleton]; omega)
    rw [trPush_cons, trPush_nil] at hpush
    rcases dmStep_waiting hss x with ⟨_, e⟩ | ⟨t0, hsome, e⟩ <;> rw [e]
    · refine ⟨fun ss hsome => ?_, hpush, hevt⟩
      cases hss.symm.trans hsome
    · rw [trStep_of_scans _ hscans.found] at hsome
      obtain ⟨_, hahead, _⟩ := hscans.detection_range hwf x hsome
      refine ⟨?_, hpush, fun t1 ht1 => ?_⟩
      · rintro _ ⟨⟩
        have hlead : headerLead s.cfg (freshSession t0).phase = 4 * (s.cfg.w + s.cfg.s) := rfl
        have ht0 : (freshSession t0).t0 = t0 := rfl
        simp only [State.detect_cfg, State.emit_cfg, State.setTr_cfg, State.setPushed_cfg, hlead, ht0]
        omega
      · rw [State.detect_evt, State.emit_evt, List.mem_append] at ht1
        rcases ht1 with hold | hnew
        · exact hevt t1 hold
        · rw [mem_trEvents hnew]
          omega
  | some ss =>
    have hnext : s.dm.pushed + 1 < idxLimit := by omega
    rw [dmStep_parsing hss]
    exact State.Roomy.parseSample (s := s.setPushed (s.dm.pushed + 1)) h hnext hss _ x

/-- A push with a gate and four words of room. -/
theorem pushSamples_roomy {s : State} {xs : List RealVal} (htime : s.InTime) (h : s.Roomy)
    (hroom : s.dm.pushed + xs.length + s.cfg.g + 4 * (s.cfg.w + s.cfg.s) < idxLimit) :
    (s.pushSamples xs).1.Roomy := by
  induction xs generalizing s with
  | nil => exact h
  | cons x xs ih =>
    rw [List.length_cons] at hroom
    obtain ⟨hcfg, _, _⟩ := dmStep_frame s x
    have hpushed := dmStep_pushed s x
    have hstep := dmStep_roomy x htime h (by omega)
    cases hr : (s.dmStep x).2 with
    | true =>
      obtain ⟨hsession, _, htr⟩ := ((dmStep_endsIn s x).2 hr).skipRest xs.length
      rw [pushSamples_ready hr]
      refine .of_fresh hsession htr ?_ hstep.2.2
      simp only [State.skipRest_dm, hpushed]
      omega
    | false =>
      rw [pushSamples_more hr]
      exact ih (dmStep_inTime s x htime) hstep (by rw [hcfg, hpushed]; omega)

/-- A timely session counts no further than the samples pushed. -/
theorem Session.Timely.inRange {c : Cfg} {ss : Session} {n : ℕ} (h : ss.Timely c n) (ht0 : ss.t0 < idxLimit)
    (hn : n < idxLimit) : ss.inRange = true := by
  refine (Session.inRange_iff ss).2 ⟨ht0, fun f => ?_⟩
  have hf := h.analyzers f
  omega

/-- A state in time with room has its indices in range. -/
theorem State.Roomy.indicesInRange {s : State} (h : s.Roomy) (htime : s.InTime) (hpushed : s.dm.pushed < idxLimit)
    (before : ℕ) : s.indicesInRange before = true := by
  obtain ⟨hstart, htr, hevt⟩ := h
  obtain ⟨_, _, hparses⟩ := htime
  refine (indicesInRange_iff s before).2 ⟨fun ss hss => ?_, htr, fun t0 ht0 => hevt t0 (List.mem_of_mem_drop ht0)⟩
  exact (hparses ss hss).inRange (lt_of_le_of_lt (Nat.le_add_right _ _) (hstart ss hss)) hpushed

/-- Between operations, with a gate and four words of room, a push leaves its indices in range. -/
theorem State.Timing.pushSamples_inRange {s : State} {xs : List RealVal} (h : s.Timing)
    (hroom : s.dm.pushed + xs.length + s.cfg.g + 4 * (s.cfg.w + s.cfg.s) < idxLimit)
    (hstart : ∀ ss, s.dm.session = some ss → ss.t0 + 4 * (s.cfg.w + s.cfg.s) < idxLimit) :
    (s.pushSamples xs).1.indicesInRange s.evt.length = true := by
  have hroomy : s.Roomy := by
    refine ⟨fun ss hss => ?_, h.trigger, h.events⟩
    have ht0 := hstart ss hss
    cases ss.phase <;> simp only [headerLead] <;> omega
  refine (pushSamples_roomy h.inTime hroomy hroom).indicesInRange (pushSamples_inTime s xs h.inTime) ?_ _
  rw [pushSamples_pushed]
  omega

/-! ### `PUSHF` (R222) -/

section
variable {s : State} {xs : List RealVal} (h : s.operands = ⟨[], [.reals xs]⟩)
include h

theorem execPushf_of_inRange (hbound : s.dm.pushed + xs.length < idxLimit)
    (hrange : (s.pushSamples xs).1.indicesInRange s.evt.length = true) :
    execPushf s = .next ((s.pushSamples xs).1.ret ⟨[bitSlot (s.pushSamples xs).2], []⟩) := by
  have hread : s.operands.reals 0 = .ok xs := Operands.reals_ok (by rw [h]; rfl)
  exact hostOp_ok (by rw [hread, res_bind_ok, push_of_inRange hbound hrange]; rfl)

theorem execPushf_of_out (hout : idxLimit ≤ s.dm.pushed + xs.length ∨
    (s.pushSamples xs).1.indicesInRange s.evt.length = false) : execPushf s = .next (s.raise badOperand) := by
  have hread : s.operands.reals 0 = .ok xs := Operands.reals_ok (by rw [h]; rfl)
  exact hostOp_error (by rw [hread, res_bind_ok, push_of_out hout]; rfl)

end

/-! ### `PUSHI` (R228) -/

section
variable {s : State} {vs : List Int} (h : s.operands = ⟨[], [.ints vs]⟩)
include h

theorem execPushi_of_inRange (hpcm : ∀ v ∈ vs, -32768 ≤ v ∧ v ≤ 32767)
    (hbound : s.dm.pushed + (vs.map pcmSample).length < idxLimit)
    (hrange : (s.pushSamples (vs.map pcmSample)).1.indicesInRange s.evt.length = true) :
    execPushi s = .next ((s.pushSamples (vs.map pcmSample)).1.ret
      ⟨[bitSlot (s.pushSamples (vs.map pcmSample)).2], []⟩) := by
  have hread : s.operands.pcm 0 = .ok vs := Operands.ints_ok (by rw [h]; rfl) hpcm
  exact hostOp_ok (by rw [hread, res_bind_ok, push_of_inRange hbound hrange]; rfl)

theorem execPushi_of_not_pcm (hpcm : ∃ v ∈ vs, v < -32768 ∨ 32767 < v) : execPushi s = .next (s.raise badOperand) := by
  have hread : s.operands.pcm 0 = .error badOperand := Operands.ints_out (by rw [h]; rfl) hpcm
  exact hostOp_error (by rw [hread, res_bind_error])

/-- Past a bound a chunk is refused, whether or not its elements are samples. -/
theorem execPushi_of_out (hout : idxLimit ≤ s.dm.pushed + (vs.map pcmSample).length ∨
    (s.pushSamples (vs.map pcmSample)).1.indicesInRange s.evt.length = false) :
    execPushi s = .next (s.raise badOperand) := by
  by_cases hpcm : ∃ v ∈ vs, v < -32768 ∨ 32767 < v
  · exact execPushi_of_not_pcm h hpcm
  · have hread : s.operands.pcm 0 = .ok vs := Operands.ints_ok (by rw [h]; rfl) fun v hv => by
      have hnot : ¬(v < -32768 ∨ 32767 < v) := fun hbad => hpcm ⟨v, hv, hbad⟩
      omega
    exact hostOp_error (by rw [hread, res_bind_ok, push_of_out hout]; rfl)

end

/-- Settles O45: each push is the push of its samples, and with the room of the second clause its indices stay in
range. -/
theorem pushOperationsComplete : Obligations.PushOperationsComplete := by
  refine ⟨fun s xs h => ⟨execPushf_of_inRange h, fun htiming hroom hstart => ?_, pushSamples_pushed s xs,
    execPushf_of_out h⟩, fun s vs xs h hxs => ?pushi⟩
  · exact execPushf_of_inRange h (by omega) (htiming.pushSamples_inRange hroom hstart)
  case pushi =>
    obtain rfl : xs = vs.map pcmSample := hxs
    refine ⟨fun hpcm => ⟨execPushi_of_inRange h hpcm, fun htiming hroom hstart => ?_,
      fun hout => execPushi_of_out h (.inr hout)⟩, fun hbad => ?_⟩
    · exact execPushi_of_inRange h hpcm (by omega) (htiming.pushSamples_inRange hroom hstart)
    · rcases hbad with hpcm | hbound
      · exact execPushi_of_not_pcm h hpcm
      · exact execPushi_of_out h (.inl (by rwa [List.length_map]))

end Sys2Proof.Machine
end

section
/-! A word is decided from its own windows (spec/10_state.md R33, R58, spec/46_demodulator.md R225): what the analyzers
hold after any samples of a burst, and the sample that ends the word. -/

namespace Sys2Proof.Machine

/-! ### What the analyzers have heard -/

/-- A window of a sequence takes the next element exactly when it has begun and is not full. -/
theorem take_drop_concat {α : Type} (l : List α) (a : α) (d k : ℕ) :
    ((l ++ [a]).drop d).take k =
      if d ≤ l.length ∧ l.length < d + k then (l.drop d).take k ++ [a] else (l.drop d).take k := by
  rcases Nat.lt_or_ge l.length d with hbefore | hbegun
  · rw [if_neg (by omega), List.drop_of_length_le hbefore.le,
      List.drop_of_length_le (by rw [List.length_append, List.length_singleton]; omega)]
  · have hlen : (l.drop d).length = l.length - d := List.length_drop
    rw [List.drop_append_of_le_length hbegun]
    split
    · have hone : (l.drop d ++ [a]).length = l.length - d + 1 := by rw [List.length_append, hlen, List.length_singleton]
      rw [List.take_of_length_le (l := l.drop d ++ [a]) (by omega), List.take_of_length_le (by omega)]
    · rw [List.take_append_of_le_length (by omega)]

/-- The part of the samples from index `p` on that lies in the window of analyzer `f`. -/
noncomputable def windowPart (c : Cfg) (ss : Session) (p : ℕ) (xs : List RealVal) (f : Fin 32) : List RealVal :=
  (xs.drop (burstStart c ss + c.winOff f - p)).take (c.winLen f)

/-- The analyzers that have started afresh at index `p` and heard some samples. Sealed, so that no comparison of two
sessions evaluates them. -/
@[irreducible] noncomputable def heard (c : Cfg) (ss : Session) (p : ℕ) (xs : List RealVal) : Vector GzState 32 :=
  Vector.ofFn fun f => gzFold c c.freq[f] (c.winLen f) false GzState.zero (windowPart c ss p xs f)

/-- The session whose analyzers have heard them. -/
noncomputable def hearing (c : Cfg) (ss : Session) (p : ℕ) (xs : List RealVal) : Session :=
  { ss with an := heard c ss p xs }

section
variable {c : Cfg} {ss : Session} {p : ℕ}

@[simp] theorem hearing_an (xs : List RealVal) : (hearing c ss p xs).an = heard c ss p xs := rfl
@[simp] theorem hearing_burstStart (xs : List RealVal) : burstStart c (hearing c ss p xs) = burstStart c ss := rfl
theorem heard_get (xs : List RealVal) (f : Fin 32) : (heard c ss p xs)[f] =
    gzFold c c.freq[f] (c.winLen f) false GzState.zero (windowPart c ss p xs f) := by
  unfold heard
  simp

theorem heard_nil : heard c ss p [] = Vector.replicate 32 GzState.zero := by
  ext i hi
  have hget := heard_get (c := c) (ss := ss) (p := p) [] ⟨i, hi⟩
  simpa [windowPart] using hget

/-- What they have heard is counted. -/
theorem heard_analyzersAt (hp : p ≤ burstStart c ss) (xs : List RealVal) :
    AnalyzersAt c ss (p + xs.length) (heard c ss p xs) := by
  intro f
  rw [heard_get, gzFold_n, windowPart, List.length_take, List.length_drop]
  simp only
  omega

theorem windowPart_concat (hp : p ≤ burstStart c ss) (xs : List RealVal) (x : RealVal) (f : Fin 32) :
    windowPart c ss p (xs ++ [x]) f =
      if burstStart c ss + c.winOff f ≤ p + xs.length ∧
          p + xs.length < burstStart c ss + c.winOff f + c.winLen f then
        windowPart c ss p xs f ++ [x]
      else windowPart c ss p xs f := by
  rw [windowPart, take_drop_concat]
  exact if_congr (by omega) rfl rfl

/-- One more sample is heard by feeding it (R225). -/
theorem feedAnalyzers_hearing (hp : p ≤ burstStart c ss) (xs : List RealVal) (x : RealVal) :
    feedAnalyzers c (hearing c ss p xs) (p + xs.length) x = heard c ss p (xs ++ [x]) := by
  ext i hi
  have hfed := feedAnalyzers_get c (hearing c ss p xs) (p + xs.length) x ⟨i, hi⟩
  have hheard := heard_get (c := c) (ss := ss) (p := p) (xs ++ [x]) ⟨i, hi⟩
  rw [windowPart_concat hp] at hheard
  rw [hearing_burstStart, hearing_an] at hfed
  refine hfed.trans (Eq.trans ?_ hheard.symm)
  split
  · rw [gzFold_append, heard_get, gzFold_cons, gzFold_nil]
  · exact heard_get xs _

/-- The levels of a word are those of its windows. -/
theorem wordLevels_heard (xs : List RealVal) : wordLevels c (heard c ss p xs) =
    (List.finRange 32).map fun f => gzLevel c c.freq[f] (c.winLen f)
      (gzFold c c.freq[f] (c.winLen f) false GzState.zero (windowPart c ss p xs f)) := by
  simp only [wordLevels, heard_get]

end

/-! ### The samples of a word -/

/-- A word is read from the analyzers alone that it is given. -/
theorem wordDone_withAn (c : Cfg) (ss : Session) (an an' : Vector GzState 32) :
    wordDone c { ss with an := an' } an = wordDone c ss an := rfl

/-- A state in a session at a sample count. -/
noncomputable def State.parsing (s : State) (n : ℕ) (ss : Session) : State := (s.setPushed n).setSession ss

section
variable {s : State} {ss : Session}

theorem State.parsing_self (hss : s.dm.session = some ss) : s.parsing s.dm.pushed ss = s := by
  obtain ⟨cfg, ⟨session, pushed, fixed, payload⟩, tr, sy, evt, port⟩ := s
  obtain rfl : session = some ss := hss
  rfl

@[simp] theorem State.parsing_cfg (n : ℕ) : (s.parsing n ss).cfg = s.cfg := rfl

@[simp] theorem State.parsing_pushed (n : ℕ) : (s.parsing n ss).dm.pushed = n := rfl

@[simp] theorem State.parsing_setSession (n : ℕ) (ss' : Session) :
    (s.parsing n ss).setSession ss' = s.parsing n ss' := rfl

theorem dmStep_parsing_at (n : ℕ) (x : RealVal) :
    (s.parsing n ss).dmStep x = (s.parsing (n + 1) ss).parseSample ss n x :=
  dmStep_parsing (s := s.parsing n ss) rfl x

/-- A full buffer does not look at the session that stands in the state. -/
theorem fullBufferMaps_parsing (n : ℕ) : FullBufferMaps id (s.setPushed n) (s.parsing n ss) :=
  ⟨rfl, fun _ => rfl, fun _ _ => rfl, fun _ _ => rfl⟩

end

section
variable {s : State} {ss : Session} (hss : s.dm.session = some ss) (han : ss.an = Vector.replicate 32 GzState.zero)
  (hp : s.dm.pushed ≤ burstStart s.cfg ss)

/-- The sample after those that have been heard. -/
theorem pushSamples_concat_of_hearing {xs : List RealVal} {n : ℕ}
    (h : s.pushSamples xs = (s.parsing n (hearing s.cfg ss s.dm.pushed xs), false)) (x : RealVal) :
    s.pushSamples (xs ++ [x]) = (s.parsing (n + 1) (hearing s.cfg ss s.dm.pushed xs)).parseSample
      (hearing s.cfg ss s.dm.pushed xs) n x := by
  have hmore : (s.pushSamples xs).2 = false := by rw [h]
  rw [pushSamples_append_of_more hmore, h, pushSamples_singleton, dmStep_parsing_at]

include hss han hp

/-- Up to the end of the word the analyzers hear, and nothing else happens. -/
theorem pushSamples_in_word (hwf : s.cfg.wf = true) (xs : List RealVal)
    (hpart : s.dm.pushed + xs.length < burstStart s.cfg ss + s.cfg.wordEnd) :
    s.pushSamples xs = (s.parsing (s.dm.pushed + xs.length) (hearing s.cfg ss s.dm.pushed xs), false) := by
  induction xs using List.reverseRecOn with
  | nil =>
    have hnone : hearing s.cfg ss s.dm.pushed [] = ss := by rw [hearing, heard_nil, ← han]
    rw [hnone, List.length_nil, Nat.add_zero, State.parsing_self hss]
    rfl
  | append_singleton xs x ih =>
    rw [List.length_append, List.length_singleton] at hpart
    have hfed := feedAnalyzers_hearing hp xs x
    have hroom : allFull s.cfg (heard s.cfg ss s.dm.pushed (xs ++ [x])) = false := by
      rw [Bool.eq_false_iff, ne_eq, (heard_analyzersAt hp _).allFull_iff hwf, List.length_append,
        List.length_singleton]
      omega
    rw [pushSamples_concat_of_hearing (ih (by omega)),
      parseSample_of_not_full (by rw [State.parsing_cfg, hfed, hroom]), State.parsing_cfg, hfed,
      State.parsing_setSession, List.length_append, List.length_singleton]
    rfl

section
variable {xs : List RealVal} (hwf : s.cfg.wf = true)
  (hend : s.dm.pushed + xs.length = burstStart s.cfg ss + s.cfg.wordEnd)
include hwf hend

/-- The last sample of the word fills every window; only the analyzers of the session have moved before it. -/
theorem pushSamples_word : ∃ an n x, feedAnalyzers s.cfg { ss with an := an } n x = heard s.cfg ss s.dm.pushed xs ∧
    allFull s.cfg (heard s.cfg ss s.dm.pushed xs) = true ∧
    s.pushSamples xs =
      (s.parsing (s.dm.pushed + xs.length) { ss with an := an }).parseSample { ss with an := an } n x := by
  have hfull := ((heard_analyzersAt hp xs).allFull_iff hwf).2 hend.ge
  have hwindow := Cfg.window_le_wordEnd s.cfg 0
  have hpos := Cfg.winLen_pos hwf 0
  rcases xs.eq_nil_or_concat' with rfl | ⟨before, x, rfl⟩
  · rw [List.length_nil] at hend
    omega
  · have hfed := feedAnalyzers_hearing hp before x
    rw [List.length_append, List.length_singleton] at hend ⊢
    exact ⟨heard s.cfg ss s.dm.pushed before, s.dm.pushed + before.length, x, hfed, hfull,
      pushSamples_concat_of_hearing (pushSamples_in_word hss han hp hwf before (by omega)) x⟩

/-- A word that leaves room in the buffer. -/
theorem pushSamples_word_of_room (hroom : ss.sym.length + 2 ≠ ss.need) : s.pushSamples xs =
    (s.parsing (s.dm.pushed + xs.length) (wordDone s.cfg ss (heard s.cfg ss s.dm.pushed xs)), false) := by
  obtain ⟨an, n, x, hfed, hfull, e⟩ := pushSamples_word hss han hp hwf hend
  rw [e, parseSample_of_word (ss := { ss with an := an }) (by rw [State.parsing_cfg, hfed, hfull]) hroom,
    State.parsing_cfg, hfed, wordDone_withAn, State.parsing_setSession]

/-- A word that fills the header buffer. -/
theorem pushSamples_word_of_header (hlast : ss.sym.length + 2 = ss.need) (hphase : ss.phase = .header) :
    s.pushSamples xs =
      (s.setPushed (s.dm.pushed + xs.length)).headerFull (wordDone s.cfg ss (heard s.cfg ss s.dm.pushed xs)) := by
  obtain ⟨an, n, x, hfed, hfull, e⟩ := pushSamples_word hss han hp hwf hend
  rw [e, parseSample_of_header (ss := { ss with an := an }) (by rw [State.parsing_cfg, hfed, hfull]) hlast hphase,
    State.parsing_cfg, hfed, wordDone_withAn, (fullBufferMaps_parsing _).headerFull]
  rfl

/-- A word that fills the payload buffer. -/
theorem pushSamples_word_of_payload {hdr : Hdr} (hlast : ss.sym.length + 2 = ss.need)
    (hphase : ss.phase = .payload hdr) : s.pushSamples xs =
      (s.setPushed (s.dm.pushed + xs.length)).payloadFull (wordDone s.cfg ss (heard s.cfg ss s.dm.pushed xs)) hdr := by
  obtain ⟨an, n, x, hfed, hfull, e⟩ := pushSamples_word hss han hp hwf hend
  rw [e, parseSample_of_payload (ss := { ss with an := an }) (by rw [State.parsing_cfg, hfed, hfull]) hlast hphase,
    State.parsing_cfg, hfed, wordDone_withAn, (fullBufferMaps_parsing _).payloadFull]
  rfl

end

end

/-- Settles O49: after the word's samples the analyzers have heard their windows, and the word is read from them. -/
theorem wordIsReadFromItsOwnWindows : Obligations.WordIsReadFromItsOwnWindows := by
  intro s ss ss' xs hwf hss han hp hend sa sb hargmax hss'
  have hread : ss' = wordDone s.cfg ss (heard s.cfg ss s.dm.pushed xs) := by
    have hlevels : argmax (wordLevels s.cfg (heard s.cfg ss s.dm.pushed xs)) = (sa, sb) := by
      rw [wordLevels_heard]
      exact hargmax
    rw [hss', wordDone, hlevels]
  rw [hread]
  exact ⟨fun hroom => pushSamples_word_of_room hss han hp hwf hend hroom.ne,
    fun hlast => ⟨pushSamples_word_of_header hss han hp hwf hend hlast,
      fun hdr => pushSamples_word_of_payload hss han hp hwf hend hlast⟩⟩

end Sys2Proof.Machine
end

section
/-! Silence after a detection (spec/46_demodulator.md R236, R359): a silent word reads two zero symbols, and the eight
of a header are a code word that declares the empty message. -/

namespace Sys2Proof.Machine

/-! ### A silent word -/

section
variable {c : Cfg} {xs : List RealVal} (hsilent : ∀ x ∈ xs, x.toReal = 0)
include hsilent

/-- Silence leaves an analyzer at rest at rest. -/
theorem gzFold_rest (f : RealVal) (n : ℕ) (hw : Bool) {g : GzState} (hg : g.Rest) : (gzFold c f n hw g xs).Rest := by
  induction xs generalizing g with
  | nil => exact hg
  | cons x xs ih =>
    rw [List.forall_mem_cons] at hsilent
    obtain ⟨hx, hrest⟩ := hsilent
    rw [gzFold_cons]
    exact ih hrest (gzStep_rest c f n hw hg hx)

/-- Every window of a silent word reads `-inf`. -/
theorem wordLevels_heard_silent (ss : Session) (p : ℕ) :
    wordLevels c (heard c ss p xs) = List.replicate 32 .negInf := by
  have hlevel : ∀ f : Fin 32, gzLevel c c.freq[f] (c.winLen f)
      (gzFold c c.freq[f] (c.winLen f) false GzState.zero (windowPart c ss p xs f)) = .negInf := fun f =>
    gzLevel_rest c _ _ (gzFold_rest (fun x hx => hsilent x (List.mem_of_mem_drop (List.mem_of_mem_take hx))) _ _ _
      GzState.zero_rest)
  rw [wordLevels_heard, funext hlevel, List.map_const', List.length_finRange]

end

/-- `ARGMAX` of equal levels is the lowest index of each group (R212). -/
theorem argmax_negInf : argmax (List.replicate 32 .negInf) = (0, 0) := by decide

/-- The session of a silent header after `k` words. -/
noncomputable def silentHeader (t0 k : ℕ) : Session := { freshSession t0 with k := k, sym := List.replicate (2 * k) 0 }

theorem silentHeader_zero (t0 : ℕ) : silentHeader t0 0 = freshSession t0 := rfl

@[simp] theorem burstStart_silentHeader (c : Cfg) (t0 k : ℕ) :
    burstStart c (silentHeader t0 k) = t0 + k * (c.w + c.s) + c.s := rfl

@[simp] theorem silentHeader_sym_length (t0 k : ℕ) : (silentHeader t0 k).sym.length = 2 * k := List.length_replicate

@[simp] theorem silentHeader_need (t0 k : ℕ) : (silentHeader t0 k).need = 8 := rfl

/-- A silent word adds two zero symbols. -/
theorem wordDone_silentHeader {c : Cfg} {xs : List RealVal} (hsilent : ∀ x ∈ xs, x.toReal = 0) (t0 k p : ℕ) :
    wordDone c (silentHeader t0 k) (heard c (silentHeader t0 k) p xs) = silentHeader t0 (k + 1) := by
  have hsym : List.replicate (2 * k) (0 : Sym) ++ [0, 0] = List.replicate (2 * (k + 1)) 0 :=
    List.replicate_append_replicate (n := 2 * k) (m := 2)
  rw [wordDone, wordLevels_heard_silent hsilent, argmax_negInf, silentHeader, silentHeader, ← hsym]
  rfl

/-! ### The silent header (R226, R359) -/

/-- Zero symbols are a code word of every length (R106). -/
theorem isCodeword_replicate_zero (n p : ℕ) : isCodeword (List.replicate n 0) p = true := by
  refine List.all_eq_true.2 fun y hy => ?_
  obtain ⟨j, _, rfl⟩ := List.mem_map.1 hy
  rw [polyEval_replicate_zero, beq_self_eq_true]

/-- The header of the empty message at level 0 is zero, its checksum too (R133). -/
theorem hdrEnc_zero : hdrEnc 0 0 false = [0, 0, 0] := by
  have hfields : hdrEnc 0 0 false = [0, 0, chk8 [0, 0]] := rfl
  rw [hfields, chk8, List.foldl_cons, crcByte_self, List.foldl_cons, crcByte_self, List.foldl_nil]

/-- Eight zero symbols decode to it, with nothing to correct (R146). -/
theorem fcDec_silentHeader : fcDec (List.replicate 8 0) 8 2 false = .done (hdrEnc 0 0 false) 0 := by
  rw [hdrEnc_zero]
  exact fcDec_one_block (syms := List.replicate 8 0) (by decide) (by decide) (by decide)
    (rsDec_of_isCodeword (isCodeword_replicate_zero 8 2))

/-- A message without bytes has no symbols. -/
theorem nsym_empty {b p : ℕ} (h : p < b) : nsym 0 b p false = 0 := by
  have hnone : ceilDiv 0 (b - p) = 0 := Nat.div_eq_of_lt (by omega)
  simp [nsym, hnone]

/-- The silent header delivers the empty message with nothing corrected. -/
theorem headerFull_silentHeader {s : State} (hwf : s.cfg.wf = true) (t0 : ℕ) :
    s.headerFull (silentHeader t0 4) = (((s.addFixed 0).deliver []).toWaiting, true) := by
  obtain ⟨hlevels, _, _⟩ := Cfg.nlev_range hwf
  obtain ⟨⟨b, p⟩, hshape⟩ := Cfg.eccAt_some_iff.2 (Nat.lt_of_succ_le hlevels)
  obtain ⟨_, hpb, _⟩ := Cfg.eccAt_shape hwf hshape
  have hhdr : hdrDec s.cfg (hdrEnc 0 0 false) = .ok ⟨0, 0, false⟩ := hdrDec_hdrEnc (Nat.lt_of_succ_le hlevels)
  exact headerFull_of_empty fcDec_silentHeader hhdr hshape (nsym_empty hpb)

/-! ### The words of a silent header (R236) -/

/-- The empty message has been delivered, and nothing corrected since. -/
def DeliversEmpty (s : State) (r : State × Bool) : Prop :=
  r.2 = true ∧ r.1.dm.payload = some [] ∧ r.1.dm.fixed = s.dm.fixed

/-- What follows the completing sample changes nothing in it. -/
theorem DeliversEmpty.append {s : State} {xs : List RealVal} (h : DeliversEmpty s (s.pushSamples xs))
    (ys : List RealVal) : DeliversEmpty s (s.pushSamples (xs ++ ys)) := by
  obtain ⟨hready, hpayload, hfixed⟩ := h
  rw [pushSamples_append_of_ready hready]
  exact ⟨rfl, hpayload, hfixed⟩

/-- Samples that reach a count have a first part that ends there. -/
theorem exists_append_of_reaches {xs : List RealVal} {p m : ℕ} (hp : p ≤ m) (hm : m ≤ p + xs.length) :
    ∃ word rest, xs = word ++ rest ∧ p + word.length = m :=
  ⟨xs.take (m - p), xs.drop (m - p), (List.take_append_drop _ xs).symm, by rw [List.length_take]; omega⟩

section
variable {s : State} {t0 k : ℕ} (hwf : s.cfg.wf = true) (hss : s.dm.session = some (silentHeader t0 k))
  (hp : s.dm.pushed ≤ burstStart s.cfg (silentHeader t0 k))

section
variable {word : List RealVal}
  (hword : s.dm.pushed + word.length = burstStart s.cfg (silentHeader t0 k) + s.cfg.wordEnd)
  (hsilent : ∀ x ∈ word, x.toReal = 0)
include hwf hss hp hword hsilent

/-- A silent word before the last one is counted. -/
theorem pushSamples_silentWord (hk : k < 3) :
    s.pushSamples word = (s.parsing (s.dm.pushed + word.length) (silentHeader t0 (k + 1)), false) := by
  have hroom : (silentHeader t0 k).sym.length + 2 ≠ (silentHeader t0 k).need := by
    rw [silentHeader_sym_length, silentHeader_need]
    omega
  rw [pushSamples_word_of_room hss rfl hp hwf hword hroom, wordDone_silentHeader hsilent]

/-- The last one delivers the empty message. -/
theorem deliversEmpty_silentWord (hk : k = 3) : DeliversEmpty s (s.pushSamples word) := by
  subst hk
  rw [pushSamples_word_of_header hss rfl hp hwf hword rfl rfl, wordDone_silentHeader hsilent,
    headerFull_silentHeader (by exact hwf)]
  exact ⟨rfl, rfl, BitVec.add_zero _⟩

end

include hwf hss hp

/-- With `j` words to come before the last one of the header, silence up to its end delivers the empty message. -/
theorem deliversEmpty_silentHeader {j : ℕ} {xs : List RealVal} (hk : k + j = 3)
    (hend : burstStart s.cfg (silentHeader t0 k) + j * (s.cfg.w + s.cfg.s) + s.cfg.wordEnd ≤ s.dm.pushed + xs.length)
    (hsilent : ∀ x ∈ xs, x.toReal = 0) : DeliversEmpty s (s.pushSamples xs) := by
  induction j generalizing k s xs with
  | zero =>
    obtain ⟨word, rest, rfl, hword⟩ := exists_append_of_reaches (xs := xs) (p := s.dm.pushed)
      (m := burstStart s.cfg (silentHeader t0 k) + s.cfg.wordEnd) (by omega) (by omega)
    obtain ⟨hquiet, _⟩ := List.forall_mem_append.1 hsilent
    exact (deliversEmpty_silentWord hwf hss hp hword hquiet hk).append rest
  | succ j ih =>
    rw [Nat.succ_mul] at hend
    obtain ⟨word, rest, rfl, hword⟩ := exists_append_of_reaches (xs := xs) (p := s.dm.pushed)
      (m := burstStart s.cfg (silentHeader t0 k) + s.cfg.wordEnd) (by omega) (by omega)
    obtain ⟨hquiet, hafter⟩ := List.forall_mem_append.1 hsilent
    have hone := pushSamples_silentWord hwf hss hp hword hquiet (by omega)
    have hmore : (s.pushSamples word).2 = false := by rw [hone]
    have hburst := Cfg.wordEnd_le s.cfg
    have hnext : burstStart s.cfg (silentHeader t0 (k + 1)) =
        burstStart s.cfg (silentHeader t0 k) + (s.cfg.w + s.cfg.s) := by
      rw [burstStart_silentHeader, burstStart_silentHeader]
      ring
    rw [List.length_append] at hend
    rw [pushSamples_append_of_more hmore, hone]
    refine ih (s := s.parsing (s.dm.pushed + word.length) (silentHeader t0 (k + 1))) hwf rfl ?_ (by omega) ?_ hafter
    · rw [State.parsing_cfg, State.parsing_pushed, hnext]
      omega
    · rw [State.parsing_cfg, State.parsing_pushed, hnext]
      omega

end

/-- Settles O50: a fresh session is a silent header of no words, and three words are to come before its last one. -/
theorem silenceAfterTriggerIsAnEmptyMessage : Obligations.SilenceAfterTriggerIsAnEmptyMessage := by
  intro s t0 xs hwf hss hp hend hsilent
  have hburst := Cfg.wordEnd_le s.cfg
  rw [← silentHeader_zero] at hss
  refine deliversEmpty_silentHeader (j := 3) hwf hss ?_ rfl ?_ hsilent <;>
    (rw [burstStart_silentHeader]; omega)

end Sys2Proof.Machine
end

section
/-! What a condition and a reset leave behind: a refused operation changes nothing but the port (spec/60_exceptions.md
R312 to R314), and hardware reset writes the table of R46 (spec/70_reset_and_hazards.md R340, R9). -/

namespace Sys2Proof.Machine

/-! ### Refusals (R312 to R314) -/

section
variable {s t : State} {a : Answer} (hanswer : t.port.answer = some a) (hst : a.st ≠ 0)
include hanswer hst

/-- A unit operation that answers another status than `OK` has raised its condition. -/
theorem unitOp_refuses {body : Operands → Res Reply} (h : unitOp s body = .next t) :
    t = s.answerWith a ∧ a.b = [] := by
  rcases unitOp_cases s body with ⟨r, _, e⟩ | ⟨f, _, e⟩ <;> cases e.symm.trans h <;> cases hanswer
  · exact absurd rfl hst
  · exact ⟨State.raise_eq_answerWith s f, rfl⟩

/-- A host command that answers another status than `OK` has raised its condition in the state before it. -/
theorem hostOp_refuses {body : Operands → Res (State × Reply)} (h : hostOp s body = .next t) :
    t = s.answerWith a ∧ a.b = [] := by
  rcases hostOp_cases s body with ⟨u, r, _, e⟩ | ⟨f, _, e⟩ <;> cases e.symm.trans h <;> cases hanswer
  · exact absurd rfl hst
  · exact ⟨State.raise_eq_answerWith s f, rfl⟩

end

/-- Settles O6, by the two shapes of an operation. -/
theorem refusedOperationChangesNothing : Obligations.RefusedOperationChangesNothing := by
  intro i s t a h hanswer hst
  cases hf : i.format with
  | U =>
    obtain ⟨body, hb⟩ := exec_eq_unitOp i s hf
    exact unitOp_refuses hanswer hst (hb.symm.trans h)
  | H =>
    obtain ⟨body, hb⟩ := exec_eq_hostOp i s hf
    exact hostOp_refuses hanswer hst (hb.symm.trans h)

/-! ### Hardware reset and building (R340, R46, R9) -/

theorem build_of_wf {c : Cfg} (h : c.wf = true) : State.build c = .next (State.ofCfg c) := if_pos h

theorem build_of_not_wf {c : Cfg} (h : c.wf = false) : State.build c = .refused .illFormedConfig :=
  if_neg (Bool.not_eq_true _ ▸ h)

/-- Settles O56: the reset state is written out element by element, and `State.reset` is one already. -/
theorem hardwareResetLeavesTheTable : Obligations.HardwareResetLeavesTheTable :=
  ⟨fun _ => rfl, rfl, fun _ => build_of_wf, fun _ => build_of_not_wf⟩

end Sys2Proof.Machine
end

section
/-! The window functions on the numbers and at the command port (spec/47_windows_tone_generator.md R263, R264): their
range, symmetry and ends, and which operands each operation takes. -/

namespace Sys2Proof.Machine

/-! ### The values (R263, R264) -/

/-- Half of one more than a cosine lies between 0 and 1. -/
theorem raisedCosine_range (y : ℝ) : 0 ≤ 1 / 2 * (1 + Real.cos y) ∧ 1 / 2 * (1 + Real.cos y) ≤ 1 := by
  have hlow := Real.neg_one_le_cos y
  have hhigh := Real.cos_le_one y
  constructor <;> linarith

/-- Both tapers of the Tukey window are raised cosines (R264). -/
theorem tukeyW_range (i n : ℕ) (alpha : RealVal) : 0 ≤ (tukeyW i n alpha).toReal ∧ (tukeyW i n alpha).toReal ≤ 1 := by
  rw [toReal_tukeyW i n alpha _ _ rfl rfl]
  split
  · exact ⟨zero_le_one, le_rfl⟩
  · split
    · exact raisedCosine_range _
    · split
      · exact raisedCosine_range _
      · exact ⟨zero_le_one, le_rfl⟩

theorem hannW_one (i : ℕ) : (hannW i 1).toReal = 1 := by rw [toReal_hannW, if_pos rfl]

theorem tukeyW_one (i : ℕ) (alpha : RealVal) : (tukeyW i 1 alpha).toReal = 1 := by
  rw [toReal_tukeyW i 1 alpha _ _ rfl rfl, if_pos (.inl rfl)]

/-- At `alpha = 0` the Tukey window is flat. -/
theorem tukeyW_of_zero (i n : ℕ) {alpha : RealVal} (h : alpha.toReal = 0) : (tukeyW i n alpha).toReal = 1 := by
  rw [toReal_tukeyW i n alpha _ _ rfl rfl, if_pos (.inr h)]

section
variable {i n : ℕ} {x : ℝ} (hx : x = i / ((n : ℝ) - 1)) (hn : 2 ≤ n)
include hx hn

/-- Mirrored in a window, the place `x` of a sample is `1 - x`. -/
theorem mirrored_place (hi : i < n) : 1 - x = ((n - 1 - i : ℕ) : ℝ) / ((n : ℝ) - 1) := by
  have hreal : (2 : ℝ) ≤ n := by exact_mod_cast hn
  have hne : (n : ℝ) - 1 ≠ 0 := by linarith
  rw [hx, Nat.cast_sub (by omega), Nat.cast_sub (by omega), Nat.cast_one, sub_div, div_self hne]

/-- The Hann window at the place `x` of the window. -/
theorem hannW_at : (hannW i n).toReal = 1 / 2 * (1 - Real.cos (2 * Real.pi * x)) := by
  rw [toReal_hannW, if_neg (by omega), hx, mul_div_assoc]

theorem hannW_mirror (hi : i < n) : (hannW i n).toReal = (hannW (n - 1 - i) n).toReal := by
  have hangle : 2 * Real.pi * (1 - x) = 2 * Real.pi - 2 * Real.pi * x := by ring
  rw [hannW_at hx hn, hannW_at (mirrored_place hx hn hi) hn, hangle, Real.cos_two_pi_sub]

section
variable {alpha : RealVal} {a : ℝ} (ha : a = alpha.toReal) (hpos : 0 < a)
include ha hpos

/-- The Tukey window at the place `x` of the window: its rise, its fall and its flat part (R264). -/
theorem tukeyW_at : (tukeyW i n alpha).toReal =
    if x < a / 2 then 1 / 2 * (1 + Real.cos (Real.pi * (2 * x / a - 1)))
    else if 1 - a / 2 < x then 1 / 2 * (1 + Real.cos (Real.pi * (2 * x / a - 2 / a + 1)))
    else 1 := by
  have htaper : ¬(n = 1 ∨ a = 0) := fun h => h.elim (by omega) hpos.ne'
  rw [toReal_tukeyW i n alpha x a hx ha, if_neg htaper]

theorem tukeyW_rise (h : x < a / 2) :
    (tukeyW i n alpha).toReal = 1 / 2 * (1 + Real.cos (Real.pi * (2 * x / a - 1))) := by
  rw [tukeyW_at hx hn ha hpos, if_pos h]

theorem tukeyW_fall (hlow : a / 2 ≤ x) (h : 1 - a / 2 < x) :
    (tukeyW i n alpha).toReal = 1 / 2 * (1 + Real.cos (Real.pi * (2 * x / a - 2 / a + 1))) := by
  rw [tukeyW_at hx hn ha hpos, if_neg hlow.not_gt, if_pos h]

theorem tukeyW_flat (hlow : a / 2 ≤ x) (h : x ≤ 1 - a / 2) : (tukeyW i n alpha).toReal = 1 := by
  rw [tukeyW_at hx hn ha hpos, if_neg hlow.not_gt, if_neg h.not_gt]

/-- The rise mirrored is the fall: the angle changes its sign. -/
theorem tukeyW_mirror_of_rise (hle : a ≤ 1) (hi : i < n) (h : x < a / 2) :
    (tukeyW i n alpha).toReal = (tukeyW (n - 1 - i) n alpha).toReal := by
  have hangle : Real.pi * (2 * (1 - x) / a - 2 / a + 1) = -(Real.pi * (2 * x / a - 1)) := by ring
  rw [tukeyW_rise hx hn ha hpos h, tukeyW_fall (mirrored_place hx hn hi) hn ha hpos (by linarith) (by linarith),
    hangle, Real.cos_neg]

end
end

section
variable {i n : ℕ} {alpha : RealVal}

/-- The Tukey window is symmetric (R264). -/
theorem tukeyW_mirror (hi : i < n) (hle : alpha.toReal ≤ 1) (hnonneg : 0 ≤ alpha.toReal) :
    (tukeyW i n alpha).toReal = (tukeyW (n - 1 - i) n alpha).toReal := by
  rcases hnonneg.eq_or_lt with hzero | hpos
  · rw [tukeyW_of_zero i n hzero.symm, tukeyW_of_zero _ n hzero.symm]
  obtain rfl | hn : n = 1 ∨ 2 ≤ n := by omega
  · rw [tukeyW_one, tukeyW_one]
  obtain ⟨x, hx⟩ : ∃ x : ℝ, x = i / ((n : ℝ) - 1) := ⟨_, rfl⟩
  have hmirror := mirrored_place hx hn hi
  rcases lt_or_ge x (alpha.toReal / 2) with hrise | hlow
  · exact tukeyW_mirror_of_rise hx hn rfl hpos hle hi hrise
  rcases lt_or_ge (1 - alpha.toReal / 2) x with hfall | hhigh
  · have hback := tukeyW_mirror_of_rise hmirror hn rfl hpos hle (by omega) (by linarith)
    rw [hback, show n - 1 - (n - 1 - i) = i by omega]
  · rw [tukeyW_flat hx hn rfl hpos hlow hhigh, tukeyW_flat hmirror hn rfl hpos (by linarith) (by linarith)]

theorem hannW_zero (hn : 2 ≤ n) : (hannW 0 n).toReal = 0 := by
  rw [hannW_at rfl hn]
  simp

theorem tukeyW_zero (hn : 2 ≤ n) (hpos : 0 < alpha.toReal) : (tukeyW 0 n alpha).toReal = 0 := by
  have hplace : (0 : ℝ) = (0 : ℕ) / ((n : ℝ) - 1) := by simp
  rw [tukeyW_rise hplace hn rfl hpos (by linarith)]
  simp

/-- At `alpha = 1` the rise and the fall meet in the middle, where both windows are 1. -/
theorem tukeyW_of_full (hi : i < n) (h : alpha.toReal = 1) : (tukeyW i n alpha).toReal = (hannW i n).toReal := by
  have hpos : (0 : ℝ) < 1 := one_pos
  obtain rfl | hn : n = 1 ∨ 2 ≤ n := by omega
  · rw [tukeyW_one, hannW_one]
  obtain ⟨x, hx⟩ : ∃ x : ℝ, x = i / ((n : ℝ) - 1) := ⟨_, rfl⟩
  rw [hannW_at hx hn]
  rcases lt_or_ge x (1 / 2) with hrise | hlow
  · rw [tukeyW_rise hx hn h.symm hpos hrise, show Real.pi * (2 * x / 1 - 1) = 2 * Real.pi * x - Real.pi by ring,
      Real.cos_sub_pi, sub_eq_add_neg]
  rcases lt_or_ge (1 - 1 / 2) x with hfall | hhigh
  · rw [tukeyW_fall hx hn h.symm hpos hlow hfall,
      show Real.pi * (2 * x / 1 - 2 / 1 + 1) = 2 * Real.pi * x - Real.pi by ring, Real.cos_sub_pi, sub_eq_add_neg]
  · have hmiddle : x = 1 / 2 := by linarith
    rw [tukeyW_flat hx hn h.symm hpos hlow hhigh, hmiddle, show 2 * Real.pi * (1 / 2) = Real.pi by ring, Real.cos_pi]
    norm_num

end

/-! ### The operations (R263, R264) -/

/-- An integer slot is read as it is or, out of range, refused (R88). -/
theorem Operands.int_slot {o : Operands} {k v : ℕ} (h : o.x[k]? = some (.int v)) :
    (v < idxLimit ∧ o.int k = .ok v) ∨ (idxLimit ≤ v ∧ o.int k = .error badOperand) :=
  (lt_or_ge v idxLimit).imp (fun hv => ⟨hv, Operands.int_ok h hv⟩) fun hv => ⟨hv, Operands.int_out h hv⟩

section
variable {s : State} {i n : ℕ} (h : s.operands = ⟨[.int i, .int n], []⟩)
include h

theorem execHann_of_legal (hlegal : 1 ≤ n ∧ i < n ∧ n < idxLimit) :
    execHann s = .next (s.ret ⟨[.real (hannW i n)], []⟩) := by
  obtain ⟨hone, hin, hn⟩ := hlegal
  have hi : s.operands.int 0 = .ok i := Operands.int_ok (by rw [h]; rfl) (hin.trans hn)
  have hlen : s.operands.int 1 = .ok n := Operands.int_ok (by rw [h]; rfl) hn
  exact unitOp_ok (by simp [hi, hlen, hone, hin])

theorem execHann_of_illegal (hillegal : ¬(1 ≤ n ∧ i < n ∧ n < idxLimit)) : execHann s = .next (s.raise badOperand) := by
  refine unitOp_error ?_
  rcases Operands.int_slot (o := s.operands) (k := 0) (v := i) (by rw [h]; rfl) with ⟨_, hi⟩ | ⟨_, hi⟩
  · rcases Operands.int_slot (o := s.operands) (k := 1) (v := n) (by rw [h]; rfl) with ⟨hn, hlen⟩ | ⟨_, hlen⟩
    · have htest : (decide (1 ≤ n) && decide (i < n)) = false := by
        rw [← Bool.not_eq_true, Bool.and_eq_true, decide_eq_true_eq, decide_eq_true_eq]
        exact fun ⟨hone, hin⟩ => hillegal ⟨hone, hin, hn⟩
      rw [hi, res_bind_ok, hlen, res_bind_ok, htest, require_false, res_bind_error]
    · rw [hi, res_bind_ok, hlen, res_bind_error]
  · rw [hi, res_bind_error]

end

section
variable {s : State} {i n : ℕ} {alpha : RealVal} (h : s.operands = ⟨[.int i, .int n, .real alpha], []⟩)
include h

theorem execTukey_of_legal
    (hlegal : 1 ≤ n ∧ i < n ∧ n < idxLimit ∧ 0 ≤ alpha.toReal ∧ alpha.toReal ≤ 1) :
    execTukey s = .next (s.ret ⟨[.real (tukeyW i n alpha)], []⟩) := by
  obtain ⟨hone, hin, hn, hnonneg, hle⟩ := hlegal
  have hi : s.operands.int 0 = .ok i := Operands.int_ok (by rw [h]; rfl) (hin.trans hn)
  have hlen : s.operands.int 1 = .ok n := Operands.int_ok (by rw [h]; rfl) hn
  have halpha : s.operands.real 2 = .ok alpha := Operands.real_ok (by rw [h]; rfl)
  have htest : (decide (1 ≤ n) && decide (i < n) && RealVal.le (.rat 0) alpha && RealVal.le alpha (.rat 1)) = true := by
    simp [hone, hin, hnonneg, hle]
  exact unitOp_ok (by rw [hi, res_bind_ok, hlen, res_bind_ok, halpha, res_bind_ok, htest]; rfl)

theorem execTukey_of_illegal
    (hillegal : ¬(1 ≤ n ∧ i < n ∧ n < idxLimit ∧ 0 ≤ alpha.toReal ∧ alpha.toReal ≤ 1)) :
    execTukey s = .next (s.raise badOperand) := by
  have halpha : s.operands.real 2 = .ok alpha := Operands.real_ok (by rw [h]; rfl)
  refine unitOp_error ?_
  rcases Operands.int_slot (o := s.operands) (k := 0) (v := i) (by rw [h]; rfl) with ⟨_, hi⟩ | ⟨_, hi⟩
  · rcases Operands.int_slot (o := s.operands) (k := 1) (v := n) (by rw [h]; rfl) with ⟨hn, hlen⟩ | ⟨_, hlen⟩
    · have htest :
          (decide (1 ≤ n) && decide (i < n) && RealVal.le (.rat 0) alpha && RealVal.le alpha (.rat 1)) = false := by
        rw [← Bool.not_eq_true]
        simp only [Bool.and_eq_true, decide_eq_true_eq, RealVal.le_iff, RealVal.toReal_rat, Rat.cast_zero,
          Rat.cast_one]
        exact fun ⟨⟨⟨hone, hin⟩, hnonneg⟩, hle⟩ => hillegal ⟨hone, hin, hn, hnonneg, hle⟩
      rw [hi, res_bind_ok, hlen, res_bind_ok, halpha, res_bind_ok, htest, require_false, res_bind_error]
    · rw [hi, res_bind_ok, hlen, res_bind_error]
  · rw [hi, res_bind_error]

end

/-- Settles O36: the operations answer the windows, and the windows are those of the places `i / (N - 1)`. -/
theorem windowOperationsComplete : Obligations.WindowOperationsComplete := by
  refine ⟨fun s i n h => ⟨fun hlegal => ?hann, execHann_of_illegal h⟩,
    fun s i n alpha x a h hx ha => ⟨fun hlegal => ?tukey, fun hillegal => ?refused⟩,
    fun i n alpha hi hnonneg hle => ⟨⟨(hannW_range i n).1, (hannW_range i n).2, ?mirror, hannW_zero⟩,
      ⟨(tukeyW_range i n alpha).1, (tukeyW_range i n alpha).2, tukeyW_mirror hi hle hnonneg, tukeyW_zero⟩,
      tukeyW_of_full hi, tukeyW_of_zero i n⟩⟩
  case hann =>
    refine ⟨_, execHann_of_legal h hlegal, rfl, fun hone => ?_, fun hn => ?_⟩
    · rw [hone, hannW_one]
    · rw [hannW_at rfl hn, mul_div_assoc]
  case tukey =>
    rw [ha] at hlegal
    refine ⟨_, execTukey_of_legal h hlegal, rfl, fun hflat => ?_, fun hn hpos => ⟨tukeyW_rise hx hn ha hpos,
      tukeyW_fall hx hn ha hpos, tukeyW_flat hx hn ha hpos⟩⟩
    rw [toReal_tukeyW i n alpha x a hx ha, if_pos hflat]
  case refused =>
    rw [ha] at hillegal
    exact execTukey_of_illegal h hillegal
  case mirror =>
    obtain rfl | hn : n = 1 ∨ 2 ≤ n := by omega
    · rw [hannW_one, hannW_one]
    · exact hannW_mirror rfl hn hi

end Sys2Proof.Machine
end

section
/-! The additive write of a tone (spec/47_windows_tone_generator.md R266, spec/20_memory.md R61). -/

namespace Sys2Proof.Machine

/-! ### The places of an additive write (R60, R61) -/

section
variable {buf : List RealVal} {loc cnt : ℕ} (g : ℕ → RealVal)

/-- Inside the range a place grows by its value. -/
theorem memAddRange_inside {j : ℕ} {u : RealVal} (hj : j < cnt) (hu : buf[loc + j]? = some u) :
    (memAddRange buf loc cnt g)[loc + j]? = some (u.plus (g j)) := by
  have hrange : loc ≤ loc + j ∧ loc + j < loc + cnt := by omega
  rw [memAddRange_getElem?, hu, Option.map_some, if_pos hrange, Nat.add_sub_cancel_left]

/-- Outside the range a place stays. -/
theorem memAddRange_outside {k : ℕ} (hk : k < loc ∨ loc + cnt ≤ k) : (memAddRange buf loc cnt g)[k]? = buf[k]? := by
  have hrange : ¬(loc ≤ k ∧ k < loc + cnt) := by omega
  rw [memAddRange_getElem?]
  simp only [if_neg hrange, Option.map_id']

end

/-- A tone in two parts is the tone: the second part starts where the phase of the first one ends. -/
theorem toneInto_add (c : Cfg) (buf : List RealVal) (loc a b phase : ℕ) (f amp : RealVal) :
    toneInto c buf loc (a + b) phase f amp =
      toneInto c (toneInto c buf loc a phase f amp) (loc + a) b (phase + a) f amp := by
  have hphase : ∀ j, phase + a + j = phase + (a + j) := Nat.add_assoc phase a
  simp only [toneInto, memAddRange_add, hphase]

/-! ### The operation (R266) -/

section
variable {s : State} {buf : List RealVal} {loc cnt phase : ℕ} {f amp : RealVal}
  (h : s.operands = ⟨[.int loc, .int cnt, .int phase, .real f, .real amp], [.reals buf]⟩)
  (hloc : loc < idxLimit) (hcnt : cnt < idxLimit) (hphase : phase < idxLimit)
include h hloc hcnt hphase

/-- The operands are read as they are, and what is left is the test of R266. -/
theorem execTone_eq : execTone s = unitOp s fun _ => do
    require (decide (loc + cnt ≤ buf.length) && freqOk s.cfg f) .operand
    return ⟨[], [.reals (toneInto s.cfg buf loc cnt phase f amp)]⟩ := by
  have hbuf : s.operands.reals 0 = .ok buf := Operands.reals_ok (by rw [h]; rfl)
  have hloc' : s.operands.int 0 = .ok loc := Operands.int_ok (by rw [h]; rfl) hloc
  have hcnt' : s.operands.int 1 = .ok cnt := Operands.int_ok (by rw [h]; rfl) hcnt
  have hphase' : s.operands.int 2 = .ok phase := Operands.int_ok (by rw [h]; rfl) hphase
  have hf : s.operands.real 3 = .ok f := Operands.real_ok (by rw [h]; rfl)
  have hamp : s.operands.real 4 = .ok amp := Operands.real_ok (by rw [h]; rfl)
  simp only [execTone, unitOp, hbuf, hloc', hcnt', hphase', hf, hamp, res_bind_ok]

theorem execTone_of_legal (hroom : loc + cnt ≤ buf.length) (hf : 0 < f.toReal ∧ f.toReal < s.cfg.fs.toReal / 2) :
    execTone s = .next (s.ret ⟨[], [.reals (toneInto s.cfg buf loc cnt phase f amp)]⟩) := by
  have htest : (decide (loc + cnt ≤ buf.length) && freqOk s.cfg f) = true := by
    rw [Bool.and_eq_true, decide_eq_true_eq, freqOk_iff]
    exact ⟨hroom, hf⟩
  rw [execTone_eq h hloc hcnt hphase]
  exact unitOp_ok (by rw [htest, require_true, res_bind_ok, res_pure])

theorem execTone_of_illegal
    (hillegal : ¬(loc + cnt ≤ buf.length ∧ 0 < f.toReal ∧ f.toReal < s.cfg.fs.toReal / 2)) :
    execTone s = .next (s.raise badOperand) := by
  have htest : (decide (loc + cnt ≤ buf.length) && freqOk s.cfg f) = false := by
    rwa [← Bool.not_eq_true, Bool.and_eq_true, decide_eq_true_eq, freqOk_iff]
  rw [execTone_eq h hloc hcnt hphase]
  exact unitOp_error (by rw [htest, require_false, res_bind_error])

end

/-- Settles O37: the tone is an additive write of its samples, and such a write splits. -/
theorem toneIsAdditive : Obligations.ToneIsAdditive := by
  refine ⟨fun s buf loc cnt phase f amp h hloc hcnt hphase => ⟨fun ⟨hroom, hf⟩ => ?legal,
    execTone_of_illegal h hloc hcnt hphase⟩, toneInto_add⟩
  case legal =>
    refine ⟨_, execTone_of_legal h hloc hcnt hphase hroom hf, memAddRange_length _ _ _ _, fun j hj => ?_,
      fun k hk => memAddRange_outside _ hk⟩
    have hu : buf[loc + j]? = some buf[loc + j] := List.getElem?_eq_getElem (by omega)
    refine ⟨_, _, hu, memAddRange_inside _ hj hu, ?_⟩
    rw [RealVal.toReal_plus, RealVal.toReal_times, toReal_toneSample]

end Sys2Proof.Machine
end

section
/-! The frame as a signal (spec/48_synthesizer.md R284, R285) and the two commands of the transmit side (R282, R283). -/

namespace Sys2Proof.Machine

/-! ### The cases of `Sig` (R284) -/

section
variable {c : Cfg} {y : Synth} {pos : ℕ}

theorem sig_of_gate1 (h : pos < c.g) : sig c y pos = (toneSample c c.gate1 pos).times (hannW pos c.g) := if_pos h

theorem sig_of_gate2 {i : ℕ} (h : i < c.g) :
    sig c y (c.g + i) = (toneSample c c.gate2 i).times (hannW i c.g) := by
  unfold sig
  rw [if_neg (by omega), if_pos (by omega), Nat.add_sub_cancel_left]

theorem sig_of_end (hgates : 2 * c.g ≤ pos) (hend : y.total ≤ pos) : sig c y pos = .rat 0 := by
  unfold sig
  rw [if_neg (by omega), if_neg (by omega), if_pos hend]

section
variable {w r : ℕ} (hr : r < c.s + c.w) (hend : 2 * c.g + w * (c.s + c.w) + r < y.total)
include hr hend

/-- Sample `r` of word `w`, which begins with its gap. -/
theorem sig_of_word : sig c y (2 * c.g + w * (c.s + c.w) + r) =
    if r < c.s then .rat 0 else burstSample c (y.sym.getD (2 * w) 0) (y.sym.getD (2 * w + 1) 0) (r - c.s) := by
  obtain ⟨hword, hsample⟩ : (w * (c.s + c.w) + r) / (c.s + c.w) = w ∧ (w * (c.s + c.w) + r) % (c.s + c.w) = r :=
    (Nat.div_mod_unique (by omega)).2 ⟨by rw [Nat.mul_comm, Nat.add_comm], hr⟩
  unfold sig
  rw [if_neg (by omega), if_neg (by omega), if_neg (by omega), Nat.add_assoc, Nat.add_sub_cancel_left]
  simp only [hword, hsample]

theorem sig_of_gap (hgap : r < c.s) : sig c y (2 * c.g + w * (c.s + c.w) + r) = .rat 0 := by
  rw [sig_of_word hr hend, if_pos hgap]

theorem sig_of_burst {i : ℕ} (hi : r = c.s + i) : sig c y (2 * c.g + w * (c.s + c.w) + r) =
    burstSample c (y.sym.getD (2 * w) 0) (y.sym.getD (2 * w + 1) 0) i := by
  rw [sig_of_word hr hend, if_neg (by omega), hi, Nat.add_sub_cancel_left]

end

/-- A tone of the table is that of its frequency index (R72). -/
theorem freqAt_val (c : Cfg) (f : Fin 32) : c.freqAt f = c.freq[f] := by
  unfold Cfg.freqAt
  simp

/-- A burst is half the sum of its two tones, under the window (R281, R284). -/
theorem toReal_burstSample (c : Cfg) (sa sb : Sym) (i : ℕ) : (burstSample c sa sb i).toReal =
    1 / 2 * (Real.sin (2 * Real.pi * (c.freqAt sa.toNat).toReal * i / c.fs.toReal) +
      Real.sin (2 * Real.pi * (c.freqAt (16 + sb.toNat)).toReal * i / c.fs.toReal)) *
      (tukeyW i c.w (.rat (1 / 2))).toReal := by
  simp [burstSample, indexTone, sym2freq]

/-! ### The range of the signal (R285) -/

theorem abs_mul_window_le {a b : ℝ} (ha : |a| ≤ 1) (hb : 0 ≤ b ∧ b ≤ 1) : |a * b| ≤ 1 := by
  obtain ⟨hlow, hhigh⟩ := hb
  rw [abs_mul, abs_of_nonneg hlow]
  exact mul_le_one₀ ha hlow hhigh

theorem abs_half_add_sin_le (a b : ℝ) : |1 / 2 * (Real.sin a + Real.sin b)| ≤ 1 := by
  have ha := Real.sin_le_one a
  have hb := Real.sin_le_one b
  have ha' := Real.neg_one_le_sin a
  have hb' := Real.neg_one_le_sin b
  rw [abs_le]
  constructor <;> linarith

theorem abs_burstSample_le (c : Cfg) (sa sb : Sym) (i : ℕ) : |(burstSample c sa sb i).toReal| ≤ 1 := by
  rw [toReal_burstSample]
  exact abs_mul_window_le (abs_half_add_sin_le _ _) (tukeyW_range _ _ _)

theorem abs_gateSample_le (c : Cfg) (f : RealVal) (i : ℕ) :
    |((toneSample c f i).times (hannW i c.g)).toReal| ≤ 1 := by
  rw [RealVal.toReal_times, toReal_toneSample]
  exact abs_mul_window_le (Real.abs_sin_le_one _) (hannW_range _ _)

theorem abs_silence_le : |(RealVal.rat 0).toReal| ≤ 1 := by
  simp

/-- Every sample is one of a gate, of a burst, or silence. -/
theorem abs_sig_le (hwf : c.wf = true) (y : Synth) (pos : ℕ) : |(sig c y pos).toReal| ≤ 1 := by
  have hword : 0 < c.s + c.w := Nat.add_pos_right _ (Cfg.one_le_w hwf)
  rcases lt_or_ge pos c.g with hgate1 | hpos
  · rw [sig_of_gate1 hgate1]
    exact abs_gateSample_le c _ _
  rcases lt_or_ge pos (2 * c.g) with hgate2 | hgates
  · obtain ⟨i, rfl⟩ := Nat.exists_eq_add_of_le hpos
    rw [sig_of_gate2 (by omega)]
    exact abs_gateSample_le c _ _
  rcases lt_or_ge pos y.total with hin | hend
  · obtain ⟨q, rfl⟩ := Nat.exists_eq_add_of_le hgates
    have hq : q = q / (c.s + c.w) * (c.s + c.w) + q % (c.s + c.w) := (Nat.div_add_mod' q _).symm
    rw [hq, ← Nat.add_assoc] at hin ⊢
    rw [sig_of_word (Nat.mod_lt q hword) hin]
    split
    · exact abs_silence_le
    · exact abs_burstSample_le c _ _ _
  · rw [sig_of_end hgates hend]
    exact abs_silence_le

end

/-! ### A pulled buffer (R283) -/

/-- Each element grows by the frame's sample at its position. -/
theorem pulled_eq_mapIdx (c : Cfg) (y : Synth) (buf : List RealVal) (power : RealVal) : pulled c y buf power =
    buf.mapIdx fun j u => u.plus (power.times (sig c y (y.cursor + j))) := by
  refine List.ext_getElem? fun k => ?_
  rw [List.getElem?_mapIdx]
  cases hk : buf[k]? with
  | none => rw [pulled, memAddRange_getElem?, hk]; rfl
  | some u =>
    obtain ⟨hlt, _⟩ := List.getElem?_eq_some_iff.1 hk
    rw [pulled, ← Nat.zero_add k, memAddRange_inside _ hlt (by rw [Nat.zero_add]; exact hk), Nat.zero_add,
      Option.map_some]

@[simp] theorem pulled_length (c : Cfg) (y : Synth) (buf : List RealVal) (power : RealVal) :
    (pulled c y buf power).length = buf.length := memAddRange_length _ _ _ _

/-- Two buffers pulled one after the other are the one they make together. -/
theorem pulled_append (c : Cfg) (y : Synth) (a b : List RealVal) (power : RealVal) :
    pulled c y (a ++ b) power = pulled c y a power ++ pulled c { y with cursor := y.cursor + a.length } b power := by
  have hsig : ∀ pos, sig c { y with cursor := y.cursor + a.length } pos = sig c y pos := fun _ => rfl
  have hpos : ∀ j, y.cursor + a.length + j = y.cursor + (j + a.length) := by omega
  simp only [pulled_eq_mapIdx, List.mapIdx_append, hsig, hpos]

/-- Settles O54: a zeroed buffer holds what is pulled, the signal times the power. -/
theorem signalStaysInRange : Obligations.SignalStaysInRange := by
  refine fun c y hwf => ⟨abs_sig_le hwf y, fun buf power hzero hpower x hx => ?_⟩
  rw [pulled_eq_mapIdx, List.mem_mapIdx] at hx
  obtain ⟨j, hj, rfl⟩ := hx
  rw [RealVal.toReal_plus, RealVal.toReal_times, hzero _ (List.getElem_mem hj), zero_add, abs_mul]
  exact mul_le_one₀ hpower (abs_nonneg _) (abs_sig_le hwf y _)

/-! ### `GETSAMPLES` (R283) -/

section
variable {s : State} {buf : List RealVal} {power : RealVal}

theorem getSamples_of_room (hloaded : s.sy.loaded = true) (hroom : s.sy.cursor + buf.length < idxLimit) :
    s.getSamples buf power =
      .ok ({ s with sy := { s.sy with cursor := s.sy.cursor + buf.length } }, pulled s.cfg s.sy buf power) := by
  rcases getSamples_cases s buf power with ⟨hno, _⟩ | ⟨_, hout, _⟩ | ⟨_, _, e⟩
  · rw [hloaded] at hno; cases hno
  · exact absurd hroom hout.not_gt
  · exact e

section
variable (h : s.operands = ⟨[.real power], [.reals buf]⟩)
include h

theorem execGetsamples_of_ok {t : State} {out : List RealVal} (hpull : s.getSamples buf power = .ok (t, out)) :
    execGetsamples s = .next (t.ret ⟨[], [.reals out]⟩) := by
  have hbuf : s.operands.reals 0 = .ok buf := Operands.reals_ok (by rw [h]; rfl)
  have hpower : s.operands.real 0 = .ok power := Operands.real_ok (by rw [h]; rfl)
  exact hostOp_ok (by rw [hbuf, res_bind_ok, hpower, res_bind_ok, hpull]; rfl)

theorem execGetsamples_of_error {f : Fail} (hpull : s.getSamples buf power = .error f) :
    execGetsamples s = .next (s.raise f) := by
  have hbuf : s.operands.reals 0 = .ok buf := Operands.reals_ok (by rw [h]; rfl)
  have hpower : s.operands.real 0 = .ok power := Operands.real_ok (by rw [h]; rfl)
  exact hostOp_error (by rw [hbuf, res_bind_ok, hpower, res_bind_ok, hpull]; rfl)

theorem execGetsamples_of_unloaded (hloaded : s.sy.loaded = false) :
    execGetsamples s = .next (s.raise ⟨.notready, []⟩) := by
  refine execGetsamples_of_error h ?_
  rcases getSamples_cases s buf power with ⟨_, e⟩ | ⟨hyes, _⟩ | ⟨hyes, _⟩
  · exact e
  · rw [hloaded] at hyes; cases hyes
  · rw [hloaded] at hyes; cases hyes

theorem execGetsamples_of_out (hloaded : s.sy.loaded = true) (hout : idxLimit ≤ s.sy.cursor + buf.length) :
    execGetsamples s = .next (s.raise badOperand) := by
  refine execGetsamples_of_error h ?_
  rcases getSamples_cases s buf power with ⟨hno, _⟩ | ⟨_, _, e⟩ | ⟨_, hroom, _⟩
  · rw [hloaded] at hno; cases hno
  · exact e
  · exact absurd hroom hout.not_gt

end
end

/-- Settles O53, by the answers of `GETSAMPLES`, the elements of a pulled buffer and the cases of `Sig`. -/
theorem getsamplesIsAdditive : Obligations.GetsamplesIsAdditive := by
  refine ⟨fun s buf power h => ⟨fun hloaded hroom => ?pull, execGetsamples_of_unloaded h, execGetsamples_of_out h⟩,
    pulled_append, fun c y i hi => ⟨?gate1, ?gate2⟩, fun c y w r hr hend => ⟨fun hgap => ?gap, ?burst⟩,
    fun c y pos hgates hend => ?past⟩
  case pull =>
    refine ⟨_, execGetsamples_of_ok h (getSamples_of_room hloaded hroom), pulled_length _ _ _ _, fun j u hu => ?_⟩
    refine ⟨u.plus (power.times (sig s.cfg s.sy (s.sy.cursor + j))), ?_, ?_⟩
    · rw [pulled_eq_mapIdx, List.getElem?_mapIdx, hu, Option.map_some]
    · rw [RealVal.toReal_plus, RealVal.toReal_times]
  case gate1 =>
    rw [sig_of_gate1 hi, RealVal.toReal_times, toReal_toneSample]
    rfl
  case gate2 =>
    rw [sig_of_gate2 hi, RealVal.toReal_times, toReal_toneSample]
    rfl
  case gap =>
    rw [sig_of_gap hr hend hgap]
    simp
  case burst =>
    intro i sa sb fa fb hi hsa hsb hfa hfb
    rw [sig_of_burst hr hend hi, List.getD_eq_getElem?_getD, hsa, List.getD_eq_getElem?_getD, hsb, Option.getD_some,
      Option.getD_some, toReal_burstSample, ← hfa, ← hfb, freqAt_val, freqAt_val]
  case past =>
    rw [sig_of_end hgates hend]
    simp

/-! ### `SETPAYLOAD` (R282) -/

/-- A frame has the header's eight symbols and the payload's `NSYM` (R135, R140). -/
theorem frameSyms_length_eq {b p : ℕ} (hp : p < b) (payload : List Byte) (level : ℕ) (crc : Bool) :
    (frameSyms payload level b p crc).length = 8 + nsym payload.length b p crc := by
  rw [frameSyms, List.length_append, headerSyms_length, fcEncode_length payload hp]

section
variable {s : State} {payload : List Byte} {level : ℕ} {crc : Bool}

section
variable {b p total : ℕ} (hwf : s.cfg.wf = true) (hbp : s.cfg.eccAt level = some (b, p))
  (hlen : payload.length ≤ 255)
  (htotal : total = 2 * s.cfg.g + (8 + nsym payload.length b p crc) / 2 * (s.cfg.s + s.cfg.w))
include hwf hbp hlen htotal

/-- A frame on a legal level is loaded, or refused where its length is no `Idx` (R75, log 11). -/
theorem setPayload_of_level :
    (total < idxLimit → s.setPayload payload level crc =
      .ok ({ s with sy := ⟨frameSyms payload level b p crc, 0, total, true⟩ }, total)) ∧
    (idxLimit ≤ total → s.setPayload payload level crc = .error badOperand) := by
  obtain ⟨_, hpb, _⟩ := Cfg.eccAt_shape hwf hbp
  have hframe : frameTotal s.cfg (frameSyms payload level b p crc).length = total := by
    rw [frameSyms_length_eq hpb, htotal]
    rfl
  have hload : loadedSynth s.cfg (frameSyms payload level b p crc) =
      ⟨frameSyms payload level b p crc, 0, total, true⟩ := by
    rw [loadedSynth, hframe]
  rcases setPayload_cases s payload level crc with ⟨hnone, _⟩ | ⟨b', p', hbp', hcase⟩
  · rw [hbp] at hnone; cases hnone
  cases hbp.symm.trans hbp'
  rcases hcase with ⟨hlong, _⟩ | ⟨_, ⟨hin, e⟩ | ⟨hout, e⟩⟩
  · exact absurd hlong hlen.not_gt
  · rw [hframe] at hin e
    rw [hload] at e
    exact ⟨fun _ => e, fun hout => absurd hin hout.not_gt⟩
  · rw [hframe] at hout
    exact ⟨fun hin => absurd hin hout.not_gt, fun _ => e⟩

end

/-- A payload past 255 bytes on a legal level is too long. -/
theorem setPayload_of_long (hlevel : level < s.cfg.nlev) (hlong : 255 < payload.length) :
    s.setPayload payload level crc = .error ⟨.length, []⟩ := by
  rcases setPayload_cases s payload level crc with ⟨hnone, _⟩ | ⟨b, p, _, ⟨_, e⟩ | ⟨hshort, _⟩⟩
  · exact absurd hlevel (Cfg.eccAt_none_iff.1 hnone).not_gt
  · exact e
  · exact absurd hlong hshort.not_gt

theorem setPayload_of_no_level (hlevel : s.cfg.nlev ≤ level) :
    s.setPayload payload level crc = .error badOperand := by
  rcases setPayload_cases s payload level crc with ⟨_, e⟩ | ⟨b, p, hbp, _⟩
  · exact e
  · rw [Cfg.eccAt_none_iff.2 hlevel] at hbp; cases hbp

section
variable (h : s.operands = ⟨[.int level, bitSlot crc], [bytesBuf payload]⟩)
include h

/-- The operands of a legal level are read as they are. -/
theorem execSetpayload_eq (hlevel : level < idxLimit) : execSetpayload s = hostOp s fun _ => do
    let r ← s.setPayload payload level crc
    return (r.1, ⟨[.int r.2], []⟩) := by
  have hpayload : s.operands.bytes 0 = .ok payload := Operands.bytes_ok (by rw [h]; rfl)
  have hlevel' : s.operands.int 0 = .ok level := Operands.int_ok (by rw [h]; rfl) hlevel
  have hcrc : s.operands.bit 1 = .ok crc := Operands.bit_ok (by rw [h]; rfl)
  simp only [execSetpayload, hostOp, hpayload, hlevel', hcrc, res_bind_ok]

theorem execSetpayload_of_ok {t : State} {total : ℕ} (hlevel : level < idxLimit)
    (hload : s.setPayload payload level crc = .ok (t, total)) :
    execSetpayload s = .next (t.ret ⟨[.int total], []⟩) := by
  rw [execSetpayload_eq h hlevel]
  exact hostOp_ok (by rw [hload]; rfl)

theorem execSetpayload_of_error {f : Fail} (hlevel : level < idxLimit)
    (hload : s.setPayload payload level crc = .error f) : execSetpayload s = .next (s.raise f) := by
  rw [execSetpayload_eq h hlevel]
  exact hostOp_error (by rw [hload]; rfl)

/-- A level that is no level is refused, whether or not it is an `Idx`. -/
theorem execSetpayload_of_no_level (hnolevel : s.cfg.nlev ≤ level) : execSetpayload s = .next (s.raise badOperand) := by
  have hpayload : s.operands.bytes 0 = .ok payload := Operands.bytes_ok (by rw [h]; rfl)
  rcases Operands.int_slot (o := s.operands) (k := 0) (v := level) (by rw [h]; rfl) with ⟨hidx, _⟩ | ⟨_, hread⟩
  · exact execSetpayload_of_error h hidx (setPayload_of_no_level hnolevel)
  · exact hostOp_error (by rw [hpayload, res_bind_ok, hread, res_bind_error])

end
end

theorem execSetpayload_of_not_bytes {s : State} {x : List Slot} {vs : List Int} (h : s.operands = ⟨x, [.ints vs]⟩)
    (hbad : ∃ v ∈ vs, v < 0 ∨ 255 < v) : execSetpayload s = .next (s.raise badOperand) := by
  have hread : s.operands.bytes 0 = .error badOperand := Operands.bytes_out (by rw [h]; rfl) hbad
  exact hostOp_error (by rw [hread, res_bind_error])

/-- A flag that is no bit is refused, whatever the level (R84). -/
theorem execSetpayload_of_not_bit {s : State} {payload : List Byte} {level flag : ℕ} (hflag : 1 < flag)
    (h : s.operands = ⟨[.int level, .int flag], [bytesBuf payload]⟩) :
    execSetpayload s = .next (s.raise badOperand) := by
  have hpayload : s.operands.bytes 0 = .ok payload := Operands.bytes_ok (by rw [h]; rfl)
  have hbit : s.operands.bit 1 = .error badOperand := Operands.bit_out (by rw [h]; rfl) hflag
  rcases Operands.int_slot (o := s.operands) (k := 0) (v := level) (by rw [h]; rfl) with ⟨_, hread⟩ | ⟨_, hread⟩
  · exact hostOp_error (by rw [hpayload, res_bind_ok, hread, res_bind_ok, hbit, res_bind_error])
  · exact hostOp_error (by rw [hpayload, res_bind_ok, hread, res_bind_error])

/-- A level is an `Idx`: there are four at most (R8). -/
theorem level_lt_idxLimit {c : Cfg} (hwf : c.wf = true) {level : ℕ} (h : level < c.nlev) : level < idxLimit := by
  obtain ⟨_, hfour, _⟩ := Cfg.nlev_range hwf
  have hbound : 4 ≤ idxLimit := by decide
  omega

/-- Settles O52, by the reading of the operands and the answers of `SETPAYLOAD`. -/
theorem setpayloadCompletes : Obligations.SetpayloadCompletes := by
  refine ⟨fun s x vs h hbad => execSetpayload_of_not_bytes h hbad,
    fun s payload level flag hflag h => execSetpayload_of_not_bit hflag h,
    fun s payload level crc hwf h => ⟨fun b p total hbp hlen htotal => ?frame,
      fun hlevel hlong => execSetpayload_of_error h (level_lt_idxLimit hwf hlevel) (setPayload_of_long hlevel hlong),
      execSetpayload_of_no_level h⟩⟩
  case frame =>
    have hlevel := level_lt_idxLimit hwf (Cfg.eccAt_some_iff.1 ⟨_, hbp⟩)
    obtain ⟨hloads, hrefuses⟩ := setPayload_of_level hwf hbp hlen htotal
    refine ⟨fun hin => ?_, fun hout => execSetpayload_of_error h hlevel (hrefuses hout)⟩
    exact ⟨_, execSetpayload_of_ok h hlevel (hloads hin), rfl, rfl, rfl, rfl, rfl, headerSyms_length _ _ _⟩

end Sys2Proof.Machine
end

section
/-! The self test (spec/49_demo.md R301): its pushes run on any state as they run on one that is fresh and notified,
so they complete where that one has room, and their outcome is that of the configuration. -/

namespace Sys2Proof.Machine

/-! ### A receiver in another state -/

theorem State.addFixed_zero (s : State) : s.addFixed 0 = s := by
  have hzero : s.dm.fixed + BitVec.ofNat 32 0 = s.dm.fixed := BitVec.add_zero _
  rw [State.addFixed, hzero]

/-- A change that a full buffer goes through, a sample of a session goes through. -/
theorem FullBufferMaps.parseSample {m : State × Bool → State × Bool} {s s' : State} (h : FullBufferMaps m s s')
    (ss : Session) (n : ℕ) (x : RealVal) : s'.parseSample ss n x = m (s.parseSample ss n x) := by
  have hparts := h
  obtain ⟨hcfg, _, _, hopens⟩ := hparts
  have hcounts : ∀ ss, (s'.setSession ss, false) = m (s.setSession ss, false) := by
    simpa only [State.addFixed_zero] using hopens 0
  have hboundary : allFull s'.cfg (feedAnalyzers s'.cfg ss n x) = allFull s.cfg (feedAnalyzers s.cfg ss n x) := by
    rw [hcfg]
  rcases parseSample_cases s ss n x with ⟨hpart, e⟩ | ⟨hword, ⟨hroom, e⟩ | ⟨hlast, ⟨hp, e⟩ | ⟨hdr, hp, e⟩⟩⟩
  · rw [e, parseSample_of_not_full (hboundary.trans hpart), hcfg, hcounts]
  · rw [wordDone_sym_length] at hroom
    rw [e, parseSample_of_word (hboundary.trans hword) hroom, hcfg, hcounts]
  · rw [wordDone_sym_length] at hlast
    rw [e, parseSample_of_header (hboundary.trans hword) hlast hp, hcfg, h.headerFull]
  · rw [wordDone_sym_length] at hlast
    rw [e, parseSample_of_payload (hboundary.trans hword) hlast hp, hcfg, h.payloadFull]

/-- The receiver of `s` put into the state `o`, which keeps its synthesizer, its port, its enable and its events: those of
`s` come after them where `o` is notified. -/
noncomputable def State.receiving (o s : State) : State :=
  { s with tr := s.tr.setCben o.tr.cben, sy := o.sy, evt := o.evt ++ (if o.tr.cben then s.evt else []), port := o.port }

@[simp] theorem State.receiving_cfg (o s : State) : (o.receiving s).cfg = s.cfg := rfl
@[simp] theorem State.receiving_dm (o s : State) : (o.receiving s).dm = s.dm := rfl
@[simp] theorem State.receiving_tr (o s : State) : (o.receiving s).tr = s.tr.setCben o.tr.cben := rfl

/-- A result of the sample machine put into the state `o`. -/
noncomputable def receivingResult (o : State) (r : State × Bool) : State × Bool := (o.receiving r.1, r.2)

section
variable (o : State) {s : State}

theorem fullBufferMaps_receiving (s : State) : FullBufferMaps (receivingResult o) s (o.receiving s) :=
  ⟨rfl, fun _ => rfl, fun _ _ => rfl, fun _ _ => rfl⟩

section
variable (hon : s.tr.cben = true)
include hon

/-- A detection adds its event in `o` exactly where `o` is notified (R196). -/
theorem receiving_emit (u : TrState) (t0 : ℕ) :
    ((((o.receiving s).setPushed (s.dm.pushed + 1)).setTr (u.setCben o.tr.cben)).emit
        (trEvents (o.receiving s).tr (some t0))).detect t0 =
      o.receiving ((((s.setPushed (s.dm.pushed + 1)).setTr u).emit (trEvents s.tr (some t0))).detect t0) := by
  have hevents : (o.evt ++ (if o.tr.cben then s.evt else [])) ++ trEvents (s.tr.setCben o.tr.cben) (some t0) =
      o.evt ++ (if o.tr.cben then s.evt ++ trEvents s.tr (some t0) else []) := by
    cases ho : o.tr.cben with
    | true => simp [trEvents, TrState.setCben, hon]
    | false => simp [trEvents, TrState.setCben]
  exact congrArg (fun e => State.detect { o.receiving s with
    dm := { s.dm with pushed := s.dm.pushed + 1 }, tr := u.setCben o.tr.cben, evt := e } t0) hevents

theorem dmStep_receiving (x : RealVal) : (o.receiving s).dmStep x = receivingResult o (s.dmStep x) := by
  cases hss : s.dm.session with
  | none =>
    have hss' : (o.receiving s).dm.session = none := hss
    have hstep := trStep_setCben (c := s.cfg) s.tr o.tr.cben x
    cases hr : trStep s.cfg s.tr x with
    | mk u r =>
      rw [hr] at hstep
      cases r with
      | none =>
        rw [dmStep_of_no_detection hss (congrArg Prod.snd hr), dmStep_of_no_detection hss' (congrArg Prod.snd hstep),
          hr, State.receiving_cfg, State.receiving_tr, hstep]
        rfl
      | some t0 =>
        rw [dmStep_of_detection hss hr, dmStep_of_detection hss' hstep]
        exact congrArg (·, false) (receiving_emit o hon u t0)
  | some ss =>
    have hss' : (o.receiving s).dm.session = some ss := hss
    rw [dmStep_parsing hss, dmStep_parsing hss']
    exact (fullBufferMaps_receiving o (s.setPushed (s.dm.pushed + 1))).parseSample ss _ x

theorem pushSamples_receiving (xs : List RealVal) :
    (o.receiving s).pushSamples xs = receivingResult o (s.pushSamples xs) := by
  induction xs generalizing s with
  | nil => rfl
  | cons x xs ih =>
    have hstep := dmStep_receiving o hon x
    have hflag : ((o.receiving s).dmStep x).2 = (s.dmStep x).2 := by rw [hstep]; rfl
    cases hr : (s.dmStep x).2 with
    | true => rw [pushSamples_ready hr, pushSamples_ready (hflag.trans hr), hstep]; rfl
    | false =>
      rw [pushSamples_more hr, pushSamples_more (hflag.trans hr), hstep]
      exact ih ((dmStep_notifies s x).enable.trans hon)

theorem pushEach_receiving (cs : List (List RealVal)) :
    (o.receiving s).pushEach cs = receivingResult o (s.pushEach cs) := by
  induction cs generalizing s with
  | nil => rfl
  | cons c cs ih =>
    rw [pushEach_cons, pushEach_cons, pushSamples_receiving o hon c]
    simp only [receivingResult, ih ((pushSamples_notifies s c).enable.trans hon)]

end

/-- What a receiver with room leaves in `o` is in range, since the events of `o` are no events of the push. -/
theorem State.Roomy.receiving_inRange (h : s.Roomy) (htime : s.InTime) (hpushed : s.dm.pushed < idxLimit) (r : State) :
    (o.receiving s).indicesInRange (o.receiving r).evt.length = true := by
  obtain ⟨hsession, htr, _⟩ := (indicesInRange_iff s 0).1 (h.indicesInRange htime hpushed 0)
  obtain ⟨_, _, hevt⟩ := h
  refine (indicesInRange_iff _ _).2 ⟨hsession, htr, fun t0 ht0 => ?_⟩
  have hnew : (o.receiving s).evt.drop (o.receiving r).evt.length =
      (if o.tr.cben then s.evt else []).drop (if o.tr.cben then r.evt else []).length := by
    simp only [State.receiving, List.length_append, List.drop_length_add_append]
  rw [hnew] at ht0
  split at ht0
  · exact hevt t0 (List.mem_of_mem_drop ht0)
  · simp at ht0

/-- With room for all of them, chunks pushed one after another in `o` complete. -/
theorem pushAll_receiving {cs : List (List RealVal)} (htime : s.InTime) (h : s.Roomy) (hon : s.tr.cben = true)
    (hroom : s.dm.pushed + cs.flatten.length + s.cfg.g + 4 * (s.cfg.w + s.cfg.s) < idxLimit) (seen : Bool) :
    (o.receiving s).pushAll cs seen = .ok (o.receiving (s.pushEach cs).1, seen || (s.pushEach cs).2) := by
  induction cs generalizing s seen with
  | nil =>
    rw [State.pushAll, State.pushEach, Bool.or_false]
  | cons c cs ih =>
    rw [List.flatten_cons, List.length_append] at hroom
    have hpushed := pushSamples_pushed s c
    have hcfg := (pushSamples_frame s c).cfg
    have htime' := pushSamples_inTime s c htime
    have hroomy := pushSamples_roomy (xs := c) htime h (by omega)
    have hrange : ((o.receiving s).pushSamples c).1.indicesInRange (o.receiving s).evt.length = true := by
      rw [pushSamples_receiving o hon c]
      exact hroomy.receiving_inRange o htime' (by omega) s
    have hpush := push_of_inRange (s := o.receiving s) (by rw [State.receiving_dm]; omega) hrange
    rw [State.pushAll, hpush, pushSamples_receiving o hon c, pushEach_cons]
    simp only [receivingResult]
    rw [ih htime' hroomy ((pushSamples_notifies s c).enable.trans hon) (by rw [hpushed, hcfg]; omega), Bool.or_assoc]

end

theorem pushEach_frame (s : State) (cs : List (List RealVal)) : s.Frame (s.pushEach cs).1 := by
  induction cs generalizing s with
  | nil => exact ⟨rfl, rfl⟩
  | cons c cs ih =>
    rw [pushEach_cons]
    exact ⟨(ih _).cfg.trans (pushSamples_frame s c).cfg, (ih _).port.trans (pushSamples_frame s c).port⟩

theorem pushEach_pushed (s : State) (cs : List (List RealVal)) :
    (s.pushEach cs).1.dm.pushed = s.dm.pushed + cs.flatten.length := by
  induction cs generalizing s with
  | nil => rfl
  | cons c cs ih =>
    rw [pushEach_cons, List.flatten_cons, List.length_append, ← Nat.add_assoc, ← pushSamples_pushed]
    exact ih _

/-! ### The chunks of R301 -/

theorem ceilDiv_zero_left {b : ℕ} (hb : 0 < b) : ceilDiv 0 b = 0 := Nat.div_eq_of_lt (by omega)

theorem ceilDiv_add_self {b : ℕ} (hb : 0 < b) (a : ℕ) : ceilDiv (b + a) b = ceilDiv a b + 1 := by
  rw [ceilDiv, ceilDiv, show b + a + b - 1 = a + b - 1 + b by omega, Nat.add_div_right _ hb]

/-- There is one way to cut a sequence into chunks of `size`, the last one short but not empty. -/
theorem eq_chunksOf {size : ℕ} (hsize : 0 < size) {cs : List (List RealVal)}
    (hcs : ∀ c ∈ cs, c ≠ [] ∧ c.length ≤ size)
    (hfull : ∀ i, i + 1 < cs.length → (cs.getD i []).length = size) :
    chunksOf size (ceilDiv cs.flatten.length size) cs.flatten = cs := by
  induction cs with
  | nil => rw [List.flatten_nil, List.length_nil, ceilDiv_zero_left hsize, chunksOf]
  | cons c cs ih =>
    obtain ⟨hne, hle⟩ := hcs c List.mem_cons_self
    have hrest := ih (fun d hd => hcs d (List.mem_cons_of_mem c hd)) fun i hi => by
      simpa using hfull (i + 1) (by simpa using hi)
    cases cs with
    | nil =>
      rw [List.flatten_cons, List.flatten_nil, List.append_nil, ceilDiv_of_le (List.length_pos_iff.2 hne) hle, chunksOf,
        chunksOf, List.take_of_length_le hle]
    | cons d cs =>
      have hlen : c.length = size := by simpa using hfull 0 (by simp)
      rw [List.flatten_cons, List.length_append, hlen, ceilDiv_add_self hsize, chunksOf, ← hlen, List.take_left,
        List.drop_left, hlen, hrest]

/-! ### The self test (R301) -/

/-- The reset state with notification enabled: the receiver of the self test, whatever the state it runs in. -/
noncomputable def State.listener (c : Cfg) : State := { State.ofCfg c with tr := TrState.fresh 0 true }

theorem listener_inTime {c : Cfg} (hwf : c.wf = true) : (State.listener c).InTime := .of_fresh hwf rfl rfl

theorem listener_roomy (c : Cfg) : (State.listener c).Roomy :=
  .of_fresh rfl rfl (Nat.two_pow_pos 64) fun _ ht0 => absurd ht0 List.not_mem_nil

/-- After a `RESET` any state receives as the fresh one does (R231). -/
theorem softReset_eq_receiving (s : State) : s.softReset = s.receiving (State.listener s.cfg) := by
  have hevt : s.evt ++ (if s.tr.cben then (State.listener s.cfg).evt else []) = s.evt := by
    rw [show (State.listener s.cfg).evt = [] from rfl, ite_self, List.append_nil]
  exact congrArg (fun e => { s.softReset with evt := e }) hevt.symm

/-- The demo frame, pulled up to the cursor. -/
noncomputable def demoSynth (c : Cfg) (b p total cursor : ℕ) : Synth :=
  ⟨frameSyms demoPayload c.deflev b p true, cursor, total, true⟩

/-- The demo frame's samples. -/
noncomputable def demoScratch (c : Cfg) (b p total : ℕ) : List RealVal :=
  pulled c (demoSynth c b p total 0) (List.replicate total (.rat 0)) (.rat 1)

theorem demoScratch_length (c : Cfg) (b p total : ℕ) : (demoScratch c b p total).length = total := by
  rw [demoScratch, pulled_length, List.length_replicate]

/-- The state the self test leaves: the demo frame is fully pulled and the chunks are pushed. -/
noncomputable def State.afterDemo (s : State) (b p total : ℕ) (cs : List (List RealVal)) : State :=
  State.receiving { s with sy := demoSynth s.cfg b p total total } ((State.listener s.cfg).pushEach cs).1

section
variable {c : Cfg} {b p total : ℕ} {cs : List (List RealVal)} (hwf : c.wf = true)
  (hbp : c.eccAt c.deflev = some (b, p))
  (htotal : total = 2 * c.g + (8 + nsym 5 b p true) / 2 * (c.s + c.w))
  (hroom : total + c.g + 4 * (c.w + c.s) < idxLimit) (hflat : cs.flatten = demoScratch c b p total)
  (hcs : ∀ c' ∈ cs, c' ≠ [] ∧ c'.length ≤ c.maxwin)
  (hfull : ∀ i, i + 1 < cs.length → (cs.getD i []).length = c.maxwin)
include hwf hbp htotal hroom hflat hcs hfull

/-- The self test is a frame loaded, pulled whole, and pushed in its chunks after a `RESET`; every command of it
completes. -/
theorem demo_of_room {s : State} (hs : s.cfg = c) : s.demo = .ok (s.afterDemo b p total cs,
    demoPass (s.afterDemo b p total cs) ((State.listener c).pushEach cs).2) := by
  subst hs
  have hload : s.setPayload demoPayload s.cfg.deflev true = .ok ({ s with sy := demoSynth s.cfg b p total 0 }, total) :=
    (setPayload_of_level (payload := demoPayload) (crc := true) hwf hbp (by decide) htotal).1 (by omega)
  have hpull : State.getSamples { s with sy := demoSynth s.cfg b p total 0 } (List.replicate total (.rat 0)) (.rat 1) =
      .ok ({ s with sy := demoSynth s.cfg b p total total }, demoScratch s.cfg b p total) := by
    have hcursor : (demoSynth s.cfg b p total 0).cursor + (List.replicate total (RealVal.rat 0)).length = total := by
      rw [List.length_replicate]
      exact Nat.zero_add total
    rw [getSamples_of_room rfl (by rw [hcursor]; omega), hcursor]
    rfl
  have hchunks : chunksOf s.cfg.maxwin (ceilDiv total s.cfg.maxwin) (demoScratch s.cfg b p total) = cs := by
    have hcut := eq_chunksOf (trgA_pos hwf) hcs hfull
    rwa [hflat, demoScratch_length] at hcut
  have hpush : (State.softReset { s with sy := demoSynth s.cfg b p total total }).pushAll cs false =
      .ok (s.afterDemo b p total cs, ((State.listener s.cfg).pushEach cs).2) := by
    have hzero : (State.listener s.cfg).dm.pushed = 0 := rfl
    rw [softReset_eq_receiving, pushAll_receiving _ (listener_inTime hwf) (listener_roomy s.cfg) rfl, Bool.false_or]
    · rfl
    · rw [hflat, demoScratch_length, hzero, Nat.zero_add]
      exact hroom
  rw [State.demo, hload, res_bind_ok]
  simp only
  rw [hpull, res_bind_ok]
  simp only
  rw [hchunks, hpush, res_bind_ok, res_pure]

theorem execDemo_of_room {s : State} (hs : s.cfg = c) : execDemo s = .next ((s.afterDemo b p total cs).ret
    ⟨[bitSlot (demoPass (s.afterDemo b p total cs) ((State.listener c).pushEach cs).2)], []⟩) :=
  hostOp_ok (by rw [demo_of_room hwf hbp htotal hroom hflat hcs hfull hs]; rfl)

end

/-- What the self test answers (R301). -/
theorem demoPass_iff (s : State) (seen : Bool) :
    demoPass s seen = true ↔ seen = true ∧ s.dm.payload = some demoPayload ∧ s.dm.fixed = 0 := by
  simp [demoPass, and_assoc]

/-- Settles O55: the self test completes in any state as in the fresh one of its configuration, whose pushes have the
room, and its answer is read from the receiver of that one. -/
theorem demoCompletes : Obligations.DemoCompletes := by
  intro s b p total cs hwf hbp htotal hroom hflat hcs hfull
  have hruns : ∀ s' : State, s'.cfg = s.cfg → execDemo s' = .next ((s'.afterDemo b p total cs).ret
      ⟨[bitSlot (demoPass (s'.afterDemo b p total cs) ((State.listener s.cfg).pushEach cs).2)], []⟩) :=
    fun s' => execDemo_of_room hwf hbp htotal hroom hflat hcs hfull
  have hpushed : (s.afterDemo b p total cs).dm.pushed = total := by
    have hcount := pushEach_pushed (State.listener s.cfg) cs
    rw [show cs.flatten.length = total from hflat ▸ demoScratch_length s.cfg b p total] at hcount
    exact hcount.trans (Nat.zero_add total)
  have hreset : s.softReset.pushEach cs = (s.receiving ((State.listener s.cfg).pushEach cs).1,
      ((State.listener s.cfg).pushEach cs).2) := by
    rw [softReset_eq_receiving, pushEach_receiving s rfl]
    rfl
  refine ⟨s.afterDemo b p total cs, _, ((State.listener s.cfg).pushEach cs).2, hruns s rfl,
    (pushEach_frame (State.listener s.cfg) cs).cfg, rfl, rfl, hpushed, rfl, ⟨_, hreset, rfl, rfl, rfl⟩,
    demoPass_iff _ _, fun s' hs' => ⟨s'.afterDemo b p total cs, ?_⟩⟩
  have hsame : (s'.afterDemo b p total cs).dm = (s.afterDemo b p total cs).dm := by
    simp only [State.afterDemo, State.receiving_dm, hs']
  have hanswer : ∀ seen, demoPass (s.afterDemo b p total cs) seen = demoPass (s'.afterDemo b p total cs) seen := by
    intro seen
    rw [demoPass, demoPass, hsame]
  rw [hanswer]
  exact hruns s' hs'

end Sys2Proof.Machine
end
